-- ==== Sys2Proof/Word.lean ====
section
/-! DEFINITION. The words of EDID-CVFM: bytes, bus identifiers, the two opaque tokens, and the answers that
come back from outside the block (00_scope.md R6, R7; 10_state.md R16, R24; 42_frame_marshaller.md R101, R102, R111). -/

namespace Sys2Proof

/-- A byte, 0 to 255 (R6). -/
abbrev Byte := BitVec 8

/-- A bus identifier: BUS_W = 8 bits (R5, decision D34). -/
abbrev BusId := BitVec 8

/-- A raw I/O error code: an opaque token of open width IOERR_W (R16).
DESIGN CHOICE (log 6): a natural number stands for a token of any width; nothing computes with it. Safe. -/
abbrev IoCode := Nat

/-- A backup identifier: an opaque token of open width BKID_W (R24).
DESIGN CHOICE (log 6): a natural number stands for a token of any width; nothing computes with it. Safe. -/
abbrev BackupId := Nat

/-- The three classes of a raw I/O error code (R111). -/
inductive IoClass where
  | permissionDenied
  | notPresent
  | otherError
  deriving DecidableEq, Repr, Inhabited

/-- What the bus oracle answers to a frame: bytes, or an I/O error (R101). A write frame's `Ok` carries no bytes (R102). -/
inductive BusAnswer where
  | ok (bytes : List Byte)
  | ioErr (code : IoCode)
  deriving DecidableEq, Repr, Inhabited

/-- The answer to a write frame: `Ok` or `IoErr(code)` (R102). -/
inductive WriteAnswer where
  | ok
  | ioErr (code : IoCode)
  deriving DecidableEq, Repr, Inhabited

/-- The host's answer to a `BACKUP` request: `Ok(id)` or `Fail` (R121). -/
inductive BackupAnswer where
  | ok (id : BackupId)
  | fail
  deriving DecidableEq, Repr, Inhabited

end Sys2Proof
end

