-- ==== Sys2Proof/Config.lean ====
section
/-! DEFINITION. What is fixed for the block (00_scope.md R5) and the free values: the constants without a body that stand
for whatever the spec leaves open. -/

namespace Sys2Proof.Config

/-! ## The literals of R5. They are the source's and unaudited (U1), so each is one named constant (log 25). -/

/-- Size of one EDID block. -/
def BLOCK_SIZE : Nat := 128
/-- Base-block byte holding the extension count (R85). -/
def EXT_COUNT_OFF : Nat := 126
/-- Checksum byte of every block (R86). -/
def CKSUM_OFF : Nat := 127
/-- The fixed header of the base block (R84). -/
def HEADER_MAGIC : List Byte := [0x00, 0xFF, 0xFF, 0xFF, 0xFF, 0xFF, 0xFF, 0x00]
/-- The four descriptor slots, in ascending order (R87). -/
def DESC_OFFS : List Nat := [54, 72, 90, 108]
/-- Size of a descriptor (R87). -/
def DESC_SIZE : Nat := 18
/-- `findSafeTestByte` returns the descriptor offset plus this (R94). -/
def SAFE_DELTA : Nat := 5
/-- The standard-timing slot pairs, in ascending order (R88). -/
def STD_TIMING_OFFS : List Nat := [38, 40, 42, 44, 46, 48, 50, 52]
/-- Each byte of the unused marker pair `01 01` (R88). -/
def STD_UNUSED : Byte := 0x01
/-- The fixed 7-bit bus address of every frame (R100). -/
def EDID_ADDR7 : BitVec 7 := 0x50
/-- Size of a read chunk (R105). -/
def RD_CHUNK : Nat := 32
/-- The chunk offsets of one block, in the order they are read (R105). -/
def CHUNK_OFFS : List Nat := [0, 32, 64, 96]
/-- Size of a write page (R107). -/
def WR_PAGE : Nat := 16
/-- The settle delay in milliseconds, a lower bound (R110). -/
def SETTLE_MS : Nat := 10
/-- The largest number of blocks of a document (R5). -/
def MAX_BLOCKS : Nat := 256
/-- Capacity of each document buffer (R20, R21). -/
def DOC_CAP : Nat := 32768
/-- Number of registers offsets the 8-bit address register of a device can name (R104). -/
def REG_SPAN : Nat := 256

/-! ## Parameters of the Decoder, outside the block proper (R141; 92_eei_decisions.md section 6). PRESUMED (log 21): the defaults are
general knowledge, not the source's. -/

/-- Tag of a display-name descriptor, by default (G3). -/
def NAME_TAG : Byte := 0xFC
/-- The line-feed byte that ends a display name, by default (G4). -/
def LF : Byte := 0x0A
/-- Tag of a CEA-861 extension block, by default (G5). -/
def CEA_TAG : Byte := 0x02

/-- The bytes of a descriptor that hold one direction of a detailed timing (R141, G6). -/
structure TimingTriple where
  activeLow : Nat
  blankLow : Nat
  shared : Nat
  deriving DecidableEq, Repr

/-- What the source uses without giving a value: tags, byte positions and bit positions (R141, R147). -/
structure FieldParams where
  nameTag : Byte
  lf : Byte
  ceaTag : Byte
  horizontal : TimingTriple
  vertical : TimingTriple
  /-- The base-block bytes of the two maximal sizes (R147, G6). -/
  horizontalCmByte : Nat
  verticalCmByte : Nat
  /-- The byte of the CEA revision, and the byte and the bits of the CEA flags (R153, G5). -/
  ceaRevisionByte : Nat
  ceaFlagsByte : Nat
  underscanBit : Nat
  basicAudioBit : Nat
  ycbcr444Bit : Nat
  ycbcr422Bit : Nat
  /-- The lowest bits of the 3-bit tag and of the 5-bit length in the header of a data block (R154, G6). -/
  tagBit : Nat
  lengthBit : Nat
  deriving DecidableEq, Repr

/-- The values of the table of R141, and of R147. -/
def fieldParams : FieldParams where
  nameTag := NAME_TAG
  lf := LF
  ceaTag := CEA_TAG
  horizontal := { activeLow := 2, blankLow := 3, shared := 4 }
  vertical := { activeLow := 5, blankLow := 6, shared := 7 }
  horizontalCmByte := 21
  verticalCmByte := 22
  ceaRevisionByte := 1
  ceaFlagsByte := 3
  underscanBit := 7
  basicAudioBit := 6
  ycbcr444Bit := 5
  ycbcr422Bit := 4
  tagBit := 5
  lengthBit := 0

/-! ## Platform parameters that the spec leaves open (92_eei_decisions.md section 6), as State.reset has them (log 4). -/

/-- The candidate buses DISCOVER probes, in the platform's order (decision D25). -/
opaque buses : List BusId
/-- The platform's classification of raw I/O error codes, where it lists one (decision D15). -/
opaque classTable : List (IoCode × IoClass)
/-- The class of a code the table does not list, so that `class` is total (decision D15). -/
opaque classDefault : IoClass

/-! ## Free values (logs 2, 3, 7, 8, 9). The argument is a counter held in State. -/

/-- What the bus oracle answers once the input list of answers is used up (R103, U2). -/
opaque freeBusAnswer : Nat → BusAnswer
/-- What the host answers to a backup request once the input list is used up (R121). -/
opaque freeBackupAnswer : Nat → BackupAnswer
/-- A byte of DOC that nothing has written since the given reset (R29, R200, U5). -/
opaque powerOnDoc : (resets : Nat) → (addr : Nat) → Byte
/-- A byte of DEV that nothing has written since the given reset (R29, R200, U5). -/
opaque powerOnDev : (resets : Nat) → (addr : Nat) → Byte
/-- IOERR after the given reset (R29, U5). -/
opaque resetIoerr : Nat → IoCode
/-- BKID after the given reset (R29, U5). -/
opaque resetBkid : Nat → BackupId
/-- The bytes of CHBUF after the given reset (R29, U5). -/
opaque resetChbuf : (resets : Nat) → (i : Nat) → Byte
/-- CHN after the given reset (R29, U5), 0 to 32. -/
opaque resetChn : Nat → Fin 33
/-- The bytes of PGBUF after the given reset (R29, U5). -/
opaque resetPgbuf : (resets : Nat) → (i : Nat) → Byte
/-- The bytes of CHBUF after a command (R27, U6). -/
opaque freeChbuf : (draw : Nat) → (i : Nat) → Byte
/-- CHN after a command (R27, U6), 0 to 32. -/
opaque freeChn : (draw : Nat) → Fin 33
/-- The bytes of PGBUF after a command (R27, U6). -/
opaque freePgbuf : (draw : Nat) → (i : Nat) → Byte

end Sys2Proof.Config
end

