-- ==== Sys2Proof/Syntax.lean ====
section
/-! DEFINITION. The instructions of EDID-CVFM: the nine host commands and the two frame kinds, one constructor per row of
spec/opcode_table.json (30_encoding.md R62, R64). -/

namespace Sys2Proof

/-- Buffer select BSEL: 0 = DOC, 1 = DEV (R60). -/
inductive BufSel where
  | doc
  | dev
  deriving DecidableEq, Repr, Inhabited

/-- One instruction. The address 0x50 of a frame is constant and no operand (R64). -/
inductive Instr where
  /-- Validate the checksum of block `blk` of the selected buffer (R91). -/
  | vcsum (blk : Byte) (bsel : BufSel)
  /-- Recalculate the checksum of block `blk` of the selected buffer (R92). -/
  | rcsum (blk : Byte) (bsel : BufSel)
  /-- Validate the structure of the selected buffer (R93). -/
  | vstruct (bsel : BufSel)
  /-- Find a safe test byte in the selected buffer (R94). -/
  | fsafe (bsel : BufSel)
  /-- Probe the candidate buses (R122). -/
  | discover
  /-- Read the document of the device on `bus` (R123). -/
  | rddoc (bus : BusId)
  /-- Write DOC to the device on `bus` and verify it (R124). -/
  | wrdoc (bus : BusId)
  /-- Find out whether the device on `bus` is writable (R126). -/
  | tstwr (bus : BusId)
  /-- Compare the device on `bus` with DOC (R127). -/
  | cmpdoc (bus : BusId)
  /-- One read frame of `n` bytes at register offset `reg` (R101). -/
  | fRd (bus : BusId) (reg : Byte) (n : Nat)
  /-- One write frame of `data` at register offset `reg` (R102). -/
  | fWr (bus : BusId) (reg : Byte) (data : List Byte)
  deriving DecidableEq, Repr

end Sys2Proof
end

