-- ==== Sys2Proof/WellFormed.lean ====
section
/-! DEFINITION. Which instructions are well formed: the legal lengths of the two frame kinds (30_encoding.md R64). The operands
of a command word fill their fields, so every command is well formed (R60). -/

namespace Sys2Proof

/-- A read frame asks for 1 byte or for a chunk of 32 (R64, R46). -/
def legalReadLength (n : Nat) : Bool := n == 1 || n == Config.RD_CHUNK

/-- A write frame carries 1 byte or a page of 16 (R64, R46). -/
def legalWriteLength (n : Nat) : Bool := n == 1 || n == Config.WR_PAGE

/-- The instruction has operands the spec admits. -/
def Instr.wf : Instr → Bool
  | .vcsum _ _ => true
  | .rcsum _ _ => true
  | .vstruct _ => true
  | .fsafe _ => true
  | .discover => true
  | .rddoc _ => true
  | .wrdoc _ => true
  | .tstwr _ => true
  | .cmpdoc _ => true
  | .fRd _ _ n => legalReadLength n
  | .fWr _ _ data => legalWriteLength data.length

end Sys2Proof
end

