-- ==== Sys2Proof/Decode.lean ====
section
/-! DEFINITION. Decoding and encoding. A command is a 32-bit word written to CMD, decoded by mask and match (30_encoding.md
R60 to R63). A frame is a record of fields (R64), which the spec gives no bit layout at this level; the 20-byte record below
is the model's (log 13). -/

namespace Sys2Proof

/-- What an instruction is stored as: a command word, or the bytes of a frame record. -/
inductive Code where
  | word (w : BitVec 32)
  | record (bytes : List Byte)
  deriving DecidableEq, Repr

/-- Why a word or a record is no instruction (R63, R64). -/
inductive DecodeError where
  /-- The OPC byte is none of the nine opcodes. -/
  | unknownOpcode
  /-- A reserved bit or a field the command does not use is not zero. -/
  | nonZeroField
  /-- The address of a frame record is not 0x50. -/
  | frameAddress
  /-- The record's length byte, its number of bytes, or a byte the frame does not use is not as a frame has it. -/
  | frameShape
  deriving DecidableEq, Repr

/-! ## The fields of a command word (R60) -/

/-- OPC, bits 7:0. -/
def opcField (w : BitVec 32) : Byte := w.extractLsb' 0 8
/-- BSEL, bit 8. -/
def bselField (w : BitVec 32) : BufSel := if w.getLsbD 8 then .dev else .doc
/-- BLK, bits 23:16. -/
def blkField (w : BitVec 32) : Byte := w.extractLsb' 16 8
/-- BUS, bits 31:24. -/
def busField (w : BitVec 32) : BusId := w.extractLsb' 24 8

/-! ## The opcode map (R62) -/

/-- A row of the opcode map: `w` selects the row when `w AND mask = pattern`; `build` reads the operands the row uses. -/
structure OpRow where
  mask : BitVec 32
  pattern : BitVec 32
  build : BitVec 32 → Instr

/-- The nine rows of R62, in the table's order. -/
def opRows : List OpRow :=
  [ ⟨0xFF00FEFF, 0x00000010, fun w => .vcsum (blkField w) (bselField w)⟩,
    ⟨0xFF00FEFF, 0x00000011, fun w => .rcsum (blkField w) (bselField w)⟩,
    ⟨0xFFFFFEFF, 0x00000012, fun w => .vstruct (bselField w)⟩,
    ⟨0xFFFFFEFF, 0x00000013, fun w => .fsafe (bselField w)⟩,
    ⟨0xFFFFFFFF, 0x00000020, fun _ => .discover⟩,
    ⟨0x00FFFFFF, 0x00000021, fun w => .rddoc (busField w)⟩,
    ⟨0x00FFFFFF, 0x00000022, fun w => .wrdoc (busField w)⟩,
    ⟨0x00FFFFFF, 0x00000023, fun w => .tstwr (busField w)⟩,
    ⟨0x00FFFFFF, 0x00000024, fun w => .cmpdoc (busField w)⟩ ]

/-- The row is the one the word selects (R62). -/
def OpRow.selects (r : OpRow) (w : BitVec 32) : Bool := w &&& r.mask == r.pattern

/-- Decode a command word (R62); every word that selects no row is illegal (R63), and is rejected by what is wrong with it. -/
def decodeWord (w : BitVec 32) : Except DecodeError Instr :=
  match opRows.find? (·.selects w) with
  | some r => .ok (r.build w)
  | none =>
    if opRows.any (fun r => opcField r.pattern == opcField w) then .error .nonZeroField
    else .error .unknownOpcode

/-! ## Frame records (R64; the layout is the model's, log 13)

byte 0: addr7 in bits 6:0 and the frame kind in bit 7 (0 = F_RD, 1 = F_WR); byte 1: bus; byte 2: reg; byte 3: 0 for the
one-byte length and 1 for the long one (32 to read, 16 to write); bytes 4 to 19: the data of a write. Bytes a frame does not
use are zero. -/

/-- Number of data bytes of a frame record. -/
def RECORD_DATA : Nat := 16

/-- Number of bytes of a frame record. -/
def RECORD_BYTES : Nat := 20

/-- Byte 0 of a frame record: the kind above the 7-bit address. -/
def recordHead (write : Bool) : Byte := BitVec.ofBool write ++ Config.EDID_ADDR7

/-- Byte 3 of a frame record: false for the one-byte length. -/
def lengthCode (long : Bool) : Byte := if long then 1 else 0

/-- Decode a frame record (R64), rejecting any other bytes by name. -/
def decodeRecord : List Byte → Except DecodeError Instr
  | head :: bus :: reg :: len :: rest =>
    if rest.length ≠ RECORD_DATA then .error .frameShape
    else if len ≠ lengthCode false ∧ len ≠ lengthCode true then .error .frameShape
    else if head = recordHead false then
      if rest.all (· == 0) then .ok (.fRd bus reg (if len = lengthCode true then Config.RD_CHUNK else 1))
      else .error .frameShape
    else if head = recordHead true then
      if len = lengthCode true then .ok (.fWr bus reg rest)
      else if (rest.drop 1).all (· == 0) then .ok (.fWr bus reg (rest.take 1))
      else .error .frameShape
    else .error .frameAddress
  | _ => .error .frameShape

/-- Decode what an instruction is stored as. Total; a rejection names its reason. -/
def decode : Code → Except DecodeError Instr
  | .word w => decodeWord w
  | .record bytes => decodeRecord bytes

/-! ## Encoding (R60, R62, R64) -/

/-- BSEL as a bit. -/
def BufSel.bit : BufSel → BitVec 1
  | .doc => 0
  | .dev => 1

/-- A command word from its fields (R60): BUS, BLK, seven zero bits, BSEL, OPC. -/
def commandWord (bus : BusId) (blk : Byte) (bsel : BufSel) (opc : Byte) : BitVec 32 :=
  bus ++ blk ++ (0 : BitVec 7) ++ bsel.bit ++ opc

/-- A frame record from its fields. -/
def frameRecord (write : Bool) (bus : BusId) (reg : Byte) (long : Bool) (data : List Byte) : List Byte :=
  recordHead write :: bus :: reg :: lengthCode long :: (data ++ List.replicate (RECORD_DATA - data.length) 0)

/-- The code of an instruction (of a well-formed one: a frame of an illegal length has no record). -/
def encode : Instr → Code
  | .vcsum blk bsel => .word (commandWord 0 blk bsel 0x10)
  | .rcsum blk bsel => .word (commandWord 0 blk bsel 0x11)
  | .vstruct bsel => .word (commandWord 0 0 bsel 0x12)
  | .fsafe bsel => .word (commandWord 0 0 bsel 0x13)
  | .discover => .word (commandWord 0 0 .doc 0x20)
  | .rddoc bus => .word (commandWord bus 0 .doc 0x21)
  | .wrdoc bus => .word (commandWord bus 0 .doc 0x22)
  | .tstwr bus => .word (commandWord bus 0 .doc 0x23)
  | .cmpdoc bus => .word (commandWord bus 0 .doc 0x24)
  | .fRd bus reg n => .record (frameRecord false bus reg (n == Config.RD_CHUNK) [])
  | .fWr bus reg data => .record (frameRecord true bus reg (data.length == Config.WR_PAGE) data)

/-! ## Words numbered as spec/opcode_table.json numbers them -/

/-- The low `n` bytes of a number, the least significant first. -/
def bytesOfNat : Nat → Nat → List Byte
  | 0, _ => []
  | n + 1, w => BitVec.ofNat 8 w :: bytesOfNat n (w / 256)

/-- The bits of an opcode-table row are those of a frame row: one byte with the frame address in bits 6:0, as the table has them, or
more bits than a command word has. -/
def isFrameRow (nbits w : Nat) : Bool := (nbits ≤ 8 && w % 128 == Config.EDID_ADDR7.toNat) || 32 < nbits

/-- What the bits `w` of an opcode-table row are stored as; the bits above `nbits` are zero. A command row is the command word, also
where the table gives it 24 bits because its mask leaves BUS, the top byte, free (R62). A frame row is the low byte of its record. -/
def codeOfTable (nbits w : Nat) : Code :=
  if isFrameRow nbits w then .record (bytesOfNat RECORD_BYTES w) else .word (BitVec.ofNat 32 w)

/-- The instruction the decoder reads from the bits of an opcode-table row. -/
def decodeTableWord (nbits w : Nat) : Option Instr :=
  match decode (codeOfTable nbits w) with
  | .ok i => some i
  | .error _ => none

end Sys2Proof
end

