-- ==== Sys2Proof/Machine/State.lean ====
section
/-! DEFINITION. The state of EDID-CVFM as plain data (10_state.md R13 to R29), the events it emits (30_encoding.md R69), the
inputs from outside (60_exceptions.md R190 to R192), the ways a step can stop, and the state after reset (R29, R200). -/

namespace Sys2Proof.Machine

open Sys2Proof

/-! ## Registers of a fixed set of codes -/

/-- STATUS: four one-bit flags (R14). -/
structure Status where
  busy : Bool
  done : Bool
  ok : Bool
  fail : Bool
  deriving DecidableEq, Repr

/-- ERR: the reason or failure of the last command (R15, R170). Codes 11 to 15 are never written (U4) and have no constructor. -/
inductive ErrCode where
  | none
  | accessError
  | sizeError
  | headerError
  | checksumError
  | extensionCountMismatch
  | safeByteNotFound
  | writeVerificationFailed
  | restoreVerificationFailed
  | backupFailed
  | illegalCommand
  deriving DecidableEq, Repr

/-- ACLASS: the class of the last I/O error of the command, or none (R16). -/
inductive AClass where
  | none
  | permissionDenied
  | notPresent
  | otherError
  deriving DecidableEq, Repr

/-- MSG: the message of a command that returns one (R17). -/
inductive Msg where
  | none
  | noSafeByte
  | notWritable
  | writable
  | isMatch
  | sizeMismatch
  | differ
  | restoreFailed
  deriving DecidableEq, Repr

/-- WSTATE: the state machine of the write operation (R22). Code 7 is never written (U4) and has no constructor. -/
inductive WState where
  | idle
  | backedUp
  | writing
  | writtenAll
  | readBack
  | verified
  | verificationFailed
  deriving DecidableEq, Repr

/-! ## Structured registers -/

/-- An entry of DIFF: (offset, deviceByte, fileByte) (R25). -/
structure DiffEntry where
  offset : BitVec 16
  deviceByte : Byte
  fileByte : Byte
  deriving DecidableEq, Repr

/-- An entry of PROBE: (busId, hasEdid) (R26). -/
structure ProbeEntry where
  busId : BusId
  hasEdid : Bool
  deriving DecidableEq, Repr

/-- The contents of a document buffer that something has written: pairs of an offset and its byte, offsets rising (R20, R21,
R40). An offset that is not listed has no value here; reading it draws a free value (log 7). -/
abbrev Memory := List Host.Cell

/-- The form every buffer is kept in: offsets strictly rising and below the capacity. -/
abbrev Memory.wf (m : Memory) : Prop :=
  m.Pairwise (fun x y => x.1 < y.1) ∧ ∀ c ∈ m, c.1 < Config.DOC_CAP

/-! ## Events (R64, R69) -/

/-- A read frame F_RD: bus, 7-bit address, register offset, requested length (R64). -/
structure ReadFrame where
  bus : BusId
  addr7 : BitVec 7
  reg : Byte
  n : Nat
  deriving DecidableEq, Repr

/-- A write frame F_WR: bus, 7-bit address, register offset, data (R64). -/
structure WriteFrame where
  bus : BusId
  addr7 : BitVec 7
  reg : Byte
  data : List Byte
  deriving DecidableEq, Repr

/-- An event of the block (R69). -/
inductive Event where
  /-- A read frame and the oracle's answer. -/
  | rd (f : ReadFrame) (answer : BusAnswer)
  /-- A write frame and the oracle's answer. -/
  | wr (f : WriteFrame) (answer : WriteAnswer)
  /-- A settle delay of at least this many milliseconds (R110); the model has no clock (log 17). -/
  | settle (atLeastMs : Nat)
  /-- A backup request and the host's answer (R121). -/
  | backup (bus : BusId) (bytes : List Byte) (answer : BackupAnswer)
  deriving DecidableEq, Repr

/-- An event with the registers that are meaningful to a host while it is pending: STATUS always, WSTATE, PAGE_I and PAGE_N
as the progress of a running WRDOC (R31) (log 19). -/
structure TraceEntry where
  event : Event
  status : Status
  wstate : WState
  pageI : Nat
  pageN : Nat
  deriving DecidableEq, Repr

/-! ## The outside world as inputs -/

/-- A register or buffer as the host names it (R31). -/
inductive HostReg where
  | cmd | status | err | aclass | ioerr | msg | rval | rvalid | acc | wstate | pageI | pageN | bkid | bkvalid
  | devlen | diffn | proben | doc | dlen | dev | diff | probe | chbuf | chn | pgbuf
  deriving DecidableEq, Repr

/-- A move of the host (R191, R200). -/
inductive HostAction where
  /-- Write CMD (R13). -/
  | writeCmd (w : BitVec 32)
  /-- Write bytes into DOC from an offset on (R20). -/
  | writeDoc (offset : Nat) (bytes : List Byte)
  /-- Write DLEN (R20). -/
  | writeDlen (n : Nat)
  /-- Read a register or buffer (R31). -/
  | read (r : HostReg)
  /-- Wait: let a started command run to its end (R173, polling STATUS.DONE). -/
  | await
  /-- Assert reset (R200). -/
  | reset
  /-- Under a running command, assert reset once that many further events have been emitted (R201). -/
  | resetAfter (events : Nat)
  deriving DecidableEq, Repr

/-- The platform parameters, which no step changes (R202, R203; 92_eei_decisions.md section 6) (log 4). -/
structure Platform where
  /-- HAS_BUS: the block is built with a bus interface (R203). -/
  hasBus : Bool
  /-- BUSES: the candidate buses, in the platform's order (R122). -/
  buses : List BusId
  /-- `class` where the platform lists a code (R111). -/
  classTable : List (IoCode × IoClass)
  /-- `class` of every other code (R111). -/
  classDefault : IoClass
  deriving DecidableEq, Repr

/-! ## The state -/

/-- Everything the spec gives the machine, and the model's own inputs and recorders. -/
structure State where
  /-- CMD: the command word of a started command, not yet run (R13, R29) (log 11). -/
  cmd : Option (BitVec 32)
  /-- STATUS (R14). -/
  status : Status
  /-- ERR (R15). -/
  err : ErrCode
  /-- ACLASS (R16). -/
  aclass : AClass
  /-- IOERR (R16). -/
  ioerr : IoCode
  /-- MSG (R17). -/
  msg : Msg
  /-- RVAL (R18). -/
  rval : BitVec 16
  /-- RVALID (R18). -/
  rvalid : Bool
  /-- ACC, the checksum accumulator (R19). -/
  acc : Byte
  /-- DOC (R20). -/
  doc : Memory
  /-- DLEN (R20). -/
  dlen : Nat
  /-- DEV (R21). -/
  dev : Memory
  /-- DEVLEN (R21). -/
  devlen : Nat
  /-- WSTATE (R22). -/
  wstate : WState
  /-- PAGE_I (R23). -/
  pageI : Nat
  /-- PAGE_N (R23). -/
  pageN : Nat
  /-- BKID (R24). -/
  bkid : BackupId
  /-- BKVALID (R24). -/
  bkvalid : Bool
  /-- DIFF; DIFFN is its length (R25). -/
  diff : List DiffEntry
  /-- PROBE; PROBEN is its length (R26). -/
  probe : List ProbeEntry
  /-- CHBUF, 32 bytes (R27). -/
  chbuf : List Byte
  /-- CHN, 0 to 32 (R27). -/
  chn : Nat
  /-- PGBUF, 16 bytes (R27). -/
  pgbuf : List Byte
  /-- The settle timer: it runs from a write frame on until the settle delay has passed (R50, R110, R182). -/
  settleDue : Bool
  /-- The platform parameters (R202). -/
  platform : Platform
  /-- Input: the bus answers still to come (R103) (log 2). -/
  busIn : List BusAnswer
  /-- Input: the host's backup answers still to come (R121) (log 3). -/
  backupIn : List BackupAnswer
  /-- Input: the host's moves still to come (R191) (log 11). -/
  hostIn : List HostAction
  /-- Input: reset arrives once that many further events have been emitted (R201) (log 12). -/
  resetIn : Option Nat
  /-- A frame record handed to the marshaller by itself (log 13). -/
  frameReq : Option (List Byte)
  /-- The events emitted so far, oldest first (R69) (log 19). -/
  trace : List TraceEntry
  /-- The model's own counter of free values (log 27). -/
  draws : Nat
  /-- The model's own count of resets, so that unspecified values differ from reset to reset (log 27). -/
  resets : Nat
  deriving DecidableEq, Repr

/-- DIFFN, the length of DIFF (R25). -/
def State.diffn (s : State) : Nat := s.diff.length

/-- PROBEN, the length of PROBE (R26). -/
def State.proben (s : State) : Nat := s.probe.length

/-! ## How a step can stop -/

/-- Moves of the host that the spec leaves without a transition (U9) or that address bytes that do not exist. -/
inductive Fault where
  /-- Raised by the host port when the host writes DOC or DLEN while BUSY = 1: a breach of its duty for which the spec gives the
  model no move (R31, R51, R192, U9). Safe: the model stops (log 14). -/
  | hostWroteUnderCommand
  /-- Raised by the host port when the host addresses DOC at or beyond DOC_CAP, or writes a DLEN above DOC_CAP (R20).
  Safe: the model stops. -/
  | beyondDocCapacity
  deriving DecidableEq, Repr

/-- What has no meaning. -/
inductive Refusal where
  /-- Raised by the dispatch for an instruction whose meaning has not been written. Safe: the model stops. -/
  | notModelled (mnemonic : String)
  /-- Raised by the Device Channel commands and the frames when the platform has no bus interface: the commands are then
  not available at all and the spec gives them no meaning (R203, U13). Safe: the model stops. -/
  | noBusInterface
  /-- Raised by F_RD and F_WR on a length that no frame has (R64), and by the step on a frame record that is no legal frame.
  Safe: the model stops. -/
  | illegalFrame
  deriving DecidableEq, Repr

/-! ## Reset (R29, R200) -/

/-- The state after reset number `k`: every value of the table of R29; the settle timer idle (R182); where the table says unspecified,
a free value that depends on `k` (logs 7, 8); the inputs and recorders empty (logs 2, 3, 11, 12, 13, 19); the platform with a bus
interface and the open parameters of Config (logs 4, 5). -/
def State.afterReset (k : Nat) : State where
  cmd := none
  status := { busy := false, done := false, ok := false, fail := false }
  err := .none
  aclass := .none
  ioerr := Config.resetIoerr k
  msg := .none
  rval := 0
  rvalid := false
  acc := 0
  doc := []
  dlen := 0
  dev := []
  devlen := 0
  wstate := .idle
  pageI := 0
  pageN := 0
  bkid := Config.resetBkid k
  bkvalid := false
  diff := []
  probe := []
  chbuf := (List.range 32).map (Config.resetChbuf k)
  chn := (Config.resetChn k).val
  pgbuf := (List.range 16).map (Config.resetPgbuf k)
  settleDue := false
  platform :=
    { hasBus := true, buses := Config.buses, classTable := Config.classTable, classDefault := Config.classDefault }
  busIn := []
  backupIn := []
  hostIn := []
  resetIn := none
  frameReq := none
  trace := []
  draws := 0
  resets := k

/-- The machine right after reset (R29, R200). -/
def State.reset : State := State.afterReset 0

end Sys2Proof.Machine
end

