-- ==== Sys2Proof/Machine/Flags.lean ====
section
/-! DEFINITION. The register codes (10_state.md R15 to R17, R22), the STATUS flags at the start and the end of a command (R30,
60_exceptions.md R175, R176), and the arithmetic of the checksum (41_validator.md R90, R92, R95). -/

namespace Sys2Proof.Machine

open Sys2Proof

/-! ## Codes -/

/-- The four bits of ERR (R15, R170). -/
def errBits : ErrCode → BitVec 4
  | .none => 0
  | .accessError => 1
  | .sizeError => 2
  | .headerError => 3
  | .checksumError => 4
  | .extensionCountMismatch => 5
  | .safeByteNotFound => 6
  | .writeVerificationFailed => 7
  | .restoreVerificationFailed => 8
  | .backupFailed => 9
  | .illegalCommand => 10

/-- The two bits of ACLASS (R16). -/
def aclassBits : AClass → BitVec 2
  | .none => 0
  | .permissionDenied => 1
  | .notPresent => 2
  | .otherError => 3

/-- The three bits of MSG (R17). -/
def msgBits : Msg → BitVec 3
  | .none => 0
  | .noSafeByte => 1
  | .notWritable => 2
  | .writable => 3
  | .isMatch => 4
  | .sizeMismatch => 5
  | .differ => 6
  | .restoreFailed => 7

/-- The three bits of WSTATE (R22). -/
def wstateBits : WState → BitVec 3
  | .idle => 0
  | .backedUp => 1
  | .writing => 2
  | .writtenAll => 3
  | .readBack => 4
  | .verified => 5
  | .verificationFailed => 6

/-- ACLASS for a class of I/O error (R16, R111). -/
def aclassOf : IoClass → AClass
  | .permissionDenied => .permissionDenied
  | .notPresent => .notPresent
  | .otherError => .otherError

/-- `class(code)`: what the platform lists for the code, else its default, so that it is total (R111). -/
def classOf (p : Platform) (code : IoCode) : IoClass :=
  match p.classTable.find? (fun e => e.1 == code) with
  | some e => e.2
  | none => p.classDefault

/-! ## STATUS -/

/-- STATUS while a command runs (R30). -/
def statusStarted : Status := { busy := true, done := false, ok := false, fail := false }

/-- STATUS after an ordinary result (R175). -/
def statusResult (ok : Bool) : Status := { busy := false, done := true, ok := ok, fail := false }

/-- STATUS after a failure (R176). -/
def statusFailed : Status := { busy := false, done := true, ok := false, fail := true }

/-! ## The accumulator -/

/-- The modulo-256 accumulation of a byte sequence from 0, in ascending order (R90). -/
def accOf (S : List Byte) : Byte := S.foldl (fun acc b => acc + b) 0

/-- The checksum byte for an accumulated sum: `(256 - ACC) mod 256` (R92, R95). -/
def checksumByte (acc : Byte) : Byte := BitVec.ofNat 8 ((256 - acc.toNat) % 256)

end Sys2Proof.Machine
end

