-- ==== Sys2Proof/Machine/Ops.lean ====
section
/-! DEFINITION. The named operations over the state: the document buffers (20_memory.md R40, R41), the start of a command (10_state.md
R30), its two ends, ordinary result and failure (60_exceptions.md R175, R176), reset (70_reset_and_hazards.md R200, R201), events
(30_encoding.md R69) and the answers of the outside world. -/

namespace Sys2Proof.Machine

open Sys2Proof

/-! ## Document buffers -/

/-- The byte written last at an offset, if any. -/
def Memory.lookup : Memory → Nat → Option Byte
  | [], _ => none
  | (b, v) :: m, a => if a = b then some v else Memory.lookup m a

/-- One byte: what was written last, else the free value of the offset (R20, R200). -/
def Memory.read (free : Nat → Byte) (m : Memory) (a : Nat) : Byte :=
  match Memory.lookup m a with
  | some v => v
  | none => free a

/-- The bytes `a .. a + n - 1`. -/
def Memory.load (free : Nat → Byte) (m : Memory) (a n : Nat) : List Byte :=
  (List.range' a n).map (Memory.read free m)

/-- A byte sequence as cells from offset `a` on. -/
def Memory.cells : Nat → List Byte → Memory
  | _, [] => []
  | a, v :: bs => (a, v) :: Memory.cells (a + 1) bs

/-- Store a byte sequence from offset `a` on; every other byte stays. Keeps the canonical form. -/
def Memory.store (m : Memory) (a : Nat) (bs : List Byte) : Memory :=
  m.filter (fun c => c.1 < a) ++ Memory.cells a bs ++ m.filter (fun c => a + bs.length ≤ c.1)

/-- One byte of DOC (R20). -/
def docByte (s : State) (a : Nat) : Byte := s.doc.read (Config.powerOnDoc s.resets) a

/-- One byte of DEV (R21). -/
def devByte (s : State) (a : Nat) : Byte := s.dev.read (Config.powerOnDev s.resets) a

/-- The bytes `a .. a + n - 1` of DOC. -/
def loadDoc (s : State) (a n : Nat) : List Byte := s.doc.load (Config.powerOnDoc s.resets) a n

/-- The bytes `a .. a + n - 1` of DEV. -/
def loadDev (s : State) (a n : Nat) : List Byte := s.dev.load (Config.powerOnDev s.resets) a n

/-- The document `DOC[0 .. DLEN-1]` (R61). -/
def docBytes (s : State) : List Byte := loadDoc s 0 s.dlen

/-- The document `DEV[0 .. DEVLEN-1]` (R61). -/
def devBytes (s : State) : List Byte := loadDev s 0 s.devlen

/-- Write bytes of DOC. -/
def storeDoc (a : Nat) (bs : List Byte) (s : State) : State := { s with doc := s.doc.store a bs }

/-- Write bytes of DEV. -/
def storeDev (a : Nat) (bs : List Byte) (s : State) : State := { s with dev := s.dev.store a bs }

/-- Empty DEV: DEVLEN <- 0, and no byte of DEV has a value any more (R120, U5) (log 20). -/
def clearDev (s : State) : State := { s with dev := [], devlen := 0 }

/-- Append a block to the document in DEV: `DEV[128*k ..] <- blk; DEVLEN <- 128*(k+1)` (R120). -/
def putDevBlock (k : Nat) (blk : List Byte) (s : State) : State :=
  { s with dev := s.dev.store (Config.BLOCK_SIZE * k) blk, devlen := Config.BLOCK_SIZE * (k + 1) }

/-! ## The start and the end of a command -/

/-- The clears at the start of every command (R30). -/
def startCommand (s : State) : State :=
  { s with
    status := statusStarted, err := .none, aclass := .none, msg := .none, rval := 0, rvalid := false }

/-- The clears of WRDOC itself: `WSTATE <- Idle; PAGE_I <- 0; PAGE_N <- 0; BKVALID <- 0` (R124). -/
def clearWrite (s : State) : State := { s with wstate := .idle, pageI := 0, pageN := 0, bkvalid := false }

/-- What a command clears when it starts, besides R30: WRDOC the write state and BKVALID (R22, R24, R124), TSTWR BKVALID (R24, R126),
CMPDOC DIFF (R25, R127), DISCOVER PROBE (R26, R122). -/
def ownClears (i : Instr) (s : State) : State :=
  match i with
  | .wrdoc _ => clearWrite s
  | .tstwr _ => { s with bkvalid := false }
  | .cmpdoc _ => { s with diff := [] }
  | .discover => { s with probe := [] }
  | .vcsum _ _ => s
  | .rcsum _ _ => s
  | .vstruct _ => s
  | .fsafe _ => s
  | .rddoc _ => s
  | .fRd _ _ _ => s
  | .fWr _ _ _ => s

/-- `result(ok, reason, msg)`: the end of a command as an ordinary result (R175). -/
def result (ok : Bool) (reason : ErrCode) (msg : Msg) (s : State) : State :=
  { s with status := statusResult ok, err := reason, msg := msg }

/-- `raise E`: the end of a command as a failure, the block's one exception entry (R176). Nothing else changes. -/
def raise (e : ErrCode) (s : State) : State :=
  { s with status := statusFailed, err := e }

/-- After a command the staging buffers hold unspecified values (R27, U6): free values (log 9). -/
def forgetStaging (s : State) : State :=
  { s with
    chbuf := (List.range 32).map (Config.freeChbuf s.draws)
    chn := (Config.freeChn s.draws).val
    pgbuf := (List.range 16).map (Config.freePgbuf s.draws)
    draws := s.draws + 1 }

/-- A command: the clears, its own body, and the staging buffers forgotten (R30, R27). -/
def runCommand (body : State → State) (s : State) : State :=
  forgetStaging (body (startCommand s))

/-- A command word that matches no row: the clears, then `raise IllegalCommand` (R63, R183). -/
def illegalCommand (s : State) : State := raise .illegalCommand (startCommand s)

/-! ## Registers written by commands -/

/-- `Acc(S)` into ACC (R90). -/
def accumulate (S : List Byte) (s : State) : State := { s with acc := accOf S }

/-- `RVAL <- v; RVALID <- 1` (R18). -/
def putRval (v : BitVec 16) (s : State) : State := { s with rval := v, rvalid := true }

/-- `IOERR <- code; ACLASS <- class(code)` (R16, R101, R102). -/
def noteIoErr (code : IoCode) (s : State) : State :=
  { s with ioerr := code, aclass := aclassOf (classOf s.platform code) }

/-! ## Reset -/

/-- The reset event (R200, R201): every register of the block takes its reset value; the platform, the inputs still to come, the
trace so far and the model's counters stay. -/
def resetBlock (s : State) : State :=
  { State.afterReset (s.resets + 1) with
    platform := s.platform
    busIn := s.busIn
    backupIn := s.backupIn
    hostIn := s.hostIn
    trace := s.trace
    draws := s.draws }

/-! ## Events and answers -/

/-- What a procedure ends in: it is done, or reset has struck between two events and the command is abandoned (R201). -/
inductive Res (α : Type) where
  | done (a : α) (s : State)
  | abandoned (s : State)

/-- Go on with a procedure that is done. -/
def Res.andThen {α β : Type} (r : Res α) (f : α → State → Res β) : Res β :=
  match r with
  | .done a s => f a s
  | .abandoned s => .abandoned s

/-- The state a command is left in when its last procedure is done or it has been abandoned. -/
def Res.finish {α : Type} (r : Res α) (f : α → State → State) : State :=
  match r with
  | .done a s => f a s
  | .abandoned s => s

/-- Before an event: a reset that is due strikes first (R201) (log 12). -/
def beforeEvent (s : State) : Res Unit :=
  match s.resetIn with
  | some 0 => .abandoned (resetBlock s)
  | some (k + 1) => .done () { s with resetIn := some k }
  | none => .done () s

/-- Append an event to the trace, with the registers meaningful while it is pending (R31, R69). -/
def record (e : Event) (s : State) : State :=
  { s with
    trace := s.trace ++
      [{ event := e, status := s.status, wstate := s.wstate, pageI := s.pageI, pageN := s.pageN }] }

/-- The bus oracle's next answer: the next one of the input list, else a free value (R103) (log 2). -/
def busAnswer (s : State) : BusAnswer :=
  match s.busIn with
  | a :: _ => a
  | [] => Config.freeBusAnswer s.draws

/-- The state once the oracle's next answer has been taken. -/
def takeBusAnswer (s : State) : State :=
  match s.busIn with
  | _ :: rest => { s with busIn := rest }
  | [] => { s with draws := s.draws + 1 }

/-- The host's next answer to a backup request: the next one of the input list, else a free value (R121) (log 3). -/
def backupAnswer (s : State) : BackupAnswer :=
  match s.backupIn with
  | a :: _ => a
  | [] => Config.freeBackupAnswer s.draws

/-- The state once the host's next backup answer has been taken. -/
def takeBackupAnswer (s : State) : State :=
  match s.backupIn with
  | _ :: rest => { s with backupIn := rest }
  | [] => { s with draws := s.draws + 1 }

end Sys2Proof.Machine
end

