-- ==== Sys2Proof/Machine/Operands.lean ====
section
/-! DEFINITION. The operands of the commands: the selected buffer (30_encoding.md R61), the block slice (40_document_model.md R82)
and the parts of a document the commands read (R84, R85). -/

namespace Sys2Proof.Machine

open Sys2Proof

/-- `B`: the selected buffer as a byte sequence (R61). -/
def selected (bsel : BufSel) (s : State) : List Byte :=
  match bsel with
  | .doc => docBytes s
  | .dev => devBytes s

/-- The bytes `a .. a + n - 1` of the selected buffer as storage (`BUF` of 41_validator.md). -/
def loadSelected (bsel : BufSel) (s : State) (a n : Nat) : List Byte :=
  match bsel with
  | .doc => loadDoc s a n
  | .dev => loadDev s a n

/-- `BUF[a] <- v` in the selected buffer. -/
def storeSelected (bsel : BufSel) (a : Nat) (v : Byte) (s : State) : State :=
  match bsel with
  | .doc => storeDoc a [v] s
  | .dev => storeDev a [v] s

/-- `block(B, k)`: the k-th 128-byte slice, shorter or empty at the tail (R82). -/
def block (B : List Byte) (k : Nat) : List Byte :=
  (B.drop (Config.BLOCK_SIZE * k)).take Config.BLOCK_SIZE

/-- `B[i]`, for an index the calling rule has established to be in range (R41). -/
def byteAt (B : List Byte) (i : Nat) : Byte := B.getD i 0

/-- `ext(B) = B[126]`, the extension count (R85). -/
def extCount (B : List Byte) : Nat := (byteAt B Config.EXT_COUNT_OFF).toNat

/-- `B[0..7] = HEADER_MAGIC` (R84). -/
def headerGood (B : List Byte) : Bool := B.take Config.HEADER_MAGIC.length == Config.HEADER_MAGIC

end Sys2Proof.Machine
end

