-- ==== Sys2Proof/Machine/Marshaller.lean ====
section
/-! DEFINITION. The frame marshaller: the two frames and the procedures over them (42_frame_marshaller.md R100 to R111). -/

namespace Sys2Proof.Machine

open Sys2Proof

/-- `RegOff(o) = o mod 256`, the 8-bit register offset of a document offset (R104). -/
def regOff (o : Nat) : Byte := BitVec.ofNat 8 (o % Config.REG_SPAN)

/-- A read frame to the fixed address (R64, R100). -/
def readFrame (bus : BusId) (reg : Byte) (n : Nat) : ReadFrame :=
  { bus := bus, addr7 := Config.EDID_ADDR7, reg := reg, n := n }

/-- A write frame to the fixed address (R64, R100). -/
def writeFrame (bus : BusId) (reg : Byte) (data : List Byte) : WriteFrame :=
  { bus := bus, addr7 := Config.EDID_ADDR7, reg := reg, data := data }

/-- The oracle's answer to a read frame of `n` bytes: never more than `n` bytes (R101, decision D13) (log 10). -/
def readAnswer (n : Nat) (s : State) : BusAnswer :=
  match busAnswer s with
  | .ok bytes => .ok (bytes.take n)
  | .ioErr code => .ioErr code

/-- The oracle's answer to a write frame (R102). -/
def writeAnswer (s : State) : WriteAnswer :=
  match busAnswer s with
  | .ok _ => .ok
  | .ioErr code => .ioErr code

/-- `CHBUF[0 .. len-1] <- bytes; CHN <- len` (R101). -/
def stageChunk (bytes : List Byte) (s : State) : State :=
  { s with chbuf := bytes ++ s.chbuf.drop bytes.length, chn := bytes.length }

/-- What a read frame leaves in the registers, by its answer (R101). -/
def noteReadAnswer (a : BusAnswer) (s : State) : State :=
  match a with
  | .ok bytes => stageChunk bytes s
  | .ioErr code => { noteIoErr code s with chn := 0 }

/-- What a write frame leaves in the registers, by its answer (R102). -/
def noteWriteAnswer (a : WriteAnswer) (s : State) : State :=
  match a with
  | .ok => s
  | .ioErr code => noteIoErr code s

/-- The settle timer runs, or is idle (R182). -/
def setTimer (running : Bool) (s : State) : State := { s with settleDue := running }

/-- `Settle()`: the settle delay of at least SETTLE_MS, as an event; the timer is idle after it (R110, R182). -/
def settle (s : State) : Res Unit :=
  (beforeEvent s).andThen fun _ s => .done () (record (.settle Config.SETTLE_MS) (setTimer false s))

/-- Before a frame the block lets the settle delay of an earlier write frame pass, if it has not passed yet: no frame on any bus
stands between a write frame and its settle delay (R50, R110, R204) (log 29). -/
def awaitSettle (s : State) : Res Unit :=
  if s.settleDue then settle s else .done () s

/-- `BusRead(bus, reg, n)`: one read frame and the oracle's answer (R101). -/
def busRead (bus : BusId) (reg : Byte) (n : Nat) (s : State) : Res BusAnswer :=
  (awaitSettle s).andThen fun _ s =>
    (beforeEvent s).andThen fun _ s =>
      let a := readAnswer n s
      .done a (noteReadAnswer a (record (.rd (readFrame bus reg n) a) (takeBusAnswer s)))

/-- `BusWrite(bus, reg, data)`: one write frame and the oracle's answer (R102); it starts the settle timer (R182). -/
def busWrite (bus : BusId) (reg : Byte) (data : List Byte) (s : State) : Res WriteAnswer :=
  (awaitSettle s).andThen fun _ s =>
    (beforeEvent s).andThen fun _ s =>
      let a := writeAnswer s
      .done a (setTimer true (noteWriteAnswer a (record (.wr (writeFrame bus reg data) a) (takeBusAnswer s))))

/-- What `ReadBlock` answers (R105). -/
inductive BlockAnswer where
  | ok (blk : List Byte)
  | short (len : Nat)
  | ioErr (code : IoCode)
  deriving DecidableEq, Repr

/-- The chunks of a block at the listed offsets, appended to `blk`; an I/O error stops at once, and the length is tested once,
after the last chunk (R105). -/
def readChunks (bus : BusId) (k : Nat) : List Nat → List Byte → State → Res BlockAnswer
  | [], blk, s =>
    if blk.length ≠ Config.BLOCK_SIZE then .done (.short blk.length) s else .done (.ok blk) s
  | c :: cs, blk, s =>
    (busRead bus (regOff (Config.BLOCK_SIZE * k + c)) Config.RD_CHUNK s).andThen fun r s =>
      match r with
      | .ioErr code => .done (.ioErr code) s
      | .ok bytes => readChunks bus k cs (blk ++ bytes) s

/-- `ReadBlock(bus, k)`: one 128-byte block in four 32-byte chunks (R105). -/
def readBlock (bus : BusId) (k : Nat) (s : State) : Res BlockAnswer :=
  readChunks bus k Config.CHUNK_OFFS [] s

/-- `PGBUF <- DOC[16*p .. 16*p + 15]` (R107). -/
def stagePage (p : Nat) (s : State) : State :=
  { s with pgbuf := loadDoc s (Config.WR_PAGE * p) Config.WR_PAGE }

/-- `WritePage(bus, p)`: page p of DOC as one write frame (R107). -/
def writePage (bus : BusId) (p : Nat) (s : State) : Res WriteAnswer :=
  let s := stagePage p s
  busWrite bus (regOff (Config.WR_PAGE * p)) s.pgbuf s

/-! ## The two frames as instructions -/

/-- The state a frame leaves, once it is done or reset has struck before it. -/
def frameState {α : Type} (r : Res α) : State := r.finish fun _ s => s

/-- F_RD: one read frame by itself (R101). A length that no frame has is refused (R64). -/
def execFRd (bus : BusId) (reg : Byte) (n : Nat) (s : State) : Host.Outcome State Fault Refusal :=
  if !s.platform.hasBus then .refused .noBusInterface
  else if legalReadLength n then .next (frameState (busRead bus reg n s))
  else .refused .illegalFrame

/-- F_WR: one write frame by itself (R102). A length that no frame has is refused (R64). Its settle delay passes
before the next frame, whatever emits that (R50) (log 29). -/
def execFWr (bus : BusId) (reg : Byte) (data : List Byte) (s : State) : Host.Outcome State Fault Refusal :=
  if !s.platform.hasBus then .refused .noBusInterface
  else if legalWriteLength data.length then .next (frameState (busWrite bus reg data s))
  else .refused .illegalFrame

end Sys2Proof.Machine
end

