-- ==== Sys2Proof/Machine/Validator.lean ====
section
/-! DEFINITION. The Validator commands VCSUM, RCSUM, VSTRUCT and FSAFE (41_validator.md R91 to R94). None emits an event. -/

namespace Sys2Proof.Machine

open Sys2Proof

/-! ## VCSUM (R91) -/

/-- The body of VCSUM: the sum of a 128-byte block must be 0; any other slice is an ordinary false result. -/
def vcsumBody (blk : Byte) (bsel : BufSel) (s : State) : State :=
  let S := block (selected bsel s) blk.toNat
  if S.length ≠ Config.BLOCK_SIZE then result false .none .none s
  else
    let s := accumulate S s
    result (s.acc == 0) .none .none s

/-- VCSUM: validate the checksum of one block (R91). -/
def execVcsum (blk : Byte) (bsel : BufSel) (s : State) : Host.Outcome State Fault Refusal :=
  .next (runCommand (vcsumBody blk bsel) s)

/-! ## RCSUM (R92) -/

/-- The body of RCSUM: zero byte 127, accumulate bytes 0 to 126, store the complement as byte 127. -/
def rcsumBody (blk : Byte) (bsel : BufSel) (s : State) : State :=
  if (block (selected bsel s) blk.toNat).length ≠ Config.BLOCK_SIZE then raise .sizeError s
  else
    let base := Config.BLOCK_SIZE * blk.toNat
    let s := storeSelected bsel (base + Config.CKSUM_OFF) 0 s
    let s := accumulate (loadSelected bsel s base Config.CKSUM_OFF) s
    let c := checksumByte s.acc
    let s := storeSelected bsel (base + Config.CKSUM_OFF) c s
    result true .none .none (putRval (c.setWidth 16) s)

/-- RCSUM: recalculate the checksum of one block (R92). -/
def execRcsum (blk : Byte) (bsel : BufSel) (s : State) : Host.Outcome State Fault Refusal :=
  .next (runCommand (rcsumBody blk bsel) s)

/-! ## VSTRUCT (R93) -/

/-- Accumulate the listed blocks in order, up to and including the first whose sum is not 0; its index, if there is one. -/
def scanBlocks (B : List Byte) : List Nat → State → Option Nat × State
  | [], s => (none, s)
  | k :: ks, s =>
    let s := accumulate (block B k) s
    if s.acc ≠ 0 then (some k, s) else scanBlocks B ks s

/-- The body of VSTRUCT: size, header, checksums, extension count, in that order; the first that fails decides (R93, R174). -/
def vstructBody (bsel : BufSel) (s : State) : State :=
  let B := selected bsel s
  let n := B.length
  if n < Config.BLOCK_SIZE ∨ n % Config.BLOCK_SIZE ≠ 0 then result false .sizeError .none s
  else if !headerGood B then result false .headerError .none s
  else
    match scanBlocks B (List.range (n / Config.BLOCK_SIZE)) s with
    | (some k, s) => result false .checksumError .none (putRval (BitVec.ofNat 16 k) s)
    | (none, s) =>
      if n ≠ Config.BLOCK_SIZE * (1 + extCount B) then result false .extensionCountMismatch .none s
      else result true .none .none s

/-- VSTRUCT: validate the structure of a document (R93). -/
def execVstruct (bsel : BufSel) (s : State) : Host.Outcome State Fault Refusal :=
  .next (runCommand (vstructBody bsel) s)

/-! ## FSAFE (R94) -/

/-- The descriptor at `d` starts with two zero bytes and its test byte is not the checksum byte (R94). -/
def dummyDescriptorAt (B : List Byte) (d : Nat) : Bool :=
  byteAt B d == 0 && byteAt B (d + 1) == 0 && d + Config.SAFE_DELTA != Config.CKSUM_OFF

/-- The standard-timing pair at `o` is the unused marker `01 01` (R94). -/
def unusedTimingAt (B : List Byte) (o : Nat) : Bool :=
  byteAt B o == Config.STD_UNUSED && byteAt B (o + 1) == Config.STD_UNUSED

/-- `FindSafeTestByte(B)`: an offset, or none (R94). -/
def findSafeTestByte (B : List Byte) : Option Nat :=
  if B.length < Config.BLOCK_SIZE then none
  else
    match Config.DESC_OFFS.find? (dummyDescriptorAt B) with
    | some d => some (d + Config.SAFE_DELTA)
    | none => Config.STD_TIMING_OFFS.find? (unusedTimingAt B)

/-- The body of FSAFE. -/
def fsafeBody (bsel : BufSel) (s : State) : State :=
  match findSafeTestByte (selected bsel s) with
  | some o => result true .none .none (putRval (BitVec.ofNat 16 o) s)
  | none => result false .none .none s

/-- FSAFE: find a safe test byte (R94). -/
def execFsafe (bsel : BufSel) (s : State) : Host.Outcome State Fault Refusal :=
  .next (runCommand (fsafeBody bsel) s)

end Sys2Proof.Machine
end

