-- ==== Sys2Proof/Machine/DeviceChannel.lean ====
section
/-! DEFINITION. The Device Channel commands DISCOVER, RDDOC, WRDOC, TSTWR and CMPDOC, and the two procedures they share
(43_device_channel.md R120 to R127). -/

namespace Sys2Proof.Machine

open Sys2Proof

/-! ## ReadDocument and HostBackup -/

/-- What `ReadDocument` answers (R120). -/
inductive DocAnswer where
  | ok
  | access
  | size
  deriving DecidableEq, Repr

/-- The extension blocks from `k` on, `left` of them, in ascending order (R120). -/
def readExtensions (bus : BusId) : (left : Nat) → (k : Nat) → State → Res DocAnswer
  | 0, _, s => .done .ok s
  | left + 1, k, s =>
    (readBlock bus k s).andThen fun r s =>
      match r with
      | .ioErr _ => .done .access s
      | .short _ => .done .size s
      | .ok blk => readExtensions bus left (k + 1) (putDevBlock k blk s)

/-- `ReadDocument(bus)`: the base block, then as many extension blocks as its byte 126 says, into DEV (R120). -/
def readDocument (bus : BusId) (s : State) : Res DocAnswer :=
  (readBlock bus 0 (clearDev s)).andThen fun r s =>
    match r with
    | .ioErr _ => .done .access s
    | .short _ => .done .size s
    | .ok blk =>
      let s := putDevBlock 0 blk s
      readExtensions bus (devByte s Config.EXT_COUNT_OFF).toNat 1 s

/-- `BKID <- id; BKVALID <- 1` when the host has returned an identifier (R121). -/
def noteBackup (a : BackupAnswer) (s : State) : State :=
  match a with
  | .ok id => { s with bkid := id, bkvalid := true }
  | .fail => s

/-- `HostBackup(bus, bytes)`: ask the host to persist the bytes (R121). -/
def hostBackup (bus : BusId) (bytes : List Byte) (s : State) : Res BackupAnswer :=
  (beforeEvent s).andThen fun _ s =>
    let a := backupAnswer s
    .done a (noteBackup a (record (.backup bus bytes a) (takeBackupAnswer s)))

/-- A Device Channel command exists only on a platform with a bus interface (R203, U13). -/
def withBus (body : State → State) (s : State) : Host.Outcome State Fault Refusal :=
  if s.platform.hasBus then .next (runCommand body s) else .refused .noBusInterface

/-! ## DISCOVER (R122) -/

/-- Append an entry to PROBE. -/
def addProbe (bus : BusId) (has : Bool) (s : State) : State :=
  { s with probe := s.probe ++ [{ busId := bus, hasEdid := has }] }

/-- Probe the listed buses in order: EDID is present exactly when the frame returned the one byte 0x00 (R122). -/
def probeBuses : List BusId → State → Res Unit
  | [], s => .done () s
  | b :: bs, s =>
    (busRead b 0x00 1 s).andThen fun r s => probeBuses bs (addProbe b (r == .ok [0x00]) s)

/-- The body of DISCOVER. -/
def discoverBody (s : State) : State :=
  (probeBuses s.platform.buses { s with probe := [] }).finish fun _ s => result true .none .none s

/-- DISCOVER: probe the candidate buses (R122). -/
def execDiscover (s : State) : Host.Outcome State Fault Refusal := withBus discoverBody s

/-! ## RDDOC (R123) -/

/-- The body of RDDOC. -/
def rddocBody (bus : BusId) (s : State) : State :=
  (readDocument bus s).finish fun r s =>
    match r with
    | .access => raise .accessError s
    | .size => raise .sizeError s
    | .ok => result true .none .none (putRval (BitVec.ofNat 16 (s.devlen / Config.BLOCK_SIZE)) s)

/-- RDDOC: read the device's document into DEV (R123). -/
def execRddoc (bus : BusId) (s : State) : Host.Outcome State Fault Refusal := withBus (rddocBody bus) s

/-! ## WRDOC (R124, R125) -/

/-- WSTATE <- w. -/
def setWstate (w : WState) (s : State) : State := { s with wstate := w }

/-- `WSTATE <- Writing; PAGE_I <- p + 1` (R124). -/
def enterPage (p : Nat) (s : State) : State := { s with wstate := .writing, pageI := p + 1 }

/-- Write the listed pages in order, each followed by the settle delay; an I/O error stops at once, with no settle after it
in this command (R110, R124); the settle timer still runs, so the delay passes before the next frame of a later one (R50) (log 29). -/
def writePages (bus : BusId) : List Nat → State → Res WriteAnswer
  | [], s => .done .ok s
  | p :: ps, s =>
    (writePage bus p (enterPage p s)).andThen fun r s =>
      match r with
      | .ioErr code => .done (.ioErr code) s
      | .ok => (settle s).andThen fun _ s => writePages bus ps s

/-- The verification: re-read the device and compare with DOC (R124). -/
def verifyWrite (bus : BusId) (s : State) : State :=
  (readDocument bus (setWstate .readBack (setWstate .writtenAll s))).finish fun r s =>
    match r with
    | .access => raise .accessError s
    | .size => raise .sizeError s
    | .ok =>
      if s.devlen = s.dlen ∧ devBytes s = docBytes s then
        result true .none .none (setWstate .verified s)
      else raise .writeVerificationFailed (setWstate .verificationFailed s)

/-- The pages and then the verification, once the backup is taken (R124). -/
def writeAndVerify (bus : BusId) (s : State) : State :=
  let n := s.dlen / Config.WR_PAGE
  (writePages bus (List.range n) { setWstate .backedUp s with pageN := n }).finish fun r s =>
    match r with
    | .ioErr _ => raise .accessError s
    | .ok => verifyWrite bus s

/-- The body of WRDOC: size check, backup, pages, verification (R124). -/
def wrdocBody (bus : BusId) (s : State) : State :=
  let s := clearWrite s
  if s.dlen = 0 ∨ s.dlen % Config.BLOCK_SIZE ≠ 0 then raise .sizeError s
  else
    (readDocument bus s).finish fun r s =>
      match r with
      | .access => raise .accessError s
      | .size => raise .sizeError s
      | .ok =>
        (hostBackup bus (devBytes s) s).finish fun b s =>
          match b with
          | .fail => raise .backupFailed s
          | .ok _ => writeAndVerify bus s

/-- WRDOC: write DOC to the device and verify it (R124). -/
def execWrdoc (bus : BusId) (s : State) : Host.Outcome State Fault Refusal := withBus (wrdocBody bus) s

/-! ## TSTWR (R126) -/

/-- Write one byte at `off` and settle, whatever the answer, then read it back (R126). -/
def pokeAndPeek (bus : BusId) (off : Nat) (v : Byte) (s : State) : Res BusAnswer :=
  (busWrite bus (regOff off) [v] s).andThen fun _ s =>
    (settle s).andThen fun _ s => busRead bus (regOff off) 1 s

/-- The probe at offset `off`: flip, read back, restore unconditionally, re-read (R126). -/
def probeByte (bus : BusId) (off : Nat) (s : State) : State :=
  let orig := devByte s off
  let flip := orig ^^^ 0xFF
  (pokeAndPeek bus off flip (putRval (BitVec.ofNat 16 off) s)).finish fun r1 s =>
    let seen := r1 == .ok [flip]
    (pokeAndPeek bus off orig s).finish fun r2 s =>
      if r2 ≠ .ok [orig] then raise .restoreVerificationFailed { s with msg := .restoreFailed }
      else if seen then result true .none .writable s
      else result false .none .notWritable s

/-- The body of TSTWR: back up, read again, find a safe byte, probe it (R126). -/
def tstwrBody (bus : BusId) (s : State) : State :=
  (readDocument bus { s with bkvalid := false }).finish fun r s =>
    match r with
    | .access => raise .accessError s
    | .size => raise .sizeError s
    | .ok =>
      (hostBackup bus (devBytes s) s).finish fun b s =>
        match b with
        | .fail => raise .backupFailed s
        | .ok _ =>
          (readDocument bus s).finish fun r s =>
            match r with
            | .access => raise .accessError s
            | .size => raise .sizeError s
            | .ok =>
              match findSafeTestByte (devBytes s) with
              | none => result false .safeByteNotFound .noSafeByte s
              | some off => probeByte bus off s

/-- TSTWR: find out whether the device is writable (R126). -/
def execTstwr (bus : BusId) (s : State) : Host.Outcome State Fault Refusal := withBus (tstwrBody bus) s

/-! ## CMPDOC (R127) -/

/-- The differences of two byte sequences of one length, in ascending offset order, from offset `o` on (R127). -/
def diffsFrom : Nat → List Byte → List Byte → List DiffEntry
  | o, d :: ds, f :: fs =>
    if d ≠ f then { offset := BitVec.ofNat 16 o, deviceByte := d, fileByte := f } :: diffsFrom (o + 1) ds fs
    else diffsFrom (o + 1) ds fs
  | _, _, _ => []

/-- The body of CMPDOC. -/
def cmpdocBody (bus : BusId) (s : State) : State :=
  (readDocument bus { s with diff := [] }).finish fun r s =>
    match r with
    | .access => raise .accessError s
    | .size => raise .sizeError s
    | .ok =>
      if s.devlen ≠ s.dlen then result false .none .sizeMismatch s
      else
        let s := { s with diff := diffsFrom 0 (devBytes s) (docBytes s) }
        if s.diffn = 0 then result true .none .isMatch s else result false .none .differ s

/-- CMPDOC: compare the device with DOC (R127). -/
def execCmpdoc (bus : BusId) (s : State) : Host.Outcome State Fault Refusal := withBus (cmpdocBody bus) s

end Sys2Proof.Machine
end

