-- ==== Sys2Proof/Machine/Dispatch.lean ====
section
/-! DEFINITION. One arm per instruction (30_encoding.md R62, R64). -/

namespace Sys2Proof.Machine

open Sys2Proof

def exec (i : Instr) (s : State) : Host.Outcome State Fault Refusal :=
  match i with
  | .vcsum blk bsel => Sys2Proof.Machine.execVcsum blk bsel s
  | .rcsum blk bsel => Sys2Proof.Machine.execRcsum blk bsel s
  | .vstruct bsel => Sys2Proof.Machine.execVstruct bsel s
  | .fsafe bsel => Sys2Proof.Machine.execFsafe bsel s
  | .discover => Sys2Proof.Machine.execDiscover s
  | .rddoc bus => Sys2Proof.Machine.execRddoc bus s
  | .wrdoc bus => Sys2Proof.Machine.execWrdoc bus s
  | .tstwr bus => Sys2Proof.Machine.execTstwr bus s
  | .cmpdoc bus => Sys2Proof.Machine.execCmpdoc bus s
  | .fRd bus reg n => Sys2Proof.Machine.execFRd bus reg n s
  | .fWr bus reg data => Sys2Proof.Machine.execFWr bus reg data s

end Sys2Proof.Machine
end

