-- ==== Sys2Proof/Machine/HostPort.lean ====
section
/-! DEFINITION. The host's side: its moves (10_state.md R13, R20, R31; 60_exceptions.md R191; 70_reset_and_hazards.md R200, R201)
and what it may read (R31). -/

namespace Sys2Proof.Machine

open Sys2Proof

/-- A write of CMD. While BUSY = 1 it is ignored (R13). While BUSY = 0 a word that encodes a command starts it: the clears of R30 and
of the command itself, and the word is latched until the step that runs it (log 11); any other word ends at once with
IllegalCommand (R63, R183). DESIGN CHOICE: without a bus interface, where R203 gives a Device Channel command no meaning, its word is
started like any other, and the step that runs it refuses (log 5). -/
def acceptCmd (w : BitVec 32) (s : State) : State :=
  if s.status.busy then s
  else
    match decode (.word w) with
    | .ok i => { ownClears i (startCommand s) with cmd := some w }
    | .error _ => illegalCommand s

/-- A write of DOC: only while BUSY = 0 (R31), only below the capacity (R20). -/
def hostWriteDoc (offset : Nat) (bytes : List Byte) (s : State) : Host.Outcome State Fault Refusal :=
  if s.status.busy then .fault .hostWroteUnderCommand
  else if offset + bytes.length ≤ Config.DOC_CAP then .next (storeDoc offset bytes s)
  else .fault .beyondDocCapacity

/-- A write of DLEN: only while BUSY = 0 (R31), at most the capacity (R20). -/
def hostWriteDlen (n : Nat) (s : State) : Host.Outcome State Fault Refusal :=
  if s.status.busy then .fault .hostWroteUnderCommand
  else if n ≤ Config.DOC_CAP then .next { s with dlen := n }
  else .fault .beyondDocCapacity

/-- One move of the host. A read changes nothing (R191). A reset at once resets the block (R200); under a running command it may
arrive after some further events (R201), and between commands no event is running, so it arrives at once. -/
def hostAct (a : HostAction) (s : State) : Host.Outcome State Fault Refusal :=
  match a with
  | .writeCmd w => .next (acceptCmd w s)
  | .writeDoc offset bytes => hostWriteDoc offset bytes s
  | .writeDlen n => hostWriteDlen n s
  | .read _ => .next s
  | .await => .next s
  | .reset => .next (resetBlock s)
  | .resetAfter k => .next (if s.status.busy then { s with resetIn := some k } else resetBlock s)

/-! ## What the host reads (R31) -/

/-- A value the host reads. -/
inductive HostValue where
  /-- A flag register. -/
  | flags (v : Status)
  /-- A numeric register, or a code. -/
  | num (v : Nat)
  /-- A buffer's valid bytes. -/
  | bytes (v : List Byte)
  | diffs (v : List DiffEntry)
  | probes (v : List ProbeEntry)
  /-- The read is allowed and the value means nothing (R31). -/
  | meaningless
  deriving DecidableEq, Repr

/-- The instruction is WRDOC, the one command whose WSTATE, PAGE_I and PAGE_N are progress (R22, R23, R31). -/
def isWrdoc : Instr → Bool
  | .wrdoc _ => true
  | .vcsum _ _ => false
  | .rcsum _ _ => false
  | .vstruct _ => false
  | .fsafe _ => false
  | .discover => false
  | .rddoc _ => false
  | .tstwr _ => false
  | .cmpdoc _ => false
  | .fRd _ _ _ => false
  | .fWr _ _ _ => false

/-- What the host gets from a read while BUSY = 1, of a command that is WRDOC or not: STATUS; as the progress of a WRDOC also WSTATE,
PAGE_I and PAGE_N; a value without meaning from the other registers; CMD, the buffers and the lists are not to be read (R31). -/
def busyRead (wrdoc : Bool) (status : Status) (wstate : WState) (pageI pageN : Nat) (r : HostReg) : Option HostValue :=
  match r with
  | .status => some (.flags status)
  | .wstate => some (if wrdoc then .num (wstateBits wstate).toNat else .meaningless)
  | .pageI => some (if wrdoc then .num pageI else .meaningless)
  | .pageN => some (if wrdoc then .num pageN else .meaningless)
  | .err | .aclass | .ioerr | .msg | .rval | .rvalid | .acc | .bkid | .bkvalid | .devlen | .diffn | .proben => some .meaningless
  | .cmd | .chbuf | .chn | .pgbuf | .doc | .dlen | .dev | .diff | .probe => none

/-- What the host gets from a read while BUSY = 0 (R31). -/
def idleRead (s : State) (r : HostReg) : Option HostValue :=
  match r with
  | .cmd | .chbuf | .chn | .pgbuf => none
  | .status => some (.flags s.status)
  | .err => some (.num (errBits s.err).toNat)
  | .aclass => some (.num (aclassBits s.aclass).toNat)
  | .ioerr => some (.num s.ioerr)
  | .msg => some (.num (msgBits s.msg).toNat)
  | .rval => some (.num s.rval.toNat)
  | .rvalid => some (.num s.rvalid.toNat)
  | .acc => some (.num s.acc.toNat)
  | .wstate => some (.num (wstateBits s.wstate).toNat)
  | .pageI => some (.num s.pageI)
  | .pageN => some (.num s.pageN)
  | .bkid => some (.num s.bkid)
  | .bkvalid => some (.num s.bkvalid.toNat)
  | .devlen => some (.num s.devlen)
  | .diffn => some (.num s.diffn)
  | .proben => some (.num s.proben)
  | .dlen => some (.num s.dlen)
  | .doc => some (.bytes (docBytes s))
  | .dev => some (.bytes (devBytes s))
  | .diff => some (.diffs s.diff)
  | .probe => some (.probes s.probe)

/-- The started command is WRDOC. -/
def wrdocStarted (s : State) : Bool :=
  match s.cmd with
  | none => false
  | some w =>
    match decode (.word w) with
    | .ok i => isWrdoc i
    | .error _ => false

/-- What the host gets from a read of the block, or none where it has no right to read (R31). -/
def hostRead (r : HostReg) (s : State) : Option HostValue :=
  if s.status.busy then busyRead (wrdocStarted s) s.status s.wstate s.pageI s.pageN r else idleRead s r

/-- What the host gets from a read while an event of the command `i` is pending (R31; the trace keeps the registers, log 19). -/
def hostReadPending (i : Instr) (r : HostReg) (e : TraceEntry) : Option HostValue :=
  busyRead (isWrdoc i) e.status e.wstate e.pageI e.pageN r

/-- What the host may write: CMD at any time (ignored while BUSY = 1), DOC and DLEN while BUSY = 0, nothing else (R31). -/
def hostMayWrite (r : HostReg) (s : State) : Bool :=
  match r with
  | .cmd => true
  | .doc | .dlen => !s.status.busy
  | .status | .err | .aclass | .ioerr | .msg | .rval | .rvalid | .acc | .wstate | .pageI | .pageN | .bkid | .bkvalid
  | .devlen | .diffn | .proben | .dev | .diff | .probe | .chbuf | .chn | .pgbuf => false

end Sys2Proof.Machine
end

