-- ==== Sys2Proof/Machine/Run.lean ====
section
/-! DEFINITION. What happens next: a frame handed to the marshaller by itself, or the command latched in CMD from its start to its end
(10_state.md R12), or the host's next move; and where an instruction stands so that it happens next. -/

namespace Sys2Proof.Machine

open Sys2Proof

/-- Run the command word latched in CMD: the instruction it encodes, or IllegalCommand (R62, R63, R183). A write of CMD latches only
words that encode one; another word comes here only when it has been placed in CMD from outside (log 18). -/
def runWord (w : BitVec 32) (s : State) : Host.Outcome State Fault Refusal :=
  match decode (.word w) with
  | .ok i => exec i s
  | .error _ => .next (illegalCommand s)

/-- Run a frame record; one that is no legal frame is refused, for the block never emits it (R64, R108). -/
def runRecord (r : List Byte) (s : State) : Host.Outcome State Fault Refusal :=
  match decode (.record r) with
  | .ok i => exec i s
  | .error _ => .refused .illegalFrame

/-- What happens next. While a command is latched the host's moves before its next await land under it (logs 11, 12, 14); then the
command runs to its end. With nothing latched and no move of the host to come, the block stays idle (R200) (log 16). -/
def runNext (s : State) : Host.Outcome State Fault Refusal :=
  match s.frameReq with
  | some r => runRecord r { s with frameReq := none }
  | none =>
    match s.cmd, s.hostIn with
    | some w, [] => runWord w { s with cmd := none }
    | some w, .await :: rest => runWord w { s with cmd := none, hostIn := rest }
    | _, a :: rest => hostAct a { s with hostIn := rest }
    | none, [] => .next s

/-- `s` with an instruction where it happens next: a command word in CMD with the host waiting, or a frame record handed to the
marshaller (log 18). -/
def placeNext (c : Code) (s : State) : State :=
  match c with
  | .word w => { s with frameReq := none, cmd := some w, hostIn := .await :: s.hostIn }
  | .record r => { s with frameReq := some r }

end Sys2Proof.Machine
end

