-- ==== Sys2Proof/Machine/Step.lean ====
section
/-! DEFINITION. One step of the machine: one command from its start to its end, one frame, or one move of the host (10_state.md R12). -/

namespace Sys2Proof.Machine

open Sys2Proof

/-- One step (log 1). -/
def step (s : State) : Host.Outcome State Fault Refusal := runNext s

/-- `s` with the instruction that the bits of an opcode-table row stand for where the next step takes it (log 18). -/
def State.withFetchWord (s : State) (nbits w : Nat) : State := placeNext (codeOfTable nbits w) s

end Sys2Proof.Machine
end

