-- ==== Sys2Proof/Machine/Fields.lean ====
section
/-! DEFINITION. Document field extraction and the CEA-861 walk (44_document_fields.md R142 to R154): pure functions of a base block
`B`, a descriptor `T` or an extension block `X`, and of the parameters `p` of R141 where they use one. They are outside the block
proper (R140), and no command uses them (log 21). A case that U14 refuses (a manufacturer group of 0 or 27 to 31, a total of 0, a
name byte above 0x7F, a boundary below 4 or above 127) has no value here: the function answers none. -/

namespace Sys2Proof.Machine

open Sys2Proof

/-- Two bytes as a little-endian number (R143). -/
def little16 (B : List Byte) (i : Nat) : Nat := (byteAt B i).toNat + 256 * (byteAt B (i + 1)).toNat

/-- The letter of a 5-bit group, offset by 64 (R142). Groups 0 and 27 to 31 give no letter, and U14 refuses them. -/
def groupLetter (g : BitVec 5) : Option Char :=
  if 1 ≤ g.toNat ∧ g.toNat ≤ 26 then some (Char.ofNat (64 + g.toNat)) else none

/-- The big-endian word of the manufacturer ID (R142). -/
def manufacturerWord (B : List Byte) : BitVec 16 := byteAt B 8 ++ byteAt B 9

/-- The manufacturer ID: bits 14:10, 9:5 and 4:0 as letters (R142). -/
def manufacturerId (B : List Byte) : Option (List Char) :=
  let w := manufacturerWord B
  [w.extractLsb' 10 5, w.extractLsb' 5 5, w.extractLsb' 0 5].mapM groupLetter

/-- The product code, bytes 10 and 11 (R143). -/
def productCode (B : List Byte) : Nat := little16 B 10

/-- The serial number, bytes 12 to 15 (R143). -/
def serialNumber (B : List Byte) : Nat := little16 B 12 + 65536 * little16 B 14

/-- The manufacture week, byte 16; 0 is unknown (R144). -/
def manufactureWeek (B : List Byte) : Option Nat :=
  if byteAt B 16 = 0 then none else some (byteAt B 16).toNat

/-- The manufacture year, `1990 + byte17` (R144). -/
def manufactureYear (B : List Byte) : Nat := 1990 + (byteAt B 17).toNat

/-- The EDID version, major and minor (R145). -/
def edidVersion (B : List Byte) : Nat × Nat := ((byteAt B 18).toNat, (byteAt B 19).toNat)

/-- Byte 20, bit 7: digital (R146). -/
def isDigital (B : List Byte) : Bool := (byteAt B 20).getLsbD 7

/-- A size in centimetres, 0 being unspecified (R147). -/
def sizeCm (b : Byte) : Option Nat := if b = 0 then none else some b.toNat

/-- The maximal horizontal size (R147). -/
def horizontalCm (p : Config.FieldParams) (B : List Byte) : Option Nat := sizeCm (byteAt B p.horizontalCmByte)

/-- The maximal vertical size (R147). -/
def verticalCm (p : Config.FieldParams) (B : List Byte) : Option Nat := sizeCm (byteAt B p.verticalCmByte)

/-- Gamma, `(byte + 100) / 100` as a rational; 0xFF is undefined (R148, R156). -/
def gamma (B : List Byte) : Option Rat :=
  if byteAt B 23 = 0xFF then none else some (((byteAt B 23).toNat + 100 : Nat) / (100 : Rat))

/-- DPMS support: standby, suspend, active-off (R149). -/
structure Dpms where
  standby : Bool
  suspend : Bool
  activeOff : Bool
  deriving DecidableEq, Repr

/-- Byte 24, bits 7, 6 and 5 (R149). -/
def dpms (B : List Byte) : Dpms :=
  { standby := (byteAt B 24).getLsbD 7, suspend := (byteAt B 24).getLsbD 6, activeOff := (byteAt B 24).getLsbD 5 }

/-! ## Descriptors -/

/-- The three kinds of an 18-byte descriptor (R150). -/
inductive DescriptorKind where
  | timing
  | displayName
  | dummy
  deriving DecidableEq, Repr

/-- The descriptor at `d` of a base block (R87). -/
def descriptorAt (B : List Byte) (d : Nat) : List Byte := (B.drop d).take Config.DESC_SIZE

/-- The kind of a descriptor (R150). -/
def descriptorKind (p : Config.FieldParams) (T : List Byte) : DescriptorKind :=
  if byteAt T 0 = 0 ∧ byteAt T 1 = 0 then
    if byteAt T 3 = p.nameTag then .displayName else .dummy
  else .timing

/-- A detailed timing (R151). -/
structure Timing where
  pixelClockHz : Nat
  hActive : Nat
  hBlank : Nat
  vActive : Nat
  vBlank : Nat
  deriving DecidableEq, Repr

/-- A low byte and the high nibble of a shared byte, kept in place and shifted by 4: 12 bits (R151, C3). -/
def activeSize (low shared : Byte) : Nat := low.toNat + (((shared &&& 0xF0).toNat) <<< 4)

/-- A low byte and the low nibble of a shared byte, shifted by 8: 12 bits (R151). -/
def blankSize (low shared : Byte) : Nat := low.toNat + (((shared &&& 0x0F).toNat) <<< 8)

/-- The detailed timing of a descriptor (R151). -/
def detailedTiming (p : Config.FieldParams) (T : List Byte) : Timing :=
  { pixelClockHz := little16 T 0 * 10000
    hActive := activeSize (byteAt T p.horizontal.activeLow) (byteAt T p.horizontal.shared)
    hBlank := blankSize (byteAt T p.horizontal.blankLow) (byteAt T p.horizontal.shared)
    vActive := activeSize (byteAt T p.vertical.activeLow) (byteAt T p.vertical.shared)
    vBlank := blankSize (byteAt T p.vertical.blankLow) (byteAt T p.vertical.shared) }

/-- Totals are active plus blank (R151). -/
def Timing.hTotal (t : Timing) : Nat := t.hActive + t.hBlank

/-- Totals are active plus blank (R151). -/
def Timing.vTotal (t : Timing) : Nat := t.vActive + t.vBlank

/-- The refresh rate in Hz, a rational; undefined when a total is 0 (R151, R156). -/
def Timing.refresh (t : Timing) : Option Rat :=
  if t.hTotal * t.vTotal = 0 then none else some (t.pixelClockHz / (t.hTotal * t.vTotal : Nat))

/-- A 7-bit ASCII byte as a character; what is done with a byte above 0x7F is not stated (R152, U14). -/
def asciiChar (b : Byte) : Option Char := if b.toNat < 128 then some (Char.ofNat b.toNat) else none

/-- White space cut off at both ends (R152). DESIGN CHOICE (log 30): the spec does not say which characters are white space; here
they are space, tab, carriage return and line feed, and no others. -/
def trimSpace (cs : List Char) : List Char :=
  ((cs.dropWhile (·.isWhitespace)).reverse.dropWhile (·.isWhitespace)).reverse

/-- The display name of a name descriptor: bytes 5 to 17 up to the first line feed, as ASCII, trimmed (R152). -/
def displayNameOf (p : Config.FieldParams) (T : List Byte) : Option (List Char) :=
  ((((T.drop 5).take 13).takeWhile (· ≠ p.lf)).mapM asciiChar).map trimSpace

/-- The display name of a base block: that of its first name descriptor (R152). -/
def displayName (p : Config.FieldParams) (B : List Byte) : Option (List Char) :=
  match (Config.DESC_OFFS.map (descriptorAt B)).find? (fun T => descriptorKind p T == .displayName) with
  | some T => displayNameOf p T
  | none => none

/-! ## CEA-861 extension blocks -/

/-- An extension block whose byte 0 is the CEA tag (R153). -/
def isCea (p : Config.FieldParams) (X : List Byte) : Bool := byteAt X 0 == p.ceaTag

/-- The revision (R153). -/
def ceaRevision (p : Config.FieldParams) (X : List Byte) : Nat := (byteAt X p.ceaRevisionByte).toNat

/-- The descriptor-offset boundary, X[2] (R153). -/
def ceaBoundary (X : List Byte) : Nat := (byteAt X 2).toNat

/-- The feature flags (R153). -/
structure CeaFlags where
  underscan : Bool
  basicAudio : Bool
  ycbcr444 : Bool
  ycbcr422 : Bool
  deriving DecidableEq, Repr

/-- The feature flags of an extension block (R153). -/
def ceaFlags (p : Config.FieldParams) (X : List Byte) : CeaFlags :=
  let b := byteAt X p.ceaFlagsByte
  { underscan := b.getLsbD p.underscanBit, basicAudio := b.getLsbD p.basicAudioBit
    ycbcr444 := b.getLsbD p.ycbcr444Bit, ycbcr422 := b.getLsbD p.ycbcr422Bit }

/-- The class of a data block (R154). -/
inductive DataBlockClass where
  | audio
  | video
  | vendorSpecific
  | speakerAllocation
  | unknown
  deriving DecidableEq, Repr

/-- The class of a 3-bit tag (R154). -/
def dataBlockClass (tag : Nat) : DataBlockClass :=
  match tag with
  | 1 => .audio
  | 2 => .video
  | 3 => .vendorSpecific
  | 4 => .speakerAllocation
  | _ => .unknown

/-- The 5-bit length of the data block whose header byte is `h`, without the header byte (R154). -/
def blockLength (p : Config.FieldParams) (h : Byte) : Nat := (h.extractLsb' p.lengthBit 5).toNat

/-- What the walk reports of the data block whose header byte is `h`: its class and its length (R154). -/
def reportOf (p : Config.FieldParams) (h : Byte) : DataBlockClass × Nat :=
  (dataBlockClass (h.extractLsb' p.tagBit 3).toNat, blockLength p h)

/-- The data-block walk from `pos`, with as much fuel as there are bytes left (R154, decision D38). -/
def walkFrom (p : Config.FieldParams) (X : List Byte) (d : Nat) : (fuel : Nat) → (pos : Nat) → List (DataBlockClass × Nat)
  | 0, _ => []
  | fuel + 1, pos =>
    if pos < d then
      let h := byteAt X pos
      let next := pos + 1 + blockLength p h
      if next > d then [] else reportOf p h :: walkFrom p X d fuel next
    else []

/-- The data blocks between byte 4 and the boundary (R154). A boundary below 4 or above 127 is refused (U14). -/
def dataBlocks (p : Config.FieldParams) (X : List Byte) : Option (List (DataBlockClass × Nat)) :=
  if 4 ≤ ceaBoundary X ∧ ceaBoundary X ≤ 127 then some (walkFrom p X (ceaBoundary X) Config.BLOCK_SIZE 4) else none

end Sys2Proof.Machine
end

