-- ==== Sys2Proof/Machine/Wire.lean ====
section
/-! DEFINITION. The informative spelling of a frame on the wire (30_encoding.md R65). PRESUMED (log 22): the I2C convention, from
general knowledge (G1). The machine itself works at the level of R64 and never uses it. -/

namespace Sys2Proof.Machine

open Sys2Proof

/-- A symbol on the wire, as the controller sees it (R65). -/
inductive WireItem where
  | start
  | repeatedStart
  | stop
  /-- A byte the controller sends and the target acknowledges. -/
  | send (b : Byte)
  /-- A byte the target drives, and whether the controller acknowledges it. -/
  | receive (ack : Bool)
  deriving DecidableEq, Repr

/-- The address byte `addr7 || rw`: rw is 0 to write and 1 to read (R65). -/
def addressByte (addr7 : BitVec 7) (read : Bool) : Byte := addr7 ++ BitVec.ofBool read

/-- F_WR on the wire (R65). -/
def wireWrite (f : WriteFrame) : List WireItem :=
  .start :: .send (addressByte f.addr7 false) :: .send f.reg :: (f.data.map .send ++ [.stop])

/-- The bytes a target drives: the controller acknowledges each but the last (R65). -/
def wireReceive : Nat → List WireItem
  | 0 => []
  | 1 => [.receive false]
  | n + 2 => .receive true :: wireReceive (n + 1)

/-- F_RD on the wire (R65). -/
def wireRead (f : ReadFrame) : List WireItem :=
  .start :: .send (addressByte f.addr7 false) :: .send f.reg :: .repeatedStart ::
    .send (addressByte f.addr7 true) :: (wireReceive f.n ++ [.stop])

end Sys2Proof.Machine
end

