-- ==== Sys2Proof/Safety.lean ====
section
/-! DEFINITION. What counts as a safe run, in the terms the claims use: sums of bytes as numbers, what a device hands over, the events
a command emits, the reference devices of the round-trip properties, and the invariant of the machine. -/

namespace Sys2Proof.Machine

open Sys2Proof

/-! ## Numbers and documents -/

/-- `sum(S)`: the sum of the bytes as a natural number (00_scope.md R7). -/
def byteSum (S : List Byte) : Nat := (S.map BitVec.toNat).sum

/-- A document whose length is what its own byte 126 says (40_document_model.md R83, first invariant). -/
abbrev SelfSized (D : List Byte) : Prop := D.length = 128 * (1 + extCount D)

/-- Chunk `i` of a document: 32 bytes (42_frame_marshaller.md R105). -/
def chunk (D : List Byte) (i : Nat) : List Byte := (D.drop (32 * i)).take 32

/-- Page `p` of a document: 16 bytes (R107). -/
def page (D : List Byte) (p : Nat) : List Byte := (D.drop (16 * p)).take 16

/-- The chunks of a document, in order. -/
def chunksOf (D : List Byte) : List (List Byte) := (List.range (D.length / 32)).map (chunk D)

/-- The answers of a device that hands over a document, chunk by chunk. -/
def handsOver (D : List Byte) : List BusAnswer := (chunksOf D).map .ok

/-- What a read frame of `n` bytes gets from an answer (R101). -/
def cutTo (n : Nat) : BusAnswer → BusAnswer
  | .ok bytes => .ok (bytes.take n)
  | .ioErr code => .ioErr code

/-- What a write frame gets from an answer (R102). -/
def ackOf : BusAnswer → WriteAnswer
  | .ok _ => .ok
  | .ioErr code => .ioErr code

/-- The raw code of an I/O error. -/
def ioCodeOf : BusAnswer → Option IoCode
  | .ok _ => none
  | .ioErr code => some code

/-- The last I/O error among the answers, if there is one. -/
def lastError (as : List BusAnswer) : Option IoCode := (as.filterMap ioCodeOf).getLast?

/-- How reading a document can fail: a frame ends in an I/O error, or the four chunks of a block total other than 128 bytes (R105). -/
inductive ReadFailure where
  | ioErr (code : IoCode)
  | short (chunks : List (List Byte))
  deriving DecidableEq, Repr

/-- The answers in which the failure consists. -/
def ReadFailure.answers : ReadFailure → List BusAnswer
  | .ioErr code => [.ioErr code]
  | .short chunks => chunks.map .ok

/-- The failure the command ends in (R123, R170). -/
def ReadFailure.err : ReadFailure → ErrCode
  | .ioErr _ => .accessError
  | .short _ => .sizeError

/-- The failure can strike after the full chunks `cs`: they are no whole document yet; and a short block starts after whole blocks
(R105, R120). -/
def ReadFailure.After (f : ReadFailure) (cs : List (List Byte)) : Prop :=
  (∀ c ∈ cs, c.length = 32) ∧
  match f with
  | .ioErr _ => 4 ≤ cs.length → cs.length < 4 * (1 + extCount cs.flatten)
  | .short chunks =>
    cs.length % 4 = 0 ∧ (cs ≠ [] → cs.length < 4 * (1 + extCount cs.flatten)) ∧
    chunks.length = 4 ∧ (∀ c ∈ chunks, c.length ≤ 32) ∧ chunks.flatten.length ≠ 128

/-- The offsets at which two documents of one length differ, with both bytes, in ascending order (R127). -/
def differences (dev doc : List Byte) : List DiffEntry :=
  ((List.range doc.length).filter fun o => byteAt dev o ≠ byteAt doc o).map fun o =>
    { offset := BitVec.ofNat 16 o, deviceByte := byteAt dev o, fileByte := byteAt doc o }

/-! ## Events -/

/-- The events emitted so far, without the registers beside them. -/
def eventsOf (s : State) : List Event := s.trace.map (·.event)

/-- The frames that read a whole document: chunk `i` at register offset `32*i mod 256` (R104 to R106). -/
def docReads (bus : BusId) (D : List Byte) : List Event :=
  (List.range (D.length / 32)).map fun i =>
    .rd { bus := bus, addr7 := 0x50, reg := BitVec.ofNat 8 (32 * i), n := 32 } (.ok (chunk D i))

/-- The frames that read a document from chunk `i` on, by their answers (R104 to R106). -/
def readsFrom (bus : BusId) : Nat → List BusAnswer → List Event
  | _, [] => []
  | i, a :: as => .rd { bus := bus, addr7 := 0x50, reg := BitVec.ofNat 8 (32 * i), n := 32 } a :: readsFrom bus (i + 1) as

/-- The events that write the pages `p < n` of a document, each acknowledged and settled (R107, R110, R124). -/
def pageWrites (bus : BusId) (D : List Byte) (n : Nat) : List Event :=
  (List.range n).flatMap fun p =>
    [.wr { bus := bus, addr7 := 0x50, reg := BitVec.ofNat 8 (16 * p), data := page D p } .ok, .settle 10]

/-- The event is a write frame. -/
def Event.isWrite : Event → Bool
  | .wr _ _ => true
  | _ => false

/-- The event is a settle delay of at least 10 ms. -/
def Event.isSettle : Event → Bool
  | .settle ms => 10 ≤ ms
  | _ => false

/-- The event is a backup that the host has taken under the identifier. -/
def Event.isBackup (id : BackupId) : Event → Bool
  | .backup _ _ (.ok i) => i == id
  | _ => false

/-- Every write frame that an event follows is followed by a settle delay (R50, R110). -/
def settled : List Event → Bool
  | e :: f :: es => (!e.isWrite || f.isSettle) && settled (f :: es)
  | _ => true

/-- The settle delay that the block lets pass before its next frame, when an earlier write frame's has not passed yet (R50, R204). -/
def heldSettle (s : State) : List Event := if s.settleDue then [.settle 10] else []

/-- The settle timer after a list of events, from running or idle on: a write frame starts it, a settle delay of at least 10 ms ends
it; none where a frame stands while it runs, which no trace of the block may show (R50, R110, R182, R204). -/
def timerAfter : Bool → List Event → Option Bool
  | running, [] => some running
  | running, .rd _ _ :: es => if running then none else timerAfter false es
  | running, .wr _ _ :: es => if running then none else timerAfter true es
  | running, .settle ms :: es => timerAfter (running && decide (ms < 10)) es
  | running, .backup _ _ _ :: es => timerAfter running es

/-- The register offsets of single-byte frames of TSTWR (R108, R109). -/
def safeOffsets : List Byte := [59, 77, 95, 113, 38, 40, 42, 44, 46, 48, 50, 52]

/-- A chunk read of `ReadBlock` on `bus` (R108, first row). -/
def Event.isChunkRead (bus : BusId) : Event → Bool
  | .rd f _ => f.bus == bus && f.addr7 == 0x50 && f.n == 32 && f.reg.toNat % 32 == 0
  | _ => false

/-- A page write on `bus` (R108, fourth row). -/
def Event.isPageWrite (bus : BusId) : Event → Bool
  | .wr f _ => f.bus == bus && f.addr7 == 0x50 && f.data.length == 16 && f.reg.toNat % 16 == 0
  | _ => false

/-- A single-byte frame of TSTWR on `bus` (R108, third and fifth rows). -/
def Event.isSafeByteFrame (bus : BusId) : Event → Bool
  | .rd f _ => f.bus == bus && f.addr7 == 0x50 && f.n == 1 && safeOffsets.contains f.reg
  | .wr f _ => f.bus == bus && f.addr7 == 0x50 && f.data.length == 1 && safeOffsets.contains f.reg
  | _ => false

/-- The probe of DISCOVER: one byte at register offset 0 (R108, second row). -/
def Event.isProbe : Event → Bool
  | .rd f _ => f.addr7 == 0x50 && f.n == 1 && f.reg == 0
  | _ => false

/-- A backup request for `bus`. -/
def Event.isBackupOf (bus : BusId) : Event → Bool
  | .backup b _ _ => b == bus
  | _ => false

/-- The events a command may emit (R69, R108; 43_device_channel.md R122 to R127). -/
def mayEmit (i : Instr) (e : Event) : Bool :=
  match i with
  | .discover => e.isProbe
  | .rddoc bus => e.isChunkRead bus
  | .cmpdoc bus => e.isChunkRead bus
  | .wrdoc bus => e.isChunkRead bus || e.isPageWrite bus || e.isSettle || e.isBackupOf bus
  | .tstwr bus => e.isChunkRead bus || e.isSafeByteFrame bus || e.isSettle || e.isBackupOf bus
  | .vcsum _ _ => false
  | .rcsum _ _ => false
  | .vstruct _ => false
  | .fsafe _ => false
  | .fRd bus reg n => match e with
    | .rd f _ => f.bus == bus && f.addr7 == 0x50 && f.reg == reg && f.n == n
    | _ => false
  | .fWr bus reg data => match e with
    | .wr f _ => f.bus == bus && f.addr7 == 0x50 && f.reg == reg && f.data == data
    | _ => false

/-! ## The reference devices (95_test_vectors.md section 2.5) -/

/-- The bytes a 256-byte memory answers a read frame with. -/
def memoryRead (M : List Byte) (reg : Byte) (n : Nat) : List Byte :=
  (List.range n).map fun j => byteAt M ((reg.toNat + j) % 256)

/-- A 256-byte memory after a write frame. -/
def memoryWrite (M : List Byte) (reg : Byte) : List Byte → List Byte
  | [] => M
  | v :: data => memoryWrite (M.set reg.toNat v) (reg + 1) data

/-- The events on `bus` are what IdealDev256 answers from memory `M` on; the memory it ends with. Frames on other buses and the
other events do not concern the device. -/
def idealRun (bus : BusId) : List Byte → List Event → Option (List Byte)
  | M, [] => some M
  | M, .rd f a :: es =>
    if f.bus ≠ bus ∨ a = .ok (memoryRead M f.reg f.n) then idealRun bus M es else none
  | M, .wr f a :: es =>
    if f.bus ≠ bus then idealRun bus M es
    else if a = .ok then idealRun bus (memoryWrite M f.reg f.data) es else none
  | M, _ :: es => idealRun bus M es

/-- The events on `bus` are what ReadOnlyDev256 answers with memory `M`: every write is acknowledged and stores nothing. -/
def readOnlyRun (bus : BusId) (M : List Byte) : List Event → Bool
  | [] => true
  | .rd f a :: es => (f.bus != bus || a == .ok (memoryRead M f.reg f.n)) && readOnlyRun bus M es
  | .wr f a :: es => (f.bus != bus || a == .ok) && readOnlyRun bus M es
  | _ :: es => readOnlyRun bus M es

/-! ## Conditions of a command -/

/-- A Device Channel command can run to its end: the platform has its bus interface (R203), and no reset is on its way (R190). -/
abbrev Ready (s : State) : Prop := s.platform.hasBus = true ∧ s.resetIn = none

/-- The instruction is a command word, not a frame. -/
def isCommand : Instr → Bool
  | .fRd _ _ _ => false
  | .fWr _ _ _ => false
  | _ => true

/-- Run instructions one after the other, stopping at the first that does not answer a next state. -/
def runAll : List Instr → State → Host.Outcome State Fault Refusal
  | [], s => .next s
  | i :: is, s =>
    match exec i s with
    | .next t => runAll is t
    | .fault r => .fault r
    | .refused r => .refused r

/-- RCSUM on the blocks 0 to m - 1 of a buffer, then VSTRUCT (R96). -/
def rcsumAllThenVstruct (m : Nat) (bsel : BufSel) : List Instr :=
  (List.range m).map (fun k => .rcsum (BitVec.ofNat 8 k) bsel) ++ [.vstruct bsel]

/-- `t` is `s` but for what the start and the end of any command write (R30, R175, R176), the staging buffers (R27) and the
model's counter of free values. -/
abbrev SameButEnd (s t : State) : Prop :=
  t = { s with
    status := t.status, err := t.err, aclass := t.aclass, msg := t.msg, rval := t.rval, rvalid := t.rvalid
    chbuf := t.chbuf, chn := t.chn, pgbuf := t.pgbuf, draws := t.draws }

/-- `t` is `s` but for what a Device Channel command that only reads the device writes (R120, R123): besides `SameButEnd`, the
document in DEV, IOERR, the settle timer, and the inputs and the trace of its frames. -/
abbrev SameButRead (s t : State) : Prop :=
  t = { s with
    status := t.status, err := t.err, aclass := t.aclass, msg := t.msg, rval := t.rval, rvalid := t.rvalid
    chbuf := t.chbuf, chn := t.chn, pgbuf := t.pgbuf, draws := t.draws
    dev := t.dev, devlen := t.devlen, ioerr := t.ioerr, settleDue := t.settleDue, busIn := t.busIn, trace := t.trace }

/-- `t` is `s` but for what a Device Channel command that takes a backup writes (R124, R126): besides `SameButRead`, BKID, BKVALID
and the host's answer. -/
abbrev SameButBackup (s t : State) : Prop :=
  t = { s with
    status := t.status, err := t.err, aclass := t.aclass, msg := t.msg, rval := t.rval, rvalid := t.rvalid
    chbuf := t.chbuf, chn := t.chn, pgbuf := t.pgbuf, draws := t.draws
    dev := t.dev, devlen := t.devlen, ioerr := t.ioerr, settleDue := t.settleDue, busIn := t.busIn, trace := t.trace
    bkid := t.bkid, bkvalid := t.bkvalid, backupIn := t.backupIn }

/-- `t` is `s` but for what WRDOC writes (R124): besides `SameButBackup`, WSTATE, PAGE_I and PAGE_N. -/
abbrev SameButWrite (s t : State) : Prop :=
  t = { s with
    status := t.status, err := t.err, aclass := t.aclass, msg := t.msg, rval := t.rval, rvalid := t.rvalid
    chbuf := t.chbuf, chn := t.chn, pgbuf := t.pgbuf, draws := t.draws
    dev := t.dev, devlen := t.devlen, ioerr := t.ioerr, settleDue := t.settleDue, busIn := t.busIn, trace := t.trace
    bkid := t.bkid, bkvalid := t.bkvalid, backupIn := t.backupIn
    wstate := t.wstate, pageI := t.pageI, pageN := t.pageN }

/-- The registers and lists that the table of R29 gives a value have it, and the settle timer is idle (R182). -/
def AtResetValues (t : State) : Prop :=
  t.cmd = none ∧ t.status = { busy := false, done := false, ok := false, fail := false } ∧ t.err = .none ∧
  t.aclass = .none ∧ t.msg = .none ∧ t.rval = 0 ∧ t.rvalid = false ∧ t.acc = 0 ∧ t.dlen = 0 ∧ t.devlen = 0 ∧
  t.wstate = .idle ∧ t.pageI = 0 ∧ t.pageN = 0 ∧ t.bkvalid = false ∧ t.diff = [] ∧ t.probe = [] ∧
  t.settleDue = false

/-- The outcome is a next state. -/
def Completes (r : Host.Outcome State Fault Refusal) : Prop := ∃ t, r = .next t

/-- The way a command has ended: BUSY = 0, DONE = 1 and OK, FAIL, ERR, MSG as given. -/
def endsWith (t : State) (ok fail : Bool) (err : ErrCode) (msg : Msg) : Prop :=
  t.status = { busy := false, done := true, ok := ok, fail := fail } ∧ t.err = err ∧ t.msg = msg

/-- IOERR and ACLASS hold the last I/O error among the answers of the command's frames; without one ACLASS is 0 and IOERR is as
before (R16, R30, R101, R102, R172). -/
def errorNoted (s t : State) (as : List BusAnswer) : Prop :=
  match lastError as with
  | some c => t.ioerr = c ∧ t.aclass = aclassOf (classOf s.platform c)
  | none => t.ioerr = s.ioerr ∧ t.aclass = .none

/-- The way a command ends when reading a document has failed after the chunks `cs`: by its failure, with the blocks completed before
it in DEV and no value returned (R21, R123, R176). -/
def endsInFailedRead (s t : State) (cs : List (List Byte)) (f : ReadFailure) : Prop :=
  endsWith t false true f.err .none ∧ errorNoted s t f.answers ∧ t.rvalid = false ∧ t.rval = 0 ∧
  t.devlen = 128 * (cs.length / 4) ∧ devBytes t = cs.flatten.take (128 * (cs.length / 4))

/-- The outcomes the table of R171 gives a command: (OK, FAIL, ERR, MSG). -/
def outcomes : Instr → List (Bool × Bool × ErrCode × Msg)
  | .vcsum _ _ => [(true, false, .none, .none), (false, false, .none, .none)]
  | .rcsum _ _ => [(true, false, .none, .none), (false, true, .sizeError, .none)]
  | .vstruct _ =>
    [(true, false, .none, .none), (false, false, .sizeError, .none), (false, false, .headerError, .none),
     (false, false, .checksumError, .none), (false, false, .extensionCountMismatch, .none)]
  | .fsafe _ => [(true, false, .none, .none), (false, false, .none, .none)]
  | .discover => [(true, false, .none, .none)]
  | .rddoc _ => [(true, false, .none, .none), (false, true, .accessError, .none), (false, true, .sizeError, .none)]
  | .wrdoc _ =>
    [(true, false, .none, .none), (false, true, .sizeError, .none), (false, true, .accessError, .none),
     (false, true, .backupFailed, .none), (false, true, .writeVerificationFailed, .none)]
  | .tstwr _ =>
    [(true, false, .none, .writable), (false, false, .safeByteNotFound, .noSafeByte),
     (false, false, .none, .notWritable), (false, true, .accessError, .none), (false, true, .sizeError, .none),
     (false, true, .backupFailed, .none), (false, true, .restoreVerificationFailed, .restoreFailed)]
  | .cmpdoc _ =>
    [(true, false, .none, .isMatch), (false, false, .none, .sizeMismatch), (false, false, .none, .differ),
     (false, true, .accessError, .none), (false, true, .sizeError, .none)]
  | .fRd _ _ _ => []
  | .fWr _ _ _ => []

/-! ## The invariant -/

/-- What holds at reset and after every step: the buffers keep their canonical form; the lengths and page numbers stay in their
ranges (R20, R21, R23, R25); DEV lists exactly its valid bytes; BUSY says that a command is latched (R13); BUSY and DONE, and OK and
FAIL, never hold together, and neither OK nor FAIL nor a reason stands without DONE (R14, R15); RVAL is 0 while RVALID is (R18, R30);
the staging buffers keep their sizes (R27); and every frame in the trace is a legal one to the fixed address (R64, R100). -/
structure Inv (s : State) : Prop where
  docForm : s.doc.wf
  devForm : s.dev.wf
  dlenRange : s.dlen ≤ 32768
  devlenRange : s.devlen ≤ 32768 ∧ s.devlen % 128 = 0
  devListed : s.dev.map (·.1) = List.range s.devlen
  pages : s.pageI ≤ s.pageN ∧ s.pageN ≤ 2048
  diffRange : s.diff.length ≤ 32768
  latched : s.status.busy = true → s.cmd.isSome = true
  busyNotDone : ¬ (s.status.busy = true ∧ s.status.done = true)
  okNotFail : ¬ (s.status.ok = true ∧ s.status.fail = true)
  onlyWhenDone : s.status.done = false → s.status.ok = false ∧ s.status.fail = false ∧ s.err = .none
  okHasNoReason : s.status.ok = true → s.err = .none
  rvalCleared : s.rvalid = false → s.rval = 0
  staging : s.chbuf.length = 32 ∧ s.chn ≤ 32 ∧ s.pgbuf.length = 16
  frames : ∀ e ∈ eventsOf s,
    match e with
    | .rd f a => f.addr7 = 0x50 ∧ (f.n = 1 ∨ f.n = 32) ∧ ∀ bytes, a = .ok bytes → bytes.length ≤ f.n
    | .wr f _ => f.addr7 = 0x50 ∧ (f.data.length = 1 ∨ f.data.length = 16)
    | .settle ms => 10 ≤ ms
    | .backup _ bytes _ => bytes.length % 128 = 0

end Sys2Proof.Machine
end

