-- ==== Sys2Proof/Certificates/Slice0/Obligations.lean ====
section
/-! DEFINITION. What is claimed of the machine, for the provers. -/

open Sys2Proof Sys2Proof.Machine

/-! ## Encoding -/

/-- Decoding the code of a well-formed instruction gives it back, every operand at every value (R60, R62, R64; the layout of a frame
record is the model's, log 13). -/
def Obligations.DecodeEncodeRoundTrip : Prop :=
  ∀ i : Instr, i.wf = true → decode (encode i) = .ok i

/-- What decodes is the code of what it decodes to, and that is well formed: every legal word or record has one meaning, with no
non-zero reserved bit or unused field (R60, R63; the record's layout is the model's, log 13). -/
def Obligations.EncodeDecodeGivesTheCodeBack : Prop :=
  ∀ (c : Code) (i : Instr), decode c = .ok i → encode i = c ∧ i.wf = true

/-- R62: a word selects the row for which `w AND mask = match`, no two rows select the same word, and a word that selects no row is
no command (R63). -/
def Obligations.EveryWordSelectsAtMostOneRow : Prop :=
  (∀ r ∈ opRows, ∀ w : BitVec 32, w &&& r.mask = r.pattern → decode (.word w) = .ok (r.build w)) ∧
  (∀ r ∈ opRows, ∀ q ∈ opRows, ∀ w : BitVec 32,
    w &&& r.mask = r.pattern → w &&& q.mask = q.pattern → r.pattern = q.pattern) ∧
  ∀ w : BitVec 32, (∀ r ∈ opRows, w &&& r.mask ≠ r.pattern) → ∃ e, decode (.word w) = .error e

/-- The encoding vectors of 95_test_vectors.md section 4, all 23 of them. -/
def Obligations.SampleWordsDecode : Prop :=
  decode (.word 0x00000010) = .ok (.vcsum 0 .doc) ∧ decode (.word 0x00FF0010) = .ok (.vcsum 255 .doc) ∧
  decode (.word 0x00010110) = .ok (.vcsum 1 .dev) ∧ decode (.word 0x00010011) = .ok (.rcsum 1 .doc) ∧
  decode (.word 0x00000112) = .ok (.vstruct .dev) ∧ decode (.word 0x00000113) = .ok (.fsafe .dev) ∧
  decode (.word 0x00000020) = .ok .discover ∧ decode (.word 0x00000021) = .ok (.rddoc 0) ∧
  decode (.word 0xFF000021) = .ok (.rddoc 255) ∧ decode (.word 0x01000022) = .ok (.wrdoc 1) ∧
  decode (.word 0x02000023) = .ok (.tstwr 2) ∧ decode (.word 0x01000024) = .ok (.cmpdoc 1) ∧
  decode (.word 0x00000000) = .error .unknownOpcode ∧ decode (.word 0x00000014) = .error .unknownOpcode ∧
  decode (.word 0x00000025) = .error .unknownOpcode ∧ decode (.word 0x000000FF) = .error .unknownOpcode ∧
  decode (.word 0x00000210) = .error .nonZeroField ∧ decode (.word 0x00008010) = .error .nonZeroField ∧
  decode (.word 0x01000010) = .error .nonZeroField ∧ decode (.word 0x00010012) = .error .nonZeroField ∧
  decode (.word 0x00000120) = .error .nonZeroField ∧ decode (.word 0x01000121) = .error .nonZeroField ∧
  decode (.word 0x01010022) = .error .nonZeroField

/-! ## The step and the host port -/

/-- A step runs the decoded command: with a word latched in CMD and the host waiting or silent, the step is `exec` of the instruction
on the state with the latch (and the wait) taken (R12, R13; the latch and the host's list of moves are the model's, log 11). -/
def Obligations.StepRunsTheLatchedCommand : Prop :=
  ∀ (s : State) (w : BitVec 32) (i : Instr) (rest : List HostAction),
    s.frameReq = none → s.cmd = some w → decode (.word w) = .ok i →
    (s.hostIn = [] → step s = exec i { s with cmd := none }) ∧
    (s.hostIn = .await :: rest → step s = exec i { s with cmd := none, hostIn := rest })

/-- A step runs a frame handed to the marshaller by itself (the latch is the model's, log 13). -/
def Obligations.StepRunsTheHandedFrame : Prop :=
  ∀ (s : State) (r : List Byte) (i : Instr),
    s.frameReq = some r → decode (.record r) = .ok i → step s = exec i { s with frameReq := none }

/-- With nothing latched the step is the host's next move, or the block stays idle; a started command lets the host's moves before
its wait land first (log 11, 16). -/
def Obligations.StepTakesTheHostsMove : Prop :=
  ∀ (s : State) (a : HostAction) (rest : List HostAction), s.frameReq = none →
    (s.hostIn = a :: rest → (s.cmd = none ∨ a ≠ .await) → step s = hostAct a { s with hostIn := rest }) ∧
    (s.hostIn = [] → s.cmd = none → step s = .next s)

/-- R13, R30: a write of CMD while BUSY = 1 changes nothing; while BUSY = 0 a word that encodes a command starts it: BUSY is set, the
registers of R30 are cleared, and so are those the command itself clears when it starts (R22 to R26). Nothing else changes but the
latch, which is the model's (log 11). That a Device Channel word starts without a bus interface too, where R203 gives it no meaning, is the
model's choice (log 5). A word that encodes none: IllegalWordRaisesIllegalCommand. -/
def Obligations.CmdWriteStartsOrIsIgnored : Prop :=
  ∀ (w : BitVec 32) (s : State),
    (s.status.busy = true → hostAct (.writeCmd w) s = .next s) ∧
    ∀ (i : Instr) (started : State), s.status.busy = false → decode (.word w) = .ok i →
      started = { s with
        cmd := some w, status := { busy := true, done := false, ok := false, fail := false }, err := .none
        aclass := .none, msg := .none, rval := 0, rvalid := false } →
      ((∃ bus, i = .wrdoc bus) → hostAct (.writeCmd w) s =
        .next { started with wstate := .idle, pageI := 0, pageN := 0, bkvalid := false }) ∧
      ((∃ bus, i = .tstwr bus) → hostAct (.writeCmd w) s = .next { started with bkvalid := false }) ∧
      ((∃ bus, i = .cmpdoc bus) → hostAct (.writeCmd w) s = .next { started with diff := [] }) ∧
      (i = .discover → hostAct (.writeCmd w) s = .next { started with probe := [] }) ∧
      ((∃ bus, i = .rddoc bus) ∨ (∃ k b, i = .vcsum k b ∨ i = .rcsum k b) ∨ (∃ b, i = .vstruct b ∨ i = .fsafe b) →
        hostAct (.writeCmd w) s = .next started)

/-- R191: no liberty of the host changes a running command. A CMD write or a register read while the command is latched leaves the
state of the block as it is. -/
def Obligations.HostLibertiesDoNotDisturbACommand : Prop :=
  ∀ (s : State) (w : BitVec 32) (a : HostAction) (rest : List HostAction),
    s.frameReq = none → s.cmd = some w → s.status.busy = true → s.hostIn = a :: rest →
    ((∃ v, a = .writeCmd v) ∨ ∃ r, a = .read r) → step s = .next { s with hostIn := rest }

/-- R183: a write of CMD while BUSY = 0 with a word that matches no row performs the clears and raises IllegalCommand, at once: FAIL = 1,
ERR = 10, DONE = 1, and nothing else changes. (The move is taken from the host's list, which is the model's, log 11.) -/
def Obligations.IllegalWordRaisesIllegalCommand : Prop :=
  ∀ (s : State) (w : BitVec 32) (rest : List HostAction),
    s.frameReq = none → s.status.busy = false → s.hostIn = .writeCmd w :: rest →
    (∀ r ∈ opRows, w &&& r.mask ≠ r.pattern) →
    errBits .illegalCommand = 10 ∧
    step s = .next { s with
      hostIn := rest, status := { busy := false, done := true, ok := false, fail := true }, err := .illegalCommand
      aclass := .none, msg := .none, rval := 0, rvalid := false }

/-- R20, R31: the host writes DOC and DLEN while BUSY = 0, within the capacity; the written bytes are read back and no other byte
changes. The two faults are the model's (logs 14, 15). -/
def Obligations.HostWritesOfDoc : Prop :=
  ∀ (s : State) (o : Nat) (bs : List Byte) (n : Nat),
    (s.status.busy = true →
      hostAct (.writeDoc o bs) s = .fault .hostWroteUnderCommand ∧
      hostAct (.writeDlen n) s = .fault .hostWroteUnderCommand) ∧
    (s.status.busy = false → o + bs.length ≤ 32768 →
      ∃ t, hostAct (.writeDoc o bs) s = .next t ∧ t = { s with doc := t.doc } ∧
        (∀ j, j < bs.length → docByte t (o + j) = byteAt bs j) ∧
        ∀ a, a < o ∨ o + bs.length ≤ a → docByte t a = docByte s a) ∧
    (s.status.busy = false → 32768 < o + bs.length → hostAct (.writeDoc o bs) s = .fault .beyondDocCapacity) ∧
    (s.status.busy = false → n ≤ 32768 → hostAct (.writeDlen n) s = .next { s with dlen := n }) ∧
    (s.status.busy = false → 32768 < n → hostAct (.writeDlen n) s = .fault .beyondDocCapacity)

/-- R31: what the host may read and write (what it gets: HostReadsTheRegisters). CMD and the staging buffers are never read; DOC, DLEN,
DEV, DIFF and PROBE only while BUSY = 0; STATUS at any time; CMD is written at any time, DOC and DLEN while BUSY = 0, nothing else
ever. -/
def Obligations.HostAccessRights : Prop :=
  ∀ (s : State) (r : HostReg),
    (r ∈ [HostReg.cmd, .chbuf, .chn, .pgbuf] → hostRead r s = none) ∧
    (r ∈ [HostReg.doc, .dlen, .dev, .diff, .probe] → (hostRead r s = none ↔ s.status.busy = true)) ∧
    (r ∉ [HostReg.cmd, .chbuf, .chn, .pgbuf, .doc, .dlen, .dev, .diff, .probe] → hostRead r s ≠ none) ∧
    hostRead .status s = some (.flags s.status) ∧
    (hostMayWrite r s = true ↔ r = .cmd ∨ ((r = .doc ∨ r = .dlen) ∧ s.status.busy = false)) ∧
    hostAct (.read r) s = .next s

/-- R31 with the codes of R15, R16, R17, R22 and R170: what the host gets from each register while BUSY = 0; and while a WRDOC runs,
started (BUSY = 1) or with an event pending, WSTATE, PAGE_I and PAGE_N as its progress, STATUS at any time. -/
def Obligations.HostReadsTheRegisters : Prop :=
  ∀ s : State,
    (s.status.busy = false →
      (∀ c ∈ [(ErrCode.none, 0), (.accessError, 1), (.sizeError, 2), (.headerError, 3), (.checksumError, 4),
          (.extensionCountMismatch, 5), (.safeByteNotFound, 6), (.writeVerificationFailed, 7),
          (.restoreVerificationFailed, 8), (.backupFailed, 9), (.illegalCommand, 10)],
        s.err = c.1 → hostRead .err s = some (.num c.2)) ∧
      (∀ c ∈ [(AClass.none, 0), (.permissionDenied, 1), (.notPresent, 2), (.otherError, 3)],
        s.aclass = c.1 → hostRead .aclass s = some (.num c.2)) ∧
      (∀ c ∈ [(Msg.none, 0), (.noSafeByte, 1), (.notWritable, 2), (.writable, 3), (.isMatch, 4), (.sizeMismatch, 5),
          (.differ, 6), (.restoreFailed, 7)],
        s.msg = c.1 → hostRead .msg s = some (.num c.2)) ∧
      hostRead .ioerr s = some (.num s.ioerr) ∧ hostRead .rval s = some (.num s.rval.toNat) ∧
      hostRead .rvalid s = some (.num (if s.rvalid then 1 else 0)) ∧ hostRead .acc s = some (.num s.acc.toNat) ∧
      hostRead .bkid s = some (.num s.bkid) ∧ hostRead .bkvalid s = some (.num (if s.bkvalid then 1 else 0)) ∧
      hostRead .devlen s = some (.num s.devlen) ∧ hostRead .diffn s = some (.num s.diff.length) ∧
      hostRead .proben s = some (.num s.probe.length) ∧ hostRead .dlen s = some (.num s.dlen) ∧
      hostRead .doc s = some (.bytes (docBytes s)) ∧ hostRead .dev s = some (.bytes (devBytes s)) ∧
      hostRead .diff s = some (.diffs s.diff) ∧ hostRead .probe s = some (.probes s.probe)) ∧
    (s.status.busy = false ∨ (∃ w bus, s.cmd = some w ∧ decode (.word w) = .ok (.wrdoc bus)) →
      (∀ c ∈ [(WState.idle, 0), (.backedUp, 1), (.writing, 2), (.writtenAll, 3), (.readBack, 4), (.verified, 5),
          (.verificationFailed, 6)],
        s.wstate = c.1 → hostRead .wstate s = some (.num c.2)) ∧
      hostRead .pageI s = some (.num s.pageI) ∧ hostRead .pageN s = some (.num s.pageN)) ∧
    ∀ (i : Instr) (e : TraceEntry), hostReadPending i .status e = some (.flags e.status)

/-! ## Reset -/

/-- R29, R182: the machine after reset has every value the table gives, and the settle timer is idle. -/
def Obligations.ResetStateHasTheTablesValues : Prop := AtResetValues State.reset

/-- R200, R201: the reset event gives every register of the table of R29 its value from any state, and leaves alone the platform,
what has happened on the buses, and the answers still to come. -/
def Obligations.ResetEventFromAnyState : Prop :=
  ∀ s : State, ∃ t, hostAct .reset s = .next t ∧ AtResetValues t ∧ t.platform = s.platform ∧ t.trace = s.trace ∧
    t.busIn = s.busIn ∧ t.backupIn = s.backupIn

/-- R201: a reset while a command is running abandons it where it stands. With reset due after `k` more events, a command either ends
with at most `k` events and the reset still due, or it emits exactly `k` and the block is at its reset values (that resets are
counted in events is the model's, log 12). -/
def Obligations.ResetAbandonsARunningCommand : Prop :=
  ∀ (i : Instr) (s t : State) (k : Nat), isCommand i = true → s.resetIn = some k → exec i s = .next t →
    ∃ es, t.trace = s.trace ++ es ∧ es.length ≤ k ∧
      ((t.resetIn = some (k - es.length) ∧ t.status.done = true) ∨
       (t.resetIn = none ∧ es.length = k ∧ AtResetValues t))

/-! ## The Validator -/

/-- R82: the length and the bytes of a block slice. -/
def Obligations.BlockSlice : Prop :=
  ∀ (B : List Byte) (k : Nat),
    (k < B.length / 128 → (block B k).length = 128) ∧
    (k = B.length / 128 → (block B k).length = B.length % 128) ∧
    (B.length / 128 < k → block B k = []) ∧
    ∀ i, i < (block B k).length → byteAt (block B k) i = byteAt B (128 * k + i)

/-- R91: VCSUM. A 128-byte block is valid exactly when its bytes sum to 0 modulo 256, and ACC holds the sum; any other slice is an
ordinary false result with ACC unchanged. ERR is 0, no byte, RVAL or RVALID is written but for the clears, no event is emitted. -/
def Obligations.VcsumResult : Prop :=
  ∀ (blk : Byte) (bsel : BufSel) (s : State), ∃ t, exec (.vcsum blk bsel) s = .next t ∧
    ((block (selected bsel s) blk.toNat).length = 128 →
      t.acc.toNat = byteSum (block (selected bsel s) blk.toNat) % 256 ∧
      endsWith t (decide (byteSum (block (selected bsel s) blk.toNat) % 256 = 0)) false .none .none) ∧
    ((block (selected bsel s) blk.toNat).length ≠ 128 → t.acc = s.acc ∧ endsWith t false false .none .none) ∧
    SameButEnd { s with acc := t.acc } t ∧ t.rval = 0 ∧ t.rvalid = false ∧ t.aclass = .none ∧
    ∀ a, docByte t a = docByte s a ∧ devByte t a = devByte s a

/-- R92: RCSUM. Byte 127 of a 128-byte block becomes `(256 - sum(bytes[0..126]) mod 256) mod 256`, which is also RVAL, ACC holds the sum
of bytes 0 to 126, and no other byte of either buffer changes; any other slice is a SizeError and writes no byte. -/
def Obligations.RcsumResult : Prop :=
  ∀ (blk : Byte) (bsel : BufSel) (s : State), ∃ t, exec (.rcsum blk bsel) s = .next t ∧ t.aclass = .none ∧
    ((block (selected bsel s) blk.toNat).length = 128 →
      endsWith t true false .none .none ∧ t.rvalid = true ∧
      t.rval.toNat = (256 - byteSum ((block (selected bsel s) blk.toNat).take 127) % 256) % 256 ∧
      t.acc.toNat = byteSum ((block (selected bsel s) blk.toNat).take 127) % 256 ∧
      SameButEnd { s with acc := t.acc, doc := t.doc, dev := t.dev } t ∧
      (bsel = .doc →
        (docByte t (128 * blk.toNat + 127)).setWidth 16 = t.rval ∧
        (∀ a, a ≠ 128 * blk.toNat + 127 → docByte t a = docByte s a) ∧ ∀ a, devByte t a = devByte s a) ∧
      (bsel = .dev →
        (devByte t (128 * blk.toNat + 127)).setWidth 16 = t.rval ∧
        (∀ a, a ≠ 128 * blk.toNat + 127 → devByte t a = devByte s a) ∧ ∀ a, docByte t a = docByte s a)) ∧
    ((block (selected bsel s) blk.toNat).length ≠ 128 →
      endsWith t false true .sizeError .none ∧ t.rvalid = false ∧ t.rval = 0 ∧ SameButEnd s t ∧
      ∀ a, docByte t a = docByte s a ∧ devByte t a = devByte s a)

/-- R93: VSTRUCT makes four checks in the order size, header, checksums in ascending block order, extension count; the first that
fails is the reason, an ordinary result. RVAL and ACC name the lowest failing block and its sum. -/
def Obligations.VstructResult : Prop :=
  ∀ (bsel : BufSel) (s : State) (B : List Byte), selected bsel s = B →
    ∃ t, exec (.vstruct bsel) s = .next t ∧ SameButEnd { s with acc := t.acc } t ∧ t.aclass = .none ∧
      (∀ a, docByte t a = docByte s a ∧ devByte t a = devByte s a) ∧
      (B.length < 128 ∨ B.length % 128 ≠ 0 →
        endsWith t false false .sizeError .none ∧ t.acc = s.acc ∧ t.rvalid = false ∧ t.rval = 0) ∧
      (128 ≤ B.length → B.length % 128 = 0 → B.take 8 ≠ [0x00, 0xFF, 0xFF, 0xFF, 0xFF, 0xFF, 0xFF, 0x00] →
        endsWith t false false .headerError .none ∧ t.acc = s.acc ∧ t.rvalid = false ∧ t.rval = 0) ∧
      (128 ≤ B.length → B.length % 128 = 0 → B.take 8 = [0x00, 0xFF, 0xFF, 0xFF, 0xFF, 0xFF, 0xFF, 0x00] →
        (∀ k, k < B.length / 128 → byteSum (block B k) % 256 ≠ 0 → (∀ j, j < k → byteSum (block B j) % 256 = 0) →
          endsWith t false false .checksumError .none ∧ t.acc.toNat = byteSum (block B k) % 256 ∧
          t.rvalid = true ∧ t.rval = BitVec.ofNat 16 k) ∧
        ((∀ k, k < B.length / 128 → byteSum (block B k) % 256 = 0) →
          t.acc = 0 ∧ t.rvalid = false ∧ t.rval = 0 ∧
          (B.length ≠ 128 * (1 + extCount B) → endsWith t false false .extensionCountMismatch .none) ∧
          (B.length = 128 * (1 + extCount B) → endsWith t true false .none .none)))

/-- R94: FSAFE gives the offset plus 5 of the lowest of the descriptors 54, 72, 90, 108 that starts with two zero bytes, else the lowest
of the pairs 38, 40, ..., 52 that is `01 01`, else none; a buffer shorter than 128 bytes gives none.
`FindSafeTestByte`, which TSTWR uses, has the same value. -/
def Obligations.FsafeResult : Prop :=
  ∀ (bsel : BufSel) (s : State) (B : List Byte), selected bsel s = B →
    ∃ t, exec (.fsafe bsel) s = .next t ∧ SameButEnd s t ∧ t.aclass = .none ∧
      findSafeTestByte B = (if t.rvalid then some t.rval.toNat else none) ∧
      (∀ a, docByte t a = docByte s a ∧ devByte t a = devByte s a) ∧
      (B.length < 128 → endsWith t false false .none .none ∧ t.rvalid = false ∧ t.rval = 0) ∧
      (128 ≤ B.length →
        (∀ i, i < 4 → byteAt B (54 + 18 * i) = 0 → byteAt B (55 + 18 * i) = 0 →
          (∀ j, j < i → ¬ (byteAt B (54 + 18 * j) = 0 ∧ byteAt B (55 + 18 * j) = 0)) →
          endsWith t true false .none .none ∧ t.rvalid = true ∧ t.rval = BitVec.ofNat 16 (59 + 18 * i)) ∧
        ((∀ i, i < 4 → ¬ (byteAt B (54 + 18 * i) = 0 ∧ byteAt B (55 + 18 * i) = 0)) →
          (∀ i, i < 8 → byteAt B (38 + 2 * i) = 1 → byteAt B (39 + 2 * i) = 1 →
            (∀ j, j < i → ¬ (byteAt B (38 + 2 * j) = 1 ∧ byteAt B (39 + 2 * j) = 1)) →
            endsWith t true false .none .none ∧ t.rvalid = true ∧ t.rval = BitVec.ofNat 16 (38 + 2 * i)) ∧
          ((∀ i, i < 8 → ¬ (byteAt B (38 + 2 * i) = 1 ∧ byteAt B (39 + 2 * i) = 1)) →
            endsWith t false false .none .none ∧ t.rvalid = false ∧ t.rval = 0)))

/-- R92, post-condition: after RCSUM succeeds, VCSUM of the same block gives OK = 1. -/
def Obligations.RcsumThenVcsumIsValid : Prop :=
  ∀ (blk : Byte) (bsel : BufSel) (s : State), (block (selected bsel s) blk.toNat).length = 128 →
    ∃ t u, exec (.rcsum blk bsel) s = .next t ∧ exec (.vcsum blk bsel) t = .next u ∧
      endsWith u true false .none .none ∧ u.acc = 0

/-- R96: on a document of m blocks with a good header and `D[126] = m - 1`, RCSUM on every block and then VSTRUCT gives OK = 1. -/
def Obligations.RcsumAllThenVstructAccepts : Prop :=
  ∀ (bsel : BufSel) (s : State) (D : List Byte) (m : Nat), selected bsel s = D → 1 ≤ m → m ≤ 256 → D.length = 128 * m →
    D.take 8 = [0x00, 0xFF, 0xFF, 0xFF, 0xFF, 0xFF, 0xFF, 0x00] → extCount D = m - 1 →
    ∃ t, runAll (rcsumAllThenVstruct m bsel) s = .next t ∧ endsWith t true false .none .none ∧ t.acc = 0

/-! ## The frame marshaller

`heldSettle s` is the settle delay of an earlier write frame that has not passed yet, if there is one: it passes before the first frame of
whatever comes (R50, R204, log 29). -/

/-- R50, R101: F_RD lets an outstanding settle delay pass (R204; deduced, log 29), emits one read frame to 0x50 and takes one
answer, never longer than asked for (deduced, log 10); `Ok` fills CHBUF and CHN, an I/O error sets IOERR, ACLASS (1, 2 or 3) and CHN
= 0; nothing else changes (that a frame can be run by itself is the model's, log 23). -/
def Obligations.ReadFrameEffect : Prop :=
  ∀ (bus : BusId) (reg : Byte) (n : Nat) (s : State), Ready s → n = 1 ∨ n = 32 →
    ∃ (t : State) (a : BusAnswer), exec (.fRd bus reg n) s = .next t ∧
      eventsOf t = eventsOf s ++ heldSettle s ++ [.rd { bus := bus, addr7 := 0x50, reg := reg, n := n } a] ∧
      t = { s with ioerr := t.ioerr, aclass := t.aclass, chbuf := t.chbuf, chn := t.chn, settleDue := false
                   busIn := s.busIn.tail, trace := t.trace, draws := t.draws } ∧
      (∀ x rest, s.busIn = x :: rest → a = match x with | .ok bytes => .ok (bytes.take n) | .ioErr c => .ioErr c) ∧
      (∀ bytes, a = .ok bytes → bytes.length ≤ n ∧ t.chn = bytes.length ∧
        t.chbuf = bytes ++ s.chbuf.drop bytes.length ∧ t.ioerr = s.ioerr ∧ t.aclass = s.aclass) ∧
      (∀ c, a = .ioErr c → t.ioerr = c ∧ t.aclass = aclassOf (classOf s.platform c) ∧ t.aclass ≠ .none ∧ t.chn = 0 ∧
        t.chbuf = s.chbuf) ∧
      ∀ x, docByte t x = docByte s x ∧ devByte t x = devByte s x

/-- R50, R102, R182: F_WR lets an outstanding settle delay pass (R204; deduced, log 29), emits one write frame to 0x50 and takes one
answer; an I/O error sets IOERR and ACLASS; its own settle delay is then outstanding; nothing else changes (that a frame can be run
by itself is the model's, log 23). -/
def Obligations.WriteFrameEffect : Prop :=
  ∀ (bus : BusId) (reg : Byte) (data : List Byte) (s : State), Ready s → data.length = 1 ∨ data.length = 16 →
    ∃ (t : State) (a : WriteAnswer), exec (.fWr bus reg data) s = .next t ∧
      eventsOf t = eventsOf s ++ heldSettle s ++ [.wr { bus := bus, addr7 := 0x50, reg := reg, data := data } a] ∧
      t = { s with ioerr := t.ioerr, aclass := t.aclass, settleDue := true, busIn := s.busIn.tail, trace := t.trace
                   draws := t.draws } ∧
      (∀ x rest, s.busIn = x :: rest → a = match x with | .ok _ => .ok | .ioErr c => .ioErr c) ∧
      (a = .ok → t.ioerr = s.ioerr ∧ t.aclass = s.aclass) ∧
      (∀ c, a = .ioErr c → t.ioerr = c ∧ t.aclass = aclassOf (classOf s.platform c) ∧ t.aclass ≠ .none) ∧
      ∀ x, docByte t x = docByte s x ∧ devByte t x = devByte s x

/-- R64: a frame of any other length is not run (refusing it is the model's, log 23). -/
def Obligations.OtherFrameLengthsAreRefused : Prop :=
  ∀ (bus : BusId) (reg : Byte) (n : Nat) (data : List Byte) (s : State), s.platform.hasBus = true →
    (n ≠ 1 → n ≠ 32 → exec (.fRd bus reg n) s = .refused .illegalFrame) ∧
    (data.length ≠ 1 → data.length ≠ 16 → exec (.fWr bus reg data) s = .refused .illegalFrame)

/-- R203: without a bus interface the five Device Channel commands have no meaning (and neither have the frames, log 5). -/
def Obligations.NoBusNoDeviceChannel : Prop :=
  ∀ (bus : BusId) (reg : Byte) (n : Nat) (data : List Byte) (s : State), s.platform.hasBus = false →
    ∀ i ∈ [Instr.discover, .rddoc bus, .wrdoc bus, .tstwr bus, .cmpdoc bus, .fRd bus reg n, .fWr bus reg data],
      exec i s = .refused .noBusInterface

/-- R104, R106, R112: the register offset is the document offset modulo 256: chunks of even blocks start at 0, of odd blocks at 128,
blocks k and k + 2 and pages p and p + 16 share theirs, and no frame runs past offset 255 (R45). -/
def Obligations.RegisterOffsetsWrap : Prop :=
  ∀ o k c p : Nat,
    (regOff o).toNat = o % 256 ∧
    (c < 128 → (regOff (128 * k + c)).toNat = (if k % 2 = 0 then c else 128 + c)) ∧
    regOff (128 * (k + 2) + c) = regOff (128 * k + c) ∧
    regOff (16 * (p + 16)) = regOff (16 * p) ∧
    (regOff (16 * p)).toNat + 16 ≤ 256 ∧
    (c ∈ Config.CHUNK_OFFS → (regOff (128 * k + c)).toNat + 32 ≤ 256)

/-- R105: ReadBlock asks for four chunks of 32 bytes, appends what comes in arrival order, issues all four even when one is short,
and tests the length once; an I/O error stops it at once. A settle delay outstanding from an earlier write frame passes first (R50,
R204; deduced, log 29). -/
def Obligations.ReadBlockInFourChunks : Prop :=
  ∀ (bus : BusId) (k : Nat) (s : State) (b0 b1 b2 b3 : List Byte) (rest : List BusAnswer), s.resetIn = none →
    b0.length ≤ 32 → b1.length ≤ 32 → b2.length ≤ 32 → b3.length ≤ 32 →
    (s.busIn = [.ok b0, .ok b1, .ok b2, .ok b3] ++ rest →
      ∃ t, readBlock bus k s = .done (if (b0 ++ b1 ++ b2 ++ b3).length = 128 then .ok (b0 ++ b1 ++ b2 ++ b3)
            else .short (b0 ++ b1 ++ b2 ++ b3).length) t ∧
        t.busIn = rest ∧ t.settleDue = false ∧
        eventsOf t = eventsOf s ++ heldSettle s ++ List.zipWith (fun c b => Event.rd
          { bus := bus, addr7 := 0x50, reg := BitVec.ofNat 8 (128 * k + c), n := 32 } (.ok b)) [0, 32, 64, 96] [b0, b1, b2, b3]) ∧
    ∀ (code : IoCode), s.busIn = [.ok b0, .ioErr code] ++ rest →
      ∃ t, readBlock bus k s = .done (.ioErr code) t ∧ t.busIn = rest ∧ t.ioerr = code ∧ t.settleDue = false ∧
        eventsOf t = eventsOf s ++ heldSettle s ++
          [.rd { bus := bus, addr7 := 0x50, reg := BitVec.ofNat 8 (128 * k), n := 32 } (.ok b0),
           .rd { bus := bus, addr7 := 0x50, reg := BitVec.ofNat 8 (128 * k + 32), n := 32 } (.ioErr code)]

/-- R108: the complete set of frames each command can emit, with their addresses, lengths, register offsets and bus, and the other
events of R69; the Validator commands emit none. Before them stands at most the settle delay of an earlier write frame, where it is
outstanding (R50, log 29). -/
def Obligations.EveryEventIsInTheTable : Prop :=
  ∀ (i : Instr) (s t : State), exec i s = .next t →
    ∃ held es, t.trace = s.trace ++ held ++ es ∧ (held = [] ∨ held.map (·.event) = heldSettle s) ∧
      ∀ e ∈ es, mayEmit i e.event = true

/-- R50, R110, R204: no frame on any bus stands between a write frame and its settle delay, whatever instruction emits it (across
instructions: deduced, log 29). In the events of an instruction a write frame that is followed by anything is followed by a settle
delay of at least 10 ms; and from the settle timer as the instruction finds it on, no frame comes while the timer runs. The timer is
left running exactly when the delay of a write frame has not passed (R182); a reset leaves it idle. -/
def Obligations.SettleFollowsEveryWrite : Prop :=
  ∀ (i : Instr) (s t : State), exec i s = .next t →
    ∃ es running, t.trace = s.trace ++ es ∧ settled (es.map (·.event)) = true ∧
      timerAfter s.settleDue (es.map (·.event)) = some running ∧
      (t.resets = s.resets → t.settleDue = running) ∧ (t.resets ≠ s.resets → t.settleDue = false)

/-- R128: each of the five Device Channel commands emits a bounded number of events (the Validator commands emit none:
EveryEventIsInTheTable). Each bound allows one more for the settle delay of an earlier write frame, where it was outstanding when
the command started (R50, R204; deduced, log 29). -/
def Obligations.CommandsEmitBoundedlyManyEvents : Prop :=
  ∀ (i : Instr) (s t : State), s.dlen ≤ 32768 → exec i s = .next t →
    ∃ es, t.trace = s.trace ++ es ∧
      (i = .discover → es.length ≤ (heldSettle s).length + s.platform.buses.length) ∧
      (∀ bus, i = .rddoc bus ∨ i = .cmpdoc bus → es.length ≤ (heldSettle s).length + 1024) ∧
      (∀ bus, i = .wrdoc bus → es.length ≤ (heldSettle s).length + 1024 + 1 + 2 * 2048 + 1024) ∧
      ∀ bus, i = .tstwr bus → es.length ≤ (heldSettle s).length + 1024 + 1 + 1024 + 6

/-! ## The Device Channel -/

/-- R122: DISCOVER probes every candidate bus in the platform's order with a one-byte read at register offset 0 and reports EDID
exactly where the answer is the one byte 0x00; it never fails, whatever the answers; IOERR and ACLASS hold the last I/O error, if
any. An answer of more than the one byte asked for is cut to it (deduced, log 10). A settle delay outstanding from an earlier write
frame passes before the first probe (R50, R204; deduced, log 29). -/
def Obligations.DiscoverResult : Prop :=
  ∀ s : State, Ready s → ∃ (t : State) (as : List BusAnswer), exec .discover s = .next t ∧
    endsWith t true false .none .none ∧ as.length = s.platform.buses.length ∧
    eventsOf t = eventsOf s ++ (if s.platform.buses = [] then [] else heldSettle s) ++ List.zipWith
      (fun b a => .rd { bus := b, addr7 := 0x50, reg := 0, n := 1 } a) s.platform.buses as ∧
    t.probe = List.zipWith (fun b a => { busId := b, hasEdid := decide (a = .ok [0x00]) }) s.platform.buses as ∧
    errorNoted s t as ∧
    (∀ xs rest, s.busIn = xs ++ rest → xs.length = s.platform.buses.length → t.busIn = rest ∧ as = xs.map (cutTo 1)) ∧
    t.settleDue = (if s.platform.buses = [] then s.settleDue else false) ∧
    SameButRead { s with probe := t.probe } t ∧ t.dev = s.dev ∧ t.devlen = s.devlen ∧
    ∀ a, docByte t a = docByte s a ∧ devByte t a = devByte s a

/-- R120, R123: RDDOC. A device that hands over a document D of the length its byte 126 says is read by the frames of R106 into DEV,
with DEVLEN its length and RVAL its number of blocks. A settle delay outstanding from an earlier write frame passes before the first
frame, as one SETTLE event (R50, R204; deduced, log 29), and none is outstanding at the end (R182). -/
def Obligations.RddocReadsTheDocument : Prop :=
  ∀ (bus : BusId) (s : State) (D : List Byte) (rest : List BusAnswer), Ready s → SelfSized D → s.busIn = handsOver D ++ rest →
    ∃ t, exec (.rddoc bus) s = .next t ∧ endsWith t true false .none .none ∧
      devBytes t = D ∧ t.devlen = D.length ∧ t.rvalid = true ∧ t.rval = BitVec.ofNat 16 (1 + extCount D) ∧
      t.aclass = .none ∧ t.ioerr = s.ioerr ∧ t.busIn = rest ∧ eventsOf t = eventsOf s ++ heldSettle s ++ docReads bus D ∧
      t.settleDue = false ∧ SameButRead s t ∧ ∀ a, docByte t a = docByte s a

/-- R123: RDDOC ends with AccessError on the first frame that ends in an I/O error; ACLASS and IOERR say which; no further frame is
emitted, and DEV holds the blocks completed before it. A settle delay outstanding from an earlier write frame passes before the
first frame, as one SETTLE event (R50, R204; deduced, log 29), and none is outstanding at the end (R182). -/
def Obligations.RddocAccessError : Prop :=
  ∀ (bus : BusId) (s : State) (cs : List (List Byte)) (code : IoCode) (rest : List BusAnswer), Ready s →
    (∀ c ∈ cs, c.length = 32) → (4 ≤ cs.length → cs.length < 4 * (1 + extCount cs.flatten)) →
    s.busIn = cs.map .ok ++ .ioErr code :: rest →
    ∃ t, exec (.rddoc bus) s = .next t ∧ endsWith t false true .accessError .none ∧
      t.ioerr = code ∧ t.aclass = aclassOf (classOf s.platform code) ∧ t.rvalid = false ∧ t.rval = 0 ∧
      t.devlen = 128 * (cs.length / 4) ∧ devBytes t = cs.flatten.take (128 * (cs.length / 4)) ∧
      t.busIn = rest ∧ (eventsOf t).length = (eventsOf s).length + (heldSettle s).length + cs.length + 1 ∧
      t.settleDue = false ∧ SameButRead s t ∧ ∀ a, docByte t a = docByte s a

/-- R123: RDDOC ends with SizeError after the first block whose four chunks total other than 128 bytes; DEV holds the blocks
completed before it. A settle delay outstanding from an earlier write frame passes before the first frame, as one SETTLE event (R50,
R204; deduced, log 29), and none is outstanding at the end (R182). -/
def Obligations.RddocSizeError : Prop :=
  ∀ (bus : BusId) (s : State) (cs : List (List Byte)) (k : Nat) (b0 b1 b2 b3 : List Byte) (rest : List BusAnswer), Ready s →
    (∀ c ∈ cs, c.length = 32) → cs.length = 4 * k → (k ≠ 0 → k < 1 + extCount cs.flatten) →
    b0.length ≤ 32 → b1.length ≤ 32 → b2.length ≤ 32 → b3.length ≤ 32 → (b0 ++ b1 ++ b2 ++ b3).length ≠ 128 →
    s.busIn = cs.map .ok ++ [.ok b0, .ok b1, .ok b2, .ok b3] ++ rest →
    ∃ t, exec (.rddoc bus) s = .next t ∧ endsWith t false true .sizeError .none ∧ t.rvalid = false ∧ t.rval = 0 ∧
      t.aclass = .none ∧ t.devlen = 128 * k ∧ devBytes t = cs.flatten ∧ t.busIn = rest ∧
      (eventsOf t).length = (eventsOf s).length + (heldSettle s).length + 4 * k + 4 ∧ t.settleDue = false ∧
      SameButRead s t ∧ ∀ a, docByte t a = docByte s a

/-- R124: WRDOC with DLEN 0 or no multiple of 128 ends with SizeError, emits nothing and leaves WSTATE Idle. -/
def Obligations.WrdocRefusesABadLength : Prop :=
  ∀ (bus : BusId) (s : State), s.platform.hasBus = true → s.dlen = 0 ∨ s.dlen % 128 ≠ 0 →
    ∃ t, exec (.wrdoc bus) s = .next t ∧ endsWith t false true .sizeError .none ∧ t.wstate = .idle ∧ t.pageI = 0 ∧
      t.pageN = 0 ∧ t.bkvalid = false ∧ t.trace = s.trace ∧
      SameButEnd { s with wstate := .idle, pageI := 0, pageN := 0, bkvalid := false } t

/-- R124, R125: WRDOC on a device that hands over D0, acknowledges every page and then hands over D1. The backup is of D0 and is
taken before the first page; pages are written in order, each settled; then the device is re-read: D1 equal to DOC gives Verified
and OK = 1, anything else VerificationFailed and WriteVerificationFailed. The backup identifier is kept in both cases. A settle
delay outstanding from an earlier write frame passes before the first frame, as one SETTLE event (R50, R204; deduced, log 29), and
none is outstanding at the end (R182). -/
def Obligations.WrdocWritesAndVerifies : Prop :=
  ∀ (bus : BusId) (s : State) (D0 D1 : List Byte) (ws : List (List Byte)) (rest : List BusAnswer) (id : BackupId)
    (brest : List BackupAnswer),
    Ready s → s.dlen ≠ 0 → s.dlen % 128 = 0 → SelfSized D0 → SelfSized D1 → ws.length = s.dlen / 16 →
    s.busIn = handsOver D0 ++ ws.map .ok ++ handsOver D1 ++ rest → s.backupIn = .ok id :: brest →
    ∃ t, exec (.wrdoc bus) s = .next t ∧
      (D1 = docBytes s → endsWith t true false .none .none ∧ t.wstate = .verified) ∧
      (D1 ≠ docBytes s → endsWith t false true .writeVerificationFailed .none ∧ t.wstate = .verificationFailed) ∧
      t.pageI = s.dlen / 16 ∧ t.pageN = s.dlen / 16 ∧ t.bkid = id ∧ t.bkvalid = true ∧
      devBytes t = D1 ∧ t.devlen = D1.length ∧ t.busIn = rest ∧ t.backupIn = brest ∧
      eventsOf t = eventsOf s ++ heldSettle s ++ docReads bus D0 ++ [.backup bus D0 (.ok id)] ++
        pageWrites bus (docBytes s) (s.dlen / 16) ++ docReads bus D1 ∧
      t.aclass = .none ∧ t.ioerr = s.ioerr ∧ t.rval = 0 ∧ t.rvalid = false ∧
      t.settleDue = false ∧ SameButWrite s t ∧ ∀ a, docByte t a = docByte s a

/-- R124: a page write that ends in an I/O error ends WRDOC with AccessError at that page: no settle and no further event follows,
WSTATE stays Writing with PAGE_I the page, and the backup identifier is kept. The settle delay of that frame is outstanding: it
passes before the next frame, of whatever command (R50, R204, R182; deduced, log 29), as one from an earlier write frame passes
before the first frame of this one. -/
def Obligations.WrdocStopsAtAFailedPage : Prop :=
  ∀ (bus : BusId) (s : State) (D0 : List Byte) (ws : List (List Byte)) (code : IoCode) (rest : List BusAnswer)
    (id : BackupId) (brest : List BackupAnswer),
    Ready s → s.dlen ≠ 0 → s.dlen % 128 = 0 → SelfSized D0 → ws.length < s.dlen / 16 →
    s.busIn = handsOver D0 ++ ws.map .ok ++ .ioErr code :: rest → s.backupIn = .ok id :: brest →
    ∃ t, exec (.wrdoc bus) s = .next t ∧ endsWith t false true .accessError .none ∧ t.wstate = .writing ∧
      t.pageI = ws.length + 1 ∧ t.pageN = s.dlen / 16 ∧ t.bkid = id ∧ t.bkvalid = true ∧
      t.ioerr = code ∧ t.aclass = aclassOf (classOf s.platform code) ∧ devBytes t = D0 ∧ t.busIn = rest ∧
      eventsOf t = eventsOf s ++ heldSettle s ++ docReads bus D0 ++ [.backup bus D0 (.ok id)] ++
        pageWrites bus (docBytes s) ws.length ++
        [.wr { bus := bus, addr7 := 0x50, reg := BitVec.ofNat 8 (16 * ws.length), data := page (docBytes s) ws.length }
          (.ioErr code)] ∧
      t.settleDue = true ∧ SameButWrite s t ∧ ∀ a, docByte t a = docByte s a

/-- R121, R124, R126: when the host cannot take the backup, WRDOC and TSTWR end with BackupFailed; nothing has been written to the
device, and no backup identifier is valid. A settle delay outstanding from an earlier write frame passes before the first frame, as
one SETTLE event (R50, R204; deduced, log 29), and none is outstanding at the end (R182). -/
def Obligations.BackupFailedWritesNothing : Prop :=
  ∀ (bus : BusId) (s : State) (D0 : List Byte) (rest : List BusAnswer) (brest : List BackupAnswer),
    Ready s → SelfSized D0 → s.busIn = handsOver D0 ++ rest → s.backupIn = .fail :: brest →
    ∀ i ∈ [Instr.wrdoc bus, .tstwr bus], (i = .wrdoc bus → s.dlen ≠ 0 ∧ s.dlen % 128 = 0) →
      ∃ t, exec i s = .next t ∧ endsWith t false true .backupFailed .none ∧ t.bkvalid = false ∧ t.busIn = rest ∧
        eventsOf t = eventsOf s ++ heldSettle s ++ docReads bus D0 ++ [.backup bus D0 .fail] ∧
        (i = .wrdoc bus → t.wstate = .idle ∧ t.pageI = 0 ∧ t.pageN = 0) ∧ t.settleDue = false ∧ SameButWrite s t ∧
        ∀ a, docByte t a = docByte s a

/-- R124, R126, R127, R170, R174: when the first device read fails, by an I/O error on any of its frames or by a block of other than
128 bytes, WRDOC, TSTWR and CMPDOC end with AccessError or SizeError; no further event is emitted, no backup is asked for, WSTATE is
Idle and BKVALID = 0 where the command has them, and DIFF is empty. A settle delay outstanding from an earlier write frame passes
before the first frame, as one SETTLE event (R50, R110, R204; deduced, log 29), and none is outstanding at the end (R182). -/
def Obligations.FirstReadFailureEndsTheCommand : Prop :=
  ∀ (bus : BusId) (s : State) (cs : List (List Byte)) (f : ReadFailure) (rest : List BusAnswer), Ready s → f.After cs →
    s.busIn = cs.map .ok ++ f.answers ++ rest →
    ∀ i ∈ [Instr.wrdoc bus, .tstwr bus, .cmpdoc bus], (i = .wrdoc bus → s.dlen ≠ 0 ∧ s.dlen % 128 = 0) →
      ∃ t, exec i s = .next t ∧ endsInFailedRead s t cs f ∧ t.busIn = rest ∧ t.settleDue = false ∧
        eventsOf t = eventsOf s ++ heldSettle s ++ readsFrom bus 0 (cs.map .ok ++ f.answers) ∧
        (i = .wrdoc bus → t.wstate = .idle ∧ t.pageI = 0 ∧ t.pageN = 0 ∧ t.bkvalid = false ∧ t.bkid = s.bkid ∧
          t.backupIn = s.backupIn ∧ SameButWrite s t) ∧
        (i = .tstwr bus → t.bkvalid = false ∧ t.bkid = s.bkid ∧ t.backupIn = s.backupIn ∧ SameButBackup s t) ∧
        (i = .cmpdoc bus → t.diff = [] ∧ SameButRead { s with diff := t.diff } t) ∧
        ∀ a, docByte t a = docByte s a

/-- R124, R125: when the verification re-read of WRDOC fails, the command ends with AccessError or SizeError; WSTATE stays ReadBack,
every page has been written, and the backup identifier is kept. A settle delay outstanding from an earlier write frame passes before
the first frame, as one SETTLE event (R50, R204; deduced, log 29), and none is outstanding at the end (R182). -/
def Obligations.WrdocVerificationReadFails : Prop :=
  ∀ (bus : BusId) (s : State) (D0 : List Byte) (ws cs : List (List Byte)) (f : ReadFailure) (rest : List BusAnswer)
    (id : BackupId) (brest : List BackupAnswer),
    Ready s → s.dlen ≠ 0 → s.dlen % 128 = 0 → SelfSized D0 → ws.length = s.dlen / 16 → f.After cs →
    s.busIn = handsOver D0 ++ ws.map .ok ++ (cs.map .ok ++ f.answers) ++ rest → s.backupIn = .ok id :: brest →
    ∃ t, exec (.wrdoc bus) s = .next t ∧ endsInFailedRead s t cs f ∧ t.wstate = .readBack ∧ t.pageI = s.dlen / 16 ∧
      t.pageN = s.dlen / 16 ∧ t.bkid = id ∧ t.bkvalid = true ∧ t.busIn = rest ∧ t.backupIn = brest ∧
      eventsOf t = eventsOf s ++ heldSettle s ++ docReads bus D0 ++ [.backup bus D0 (.ok id)] ++
        pageWrites bus (docBytes s) (s.dlen / 16) ++ readsFrom bus 0 (cs.map .ok ++ f.answers) ∧
      t.settleDue = false ∧ SameButWrite s t ∧ ∀ a, docByte t a = docByte s a

/-- R126: when the second device read of TSTWR fails, the command ends with AccessError or SizeError; no write frame has been
emitted, and the backup identifier is valid. A settle delay outstanding from an earlier write frame passes before the first frame,
as one SETTLE event (R50, R204; deduced, log 29), and none is outstanding at the end (R182). -/
def Obligations.TstwrSecondReadFails : Prop :=
  ∀ (bus : BusId) (s : State) (D0 : List Byte) (cs : List (List Byte)) (f : ReadFailure) (rest : List BusAnswer)
    (id : BackupId) (brest : List BackupAnswer),
    Ready s → SelfSized D0 → f.After cs →
    s.busIn = handsOver D0 ++ (cs.map .ok ++ f.answers) ++ rest → s.backupIn = .ok id :: brest →
    ∃ t, exec (.tstwr bus) s = .next t ∧ endsInFailedRead s t cs f ∧ t.bkid = id ∧ t.bkvalid = true ∧ t.busIn = rest ∧
      t.backupIn = brest ∧
      eventsOf t = eventsOf s ++ heldSettle s ++ docReads bus D0 ++ [.backup bus D0 (.ok id)] ++
        readsFrom bus 0 (cs.map .ok ++ f.answers) ∧
      t.settleDue = false ∧ SameButBackup s t ∧ ∀ a, docByte t a = docByte s a

/-- R126: TSTWR with a safe byte at `off`: the document is read and backed up, read again, the byte is flipped, settled, read back,
restored whatever happened, settled and re-read. A re-read other than the original byte is RestoreVerificationFailed; else the
verdict is whether the flipped value was read back. The answers of the two write frames do not matter for it, but an I/O error of
any of the four frames is recorded, the last one staying (R172). An answer of more than the one byte asked for is cut to it
(deduced, log 10). A settle delay outstanding from an earlier write frame passes before the first frame, as one SETTLE event (R50,
R204; deduced, log 29), and none is outstanding at the end (R182). -/
def Obligations.TstwrProbesAndRestores : Prop :=
  ∀ (bus : BusId) (s : State) (D0 D1 : List Byte) (off : Nat) (w1 r1 w2 r2 : BusAnswer) (rest : List BusAnswer)
    (id : BackupId) (brest : List BackupAnswer),
    Ready s → SelfSized D0 → SelfSized D1 → findSafeTestByte D1 = some off →
    s.busIn = handsOver D0 ++ handsOver D1 ++ [w1, r1, w2, r2] ++ rest → s.backupIn = .ok id :: brest →
    ∃ t, exec (.tstwr bus) s = .next t ∧
      (cutTo 1 r2 ≠ .ok [byteAt D1 off] → endsWith t false true .restoreVerificationFailed .restoreFailed) ∧
      (cutTo 1 r2 = .ok [byteAt D1 off] → cutTo 1 r1 = .ok [byteAt D1 off ^^^ 0xFF] →
        endsWith t true false .none .writable) ∧
      (cutTo 1 r2 = .ok [byteAt D1 off] → cutTo 1 r1 ≠ .ok [byteAt D1 off ^^^ 0xFF] →
        endsWith t false false .none .notWritable) ∧
      errorNoted s t [w1, r1, w2, r2] ∧
      t.rvalid = true ∧ t.rval = BitVec.ofNat 16 off ∧ t.bkid = id ∧ t.bkvalid = true ∧ devBytes t = D1 ∧
      t.busIn = rest ∧ t.backupIn = brest ∧
      eventsOf t = eventsOf s ++ heldSettle s ++ docReads bus D0 ++ [.backup bus D0 (.ok id)] ++ docReads bus D1 ++
        [.wr { bus := bus, addr7 := 0x50, reg := BitVec.ofNat 8 off, data := [byteAt D1 off ^^^ 0xFF] } (ackOf w1), .settle 10,
         .rd { bus := bus, addr7 := 0x50, reg := BitVec.ofNat 8 off, n := 1 } (cutTo 1 r1),
         .wr { bus := bus, addr7 := 0x50, reg := BitVec.ofNat 8 off, data := [byteAt D1 off] } (ackOf w2), .settle 10,
         .rd { bus := bus, addr7 := 0x50, reg := BitVec.ofNat 8 off, n := 1 } (cutTo 1 r2)] ∧
      t.settleDue = false ∧ SameButBackup s t ∧ ∀ a, docByte t a = docByte s a

/-- R126: TSTWR without a safe byte is an ordinary result, (false, "no safe byte"), and emits no write frame. A settle delay
outstanding from an earlier write frame passes before the first frame, as one SETTLE event (R50, R204; deduced, log 29), and none is
outstanding at the end (R182). -/
def Obligations.TstwrWithoutASafeByteWritesNothing : Prop :=
  ∀ (bus : BusId) (s : State) (D0 D1 : List Byte) (rest : List BusAnswer) (id : BackupId) (brest : List BackupAnswer),
    Ready s → SelfSized D0 → SelfSized D1 → findSafeTestByte D1 = none →
    s.busIn = handsOver D0 ++ handsOver D1 ++ rest → s.backupIn = .ok id :: brest →
    ∃ t, exec (.tstwr bus) s = .next t ∧ endsWith t false false .safeByteNotFound .noSafeByte ∧ t.rvalid = false ∧
      t.bkid = id ∧ t.bkvalid = true ∧ devBytes t = D1 ∧ t.busIn = rest ∧
      eventsOf t = eventsOf s ++ heldSettle s ++ docReads bus D0 ++ [.backup bus D0 (.ok id)] ++ docReads bus D1 ∧
      t.settleDue = false ∧ SameButBackup s t ∧ ∀ a, docByte t a = docByte s a

/-- R127: CMPDOC reads the device; a length other than DLEN is a size mismatch with no byte compared; else DIFF lists every
differing offset in ascending order as (offset, deviceByte, fileByte), and OK = 1 exactly when there is none. A settle delay
outstanding from an earlier write frame passes before the first frame, as one SETTLE event (R50, R204; deduced, log 29), and none is
outstanding at the end (R182). -/
def Obligations.CmpdocListsTheDifferences : Prop :=
  ∀ (bus : BusId) (s : State) (D : List Byte) (rest : List BusAnswer), Ready s → SelfSized D → s.busIn = handsOver D ++ rest →
    ∃ t, exec (.cmpdoc bus) s = .next t ∧
      (D.length ≠ s.dlen → endsWith t false false .none .sizeMismatch ∧ t.diff = []) ∧
      (D.length = s.dlen → t.diff = differences D (docBytes s) ∧
        (D = docBytes s → endsWith t true false .none .isMatch ∧ t.diffn = 0) ∧
        (D ≠ docBytes s → endsWith t false false .none .differ ∧ t.diffn ≠ 0)) ∧
      devBytes t = D ∧ t.devlen = D.length ∧ t.busIn = rest ∧ eventsOf t = eventsOf s ++ heldSettle s ++ docReads bus D ∧
      t.rvalid = false ∧ t.rval = 0 ∧ t.aclass = .none ∧ t.ioerr = s.ioerr ∧
      t.settleDue = false ∧ SameButRead { s with diff := t.diff } t ∧ ∀ a, docByte t a = docByte s a

/-! ## Rules of the whole machine -/

/-- R171, R192: every command that is not reset ends with BUSY = 0 and DONE = 1 and one of the outcomes the table gives it; OK = 1 and
FAIL = 1 never hold together (R14). -/
def Obligations.EveryCommandEndsAsTheTableSays : Prop :=
  ∀ (i : Instr) (s t : State), isCommand i = true → s.resetIn = none → exec i s = .next t →
    t.status.busy = false ∧ t.status.done = true ∧ (t.status.ok, t.status.fail, t.err, t.msg) ∈ outcomes i ∧
    ¬ (t.status.ok = true ∧ t.status.fail = true)

/-- Every command completes on every state with a bus interface, whatever the answers from outside (R128, R192). -/
def Obligations.EveryCommandCompletes : Prop :=
  ∀ (i : Instr) (s : State), i.wf = true → s.platform.hasBus = true → Completes (exec i s)

/-- R19 to R26: which instructions write which register, when no reset strikes; and R182: the settle timer moves only with a frame. -/
def Obligations.OnlyTheNamedCommandsWriteARegister : Prop :=
  ∀ (i : Instr) (s t : State), s.resetIn = none → exec i s = .next t →
    (t.acc ≠ s.acc → (∃ k b, i = .vcsum k b) ∨ (∃ k b, i = .rcsum k b) ∨ ∃ b, i = .vstruct b) ∧
    t.dlen = s.dlen ∧
    (∀ a, docByte t a ≠ docByte s a → ∃ k, i = .rcsum k .doc ∧ a = 128 * k.toNat + 127) ∧
    ((∃ a, devByte t a ≠ devByte s a) ∨ t.devlen ≠ s.devlen →
      (∃ k, i = .rcsum k .dev) ∨ ∃ bus, i ∈ [Instr.rddoc bus, .wrdoc bus, .tstwr bus, .cmpdoc bus]) ∧
    (t.wstate ≠ s.wstate ∨ t.pageI ≠ s.pageI ∨ t.pageN ≠ s.pageN → ∃ bus, i = .wrdoc bus) ∧
    (t.bkid ≠ s.bkid ∨ t.bkvalid ≠ s.bkvalid → ∃ bus, i = .wrdoc bus ∨ i = .tstwr bus) ∧
    (t.diff ≠ s.diff → ∃ bus, i = .cmpdoc bus) ∧
    (t.probe ≠ s.probe → i = .discover) ∧
    (t.settleDue ≠ s.settleDue →
      i = .discover ∨ (∃ bus, i ∈ [Instr.rddoc bus, .wrdoc bus, .tstwr bus, .cmpdoc bus]) ∨
      (∃ bus reg n, i = .fRd bus reg n) ∨ ∃ bus reg data, i = .fWr bus reg data) ∧
    t.platform = s.platform ∧ t.cmd = s.cmd ∧ t.hostIn = s.hostIn

/-- R124, R126, R177: no command emits a write frame unless the host has taken a backup before it in the same command; and when the
command ends unreset, that identifier is in BKID with BKVALID = 1, however it ends. -/
def Obligations.NoWriteWithoutABackup : Prop :=
  ∀ (i : Instr) (s t : State), isCommand i = true → exec i s = .next t →
    ∃ es, t.trace = s.trace ++ es ∧
      ∀ before w after, es.map (·.event) = before ++ w :: after → w.isWrite = true →
        ∃ id, (∃ e ∈ before, e.isBackup id = true) ∧ (s.resetIn = none → t.bkid = id ∧ t.bkvalid = true)

/-- R14, R22, R23, R31: while the events of a command are pending a host reads BUSY = 1; the j-th page write of WRDOC is pending with
WSTATE = Writing (2), PAGE_I = j + 1 and PAGE_N = DLEN / 16, which the host reads, and carries page j. -/
def Obligations.ProgressIsVisible : Prop :=
  ∀ (i : Instr) (s t : State), isCommand i = true → exec i s = .next t →
    ∃ es, t.trace = s.trace ++ es ∧
      (∀ e ∈ es, e.status = { busy := true, done := false, ok := false, fail := false } ∧
        hostReadPending i .status e = some (.flags e.status)) ∧
      ∀ bus, i = .wrdoc bus → ∀ (j : Nat) (e : TraceEntry),
        (es.filter fun e => e.event.isWrite)[j]? = some e →
          e.wstate = .writing ∧ hostReadPending i .wstate e = some (.num 2) ∧
          hostReadPending i .pageI e = some (.num (j + 1)) ∧ hostReadPending i .pageN e = some (.num (s.dlen / 16)) ∧
          ∃ a, e.event = .wr { bus := bus, addr7 := 0x50, reg := BitVec.ofNat 8 (16 * j), data := page (docBytes s) j } a

/-- R129: if WRDOC ended with OK = 1 and the next command is CMPDOC on the same bus, on the reference device IdealDev256, CMPDOC gives a
match. -/
def Obligations.RoundTripOnTheIdealDevice : Prop :=
  ∀ (bus : BusId) (s t u : State) (es : List Event) (M M' : List Byte), Ready s →
    exec (.wrdoc bus) s = .next t → t.status.ok = true → exec (.cmpdoc bus) t = .next u →
    eventsOf u = eventsOf s ++ es → idealRun bus M es = some M' →
    endsWith u true false .none .isMatch ∧ u.diffn = 0

/-- R126, property: on a read-only device that ignores writes, TSTWR whose backup is taken answers "not writable", an ordinary result; only
when the document it has read has no safe byte does it answer "no safe byte" instead. -/
def Obligations.ReadOnlyDeviceIsNotWritable : Prop :=
  ∀ (bus : BusId) (s t : State) (es : List Event) (M : List Byte) (id : BackupId) (brest : List BackupAnswer), Ready s →
    s.backupIn = .ok id :: brest → exec (.tstwr bus) s = .next t → eventsOf t = eventsOf s ++ es →
    readOnlyRun bus M es = true →
    (findSafeTestByte (devBytes t) ≠ none → endsWith t false false .none .notWritable) ∧
    (findSafeTestByte (devBytes t) = none → endsWith t false false .safeByteNotFound .noSafeByte)

/-- The invariant holds at reset. -/
def Obligations.InvariantAtReset : Prop := Inv State.reset

/-- Every step keeps the invariant, from every state that meets it. -/
def Obligations.StepKeepsTheInvariant : Prop :=
  ∀ s t : State, Inv s → step s = .next t → Inv t

/-- R50, R110, R182, R204: every step keeps the whole trace settled (across instructions: deduced, log 29). If in the events emitted
so far every frame after a write frame has a settle delay before it, and the settle timer runs exactly when the last write frame's
has not passed, then so it is after the step, unless the step resets the block (the timer is then idle, R182). -/
def Obligations.StepKeepsTheTraceSettled : Prop :=
  ∀ s t : State, timerAfter false (eventsOf s) = some s.settleDue → step s = .next t → t.resets = s.resets →
    timerAfter false (eventsOf t) = some t.settleDue

/-! ## Outside the block proper -/

/-- R142: the manufacturer word is big-endian; groups 1 to 26 are letters, as bytes `4C 2D` decode to SAM, and any other group is refused
(U14; outside the block, log 21). -/
def Obligations.ManufacturerOfTheExample : Prop :=
  (∀ B : List Byte, byteAt B 8 = 0x4C → byteAt B 9 = 0x2D → manufacturerId B = some ['S', 'A', 'M']) ∧
  ∀ (B : List Byte) (g1 g2 g3 : Nat), g1 < 32 → g2 < 32 → g3 < 32 →
    ((byteAt B 8).toNat * 256 + (byteAt B 9).toNat) % 32768 = 1024 * g1 + 32 * g2 + g3 →
    manufacturerId B =
      if (∀ g ∈ [g1, g2, g3], 1 ≤ g ∧ g ≤ 26) then some ([g1, g2, g3].map fun g => Char.ofNat (64 + g)) else none

/-- R151: both sizes of a detailed timing are 12 bits wide (outside the block, log 21). -/
def Obligations.TimingSizesAreTwelveBits : Prop :=
  ∀ low shared : Byte,
    activeSize low shared = low.toNat + 256 * (shared.toNat / 16) ∧
    blankSize low shared = low.toNat + 256 * (shared.toNat % 16) ∧
    activeSize low shared < 4096 ∧ blankSize low shared < 4096

/-- R154: the walk starts at byte 4; each entry it reports lies before the boundary, and has the class of bits 7:5 and the length of bits
4:0 of the byte at its position; the next position is behind it; and the walk stops only at the boundary or before an entry that would
exceed it (D38). A boundary below 4 or above 127 is refused (U14). The bit positions are those of R141 (outside the block, log 21). -/
def Obligations.DataBlocksStayBeforeTheBoundary : Prop :=
  ∀ (X : List Byte) (d : Nat), (byteAt X 2).toNat = d →
    (d < 4 ∨ 127 < d → dataBlocks Config.fieldParams X = none) ∧
    (4 ≤ d → d ≤ 127 →
      ∃ (bs : List (DataBlockClass × Nat)) (pos : Nat → Nat), dataBlocks Config.fieldParams X = some bs ∧ pos 0 = 4 ∧
        (∀ j, j < bs.length →
          pos j < d ∧ pos (j + 1) = pos j + 1 + (byteAt X (pos j)).toNat % 32 ∧ pos (j + 1) ≤ d ∧
          bs[j]? = some (match (byteAt X (pos j)).toNat / 32 with
            | 1 => .audio | 2 => .video | 3 => .vendorSpecific | 4 => .speakerAllocation | _ => .unknown,
            (byteAt X (pos j)).toNat % 32)) ∧
        (d ≤ pos bs.length ∨ d < pos bs.length + 1 + (byteAt X (pos bs.length)).toNat % 32))

/-- R65: the wire form of a write frame starts with 0xA0 and of a read frame has 0xA0 and, after the repeated start, 0xA1 (PRESUMED,
log 22). -/
def Obligations.WireAddressBytes : Prop :=
  ∀ (bus : BusId) (reg : Byte) (data : List Byte) (n : Nat),
    wireWrite (writeFrame bus reg data) =
      [.start, .send 0xA0, .send reg] ++ data.map .send ++ [.stop] ∧
    wireRead (readFrame bus reg (n + 1)) =
      [.start, .send 0xA0, .send reg, .repeatedStart, .send 0xA1] ++
        List.replicate n (.receive true) ++ [.receive false, .stop]
end

