-- ==== Sys2Proof/Laws/State.lean ====
section
/-! SUPPORT. One lemma per field per named update of the state, so that no later proof unfolds a record update. -/

namespace Sys2Proof.Laws

open Sys2Proof Sys2Proof.Machine

variable (s : State)

/-! ### storeDoc -/

@[simp] theorem storeDoc_cmd (a : Nat) (bs : List Byte) : (storeDoc a bs s).cmd = s.cmd := rfl
@[simp] theorem storeDoc_status (a : Nat) (bs : List Byte) : (storeDoc a bs s).status = s.status := rfl
@[simp] theorem storeDoc_err (a : Nat) (bs : List Byte) : (storeDoc a bs s).err = s.err := rfl
@[simp] theorem storeDoc_aclass (a : Nat) (bs : List Byte) : (storeDoc a bs s).aclass = s.aclass := rfl
@[simp] theorem storeDoc_ioerr (a : Nat) (bs : List Byte) : (storeDoc a bs s).ioerr = s.ioerr := rfl
@[simp] theorem storeDoc_msg (a : Nat) (bs : List Byte) : (storeDoc a bs s).msg = s.msg := rfl
@[simp] theorem storeDoc_rval (a : Nat) (bs : List Byte) : (storeDoc a bs s).rval = s.rval := rfl
@[simp] theorem storeDoc_rvalid (a : Nat) (bs : List Byte) : (storeDoc a bs s).rvalid = s.rvalid := rfl
@[simp] theorem storeDoc_acc (a : Nat) (bs : List Byte) : (storeDoc a bs s).acc = s.acc := rfl
@[simp] theorem storeDoc_doc (a : Nat) (bs : List Byte) : (storeDoc a bs s).doc = s.doc.store a bs := rfl
@[simp] theorem storeDoc_dlen (a : Nat) (bs : List Byte) : (storeDoc a bs s).dlen = s.dlen := rfl
@[simp] theorem storeDoc_dev (a : Nat) (bs : List Byte) : (storeDoc a bs s).dev = s.dev := rfl
@[simp] theorem storeDoc_devlen (a : Nat) (bs : List Byte) : (storeDoc a bs s).devlen = s.devlen := rfl
@[simp] theorem storeDoc_wstate (a : Nat) (bs : List Byte) : (storeDoc a bs s).wstate = s.wstate := rfl
@[simp] theorem storeDoc_pageI (a : Nat) (bs : List Byte) : (storeDoc a bs s).pageI = s.pageI := rfl
@[simp] theorem storeDoc_pageN (a : Nat) (bs : List Byte) : (storeDoc a bs s).pageN = s.pageN := rfl
@[simp] theorem storeDoc_bkid (a : Nat) (bs : List Byte) : (storeDoc a bs s).bkid = s.bkid := rfl
@[simp] theorem storeDoc_bkvalid (a : Nat) (bs : List Byte) : (storeDoc a bs s).bkvalid = s.bkvalid := rfl
@[simp] theorem storeDoc_diff (a : Nat) (bs : List Byte) : (storeDoc a bs s).diff = s.diff := rfl
@[simp] theorem storeDoc_probe (a : Nat) (bs : List Byte) : (storeDoc a bs s).probe = s.probe := rfl
@[simp] theorem storeDoc_chbuf (a : Nat) (bs : List Byte) : (storeDoc a bs s).chbuf = s.chbuf := rfl
@[simp] theorem storeDoc_chn (a : Nat) (bs : List Byte) : (storeDoc a bs s).chn = s.chn := rfl
@[simp] theorem storeDoc_pgbuf (a : Nat) (bs : List Byte) : (storeDoc a bs s).pgbuf = s.pgbuf := rfl
@[simp] theorem storeDoc_platform (a : Nat) (bs : List Byte) : (storeDoc a bs s).platform = s.platform := rfl
@[simp] theorem storeDoc_settleDue (a : Nat) (bs : List Byte) : (storeDoc a bs s).settleDue = s.settleDue := rfl
@[simp] theorem storeDoc_busIn (a : Nat) (bs : List Byte) : (storeDoc a bs s).busIn = s.busIn := rfl
@[simp] theorem storeDoc_backupIn (a : Nat) (bs : List Byte) : (storeDoc a bs s).backupIn = s.backupIn := rfl
@[simp] theorem storeDoc_hostIn (a : Nat) (bs : List Byte) : (storeDoc a bs s).hostIn = s.hostIn := rfl
@[simp] theorem storeDoc_resetIn (a : Nat) (bs : List Byte) : (storeDoc a bs s).resetIn = s.resetIn := rfl
@[simp] theorem storeDoc_frameReq (a : Nat) (bs : List Byte) : (storeDoc a bs s).frameReq = s.frameReq := rfl
@[simp] theorem storeDoc_trace (a : Nat) (bs : List Byte) : (storeDoc a bs s).trace = s.trace := rfl
@[simp] theorem storeDoc_draws (a : Nat) (bs : List Byte) : (storeDoc a bs s).draws = s.draws := rfl
@[simp] theorem storeDoc_resets (a : Nat) (bs : List Byte) : (storeDoc a bs s).resets = s.resets := rfl

/-! ### storeDev -/

@[simp] theorem storeDev_cmd (a : Nat) (bs : List Byte) : (storeDev a bs s).cmd = s.cmd := rfl
@[simp] theorem storeDev_status (a : Nat) (bs : List Byte) : (storeDev a bs s).status = s.status := rfl
@[simp] theorem storeDev_err (a : Nat) (bs : List Byte) : (storeDev a bs s).err = s.err := rfl
@[simp] theorem storeDev_aclass (a : Nat) (bs : List Byte) : (storeDev a bs s).aclass = s.aclass := rfl
@[simp] theorem storeDev_ioerr (a : Nat) (bs : List Byte) : (storeDev a bs s).ioerr = s.ioerr := rfl
@[simp] theorem storeDev_msg (a : Nat) (bs : List Byte) : (storeDev a bs s).msg = s.msg := rfl
@[simp] theorem storeDev_rval (a : Nat) (bs : List Byte) : (storeDev a bs s).rval = s.rval := rfl
@[simp] theorem storeDev_rvalid (a : Nat) (bs : List Byte) : (storeDev a bs s).rvalid = s.rvalid := rfl
@[simp] theorem storeDev_acc (a : Nat) (bs : List Byte) : (storeDev a bs s).acc = s.acc := rfl
@[simp] theorem storeDev_doc (a : Nat) (bs : List Byte) : (storeDev a bs s).doc = s.doc := rfl
@[simp] theorem storeDev_dlen (a : Nat) (bs : List Byte) : (storeDev a bs s).dlen = s.dlen := rfl
@[simp] theorem storeDev_dev (a : Nat) (bs : List Byte) : (storeDev a bs s).dev = s.dev.store a bs := rfl
@[simp] theorem storeDev_devlen (a : Nat) (bs : List Byte) : (storeDev a bs s).devlen = s.devlen := rfl
@[simp] theorem storeDev_wstate (a : Nat) (bs : List Byte) : (storeDev a bs s).wstate = s.wstate := rfl
@[simp] theorem storeDev_pageI (a : Nat) (bs : List Byte) : (storeDev a bs s).pageI = s.pageI := rfl
@[simp] theorem storeDev_pageN (a : Nat) (bs : List Byte) : (storeDev a bs s).pageN = s.pageN := rfl
@[simp] theorem storeDev_bkid (a : Nat) (bs : List Byte) : (storeDev a bs s).bkid = s.bkid := rfl
@[simp] theorem storeDev_bkvalid (a : Nat) (bs : List Byte) : (storeDev a bs s).bkvalid = s.bkvalid := rfl
@[simp] theorem storeDev_diff (a : Nat) (bs : List Byte) : (storeDev a bs s).diff = s.diff := rfl
@[simp] theorem storeDev_probe (a : Nat) (bs : List Byte) : (storeDev a bs s).probe = s.probe := rfl
@[simp] theorem storeDev_chbuf (a : Nat) (bs : List Byte) : (storeDev a bs s).chbuf = s.chbuf := rfl
@[simp] theorem storeDev_chn (a : Nat) (bs : List Byte) : (storeDev a bs s).chn = s.chn := rfl
@[simp] theorem storeDev_pgbuf (a : Nat) (bs : List Byte) : (storeDev a bs s).pgbuf = s.pgbuf := rfl
@[simp] theorem storeDev_platform (a : Nat) (bs : List Byte) : (storeDev a bs s).platform = s.platform := rfl
@[simp] theorem storeDev_settleDue (a : Nat) (bs : List Byte) : (storeDev a bs s).settleDue = s.settleDue := rfl
@[simp] theorem storeDev_busIn (a : Nat) (bs : List Byte) : (storeDev a bs s).busIn = s.busIn := rfl
@[simp] theorem storeDev_backupIn (a : Nat) (bs : List Byte) : (storeDev a bs s).backupIn = s.backupIn := rfl
@[simp] theorem storeDev_hostIn (a : Nat) (bs : List Byte) : (storeDev a bs s).hostIn = s.hostIn := rfl
@[simp] theorem storeDev_resetIn (a : Nat) (bs : List Byte) : (storeDev a bs s).resetIn = s.resetIn := rfl
@[simp] theorem storeDev_frameReq (a : Nat) (bs : List Byte) : (storeDev a bs s).frameReq = s.frameReq := rfl
@[simp] theorem storeDev_trace (a : Nat) (bs : List Byte) : (storeDev a bs s).trace = s.trace := rfl
@[simp] theorem storeDev_draws (a : Nat) (bs : List Byte) : (storeDev a bs s).draws = s.draws := rfl
@[simp] theorem storeDev_resets (a : Nat) (bs : List Byte) : (storeDev a bs s).resets = s.resets := rfl

/-! ### clearDev -/

@[simp] theorem clearDev_cmd : (clearDev s).cmd = s.cmd := rfl
@[simp] theorem clearDev_status : (clearDev s).status = s.status := rfl
@[simp] theorem clearDev_err : (clearDev s).err = s.err := rfl
@[simp] theorem clearDev_aclass : (clearDev s).aclass = s.aclass := rfl
@[simp] theorem clearDev_ioerr : (clearDev s).ioerr = s.ioerr := rfl
@[simp] theorem clearDev_msg : (clearDev s).msg = s.msg := rfl
@[simp] theorem clearDev_rval : (clearDev s).rval = s.rval := rfl
@[simp] theorem clearDev_rvalid : (clearDev s).rvalid = s.rvalid := rfl
@[simp] theorem clearDev_acc : (clearDev s).acc = s.acc := rfl
@[simp] theorem clearDev_doc : (clearDev s).doc = s.doc := rfl
@[simp] theorem clearDev_dlen : (clearDev s).dlen = s.dlen := rfl
@[simp] theorem clearDev_dev : (clearDev s).dev = [] := rfl
@[simp] theorem clearDev_devlen : (clearDev s).devlen = 0 := rfl
@[simp] theorem clearDev_wstate : (clearDev s).wstate = s.wstate := rfl
@[simp] theorem clearDev_pageI : (clearDev s).pageI = s.pageI := rfl
@[simp] theorem clearDev_pageN : (clearDev s).pageN = s.pageN := rfl
@[simp] theorem clearDev_bkid : (clearDev s).bkid = s.bkid := rfl
@[simp] theorem clearDev_bkvalid : (clearDev s).bkvalid = s.bkvalid := rfl
@[simp] theorem clearDev_diff : (clearDev s).diff = s.diff := rfl
@[simp] theorem clearDev_probe : (clearDev s).probe = s.probe := rfl
@[simp] theorem clearDev_chbuf : (clearDev s).chbuf = s.chbuf := rfl
@[simp] theorem clearDev_chn : (clearDev s).chn = s.chn := rfl
@[simp] theorem clearDev_pgbuf : (clearDev s).pgbuf = s.pgbuf := rfl
@[simp] theorem clearDev_platform : (clearDev s).platform = s.platform := rfl
@[simp] theorem clearDev_settleDue : (clearDev s).settleDue = s.settleDue := rfl
@[simp] theorem clearDev_busIn : (clearDev s).busIn = s.busIn := rfl
@[simp] theorem clearDev_backupIn : (clearDev s).backupIn = s.backupIn := rfl
@[simp] theorem clearDev_hostIn : (clearDev s).hostIn = s.hostIn := rfl
@[simp] theorem clearDev_resetIn : (clearDev s).resetIn = s.resetIn := rfl
@[simp] theorem clearDev_frameReq : (clearDev s).frameReq = s.frameReq := rfl
@[simp] theorem clearDev_trace : (clearDev s).trace = s.trace := rfl
@[simp] theorem clearDev_draws : (clearDev s).draws = s.draws := rfl
@[simp] theorem clearDev_resets : (clearDev s).resets = s.resets := rfl

/-! ### putDevBlock -/

@[simp] theorem putDevBlock_cmd (k : Nat) (blk : List Byte) : (putDevBlock k blk s).cmd = s.cmd := rfl
@[simp] theorem putDevBlock_status (k : Nat) (blk : List Byte) : (putDevBlock k blk s).status = s.status := rfl
@[simp] theorem putDevBlock_err (k : Nat) (blk : List Byte) : (putDevBlock k blk s).err = s.err := rfl
@[simp] theorem putDevBlock_aclass (k : Nat) (blk : List Byte) : (putDevBlock k blk s).aclass = s.aclass := rfl
@[simp] theorem putDevBlock_ioerr (k : Nat) (blk : List Byte) : (putDevBlock k blk s).ioerr = s.ioerr := rfl
@[simp] theorem putDevBlock_msg (k : Nat) (blk : List Byte) : (putDevBlock k blk s).msg = s.msg := rfl
@[simp] theorem putDevBlock_rval (k : Nat) (blk : List Byte) : (putDevBlock k blk s).rval = s.rval := rfl
@[simp] theorem putDevBlock_rvalid (k : Nat) (blk : List Byte) : (putDevBlock k blk s).rvalid = s.rvalid := rfl
@[simp] theorem putDevBlock_acc (k : Nat) (blk : List Byte) : (putDevBlock k blk s).acc = s.acc := rfl
@[simp] theorem putDevBlock_doc (k : Nat) (blk : List Byte) : (putDevBlock k blk s).doc = s.doc := rfl
@[simp] theorem putDevBlock_dlen (k : Nat) (blk : List Byte) : (putDevBlock k blk s).dlen = s.dlen := rfl
@[simp] theorem putDevBlock_dev (k : Nat) (blk : List Byte) : (putDevBlock k blk s).dev = s.dev.store (128 * k) blk := rfl
@[simp] theorem putDevBlock_devlen (k : Nat) (blk : List Byte) : (putDevBlock k blk s).devlen = 128 * (k + 1) := rfl
@[simp] theorem putDevBlock_wstate (k : Nat) (blk : List Byte) : (putDevBlock k blk s).wstate = s.wstate := rfl
@[simp] theorem putDevBlock_pageI (k : Nat) (blk : List Byte) : (putDevBlock k blk s).pageI = s.pageI := rfl
@[simp] theorem putDevBlock_pageN (k : Nat) (blk : List Byte) : (putDevBlock k blk s).pageN = s.pageN := rfl
@[simp] theorem putDevBlock_bkid (k : Nat) (blk : List Byte) : (putDevBlock k blk s).bkid = s.bkid := rfl
@[simp] theorem putDevBlock_bkvalid (k : Nat) (blk : List Byte) : (putDevBlock k blk s).bkvalid = s.bkvalid := rfl
@[simp] theorem putDevBlock_diff (k : Nat) (blk : List Byte) : (putDevBlock k blk s).diff = s.diff := rfl
@[simp] theorem putDevBlock_probe (k : Nat) (blk : List Byte) : (putDevBlock k blk s).probe = s.probe := rfl
@[simp] theorem putDevBlock_chbuf (k : Nat) (blk : List Byte) : (putDevBlock k blk s).chbuf = s.chbuf := rfl
@[simp] theorem putDevBlock_chn (k : Nat) (blk : List Byte) : (putDevBlock k blk s).chn = s.chn := rfl
@[simp] theorem putDevBlock_pgbuf (k : Nat) (blk : List Byte) : (putDevBlock k blk s).pgbuf = s.pgbuf := rfl
@[simp] theorem putDevBlock_platform (k : Nat) (blk : List Byte) : (putDevBlock k blk s).platform = s.platform := rfl
@[simp] theorem putDevBlock_settleDue (k : Nat) (blk : List Byte) : (putDevBlock k blk s).settleDue = s.settleDue := rfl
@[simp] theorem putDevBlock_busIn (k : Nat) (blk : List Byte) : (putDevBlock k blk s).busIn = s.busIn := rfl
@[simp] theorem putDevBlock_backupIn (k : Nat) (blk : List Byte) : (putDevBlock k blk s).backupIn = s.backupIn := rfl
@[simp] theorem putDevBlock_hostIn (k : Nat) (blk : List Byte) : (putDevBlock k blk s).hostIn = s.hostIn := rfl
@[simp] theorem putDevBlock_resetIn (k : Nat) (blk : List Byte) : (putDevBlock k blk s).resetIn = s.resetIn := rfl
@[simp] theorem putDevBlock_frameReq (k : Nat) (blk : List Byte) : (putDevBlock k blk s).frameReq = s.frameReq := rfl
@[simp] theorem putDevBlock_trace (k : Nat) (blk : List Byte) : (putDevBlock k blk s).trace = s.trace := rfl
@[simp] theorem putDevBlock_draws (k : Nat) (blk : List Byte) : (putDevBlock k blk s).draws = s.draws := rfl
@[simp] theorem putDevBlock_resets (k : Nat) (blk : List Byte) : (putDevBlock k blk s).resets = s.resets := rfl

/-! ### startCommand -/

@[simp] theorem startCommand_cmd : (startCommand s).cmd = s.cmd := rfl
@[simp] theorem startCommand_status : (startCommand s).status = statusStarted := rfl
@[simp] theorem startCommand_err : (startCommand s).err = .none := rfl
@[simp] theorem startCommand_aclass : (startCommand s).aclass = .none := rfl
@[simp] theorem startCommand_ioerr : (startCommand s).ioerr = s.ioerr := rfl
@[simp] theorem startCommand_msg : (startCommand s).msg = .none := rfl
@[simp] theorem startCommand_rval : (startCommand s).rval = 0 := rfl
@[simp] theorem startCommand_rvalid : (startCommand s).rvalid = false := rfl
@[simp] theorem startCommand_acc : (startCommand s).acc = s.acc := rfl
@[simp] theorem startCommand_doc : (startCommand s).doc = s.doc := rfl
@[simp] theorem startCommand_dlen : (startCommand s).dlen = s.dlen := rfl
@[simp] theorem startCommand_dev : (startCommand s).dev = s.dev := rfl
@[simp] theorem startCommand_devlen : (startCommand s).devlen = s.devlen := rfl
@[simp] theorem startCommand_wstate : (startCommand s).wstate = s.wstate := rfl
@[simp] theorem startCommand_pageI : (startCommand s).pageI = s.pageI := rfl
@[simp] theorem startCommand_pageN : (startCommand s).pageN = s.pageN := rfl
@[simp] theorem startCommand_bkid : (startCommand s).bkid = s.bkid := rfl
@[simp] theorem startCommand_bkvalid : (startCommand s).bkvalid = s.bkvalid := rfl
@[simp] theorem startCommand_diff : (startCommand s).diff = s.diff := rfl
@[simp] theorem startCommand_probe : (startCommand s).probe = s.probe := rfl
@[simp] theorem startCommand_chbuf : (startCommand s).chbuf = s.chbuf := rfl
@[simp] theorem startCommand_chn : (startCommand s).chn = s.chn := rfl
@[simp] theorem startCommand_pgbuf : (startCommand s).pgbuf = s.pgbuf := rfl
@[simp] theorem startCommand_platform : (startCommand s).platform = s.platform := rfl
@[simp] theorem startCommand_settleDue : (startCommand s).settleDue = s.settleDue := rfl
@[simp] theorem startCommand_busIn : (startCommand s).busIn = s.busIn := rfl
@[simp] theorem startCommand_backupIn : (startCommand s).backupIn = s.backupIn := rfl
@[simp] theorem startCommand_hostIn : (startCommand s).hostIn = s.hostIn := rfl
@[simp] theorem startCommand_resetIn : (startCommand s).resetIn = s.resetIn := rfl
@[simp] theorem startCommand_frameReq : (startCommand s).frameReq = s.frameReq := rfl
@[simp] theorem startCommand_trace : (startCommand s).trace = s.trace := rfl
@[simp] theorem startCommand_draws : (startCommand s).draws = s.draws := rfl
@[simp] theorem startCommand_resets : (startCommand s).resets = s.resets := rfl

/-! ### result -/

@[simp] theorem result_cmd (ok : Bool) (e : ErrCode) (m : Msg) : (result ok e m s).cmd = s.cmd := rfl
@[simp] theorem result_status (ok : Bool) (e : ErrCode) (m : Msg) : (result ok e m s).status = statusResult ok := rfl
@[simp] theorem result_err (ok : Bool) (e : ErrCode) (m : Msg) : (result ok e m s).err = e := rfl
@[simp] theorem result_aclass (ok : Bool) (e : ErrCode) (m : Msg) : (result ok e m s).aclass = s.aclass := rfl
@[simp] theorem result_ioerr (ok : Bool) (e : ErrCode) (m : Msg) : (result ok e m s).ioerr = s.ioerr := rfl
@[simp] theorem result_msg (ok : Bool) (e : ErrCode) (m : Msg) : (result ok e m s).msg = m := rfl
@[simp] theorem result_rval (ok : Bool) (e : ErrCode) (m : Msg) : (result ok e m s).rval = s.rval := rfl
@[simp] theorem result_rvalid (ok : Bool) (e : ErrCode) (m : Msg) : (result ok e m s).rvalid = s.rvalid := rfl
@[simp] theorem result_acc (ok : Bool) (e : ErrCode) (m : Msg) : (result ok e m s).acc = s.acc := rfl
@[simp] theorem result_doc (ok : Bool) (e : ErrCode) (m : Msg) : (result ok e m s).doc = s.doc := rfl
@[simp] theorem result_dlen (ok : Bool) (e : ErrCode) (m : Msg) : (result ok e m s).dlen = s.dlen := rfl
@[simp] theorem result_dev (ok : Bool) (e : ErrCode) (m : Msg) : (result ok e m s).dev = s.dev := rfl
@[simp] theorem result_devlen (ok : Bool) (e : ErrCode) (m : Msg) : (result ok e m s).devlen = s.devlen := rfl
@[simp] theorem result_wstate (ok : Bool) (e : ErrCode) (m : Msg) : (result ok e m s).wstate = s.wstate := rfl
@[simp] theorem result_pageI (ok : Bool) (e : ErrCode) (m : Msg) : (result ok e m s).pageI = s.pageI := rfl
@[simp] theorem result_pageN (ok : Bool) (e : ErrCode) (m : Msg) : (result ok e m s).pageN = s.pageN := rfl
@[simp] theorem result_bkid (ok : Bool) (e : ErrCode) (m : Msg) : (result ok e m s).bkid = s.bkid := rfl
@[simp] theorem result_bkvalid (ok : Bool) (e : ErrCode) (m : Msg) : (result ok e m s).bkvalid = s.bkvalid := rfl
@[simp] theorem result_diff (ok : Bool) (e : ErrCode) (m : Msg) : (result ok e m s).diff = s.diff := rfl
@[simp] theorem result_probe (ok : Bool) (e : ErrCode) (m : Msg) : (result ok e m s).probe = s.probe := rfl
@[simp] theorem result_chbuf (ok : Bool) (e : ErrCode) (m : Msg) : (result ok e m s).chbuf = s.chbuf := rfl
@[simp] theorem result_chn (ok : Bool) (e : ErrCode) (m : Msg) : (result ok e m s).chn = s.chn := rfl
@[simp] theorem result_pgbuf (ok : Bool) (e : ErrCode) (m : Msg) : (result ok e m s).pgbuf = s.pgbuf := rfl
@[simp] theorem result_platform (ok : Bool) (e : ErrCode) (m : Msg) : (result ok e m s).platform = s.platform := rfl
@[simp] theorem result_settleDue (ok : Bool) (e : ErrCode) (m : Msg) : (result ok e m s).settleDue = s.settleDue := rfl
@[simp] theorem result_busIn (ok : Bool) (e : ErrCode) (m : Msg) : (result ok e m s).busIn = s.busIn := rfl
@[simp] theorem result_backupIn (ok : Bool) (e : ErrCode) (m : Msg) : (result ok e m s).backupIn = s.backupIn := rfl
@[simp] theorem result_hostIn (ok : Bool) (e : ErrCode) (m : Msg) : (result ok e m s).hostIn = s.hostIn := rfl
@[simp] theorem result_resetIn (ok : Bool) (e : ErrCode) (m : Msg) : (result ok e m s).resetIn = s.resetIn := rfl
@[simp] theorem result_frameReq (ok : Bool) (e : ErrCode) (m : Msg) : (result ok e m s).frameReq = s.frameReq := rfl
@[simp] theorem result_trace (ok : Bool) (e : ErrCode) (m : Msg) : (result ok e m s).trace = s.trace := rfl
@[simp] theorem result_draws (ok : Bool) (e : ErrCode) (m : Msg) : (result ok e m s).draws = s.draws := rfl
@[simp] theorem result_resets (ok : Bool) (e : ErrCode) (m : Msg) : (result ok e m s).resets = s.resets := rfl

/-! ### raise -/

@[simp] theorem raise_cmd (e : ErrCode) : (raise e s).cmd = s.cmd := rfl
@[simp] theorem raise_status (e : ErrCode) : (raise e s).status = statusFailed := rfl
@[simp] theorem raise_err (e : ErrCode) : (raise e s).err = e := rfl
@[simp] theorem raise_aclass (e : ErrCode) : (raise e s).aclass = s.aclass := rfl
@[simp] theorem raise_ioerr (e : ErrCode) : (raise e s).ioerr = s.ioerr := rfl
@[simp] theorem raise_msg (e : ErrCode) : (raise e s).msg = s.msg := rfl
@[simp] theorem raise_rval (e : ErrCode) : (raise e s).rval = s.rval := rfl
@[simp] theorem raise_rvalid (e : ErrCode) : (raise e s).rvalid = s.rvalid := rfl
@[simp] theorem raise_acc (e : ErrCode) : (raise e s).acc = s.acc := rfl
@[simp] theorem raise_doc (e : ErrCode) : (raise e s).doc = s.doc := rfl
@[simp] theorem raise_dlen (e : ErrCode) : (raise e s).dlen = s.dlen := rfl
@[simp] theorem raise_dev (e : ErrCode) : (raise e s).dev = s.dev := rfl
@[simp] theorem raise_devlen (e : ErrCode) : (raise e s).devlen = s.devlen := rfl
@[simp] theorem raise_wstate (e : ErrCode) : (raise e s).wstate = s.wstate := rfl
@[simp] theorem raise_pageI (e : ErrCode) : (raise e s).pageI = s.pageI := rfl
@[simp] theorem raise_pageN (e : ErrCode) : (raise e s).pageN = s.pageN := rfl
@[simp] theorem raise_bkid (e : ErrCode) : (raise e s).bkid = s.bkid := rfl
@[simp] theorem raise_bkvalid (e : ErrCode) : (raise e s).bkvalid = s.bkvalid := rfl
@[simp] theorem raise_diff (e : ErrCode) : (raise e s).diff = s.diff := rfl
@[simp] theorem raise_probe (e : ErrCode) : (raise e s).probe = s.probe := rfl
@[simp] theorem raise_chbuf (e : ErrCode) : (raise e s).chbuf = s.chbuf := rfl
@[simp] theorem raise_chn (e : ErrCode) : (raise e s).chn = s.chn := rfl
@[simp] theorem raise_pgbuf (e : ErrCode) : (raise e s).pgbuf = s.pgbuf := rfl
@[simp] theorem raise_platform (e : ErrCode) : (raise e s).platform = s.platform := rfl
@[simp] theorem raise_settleDue (e : ErrCode) : (raise e s).settleDue = s.settleDue := rfl
@[simp] theorem raise_busIn (e : ErrCode) : (raise e s).busIn = s.busIn := rfl
@[simp] theorem raise_backupIn (e : ErrCode) : (raise e s).backupIn = s.backupIn := rfl
@[simp] theorem raise_hostIn (e : ErrCode) : (raise e s).hostIn = s.hostIn := rfl
@[simp] theorem raise_resetIn (e : ErrCode) : (raise e s).resetIn = s.resetIn := rfl
@[simp] theorem raise_frameReq (e : ErrCode) : (raise e s).frameReq = s.frameReq := rfl
@[simp] theorem raise_trace (e : ErrCode) : (raise e s).trace = s.trace := rfl
@[simp] theorem raise_draws (e : ErrCode) : (raise e s).draws = s.draws := rfl
@[simp] theorem raise_resets (e : ErrCode) : (raise e s).resets = s.resets := rfl

/-! ### forgetStaging -/

@[simp] theorem forgetStaging_cmd : (forgetStaging s).cmd = s.cmd := rfl
@[simp] theorem forgetStaging_status : (forgetStaging s).status = s.status := rfl
@[simp] theorem forgetStaging_err : (forgetStaging s).err = s.err := rfl
@[simp] theorem forgetStaging_aclass : (forgetStaging s).aclass = s.aclass := rfl
@[simp] theorem forgetStaging_ioerr : (forgetStaging s).ioerr = s.ioerr := rfl
@[simp] theorem forgetStaging_msg : (forgetStaging s).msg = s.msg := rfl
@[simp] theorem forgetStaging_rval : (forgetStaging s).rval = s.rval := rfl
@[simp] theorem forgetStaging_rvalid : (forgetStaging s).rvalid = s.rvalid := rfl
@[simp] theorem forgetStaging_acc : (forgetStaging s).acc = s.acc := rfl
@[simp] theorem forgetStaging_doc : (forgetStaging s).doc = s.doc := rfl
@[simp] theorem forgetStaging_dlen : (forgetStaging s).dlen = s.dlen := rfl
@[simp] theorem forgetStaging_dev : (forgetStaging s).dev = s.dev := rfl
@[simp] theorem forgetStaging_devlen : (forgetStaging s).devlen = s.devlen := rfl
@[simp] theorem forgetStaging_wstate : (forgetStaging s).wstate = s.wstate := rfl
@[simp] theorem forgetStaging_pageI : (forgetStaging s).pageI = s.pageI := rfl
@[simp] theorem forgetStaging_pageN : (forgetStaging s).pageN = s.pageN := rfl
@[simp] theorem forgetStaging_bkid : (forgetStaging s).bkid = s.bkid := rfl
@[simp] theorem forgetStaging_bkvalid : (forgetStaging s).bkvalid = s.bkvalid := rfl
@[simp] theorem forgetStaging_diff : (forgetStaging s).diff = s.diff := rfl
@[simp] theorem forgetStaging_probe : (forgetStaging s).probe = s.probe := rfl
@[simp] theorem forgetStaging_chbuf : (forgetStaging s).chbuf = (List.range 32).map (Config.freeChbuf s.draws) := rfl
@[simp] theorem forgetStaging_chn : (forgetStaging s).chn = (Config.freeChn s.draws).val := rfl
@[simp] theorem forgetStaging_pgbuf : (forgetStaging s).pgbuf = (List.range 16).map (Config.freePgbuf s.draws) := rfl
@[simp] theorem forgetStaging_platform : (forgetStaging s).platform = s.platform := rfl
@[simp] theorem forgetStaging_settleDue : (forgetStaging s).settleDue = s.settleDue := rfl
@[simp] theorem forgetStaging_busIn : (forgetStaging s).busIn = s.busIn := rfl
@[simp] theorem forgetStaging_backupIn : (forgetStaging s).backupIn = s.backupIn := rfl
@[simp] theorem forgetStaging_hostIn : (forgetStaging s).hostIn = s.hostIn := rfl
@[simp] theorem forgetStaging_resetIn : (forgetStaging s).resetIn = s.resetIn := rfl
@[simp] theorem forgetStaging_frameReq : (forgetStaging s).frameReq = s.frameReq := rfl
@[simp] theorem forgetStaging_trace : (forgetStaging s).trace = s.trace := rfl
@[simp] theorem forgetStaging_draws : (forgetStaging s).draws = s.draws + 1 := rfl
@[simp] theorem forgetStaging_resets : (forgetStaging s).resets = s.resets := rfl

/-! ### accumulate -/

@[simp] theorem accumulate_cmd (S : List Byte) : (accumulate S s).cmd = s.cmd := rfl
@[simp] theorem accumulate_status (S : List Byte) : (accumulate S s).status = s.status := rfl
@[simp] theorem accumulate_err (S : List Byte) : (accumulate S s).err = s.err := rfl
@[simp] theorem accumulate_aclass (S : List Byte) : (accumulate S s).aclass = s.aclass := rfl
@[simp] theorem accumulate_ioerr (S : List Byte) : (accumulate S s).ioerr = s.ioerr := rfl
@[simp] theorem accumulate_msg (S : List Byte) : (accumulate S s).msg = s.msg := rfl
@[simp] theorem accumulate_rval (S : List Byte) : (accumulate S s).rval = s.rval := rfl
@[simp] theorem accumulate_rvalid (S : List Byte) : (accumulate S s).rvalid = s.rvalid := rfl
@[simp] theorem accumulate_acc (S : List Byte) : (accumulate S s).acc = accOf S := rfl
@[simp] theorem accumulate_doc (S : List Byte) : (accumulate S s).doc = s.doc := rfl
@[simp] theorem accumulate_dlen (S : List Byte) : (accumulate S s).dlen = s.dlen := rfl
@[simp] theorem accumulate_dev (S : List Byte) : (accumulate S s).dev = s.dev := rfl
@[simp] theorem accumulate_devlen (S : List Byte) : (accumulate S s).devlen = s.devlen := rfl
@[simp] theorem accumulate_wstate (S : List Byte) : (accumulate S s).wstate = s.wstate := rfl
@[simp] theorem accumulate_pageI (S : List Byte) : (accumulate S s).pageI = s.pageI := rfl
@[simp] theorem accumulate_pageN (S : List Byte) : (accumulate S s).pageN = s.pageN := rfl
@[simp] theorem accumulate_bkid (S : List Byte) : (accumulate S s).bkid = s.bkid := rfl
@[simp] theorem accumulate_bkvalid (S : List Byte) : (accumulate S s).bkvalid = s.bkvalid := rfl
@[simp] theorem accumulate_diff (S : List Byte) : (accumulate S s).diff = s.diff := rfl
@[simp] theorem accumulate_probe (S : List Byte) : (accumulate S s).probe = s.probe := rfl
@[simp] theorem accumulate_chbuf (S : List Byte) : (accumulate S s).chbuf = s.chbuf := rfl
@[simp] theorem accumulate_chn (S : List Byte) : (accumulate S s).chn = s.chn := rfl
@[simp] theorem accumulate_pgbuf (S : List Byte) : (accumulate S s).pgbuf = s.pgbuf := rfl
@[simp] theorem accumulate_platform (S : List Byte) : (accumulate S s).platform = s.platform := rfl
@[simp] theorem accumulate_settleDue (S : List Byte) : (accumulate S s).settleDue = s.settleDue := rfl
@[simp] theorem accumulate_busIn (S : List Byte) : (accumulate S s).busIn = s.busIn := rfl
@[simp] theorem accumulate_backupIn (S : List Byte) : (accumulate S s).backupIn = s.backupIn := rfl
@[simp] theorem accumulate_hostIn (S : List Byte) : (accumulate S s).hostIn = s.hostIn := rfl
@[simp] theorem accumulate_resetIn (S : List Byte) : (accumulate S s).resetIn = s.resetIn := rfl
@[simp] theorem accumulate_frameReq (S : List Byte) : (accumulate S s).frameReq = s.frameReq := rfl
@[simp] theorem accumulate_trace (S : List Byte) : (accumulate S s).trace = s.trace := rfl
@[simp] theorem accumulate_draws (S : List Byte) : (accumulate S s).draws = s.draws := rfl
@[simp] theorem accumulate_resets (S : List Byte) : (accumulate S s).resets = s.resets := rfl

/-! ### putRval -/

@[simp] theorem putRval_cmd (v : BitVec 16) : (putRval v s).cmd = s.cmd := rfl
@[simp] theorem putRval_status (v : BitVec 16) : (putRval v s).status = s.status := rfl
@[simp] theorem putRval_err (v : BitVec 16) : (putRval v s).err = s.err := rfl
@[simp] theorem putRval_aclass (v : BitVec 16) : (putRval v s).aclass = s.aclass := rfl
@[simp] theorem putRval_ioerr (v : BitVec 16) : (putRval v s).ioerr = s.ioerr := rfl
@[simp] theorem putRval_msg (v : BitVec 16) : (putRval v s).msg = s.msg := rfl
@[simp] theorem putRval_rval (v : BitVec 16) : (putRval v s).rval = v := rfl
@[simp] theorem putRval_rvalid (v : BitVec 16) : (putRval v s).rvalid = true := rfl
@[simp] theorem putRval_acc (v : BitVec 16) : (putRval v s).acc = s.acc := rfl
@[simp] theorem putRval_doc (v : BitVec 16) : (putRval v s).doc = s.doc := rfl
@[simp] theorem putRval_dlen (v : BitVec 16) : (putRval v s).dlen = s.dlen := rfl
@[simp] theorem putRval_dev (v : BitVec 16) : (putRval v s).dev = s.dev := rfl
@[simp] theorem putRval_devlen (v : BitVec 16) : (putRval v s).devlen = s.devlen := rfl
@[simp] theorem putRval_wstate (v : BitVec 16) : (putRval v s).wstate = s.wstate := rfl
@[simp] theorem putRval_pageI (v : BitVec 16) : (putRval v s).pageI = s.pageI := rfl
@[simp] theorem putRval_pageN (v : BitVec 16) : (putRval v s).pageN = s.pageN := rfl
@[simp] theorem putRval_bkid (v : BitVec 16) : (putRval v s).bkid = s.bkid := rfl
@[simp] theorem putRval_bkvalid (v : BitVec 16) : (putRval v s).bkvalid = s.bkvalid := rfl
@[simp] theorem putRval_diff (v : BitVec 16) : (putRval v s).diff = s.diff := rfl
@[simp] theorem putRval_probe (v : BitVec 16) : (putRval v s).probe = s.probe := rfl
@[simp] theorem putRval_chbuf (v : BitVec 16) : (putRval v s).chbuf = s.chbuf := rfl
@[simp] theorem putRval_chn (v : BitVec 16) : (putRval v s).chn = s.chn := rfl
@[simp] theorem putRval_pgbuf (v : BitVec 16) : (putRval v s).pgbuf = s.pgbuf := rfl
@[simp] theorem putRval_platform (v : BitVec 16) : (putRval v s).platform = s.platform := rfl
@[simp] theorem putRval_settleDue (v : BitVec 16) : (putRval v s).settleDue = s.settleDue := rfl
@[simp] theorem putRval_busIn (v : BitVec 16) : (putRval v s).busIn = s.busIn := rfl
@[simp] theorem putRval_backupIn (v : BitVec 16) : (putRval v s).backupIn = s.backupIn := rfl
@[simp] theorem putRval_hostIn (v : BitVec 16) : (putRval v s).hostIn = s.hostIn := rfl
@[simp] theorem putRval_resetIn (v : BitVec 16) : (putRval v s).resetIn = s.resetIn := rfl
@[simp] theorem putRval_frameReq (v : BitVec 16) : (putRval v s).frameReq = s.frameReq := rfl
@[simp] theorem putRval_trace (v : BitVec 16) : (putRval v s).trace = s.trace := rfl
@[simp] theorem putRval_draws (v : BitVec 16) : (putRval v s).draws = s.draws := rfl
@[simp] theorem putRval_resets (v : BitVec 16) : (putRval v s).resets = s.resets := rfl

/-! ### noteIoErr -/

@[simp] theorem noteIoErr_cmd (c : IoCode) : (noteIoErr c s).cmd = s.cmd := rfl
@[simp] theorem noteIoErr_status (c : IoCode) : (noteIoErr c s).status = s.status := rfl
@[simp] theorem noteIoErr_err (c : IoCode) : (noteIoErr c s).err = s.err := rfl
@[simp] theorem noteIoErr_aclass (c : IoCode) : (noteIoErr c s).aclass = aclassOf (classOf s.platform c) := rfl
@[simp] theorem noteIoErr_ioerr (c : IoCode) : (noteIoErr c s).ioerr = c := rfl
@[simp] theorem noteIoErr_msg (c : IoCode) : (noteIoErr c s).msg = s.msg := rfl
@[simp] theorem noteIoErr_rval (c : IoCode) : (noteIoErr c s).rval = s.rval := rfl
@[simp] theorem noteIoErr_rvalid (c : IoCode) : (noteIoErr c s).rvalid = s.rvalid := rfl
@[simp] theorem noteIoErr_acc (c : IoCode) : (noteIoErr c s).acc = s.acc := rfl
@[simp] theorem noteIoErr_doc (c : IoCode) : (noteIoErr c s).doc = s.doc := rfl
@[simp] theorem noteIoErr_dlen (c : IoCode) : (noteIoErr c s).dlen = s.dlen := rfl
@[simp] theorem noteIoErr_dev (c : IoCode) : (noteIoErr c s).dev = s.dev := rfl
@[simp] theorem noteIoErr_devlen (c : IoCode) : (noteIoErr c s).devlen = s.devlen := rfl
@[simp] theorem noteIoErr_wstate (c : IoCode) : (noteIoErr c s).wstate = s.wstate := rfl
@[simp] theorem noteIoErr_pageI (c : IoCode) : (noteIoErr c s).pageI = s.pageI := rfl
@[simp] theorem noteIoErr_pageN (c : IoCode) : (noteIoErr c s).pageN = s.pageN := rfl
@[simp] theorem noteIoErr_bkid (c : IoCode) : (noteIoErr c s).bkid = s.bkid := rfl
@[simp] theorem noteIoErr_bkvalid (c : IoCode) : (noteIoErr c s).bkvalid = s.bkvalid := rfl
@[simp] theorem noteIoErr_diff (c : IoCode) : (noteIoErr c s).diff = s.diff := rfl
@[simp] theorem noteIoErr_probe (c : IoCode) : (noteIoErr c s).probe = s.probe := rfl
@[simp] theorem noteIoErr_chbuf (c : IoCode) : (noteIoErr c s).chbuf = s.chbuf := rfl
@[simp] theorem noteIoErr_chn (c : IoCode) : (noteIoErr c s).chn = s.chn := rfl
@[simp] theorem noteIoErr_pgbuf (c : IoCode) : (noteIoErr c s).pgbuf = s.pgbuf := rfl
@[simp] theorem noteIoErr_platform (c : IoCode) : (noteIoErr c s).platform = s.platform := rfl
@[simp] theorem noteIoErr_settleDue (c : IoCode) : (noteIoErr c s).settleDue = s.settleDue := rfl
@[simp] theorem noteIoErr_busIn (c : IoCode) : (noteIoErr c s).busIn = s.busIn := rfl
@[simp] theorem noteIoErr_backupIn (c : IoCode) : (noteIoErr c s).backupIn = s.backupIn := rfl
@[simp] theorem noteIoErr_hostIn (c : IoCode) : (noteIoErr c s).hostIn = s.hostIn := rfl
@[simp] theorem noteIoErr_resetIn (c : IoCode) : (noteIoErr c s).resetIn = s.resetIn := rfl
@[simp] theorem noteIoErr_frameReq (c : IoCode) : (noteIoErr c s).frameReq = s.frameReq := rfl
@[simp] theorem noteIoErr_trace (c : IoCode) : (noteIoErr c s).trace = s.trace := rfl
@[simp] theorem noteIoErr_draws (c : IoCode) : (noteIoErr c s).draws = s.draws := rfl
@[simp] theorem noteIoErr_resets (c : IoCode) : (noteIoErr c s).resets = s.resets := rfl

/-! ### record -/

@[simp] theorem record_cmd (e : Event) : (record e s).cmd = s.cmd := rfl
@[simp] theorem record_status (e : Event) : (record e s).status = s.status := rfl
@[simp] theorem record_err (e : Event) : (record e s).err = s.err := rfl
@[simp] theorem record_aclass (e : Event) : (record e s).aclass = s.aclass := rfl
@[simp] theorem record_ioerr (e : Event) : (record e s).ioerr = s.ioerr := rfl
@[simp] theorem record_msg (e : Event) : (record e s).msg = s.msg := rfl
@[simp] theorem record_rval (e : Event) : (record e s).rval = s.rval := rfl
@[simp] theorem record_rvalid (e : Event) : (record e s).rvalid = s.rvalid := rfl
@[simp] theorem record_acc (e : Event) : (record e s).acc = s.acc := rfl
@[simp] theorem record_doc (e : Event) : (record e s).doc = s.doc := rfl
@[simp] theorem record_dlen (e : Event) : (record e s).dlen = s.dlen := rfl
@[simp] theorem record_dev (e : Event) : (record e s).dev = s.dev := rfl
@[simp] theorem record_devlen (e : Event) : (record e s).devlen = s.devlen := rfl
@[simp] theorem record_wstate (e : Event) : (record e s).wstate = s.wstate := rfl
@[simp] theorem record_pageI (e : Event) : (record e s).pageI = s.pageI := rfl
@[simp] theorem record_pageN (e : Event) : (record e s).pageN = s.pageN := rfl
@[simp] theorem record_bkid (e : Event) : (record e s).bkid = s.bkid := rfl
@[simp] theorem record_bkvalid (e : Event) : (record e s).bkvalid = s.bkvalid := rfl
@[simp] theorem record_diff (e : Event) : (record e s).diff = s.diff := rfl
@[simp] theorem record_probe (e : Event) : (record e s).probe = s.probe := rfl
@[simp] theorem record_chbuf (e : Event) : (record e s).chbuf = s.chbuf := rfl
@[simp] theorem record_chn (e : Event) : (record e s).chn = s.chn := rfl
@[simp] theorem record_pgbuf (e : Event) : (record e s).pgbuf = s.pgbuf := rfl
@[simp] theorem record_platform (e : Event) : (record e s).platform = s.platform := rfl
@[simp] theorem record_settleDue (e : Event) : (record e s).settleDue = s.settleDue := rfl
@[simp] theorem record_busIn (e : Event) : (record e s).busIn = s.busIn := rfl
@[simp] theorem record_backupIn (e : Event) : (record e s).backupIn = s.backupIn := rfl
@[simp] theorem record_hostIn (e : Event) : (record e s).hostIn = s.hostIn := rfl
@[simp] theorem record_resetIn (e : Event) : (record e s).resetIn = s.resetIn := rfl
@[simp] theorem record_frameReq (e : Event) : (record e s).frameReq = s.frameReq := rfl
@[simp] theorem record_trace (e : Event) : (record e s).trace = s.trace ++ [{ event := e, status := s.status, wstate := s.wstate, pageI := s.pageI, pageN := s.pageN }] := rfl
@[simp] theorem record_draws (e : Event) : (record e s).draws = s.draws := rfl
@[simp] theorem record_resets (e : Event) : (record e s).resets = s.resets := rfl

/-! ### takeBusAnswer -/

@[simp] theorem takeBusAnswer_cmd : (takeBusAnswer s).cmd = s.cmd := by unfold takeBusAnswer; split <;> rfl
@[simp] theorem takeBusAnswer_status : (takeBusAnswer s).status = s.status := by unfold takeBusAnswer; split <;> rfl
@[simp] theorem takeBusAnswer_err : (takeBusAnswer s).err = s.err := by unfold takeBusAnswer; split <;> rfl
@[simp] theorem takeBusAnswer_aclass : (takeBusAnswer s).aclass = s.aclass := by unfold takeBusAnswer; split <;> rfl
@[simp] theorem takeBusAnswer_ioerr : (takeBusAnswer s).ioerr = s.ioerr := by unfold takeBusAnswer; split <;> rfl
@[simp] theorem takeBusAnswer_msg : (takeBusAnswer s).msg = s.msg := by unfold takeBusAnswer; split <;> rfl
@[simp] theorem takeBusAnswer_rval : (takeBusAnswer s).rval = s.rval := by unfold takeBusAnswer; split <;> rfl
@[simp] theorem takeBusAnswer_rvalid : (takeBusAnswer s).rvalid = s.rvalid := by unfold takeBusAnswer; split <;> rfl
@[simp] theorem takeBusAnswer_acc : (takeBusAnswer s).acc = s.acc := by unfold takeBusAnswer; split <;> rfl
@[simp] theorem takeBusAnswer_doc : (takeBusAnswer s).doc = s.doc := by unfold takeBusAnswer; split <;> rfl
@[simp] theorem takeBusAnswer_dlen : (takeBusAnswer s).dlen = s.dlen := by unfold takeBusAnswer; split <;> rfl
@[simp] theorem takeBusAnswer_dev : (takeBusAnswer s).dev = s.dev := by unfold takeBusAnswer; split <;> rfl
@[simp] theorem takeBusAnswer_devlen : (takeBusAnswer s).devlen = s.devlen := by unfold takeBusAnswer; split <;> rfl
@[simp] theorem takeBusAnswer_wstate : (takeBusAnswer s).wstate = s.wstate := by unfold takeBusAnswer; split <;> rfl
@[simp] theorem takeBusAnswer_pageI : (takeBusAnswer s).pageI = s.pageI := by unfold takeBusAnswer; split <;> rfl
@[simp] theorem takeBusAnswer_pageN : (takeBusAnswer s).pageN = s.pageN := by unfold takeBusAnswer; split <;> rfl
@[simp] theorem takeBusAnswer_bkid : (takeBusAnswer s).bkid = s.bkid := by unfold takeBusAnswer; split <;> rfl
@[simp] theorem takeBusAnswer_bkvalid : (takeBusAnswer s).bkvalid = s.bkvalid := by unfold takeBusAnswer; split <;> rfl
@[simp] theorem takeBusAnswer_diff : (takeBusAnswer s).diff = s.diff := by unfold takeBusAnswer; split <;> rfl
@[simp] theorem takeBusAnswer_probe : (takeBusAnswer s).probe = s.probe := by unfold takeBusAnswer; split <;> rfl
@[simp] theorem takeBusAnswer_chbuf : (takeBusAnswer s).chbuf = s.chbuf := by unfold takeBusAnswer; split <;> rfl
@[simp] theorem takeBusAnswer_chn : (takeBusAnswer s).chn = s.chn := by unfold takeBusAnswer; split <;> rfl
@[simp] theorem takeBusAnswer_pgbuf : (takeBusAnswer s).pgbuf = s.pgbuf := by unfold takeBusAnswer; split <;> rfl
@[simp] theorem takeBusAnswer_platform : (takeBusAnswer s).platform = s.platform := by unfold takeBusAnswer; split <;> rfl
@[simp] theorem takeBusAnswer_settleDue : (takeBusAnswer s).settleDue = s.settleDue := by unfold takeBusAnswer; split <;> rfl
@[simp] theorem takeBusAnswer_busIn : (takeBusAnswer s).busIn = s.busIn.tail := by unfold takeBusAnswer; split <;> simp_all
@[simp] theorem takeBusAnswer_backupIn : (takeBusAnswer s).backupIn = s.backupIn := by unfold takeBusAnswer; split <;> rfl
@[simp] theorem takeBusAnswer_hostIn : (takeBusAnswer s).hostIn = s.hostIn := by unfold takeBusAnswer; split <;> rfl
@[simp] theorem takeBusAnswer_resetIn : (takeBusAnswer s).resetIn = s.resetIn := by unfold takeBusAnswer; split <;> rfl
@[simp] theorem takeBusAnswer_frameReq : (takeBusAnswer s).frameReq = s.frameReq := by unfold takeBusAnswer; split <;> rfl
@[simp] theorem takeBusAnswer_trace : (takeBusAnswer s).trace = s.trace := by unfold takeBusAnswer; split <;> rfl
@[simp] theorem takeBusAnswer_resets : (takeBusAnswer s).resets = s.resets := by unfold takeBusAnswer; split <;> rfl

/-! ### takeBackupAnswer -/

@[simp] theorem takeBackupAnswer_cmd : (takeBackupAnswer s).cmd = s.cmd := by unfold takeBackupAnswer; split <;> rfl
@[simp] theorem takeBackupAnswer_status : (takeBackupAnswer s).status = s.status := by unfold takeBackupAnswer; split <;> rfl
@[simp] theorem takeBackupAnswer_err : (takeBackupAnswer s).err = s.err := by unfold takeBackupAnswer; split <;> rfl
@[simp] theorem takeBackupAnswer_aclass : (takeBackupAnswer s).aclass = s.aclass := by unfold takeBackupAnswer; split <;> rfl
@[simp] theorem takeBackupAnswer_ioerr : (takeBackupAnswer s).ioerr = s.ioerr := by unfold takeBackupAnswer; split <;> rfl
@[simp] theorem takeBackupAnswer_msg : (takeBackupAnswer s).msg = s.msg := by unfold takeBackupAnswer; split <;> rfl
@[simp] theorem takeBackupAnswer_rval : (takeBackupAnswer s).rval = s.rval := by unfold takeBackupAnswer; split <;> rfl
@[simp] theorem takeBackupAnswer_rvalid : (takeBackupAnswer s).rvalid = s.rvalid := by unfold takeBackupAnswer; split <;> rfl
@[simp] theorem takeBackupAnswer_acc : (takeBackupAnswer s).acc = s.acc := by unfold takeBackupAnswer; split <;> rfl
@[simp] theorem takeBackupAnswer_doc : (takeBackupAnswer s).doc = s.doc := by unfold takeBackupAnswer; split <;> rfl
@[simp] theorem takeBackupAnswer_dlen : (takeBackupAnswer s).dlen = s.dlen := by unfold takeBackupAnswer; split <;> rfl
@[simp] theorem takeBackupAnswer_dev : (takeBackupAnswer s).dev = s.dev := by unfold takeBackupAnswer; split <;> rfl
@[simp] theorem takeBackupAnswer_devlen : (takeBackupAnswer s).devlen = s.devlen := by unfold takeBackupAnswer; split <;> rfl
@[simp] theorem takeBackupAnswer_wstate : (takeBackupAnswer s).wstate = s.wstate := by unfold takeBackupAnswer; split <;> rfl
@[simp] theorem takeBackupAnswer_pageI : (takeBackupAnswer s).pageI = s.pageI := by unfold takeBackupAnswer; split <;> rfl
@[simp] theorem takeBackupAnswer_pageN : (takeBackupAnswer s).pageN = s.pageN := by unfold takeBackupAnswer; split <;> rfl
@[simp] theorem takeBackupAnswer_bkid : (takeBackupAnswer s).bkid = s.bkid := by unfold takeBackupAnswer; split <;> rfl
@[simp] theorem takeBackupAnswer_bkvalid : (takeBackupAnswer s).bkvalid = s.bkvalid := by unfold takeBackupAnswer; split <;> rfl
@[simp] theorem takeBackupAnswer_diff : (takeBackupAnswer s).diff = s.diff := by unfold takeBackupAnswer; split <;> rfl
@[simp] theorem takeBackupAnswer_probe : (takeBackupAnswer s).probe = s.probe := by unfold takeBackupAnswer; split <;> rfl
@[simp] theorem takeBackupAnswer_chbuf : (takeBackupAnswer s).chbuf = s.chbuf := by unfold takeBackupAnswer; split <;> rfl
@[simp] theorem takeBackupAnswer_chn : (takeBackupAnswer s).chn = s.chn := by unfold takeBackupAnswer; split <;> rfl
@[simp] theorem takeBackupAnswer_pgbuf : (takeBackupAnswer s).pgbuf = s.pgbuf := by unfold takeBackupAnswer; split <;> rfl
@[simp] theorem takeBackupAnswer_platform : (takeBackupAnswer s).platform = s.platform := by unfold takeBackupAnswer; split <;> rfl
@[simp] theorem takeBackupAnswer_settleDue : (takeBackupAnswer s).settleDue = s.settleDue := by unfold takeBackupAnswer; split <;> rfl
@[simp] theorem takeBackupAnswer_busIn : (takeBackupAnswer s).busIn = s.busIn := by unfold takeBackupAnswer; split <;> rfl
@[simp] theorem takeBackupAnswer_backupIn : (takeBackupAnswer s).backupIn = s.backupIn.tail := by unfold takeBackupAnswer; split <;> simp_all
@[simp] theorem takeBackupAnswer_hostIn : (takeBackupAnswer s).hostIn = s.hostIn := by unfold takeBackupAnswer; split <;> rfl
@[simp] theorem takeBackupAnswer_resetIn : (takeBackupAnswer s).resetIn = s.resetIn := by unfold takeBackupAnswer; split <;> rfl
@[simp] theorem takeBackupAnswer_frameReq : (takeBackupAnswer s).frameReq = s.frameReq := by unfold takeBackupAnswer; split <;> rfl
@[simp] theorem takeBackupAnswer_trace : (takeBackupAnswer s).trace = s.trace := by unfold takeBackupAnswer; split <;> rfl
@[simp] theorem takeBackupAnswer_resets : (takeBackupAnswer s).resets = s.resets := by unfold takeBackupAnswer; split <;> rfl

/-! ### stageChunk -/

@[simp] theorem stageChunk_cmd (bytes : List Byte) : (stageChunk bytes s).cmd = s.cmd := rfl
@[simp] theorem stageChunk_status (bytes : List Byte) : (stageChunk bytes s).status = s.status := rfl
@[simp] theorem stageChunk_err (bytes : List Byte) : (stageChunk bytes s).err = s.err := rfl
@[simp] theorem stageChunk_aclass (bytes : List Byte) : (stageChunk bytes s).aclass = s.aclass := rfl
@[simp] theorem stageChunk_ioerr (bytes : List Byte) : (stageChunk bytes s).ioerr = s.ioerr := rfl
@[simp] theorem stageChunk_msg (bytes : List Byte) : (stageChunk bytes s).msg = s.msg := rfl
@[simp] theorem stageChunk_rval (bytes : List Byte) : (stageChunk bytes s).rval = s.rval := rfl
@[simp] theorem stageChunk_rvalid (bytes : List Byte) : (stageChunk bytes s).rvalid = s.rvalid := rfl
@[simp] theorem stageChunk_acc (bytes : List Byte) : (stageChunk bytes s).acc = s.acc := rfl
@[simp] theorem stageChunk_doc (bytes : List Byte) : (stageChunk bytes s).doc = s.doc := rfl
@[simp] theorem stageChunk_dlen (bytes : List Byte) : (stageChunk bytes s).dlen = s.dlen := rfl
@[simp] theorem stageChunk_dev (bytes : List Byte) : (stageChunk bytes s).dev = s.dev := rfl
@[simp] theorem stageChunk_devlen (bytes : List Byte) : (stageChunk bytes s).devlen = s.devlen := rfl
@[simp] theorem stageChunk_wstate (bytes : List Byte) : (stageChunk bytes s).wstate = s.wstate := rfl
@[simp] theorem stageChunk_pageI (bytes : List Byte) : (stageChunk bytes s).pageI = s.pageI := rfl
@[simp] theorem stageChunk_pageN (bytes : List Byte) : (stageChunk bytes s).pageN = s.pageN := rfl
@[simp] theorem stageChunk_bkid (bytes : List Byte) : (stageChunk bytes s).bkid = s.bkid := rfl
@[simp] theorem stageChunk_bkvalid (bytes : List Byte) : (stageChunk bytes s).bkvalid = s.bkvalid := rfl
@[simp] theorem stageChunk_diff (bytes : List Byte) : (stageChunk bytes s).diff = s.diff := rfl
@[simp] theorem stageChunk_probe (bytes : List Byte) : (stageChunk bytes s).probe = s.probe := rfl
@[simp] theorem stageChunk_chbuf (bytes : List Byte) : (stageChunk bytes s).chbuf = bytes ++ s.chbuf.drop bytes.length := rfl
@[simp] theorem stageChunk_chn (bytes : List Byte) : (stageChunk bytes s).chn = bytes.length := rfl
@[simp] theorem stageChunk_pgbuf (bytes : List Byte) : (stageChunk bytes s).pgbuf = s.pgbuf := rfl
@[simp] theorem stageChunk_platform (bytes : List Byte) : (stageChunk bytes s).platform = s.platform := rfl
@[simp] theorem stageChunk_settleDue (bytes : List Byte) : (stageChunk bytes s).settleDue = s.settleDue := rfl
@[simp] theorem stageChunk_busIn (bytes : List Byte) : (stageChunk bytes s).busIn = s.busIn := rfl
@[simp] theorem stageChunk_backupIn (bytes : List Byte) : (stageChunk bytes s).backupIn = s.backupIn := rfl
@[simp] theorem stageChunk_hostIn (bytes : List Byte) : (stageChunk bytes s).hostIn = s.hostIn := rfl
@[simp] theorem stageChunk_resetIn (bytes : List Byte) : (stageChunk bytes s).resetIn = s.resetIn := rfl
@[simp] theorem stageChunk_frameReq (bytes : List Byte) : (stageChunk bytes s).frameReq = s.frameReq := rfl
@[simp] theorem stageChunk_trace (bytes : List Byte) : (stageChunk bytes s).trace = s.trace := rfl
@[simp] theorem stageChunk_draws (bytes : List Byte) : (stageChunk bytes s).draws = s.draws := rfl
@[simp] theorem stageChunk_resets (bytes : List Byte) : (stageChunk bytes s).resets = s.resets := rfl

/-! ### noteReadAnswer -/

@[simp] theorem noteReadAnswer_cmd (a : BusAnswer) : (noteReadAnswer a s).cmd = s.cmd := by cases a <;> rfl
@[simp] theorem noteReadAnswer_status (a : BusAnswer) : (noteReadAnswer a s).status = s.status := by cases a <;> rfl
@[simp] theorem noteReadAnswer_err (a : BusAnswer) : (noteReadAnswer a s).err = s.err := by cases a <;> rfl
@[simp] theorem noteReadAnswer_msg (a : BusAnswer) : (noteReadAnswer a s).msg = s.msg := by cases a <;> rfl
@[simp] theorem noteReadAnswer_rval (a : BusAnswer) : (noteReadAnswer a s).rval = s.rval := by cases a <;> rfl
@[simp] theorem noteReadAnswer_rvalid (a : BusAnswer) : (noteReadAnswer a s).rvalid = s.rvalid := by cases a <;> rfl
@[simp] theorem noteReadAnswer_acc (a : BusAnswer) : (noteReadAnswer a s).acc = s.acc := by cases a <;> rfl
@[simp] theorem noteReadAnswer_doc (a : BusAnswer) : (noteReadAnswer a s).doc = s.doc := by cases a <;> rfl
@[simp] theorem noteReadAnswer_dlen (a : BusAnswer) : (noteReadAnswer a s).dlen = s.dlen := by cases a <;> rfl
@[simp] theorem noteReadAnswer_dev (a : BusAnswer) : (noteReadAnswer a s).dev = s.dev := by cases a <;> rfl
@[simp] theorem noteReadAnswer_devlen (a : BusAnswer) : (noteReadAnswer a s).devlen = s.devlen := by cases a <;> rfl
@[simp] theorem noteReadAnswer_wstate (a : BusAnswer) : (noteReadAnswer a s).wstate = s.wstate := by cases a <;> rfl
@[simp] theorem noteReadAnswer_pageI (a : BusAnswer) : (noteReadAnswer a s).pageI = s.pageI := by cases a <;> rfl
@[simp] theorem noteReadAnswer_pageN (a : BusAnswer) : (noteReadAnswer a s).pageN = s.pageN := by cases a <;> rfl
@[simp] theorem noteReadAnswer_bkid (a : BusAnswer) : (noteReadAnswer a s).bkid = s.bkid := by cases a <;> rfl
@[simp] theorem noteReadAnswer_bkvalid (a : BusAnswer) : (noteReadAnswer a s).bkvalid = s.bkvalid := by cases a <;> rfl
@[simp] theorem noteReadAnswer_diff (a : BusAnswer) : (noteReadAnswer a s).diff = s.diff := by cases a <;> rfl
@[simp] theorem noteReadAnswer_probe (a : BusAnswer) : (noteReadAnswer a s).probe = s.probe := by cases a <;> rfl
@[simp] theorem noteReadAnswer_pgbuf (a : BusAnswer) : (noteReadAnswer a s).pgbuf = s.pgbuf := by cases a <;> rfl
@[simp] theorem noteReadAnswer_platform (a : BusAnswer) : (noteReadAnswer a s).platform = s.platform := by cases a <;> rfl
@[simp] theorem noteReadAnswer_settleDue (a : BusAnswer) : (noteReadAnswer a s).settleDue = s.settleDue := by cases a <;> rfl
@[simp] theorem noteReadAnswer_busIn (a : BusAnswer) : (noteReadAnswer a s).busIn = s.busIn := by cases a <;> rfl
@[simp] theorem noteReadAnswer_backupIn (a : BusAnswer) : (noteReadAnswer a s).backupIn = s.backupIn := by cases a <;> rfl
@[simp] theorem noteReadAnswer_hostIn (a : BusAnswer) : (noteReadAnswer a s).hostIn = s.hostIn := by cases a <;> rfl
@[simp] theorem noteReadAnswer_resetIn (a : BusAnswer) : (noteReadAnswer a s).resetIn = s.resetIn := by cases a <;> rfl
@[simp] theorem noteReadAnswer_frameReq (a : BusAnswer) : (noteReadAnswer a s).frameReq = s.frameReq := by cases a <;> rfl
@[simp] theorem noteReadAnswer_trace (a : BusAnswer) : (noteReadAnswer a s).trace = s.trace := by cases a <;> rfl
@[simp] theorem noteReadAnswer_draws (a : BusAnswer) : (noteReadAnswer a s).draws = s.draws := by cases a <;> rfl
@[simp] theorem noteReadAnswer_resets (a : BusAnswer) : (noteReadAnswer a s).resets = s.resets := by cases a <;> rfl

/-! ### noteWriteAnswer -/

@[simp] theorem noteWriteAnswer_cmd (a : WriteAnswer) : (noteWriteAnswer a s).cmd = s.cmd := by cases a <;> rfl
@[simp] theorem noteWriteAnswer_status (a : WriteAnswer) : (noteWriteAnswer a s).status = s.status := by cases a <;> rfl
@[simp] theorem noteWriteAnswer_err (a : WriteAnswer) : (noteWriteAnswer a s).err = s.err := by cases a <;> rfl
@[simp] theorem noteWriteAnswer_msg (a : WriteAnswer) : (noteWriteAnswer a s).msg = s.msg := by cases a <;> rfl
@[simp] theorem noteWriteAnswer_rval (a : WriteAnswer) : (noteWriteAnswer a s).rval = s.rval := by cases a <;> rfl
@[simp] theorem noteWriteAnswer_rvalid (a : WriteAnswer) : (noteWriteAnswer a s).rvalid = s.rvalid := by cases a <;> rfl
@[simp] theorem noteWriteAnswer_acc (a : WriteAnswer) : (noteWriteAnswer a s).acc = s.acc := by cases a <;> rfl
@[simp] theorem noteWriteAnswer_doc (a : WriteAnswer) : (noteWriteAnswer a s).doc = s.doc := by cases a <;> rfl
@[simp] theorem noteWriteAnswer_dlen (a : WriteAnswer) : (noteWriteAnswer a s).dlen = s.dlen := by cases a <;> rfl
@[simp] theorem noteWriteAnswer_dev (a : WriteAnswer) : (noteWriteAnswer a s).dev = s.dev := by cases a <;> rfl
@[simp] theorem noteWriteAnswer_devlen (a : WriteAnswer) : (noteWriteAnswer a s).devlen = s.devlen := by cases a <;> rfl
@[simp] theorem noteWriteAnswer_wstate (a : WriteAnswer) : (noteWriteAnswer a s).wstate = s.wstate := by cases a <;> rfl
@[simp] theorem noteWriteAnswer_pageI (a : WriteAnswer) : (noteWriteAnswer a s).pageI = s.pageI := by cases a <;> rfl
@[simp] theorem noteWriteAnswer_pageN (a : WriteAnswer) : (noteWriteAnswer a s).pageN = s.pageN := by cases a <;> rfl
@[simp] theorem noteWriteAnswer_bkid (a : WriteAnswer) : (noteWriteAnswer a s).bkid = s.bkid := by cases a <;> rfl
@[simp] theorem noteWriteAnswer_bkvalid (a : WriteAnswer) : (noteWriteAnswer a s).bkvalid = s.bkvalid := by cases a <;> rfl
@[simp] theorem noteWriteAnswer_diff (a : WriteAnswer) : (noteWriteAnswer a s).diff = s.diff := by cases a <;> rfl
@[simp] theorem noteWriteAnswer_probe (a : WriteAnswer) : (noteWriteAnswer a s).probe = s.probe := by cases a <;> rfl
@[simp] theorem noteWriteAnswer_chbuf (a : WriteAnswer) : (noteWriteAnswer a s).chbuf = s.chbuf := by cases a <;> rfl
@[simp] theorem noteWriteAnswer_chn (a : WriteAnswer) : (noteWriteAnswer a s).chn = s.chn := by cases a <;> rfl
@[simp] theorem noteWriteAnswer_pgbuf (a : WriteAnswer) : (noteWriteAnswer a s).pgbuf = s.pgbuf := by cases a <;> rfl
@[simp] theorem noteWriteAnswer_platform (a : WriteAnswer) : (noteWriteAnswer a s).platform = s.platform := by cases a <;> rfl
@[simp] theorem noteWriteAnswer_settleDue (a : WriteAnswer) : (noteWriteAnswer a s).settleDue = s.settleDue := by cases a <;> rfl
@[simp] theorem noteWriteAnswer_busIn (a : WriteAnswer) : (noteWriteAnswer a s).busIn = s.busIn := by cases a <;> rfl
@[simp] theorem noteWriteAnswer_backupIn (a : WriteAnswer) : (noteWriteAnswer a s).backupIn = s.backupIn := by cases a <;> rfl
@[simp] theorem noteWriteAnswer_hostIn (a : WriteAnswer) : (noteWriteAnswer a s).hostIn = s.hostIn := by cases a <;> rfl
@[simp] theorem noteWriteAnswer_resetIn (a : WriteAnswer) : (noteWriteAnswer a s).resetIn = s.resetIn := by cases a <;> rfl
@[simp] theorem noteWriteAnswer_frameReq (a : WriteAnswer) : (noteWriteAnswer a s).frameReq = s.frameReq := by cases a <;> rfl
@[simp] theorem noteWriteAnswer_trace (a : WriteAnswer) : (noteWriteAnswer a s).trace = s.trace := by cases a <;> rfl
@[simp] theorem noteWriteAnswer_draws (a : WriteAnswer) : (noteWriteAnswer a s).draws = s.draws := by cases a <;> rfl
@[simp] theorem noteWriteAnswer_resets (a : WriteAnswer) : (noteWriteAnswer a s).resets = s.resets := by cases a <;> rfl

/-! ### stagePage -/

@[simp] theorem stagePage_cmd (p : Nat) : (stagePage p s).cmd = s.cmd := rfl
@[simp] theorem stagePage_status (p : Nat) : (stagePage p s).status = s.status := rfl
@[simp] theorem stagePage_err (p : Nat) : (stagePage p s).err = s.err := rfl
@[simp] theorem stagePage_aclass (p : Nat) : (stagePage p s).aclass = s.aclass := rfl
@[simp] theorem stagePage_ioerr (p : Nat) : (stagePage p s).ioerr = s.ioerr := rfl
@[simp] theorem stagePage_msg (p : Nat) : (stagePage p s).msg = s.msg := rfl
@[simp] theorem stagePage_rval (p : Nat) : (stagePage p s).rval = s.rval := rfl
@[simp] theorem stagePage_rvalid (p : Nat) : (stagePage p s).rvalid = s.rvalid := rfl
@[simp] theorem stagePage_acc (p : Nat) : (stagePage p s).acc = s.acc := rfl
@[simp] theorem stagePage_doc (p : Nat) : (stagePage p s).doc = s.doc := rfl
@[simp] theorem stagePage_dlen (p : Nat) : (stagePage p s).dlen = s.dlen := rfl
@[simp] theorem stagePage_dev (p : Nat) : (stagePage p s).dev = s.dev := rfl
@[simp] theorem stagePage_devlen (p : Nat) : (stagePage p s).devlen = s.devlen := rfl
@[simp] theorem stagePage_wstate (p : Nat) : (stagePage p s).wstate = s.wstate := rfl
@[simp] theorem stagePage_pageI (p : Nat) : (stagePage p s).pageI = s.pageI := rfl
@[simp] theorem stagePage_pageN (p : Nat) : (stagePage p s).pageN = s.pageN := rfl
@[simp] theorem stagePage_bkid (p : Nat) : (stagePage p s).bkid = s.bkid := rfl
@[simp] theorem stagePage_bkvalid (p : Nat) : (stagePage p s).bkvalid = s.bkvalid := rfl
@[simp] theorem stagePage_diff (p : Nat) : (stagePage p s).diff = s.diff := rfl
@[simp] theorem stagePage_probe (p : Nat) : (stagePage p s).probe = s.probe := rfl
@[simp] theorem stagePage_chbuf (p : Nat) : (stagePage p s).chbuf = s.chbuf := rfl
@[simp] theorem stagePage_chn (p : Nat) : (stagePage p s).chn = s.chn := rfl
@[simp] theorem stagePage_pgbuf (p : Nat) : (stagePage p s).pgbuf = loadDoc s (16 * p) 16 := rfl
@[simp] theorem stagePage_platform (p : Nat) : (stagePage p s).platform = s.platform := rfl
@[simp] theorem stagePage_settleDue (p : Nat) : (stagePage p s).settleDue = s.settleDue := rfl
@[simp] theorem stagePage_busIn (p : Nat) : (stagePage p s).busIn = s.busIn := rfl
@[simp] theorem stagePage_backupIn (p : Nat) : (stagePage p s).backupIn = s.backupIn := rfl
@[simp] theorem stagePage_hostIn (p : Nat) : (stagePage p s).hostIn = s.hostIn := rfl
@[simp] theorem stagePage_resetIn (p : Nat) : (stagePage p s).resetIn = s.resetIn := rfl
@[simp] theorem stagePage_frameReq (p : Nat) : (stagePage p s).frameReq = s.frameReq := rfl
@[simp] theorem stagePage_trace (p : Nat) : (stagePage p s).trace = s.trace := rfl
@[simp] theorem stagePage_draws (p : Nat) : (stagePage p s).draws = s.draws := rfl
@[simp] theorem stagePage_resets (p : Nat) : (stagePage p s).resets = s.resets := rfl

/-! ### noteBackup -/

@[simp] theorem noteBackup_cmd (a : BackupAnswer) : (noteBackup a s).cmd = s.cmd := by cases a <;> rfl
@[simp] theorem noteBackup_status (a : BackupAnswer) : (noteBackup a s).status = s.status := by cases a <;> rfl
@[simp] theorem noteBackup_err (a : BackupAnswer) : (noteBackup a s).err = s.err := by cases a <;> rfl
@[simp] theorem noteBackup_aclass (a : BackupAnswer) : (noteBackup a s).aclass = s.aclass := by cases a <;> rfl
@[simp] theorem noteBackup_ioerr (a : BackupAnswer) : (noteBackup a s).ioerr = s.ioerr := by cases a <;> rfl
@[simp] theorem noteBackup_msg (a : BackupAnswer) : (noteBackup a s).msg = s.msg := by cases a <;> rfl
@[simp] theorem noteBackup_rval (a : BackupAnswer) : (noteBackup a s).rval = s.rval := by cases a <;> rfl
@[simp] theorem noteBackup_rvalid (a : BackupAnswer) : (noteBackup a s).rvalid = s.rvalid := by cases a <;> rfl
@[simp] theorem noteBackup_acc (a : BackupAnswer) : (noteBackup a s).acc = s.acc := by cases a <;> rfl
@[simp] theorem noteBackup_doc (a : BackupAnswer) : (noteBackup a s).doc = s.doc := by cases a <;> rfl
@[simp] theorem noteBackup_dlen (a : BackupAnswer) : (noteBackup a s).dlen = s.dlen := by cases a <;> rfl
@[simp] theorem noteBackup_dev (a : BackupAnswer) : (noteBackup a s).dev = s.dev := by cases a <;> rfl
@[simp] theorem noteBackup_devlen (a : BackupAnswer) : (noteBackup a s).devlen = s.devlen := by cases a <;> rfl
@[simp] theorem noteBackup_wstate (a : BackupAnswer) : (noteBackup a s).wstate = s.wstate := by cases a <;> rfl
@[simp] theorem noteBackup_pageI (a : BackupAnswer) : (noteBackup a s).pageI = s.pageI := by cases a <;> rfl
@[simp] theorem noteBackup_pageN (a : BackupAnswer) : (noteBackup a s).pageN = s.pageN := by cases a <;> rfl
@[simp] theorem noteBackup_diff (a : BackupAnswer) : (noteBackup a s).diff = s.diff := by cases a <;> rfl
@[simp] theorem noteBackup_probe (a : BackupAnswer) : (noteBackup a s).probe = s.probe := by cases a <;> rfl
@[simp] theorem noteBackup_chbuf (a : BackupAnswer) : (noteBackup a s).chbuf = s.chbuf := by cases a <;> rfl
@[simp] theorem noteBackup_chn (a : BackupAnswer) : (noteBackup a s).chn = s.chn := by cases a <;> rfl
@[simp] theorem noteBackup_pgbuf (a : BackupAnswer) : (noteBackup a s).pgbuf = s.pgbuf := by cases a <;> rfl
@[simp] theorem noteBackup_platform (a : BackupAnswer) : (noteBackup a s).platform = s.platform := by cases a <;> rfl
@[simp] theorem noteBackup_settleDue (a : BackupAnswer) : (noteBackup a s).settleDue = s.settleDue := by cases a <;> rfl
@[simp] theorem noteBackup_busIn (a : BackupAnswer) : (noteBackup a s).busIn = s.busIn := by cases a <;> rfl
@[simp] theorem noteBackup_backupIn (a : BackupAnswer) : (noteBackup a s).backupIn = s.backupIn := by cases a <;> rfl
@[simp] theorem noteBackup_hostIn (a : BackupAnswer) : (noteBackup a s).hostIn = s.hostIn := by cases a <;> rfl
@[simp] theorem noteBackup_resetIn (a : BackupAnswer) : (noteBackup a s).resetIn = s.resetIn := by cases a <;> rfl
@[simp] theorem noteBackup_frameReq (a : BackupAnswer) : (noteBackup a s).frameReq = s.frameReq := by cases a <;> rfl
@[simp] theorem noteBackup_trace (a : BackupAnswer) : (noteBackup a s).trace = s.trace := by cases a <;> rfl
@[simp] theorem noteBackup_draws (a : BackupAnswer) : (noteBackup a s).draws = s.draws := by cases a <;> rfl
@[simp] theorem noteBackup_resets (a : BackupAnswer) : (noteBackup a s).resets = s.resets := by cases a <;> rfl

/-! ### addProbe -/

@[simp] theorem addProbe_cmd (b : BusId) (h : Bool) : (addProbe b h s).cmd = s.cmd := rfl
@[simp] theorem addProbe_status (b : BusId) (h : Bool) : (addProbe b h s).status = s.status := rfl
@[simp] theorem addProbe_err (b : BusId) (h : Bool) : (addProbe b h s).err = s.err := rfl
@[simp] theorem addProbe_aclass (b : BusId) (h : Bool) : (addProbe b h s).aclass = s.aclass := rfl
@[simp] theorem addProbe_ioerr (b : BusId) (h : Bool) : (addProbe b h s).ioerr = s.ioerr := rfl
@[simp] theorem addProbe_msg (b : BusId) (h : Bool) : (addProbe b h s).msg = s.msg := rfl
@[simp] theorem addProbe_rval (b : BusId) (h : Bool) : (addProbe b h s).rval = s.rval := rfl
@[simp] theorem addProbe_rvalid (b : BusId) (h : Bool) : (addProbe b h s).rvalid = s.rvalid := rfl
@[simp] theorem addProbe_acc (b : BusId) (h : Bool) : (addProbe b h s).acc = s.acc := rfl
@[simp] theorem addProbe_doc (b : BusId) (h : Bool) : (addProbe b h s).doc = s.doc := rfl
@[simp] theorem addProbe_dlen (b : BusId) (h : Bool) : (addProbe b h s).dlen = s.dlen := rfl
@[simp] theorem addProbe_dev (b : BusId) (h : Bool) : (addProbe b h s).dev = s.dev := rfl
@[simp] theorem addProbe_devlen (b : BusId) (h : Bool) : (addProbe b h s).devlen = s.devlen := rfl
@[simp] theorem addProbe_wstate (b : BusId) (h : Bool) : (addProbe b h s).wstate = s.wstate := rfl
@[simp] theorem addProbe_pageI (b : BusId) (h : Bool) : (addProbe b h s).pageI = s.pageI := rfl
@[simp] theorem addProbe_pageN (b : BusId) (h : Bool) : (addProbe b h s).pageN = s.pageN := rfl
@[simp] theorem addProbe_bkid (b : BusId) (h : Bool) : (addProbe b h s).bkid = s.bkid := rfl
@[simp] theorem addProbe_bkvalid (b : BusId) (h : Bool) : (addProbe b h s).bkvalid = s.bkvalid := rfl
@[simp] theorem addProbe_diff (b : BusId) (h : Bool) : (addProbe b h s).diff = s.diff := rfl
@[simp] theorem addProbe_probe (b : BusId) (h : Bool) : (addProbe b h s).probe = s.probe ++ [{ busId := b, hasEdid := h }] := rfl
@[simp] theorem addProbe_chbuf (b : BusId) (h : Bool) : (addProbe b h s).chbuf = s.chbuf := rfl
@[simp] theorem addProbe_chn (b : BusId) (h : Bool) : (addProbe b h s).chn = s.chn := rfl
@[simp] theorem addProbe_pgbuf (b : BusId) (h : Bool) : (addProbe b h s).pgbuf = s.pgbuf := rfl
@[simp] theorem addProbe_platform (b : BusId) (h : Bool) : (addProbe b h s).platform = s.platform := rfl
@[simp] theorem addProbe_settleDue (b : BusId) (h : Bool) : (addProbe b h s).settleDue = s.settleDue := rfl
@[simp] theorem addProbe_busIn (b : BusId) (h : Bool) : (addProbe b h s).busIn = s.busIn := rfl
@[simp] theorem addProbe_backupIn (b : BusId) (h : Bool) : (addProbe b h s).backupIn = s.backupIn := rfl
@[simp] theorem addProbe_hostIn (b : BusId) (h : Bool) : (addProbe b h s).hostIn = s.hostIn := rfl
@[simp] theorem addProbe_resetIn (b : BusId) (h : Bool) : (addProbe b h s).resetIn = s.resetIn := rfl
@[simp] theorem addProbe_frameReq (b : BusId) (h : Bool) : (addProbe b h s).frameReq = s.frameReq := rfl
@[simp] theorem addProbe_trace (b : BusId) (h : Bool) : (addProbe b h s).trace = s.trace := rfl
@[simp] theorem addProbe_draws (b : BusId) (h : Bool) : (addProbe b h s).draws = s.draws := rfl
@[simp] theorem addProbe_resets (b : BusId) (h : Bool) : (addProbe b h s).resets = s.resets := rfl

/-! ### setTimer -/

@[simp] theorem setTimer_cmd (r : Bool) : (setTimer r s).cmd = s.cmd := rfl
@[simp] theorem setTimer_status (r : Bool) : (setTimer r s).status = s.status := rfl
@[simp] theorem setTimer_err (r : Bool) : (setTimer r s).err = s.err := rfl
@[simp] theorem setTimer_aclass (r : Bool) : (setTimer r s).aclass = s.aclass := rfl
@[simp] theorem setTimer_ioerr (r : Bool) : (setTimer r s).ioerr = s.ioerr := rfl
@[simp] theorem setTimer_msg (r : Bool) : (setTimer r s).msg = s.msg := rfl
@[simp] theorem setTimer_rval (r : Bool) : (setTimer r s).rval = s.rval := rfl
@[simp] theorem setTimer_rvalid (r : Bool) : (setTimer r s).rvalid = s.rvalid := rfl
@[simp] theorem setTimer_acc (r : Bool) : (setTimer r s).acc = s.acc := rfl
@[simp] theorem setTimer_doc (r : Bool) : (setTimer r s).doc = s.doc := rfl
@[simp] theorem setTimer_dlen (r : Bool) : (setTimer r s).dlen = s.dlen := rfl
@[simp] theorem setTimer_dev (r : Bool) : (setTimer r s).dev = s.dev := rfl
@[simp] theorem setTimer_devlen (r : Bool) : (setTimer r s).devlen = s.devlen := rfl
@[simp] theorem setTimer_wstate (r : Bool) : (setTimer r s).wstate = s.wstate := rfl
@[simp] theorem setTimer_pageI (r : Bool) : (setTimer r s).pageI = s.pageI := rfl
@[simp] theorem setTimer_pageN (r : Bool) : (setTimer r s).pageN = s.pageN := rfl
@[simp] theorem setTimer_bkid (r : Bool) : (setTimer r s).bkid = s.bkid := rfl
@[simp] theorem setTimer_bkvalid (r : Bool) : (setTimer r s).bkvalid = s.bkvalid := rfl
@[simp] theorem setTimer_diff (r : Bool) : (setTimer r s).diff = s.diff := rfl
@[simp] theorem setTimer_probe (r : Bool) : (setTimer r s).probe = s.probe := rfl
@[simp] theorem setTimer_chbuf (r : Bool) : (setTimer r s).chbuf = s.chbuf := rfl
@[simp] theorem setTimer_chn (r : Bool) : (setTimer r s).chn = s.chn := rfl
@[simp] theorem setTimer_pgbuf (r : Bool) : (setTimer r s).pgbuf = s.pgbuf := rfl
@[simp] theorem setTimer_settleDue (r : Bool) : (setTimer r s).settleDue = r := rfl
@[simp] theorem setTimer_platform (r : Bool) : (setTimer r s).platform = s.platform := rfl
@[simp] theorem setTimer_busIn (r : Bool) : (setTimer r s).busIn = s.busIn := rfl
@[simp] theorem setTimer_backupIn (r : Bool) : (setTimer r s).backupIn = s.backupIn := rfl
@[simp] theorem setTimer_hostIn (r : Bool) : (setTimer r s).hostIn = s.hostIn := rfl
@[simp] theorem setTimer_resetIn (r : Bool) : (setTimer r s).resetIn = s.resetIn := rfl
@[simp] theorem setTimer_frameReq (r : Bool) : (setTimer r s).frameReq = s.frameReq := rfl
@[simp] theorem setTimer_trace (r : Bool) : (setTimer r s).trace = s.trace := rfl
@[simp] theorem setTimer_draws (r : Bool) : (setTimer r s).draws = s.draws := rfl
@[simp] theorem setTimer_resets (r : Bool) : (setTimer r s).resets = s.resets := rfl

/-! ### setWstate -/

@[simp] theorem setWstate_cmd (w : WState) : (setWstate w s).cmd = s.cmd := rfl
@[simp] theorem setWstate_status (w : WState) : (setWstate w s).status = s.status := rfl
@[simp] theorem setWstate_err (w : WState) : (setWstate w s).err = s.err := rfl
@[simp] theorem setWstate_aclass (w : WState) : (setWstate w s).aclass = s.aclass := rfl
@[simp] theorem setWstate_ioerr (w : WState) : (setWstate w s).ioerr = s.ioerr := rfl
@[simp] theorem setWstate_msg (w : WState) : (setWstate w s).msg = s.msg := rfl
@[simp] theorem setWstate_rval (w : WState) : (setWstate w s).rval = s.rval := rfl
@[simp] theorem setWstate_rvalid (w : WState) : (setWstate w s).rvalid = s.rvalid := rfl
@[simp] theorem setWstate_acc (w : WState) : (setWstate w s).acc = s.acc := rfl
@[simp] theorem setWstate_doc (w : WState) : (setWstate w s).doc = s.doc := rfl
@[simp] theorem setWstate_dlen (w : WState) : (setWstate w s).dlen = s.dlen := rfl
@[simp] theorem setWstate_dev (w : WState) : (setWstate w s).dev = s.dev := rfl
@[simp] theorem setWstate_devlen (w : WState) : (setWstate w s).devlen = s.devlen := rfl
@[simp] theorem setWstate_wstate (w : WState) : (setWstate w s).wstate = w := rfl
@[simp] theorem setWstate_pageI (w : WState) : (setWstate w s).pageI = s.pageI := rfl
@[simp] theorem setWstate_pageN (w : WState) : (setWstate w s).pageN = s.pageN := rfl
@[simp] theorem setWstate_bkid (w : WState) : (setWstate w s).bkid = s.bkid := rfl
@[simp] theorem setWstate_bkvalid (w : WState) : (setWstate w s).bkvalid = s.bkvalid := rfl
@[simp] theorem setWstate_diff (w : WState) : (setWstate w s).diff = s.diff := rfl
@[simp] theorem setWstate_probe (w : WState) : (setWstate w s).probe = s.probe := rfl
@[simp] theorem setWstate_chbuf (w : WState) : (setWstate w s).chbuf = s.chbuf := rfl
@[simp] theorem setWstate_chn (w : WState) : (setWstate w s).chn = s.chn := rfl
@[simp] theorem setWstate_pgbuf (w : WState) : (setWstate w s).pgbuf = s.pgbuf := rfl
@[simp] theorem setWstate_platform (w : WState) : (setWstate w s).platform = s.platform := rfl
@[simp] theorem setWstate_settleDue (w : WState) : (setWstate w s).settleDue = s.settleDue := rfl
@[simp] theorem setWstate_busIn (w : WState) : (setWstate w s).busIn = s.busIn := rfl
@[simp] theorem setWstate_backupIn (w : WState) : (setWstate w s).backupIn = s.backupIn := rfl
@[simp] theorem setWstate_hostIn (w : WState) : (setWstate w s).hostIn = s.hostIn := rfl
@[simp] theorem setWstate_resetIn (w : WState) : (setWstate w s).resetIn = s.resetIn := rfl
@[simp] theorem setWstate_frameReq (w : WState) : (setWstate w s).frameReq = s.frameReq := rfl
@[simp] theorem setWstate_trace (w : WState) : (setWstate w s).trace = s.trace := rfl
@[simp] theorem setWstate_draws (w : WState) : (setWstate w s).draws = s.draws := rfl
@[simp] theorem setWstate_resets (w : WState) : (setWstate w s).resets = s.resets := rfl

/-! ### clearWrite -/

@[simp] theorem clearWrite_cmd : (clearWrite s).cmd = s.cmd := rfl
@[simp] theorem clearWrite_status : (clearWrite s).status = s.status := rfl
@[simp] theorem clearWrite_err : (clearWrite s).err = s.err := rfl
@[simp] theorem clearWrite_aclass : (clearWrite s).aclass = s.aclass := rfl
@[simp] theorem clearWrite_ioerr : (clearWrite s).ioerr = s.ioerr := rfl
@[simp] theorem clearWrite_msg : (clearWrite s).msg = s.msg := rfl
@[simp] theorem clearWrite_rval : (clearWrite s).rval = s.rval := rfl
@[simp] theorem clearWrite_rvalid : (clearWrite s).rvalid = s.rvalid := rfl
@[simp] theorem clearWrite_acc : (clearWrite s).acc = s.acc := rfl
@[simp] theorem clearWrite_doc : (clearWrite s).doc = s.doc := rfl
@[simp] theorem clearWrite_dlen : (clearWrite s).dlen = s.dlen := rfl
@[simp] theorem clearWrite_dev : (clearWrite s).dev = s.dev := rfl
@[simp] theorem clearWrite_devlen : (clearWrite s).devlen = s.devlen := rfl
@[simp] theorem clearWrite_wstate : (clearWrite s).wstate = .idle := rfl
@[simp] theorem clearWrite_pageI : (clearWrite s).pageI = 0 := rfl
@[simp] theorem clearWrite_pageN : (clearWrite s).pageN = 0 := rfl
@[simp] theorem clearWrite_bkid : (clearWrite s).bkid = s.bkid := rfl
@[simp] theorem clearWrite_bkvalid : (clearWrite s).bkvalid = false := rfl
@[simp] theorem clearWrite_diff : (clearWrite s).diff = s.diff := rfl
@[simp] theorem clearWrite_probe : (clearWrite s).probe = s.probe := rfl
@[simp] theorem clearWrite_chbuf : (clearWrite s).chbuf = s.chbuf := rfl
@[simp] theorem clearWrite_chn : (clearWrite s).chn = s.chn := rfl
@[simp] theorem clearWrite_pgbuf : (clearWrite s).pgbuf = s.pgbuf := rfl
@[simp] theorem clearWrite_platform : (clearWrite s).platform = s.platform := rfl
@[simp] theorem clearWrite_settleDue : (clearWrite s).settleDue = s.settleDue := rfl
@[simp] theorem clearWrite_busIn : (clearWrite s).busIn = s.busIn := rfl
@[simp] theorem clearWrite_backupIn : (clearWrite s).backupIn = s.backupIn := rfl
@[simp] theorem clearWrite_hostIn : (clearWrite s).hostIn = s.hostIn := rfl
@[simp] theorem clearWrite_resetIn : (clearWrite s).resetIn = s.resetIn := rfl
@[simp] theorem clearWrite_frameReq : (clearWrite s).frameReq = s.frameReq := rfl
@[simp] theorem clearWrite_trace : (clearWrite s).trace = s.trace := rfl
@[simp] theorem clearWrite_draws : (clearWrite s).draws = s.draws := rfl
@[simp] theorem clearWrite_resets : (clearWrite s).resets = s.resets := rfl

/-! ### ownClears: the fields it never writes -/

@[simp] theorem ownClears_cmd (i : Instr) : (ownClears i s).cmd = s.cmd := by cases i <;> rfl
@[simp] theorem ownClears_status (i : Instr) : (ownClears i s).status = s.status := by cases i <;> rfl
@[simp] theorem ownClears_err (i : Instr) : (ownClears i s).err = s.err := by cases i <;> rfl
@[simp] theorem ownClears_aclass (i : Instr) : (ownClears i s).aclass = s.aclass := by cases i <;> rfl
@[simp] theorem ownClears_ioerr (i : Instr) : (ownClears i s).ioerr = s.ioerr := by cases i <;> rfl
@[simp] theorem ownClears_msg (i : Instr) : (ownClears i s).msg = s.msg := by cases i <;> rfl
@[simp] theorem ownClears_rval (i : Instr) : (ownClears i s).rval = s.rval := by cases i <;> rfl
@[simp] theorem ownClears_rvalid (i : Instr) : (ownClears i s).rvalid = s.rvalid := by cases i <;> rfl
@[simp] theorem ownClears_acc (i : Instr) : (ownClears i s).acc = s.acc := by cases i <;> rfl
@[simp] theorem ownClears_doc (i : Instr) : (ownClears i s).doc = s.doc := by cases i <;> rfl
@[simp] theorem ownClears_dlen (i : Instr) : (ownClears i s).dlen = s.dlen := by cases i <;> rfl
@[simp] theorem ownClears_dev (i : Instr) : (ownClears i s).dev = s.dev := by cases i <;> rfl
@[simp] theorem ownClears_devlen (i : Instr) : (ownClears i s).devlen = s.devlen := by cases i <;> rfl
@[simp] theorem ownClears_bkid (i : Instr) : (ownClears i s).bkid = s.bkid := by cases i <;> rfl
@[simp] theorem ownClears_chbuf (i : Instr) : (ownClears i s).chbuf = s.chbuf := by cases i <;> rfl
@[simp] theorem ownClears_chn (i : Instr) : (ownClears i s).chn = s.chn := by cases i <;> rfl
@[simp] theorem ownClears_pgbuf (i : Instr) : (ownClears i s).pgbuf = s.pgbuf := by cases i <;> rfl
@[simp] theorem ownClears_platform (i : Instr) : (ownClears i s).platform = s.platform := by cases i <;> rfl
@[simp] theorem ownClears_settleDue (i : Instr) : (ownClears i s).settleDue = s.settleDue := by cases i <;> rfl
@[simp] theorem ownClears_busIn (i : Instr) : (ownClears i s).busIn = s.busIn := by cases i <;> rfl
@[simp] theorem ownClears_backupIn (i : Instr) : (ownClears i s).backupIn = s.backupIn := by cases i <;> rfl
@[simp] theorem ownClears_hostIn (i : Instr) : (ownClears i s).hostIn = s.hostIn := by cases i <;> rfl
@[simp] theorem ownClears_resetIn (i : Instr) : (ownClears i s).resetIn = s.resetIn := by cases i <;> rfl
@[simp] theorem ownClears_frameReq (i : Instr) : (ownClears i s).frameReq = s.frameReq := by cases i <;> rfl
@[simp] theorem ownClears_trace (i : Instr) : (ownClears i s).trace = s.trace := by cases i <;> rfl
@[simp] theorem ownClears_draws (i : Instr) : (ownClears i s).draws = s.draws := by cases i <;> rfl
@[simp] theorem ownClears_resets (i : Instr) : (ownClears i s).resets = s.resets := by cases i <;> rfl

/-! ### enterPage -/

@[simp] theorem enterPage_cmd (p : Nat) : (enterPage p s).cmd = s.cmd := rfl
@[simp] theorem enterPage_status (p : Nat) : (enterPage p s).status = s.status := rfl
@[simp] theorem enterPage_err (p : Nat) : (enterPage p s).err = s.err := rfl
@[simp] theorem enterPage_aclass (p : Nat) : (enterPage p s).aclass = s.aclass := rfl
@[simp] theorem enterPage_ioerr (p : Nat) : (enterPage p s).ioerr = s.ioerr := rfl
@[simp] theorem enterPage_msg (p : Nat) : (enterPage p s).msg = s.msg := rfl
@[simp] theorem enterPage_rval (p : Nat) : (enterPage p s).rval = s.rval := rfl
@[simp] theorem enterPage_rvalid (p : Nat) : (enterPage p s).rvalid = s.rvalid := rfl
@[simp] theorem enterPage_acc (p : Nat) : (enterPage p s).acc = s.acc := rfl
@[simp] theorem enterPage_doc (p : Nat) : (enterPage p s).doc = s.doc := rfl
@[simp] theorem enterPage_dlen (p : Nat) : (enterPage p s).dlen = s.dlen := rfl
@[simp] theorem enterPage_dev (p : Nat) : (enterPage p s).dev = s.dev := rfl
@[simp] theorem enterPage_devlen (p : Nat) : (enterPage p s).devlen = s.devlen := rfl
@[simp] theorem enterPage_wstate (p : Nat) : (enterPage p s).wstate = .writing := rfl
@[simp] theorem enterPage_pageI (p : Nat) : (enterPage p s).pageI = p + 1 := rfl
@[simp] theorem enterPage_pageN (p : Nat) : (enterPage p s).pageN = s.pageN := rfl
@[simp] theorem enterPage_bkid (p : Nat) : (enterPage p s).bkid = s.bkid := rfl
@[simp] theorem enterPage_bkvalid (p : Nat) : (enterPage p s).bkvalid = s.bkvalid := rfl
@[simp] theorem enterPage_diff (p : Nat) : (enterPage p s).diff = s.diff := rfl
@[simp] theorem enterPage_probe (p : Nat) : (enterPage p s).probe = s.probe := rfl
@[simp] theorem enterPage_chbuf (p : Nat) : (enterPage p s).chbuf = s.chbuf := rfl
@[simp] theorem enterPage_chn (p : Nat) : (enterPage p s).chn = s.chn := rfl
@[simp] theorem enterPage_pgbuf (p : Nat) : (enterPage p s).pgbuf = s.pgbuf := rfl
@[simp] theorem enterPage_platform (p : Nat) : (enterPage p s).platform = s.platform := rfl
@[simp] theorem enterPage_settleDue (p : Nat) : (enterPage p s).settleDue = s.settleDue := rfl
@[simp] theorem enterPage_busIn (p : Nat) : (enterPage p s).busIn = s.busIn := rfl
@[simp] theorem enterPage_backupIn (p : Nat) : (enterPage p s).backupIn = s.backupIn := rfl
@[simp] theorem enterPage_hostIn (p : Nat) : (enterPage p s).hostIn = s.hostIn := rfl
@[simp] theorem enterPage_resetIn (p : Nat) : (enterPage p s).resetIn = s.resetIn := rfl
@[simp] theorem enterPage_frameReq (p : Nat) : (enterPage p s).frameReq = s.frameReq := rfl
@[simp] theorem enterPage_trace (p : Nat) : (enterPage p s).trace = s.trace := rfl
@[simp] theorem enterPage_draws (p : Nat) : (enterPage p s).draws = s.draws := rfl
@[simp] theorem enterPage_resets (p : Nat) : (enterPage p s).resets = s.resets := rfl

end Sys2Proof.Laws
end

