-- ==== Sys2Proof/Laws/Memory.lean ====
section
/-! SUPPORT. The laws of the document buffers: a read after a write gives what was written, a write leaves every other byte alone, and
every operation keeps the canonical form. -/

namespace Sys2Proof.Laws

open Sys2Proof Sys2Proof.Machine

/-! ### Lookup -/

theorem lookup_append (m n : Memory) (x : Nat) :
    Memory.lookup (m ++ n) x = (Memory.lookup m x).or (Memory.lookup n x) := by
  induction m with
  | nil => simp [Memory.lookup]
  | cons c m ih =>
    simp only [List.cons_append, Memory.lookup]
    split <;> simp_all

theorem lookup_filter (p : Nat → Bool) (m : Memory) (x : Nat) :
    Memory.lookup (m.filter fun c => p c.1) x = if p x then Memory.lookup m x else none := by
  induction m with
  | nil => simp [Memory.lookup]
  | cons c m ih =>
    by_cases hc : p c.1 = true
    · simp only [List.filter_cons, hc, if_true, Memory.lookup, ih]
      split
      · subst x; simp [hc]
      · rfl
    · rw [List.filter_cons_of_neg (by simpa using hc), ih]
      by_cases hx : x = c.1
      · subst hx; simp [hc]
      · simp [Memory.lookup, hx]

theorem lookup_cells (a : Nat) (bs : List Byte) (x : Nat) :
    Memory.lookup (Memory.cells a bs) x = if a ≤ x then bs[x - a]? else none := by
  induction bs generalizing a with
  | nil => simp [Memory.cells, Memory.lookup]
  | cons v bs ih =>
    simp only [Memory.cells, Memory.lookup, ih]
    rcases Nat.lt_trichotomy x a with h | h | h
    · simp [show ¬ x = a by omega, show ¬ a ≤ x by omega, show ¬ a + 1 ≤ x by omega]
    · simp [h]
    · obtain ⟨d, rfl⟩ : ∃ d, x = a + 1 + d := ⟨x - (a + 1), by omega⟩
      simp [show ¬ a + 1 + d = a by omega, show a ≤ a + 1 + d by omega, show a + 1 + d - a = d + 1 by omega]

theorem lookup_store (m : Memory) (a : Nat) (bs : List Byte) (x : Nat) :
    Memory.lookup (m.store a bs) x =
      if a ≤ x ∧ x < a + bs.length then bs[x - a]? else Memory.lookup m x := by
  have h1 := lookup_filter (fun y => decide (y < a)) m x
  have h2 := lookup_filter (fun y => decide (a + bs.length ≤ y)) m x
  simp only [Memory.store, lookup_append, h1, h2, lookup_cells, decide_eq_true_eq]
  by_cases hlo : x < a
  · have hn : ¬ (a ≤ x) := by omega
    have hh : ¬ (a + bs.length ≤ x) := by omega
    simp [hlo, hn, hh]
  · by_cases hhi : x < a + bs.length
    · have hle : a ≤ x := by omega
      have hh : ¬ (a + bs.length ≤ x) := by omega
      simp [hlo, hhi, hle, hh]
    · have hle : a ≤ x := by omega
      have hh : a + bs.length ≤ x := by omega
      have hnone : bs[x - a]? = none := List.getElem?_eq_none (by omega)
      simp [hlo, hhi, hle, hh, hnone]

/-! ### Reads -/

theorem read_store_outside (free : Nat → Byte) (m : Memory) {a : Nat} {bs : List Byte} {x : Nat}
    (h : x < a ∨ a + bs.length ≤ x) : (m.store a bs).read free x = m.read free x := by
  simp only [Memory.read, lookup_store, if_neg (show ¬ (a ≤ x ∧ x < a + bs.length) by omega)]

theorem read_store_inside (free : Nat → Byte) (m : Memory) {a : Nat} {bs : List Byte} {j : Nat}
    (h : j < bs.length) : (m.store a bs).read free (a + j) = bs[j] := by
  have hin : a ≤ a + j ∧ a + j < a + bs.length := by omega
  simp [Memory.read, lookup_store, hin, h]

theorem read_store_single (free : Nat → Byte) (m : Memory) (a x : Nat) (v : Byte) :
    (m.store a [v]).read free x = if x = a then v else m.read free x := by
  by_cases h : x = a
  · subst h
    simpa using read_store_inside free m (a := x) (bs := [v]) (j := 0) (by simp)
  · rw [if_neg h, read_store_outside]
    simp only [List.length_cons, List.length_nil]; omega

@[simp] theorem load_length (free : Nat → Byte) (m : Memory) (a n : Nat) : (m.load free a n).length = n := by
  simp [Memory.load]

theorem load_getElem (free : Nat → Byte) (m : Memory) (a n i : Nat) (h : i < (m.load free a n).length) :
    (m.load free a n)[i] = m.read free (a + i) := by
  simp [Memory.load, List.getElem_range']

theorem load_add (free : Nat → Byte) (m : Memory) (a n k : Nat) :
    m.load free a (n + k) = m.load free a n ++ m.load free (a + n) k := by
  simp [Memory.load, ← List.map_append]

theorem load_congr {free free' : Nat → Byte} {m m' : Memory} {a n : Nat}
    (h : ∀ i, i < n → m.read free (a + i) = m'.read free' (a + i)) : m.load free a n = m'.load free' a n := by
  refine List.ext_getElem (by simp) fun i h1 h2 => ?_
  rw [load_getElem, load_getElem, h i (by simpa using h1)]

theorem load_store_same (free : Nat → Byte) (m : Memory) (a : Nat) (bs : List Byte) :
    (m.store a bs).load free a bs.length = bs := by
  refine List.ext_getElem (by simp) fun i h1 h2 => ?_
  rw [load_getElem, read_store_inside]

theorem load_store_outside (free : Nat → Byte) (m : Memory) {a n b : Nat} {bs : List Byte}
    (h : a + n ≤ b ∨ b + bs.length ≤ a) : (m.store b bs).load free a n = m.load free a n :=
  load_congr fun i hi => read_store_outside free m (by omega)

/-- A slice of a load is the load of the slice. -/
theorem load_drop_take (free : Nat → Byte) (m : Memory) (a n i k : Nat) (h : i + k ≤ n) :
    ((m.load free a n).drop i).take k = m.load free (a + i) k := by
  refine List.ext_getElem (by simp; omega) fun j h1 h2 => ?_
  simp only [List.getElem_take, List.getElem_drop]
  rw [load_getElem, load_getElem, Nat.add_assoc]

/-! ### The canonical form -/

theorem cells_keys (a : Nat) (bs : List Byte) : (Memory.cells a bs).map (·.1) = List.range' a bs.length := by
  induction bs generalizing a with
  | nil => rfl
  | cons v bs ih => simp [Memory.cells, ih, List.range'_succ]

theorem mem_cells {a : Nat} {bs : List Byte} {c : Host.Cell} (h : c ∈ Memory.cells a bs) :
    a ≤ c.1 ∧ c.1 < a + bs.length := by
  have := List.mem_map_of_mem (f := fun c : Host.Cell => c.1) h
  rw [cells_keys, List.mem_range'_1] at this
  exact this

theorem pairwise_keys {m : Memory} : m.Pairwise (fun x y => x.1 < y.1) ↔ (m.map (·.1)).Pairwise (· < ·) := by
  rw [List.pairwise_map]

theorem wf_nil : Memory.wf [] := ⟨List.Pairwise.nil, by simp⟩

/-- A store keeps the canonical form. -/
theorem wf_store {m : Memory} {a : Nat} {bs : List Byte} (h : m.wf) (hcap : a + bs.length ≤ 32768) :
    (m.store a bs).wf := by
  obtain ⟨hp, hb⟩ := h
  refine ⟨?_, ?_⟩
  · rw [Memory.store, List.pairwise_append, List.pairwise_append]
    refine ⟨⟨hp.filter _, ?_, ?_⟩, hp.filter _, ?_⟩
    · rw [pairwise_keys, cells_keys]; exact List.pairwise_lt_range'
    · intro x hx y hy
      have h1 : x.1 < a := by simpa using (List.mem_filter.mp hx).2
      exact Nat.lt_of_lt_of_le h1 (mem_cells hy).1
    · intro x hx y hy
      have h2 : a + bs.length ≤ y.1 := by simpa using (List.mem_filter.mp hy).2
      rcases List.mem_append.mp hx with hx | hx
      · have h1 : x.1 < a := by simpa using (List.mem_filter.mp hx).2
        omega
      · have h1 := (mem_cells hx).2
        omega
  · intro c hc
    simp only [Memory.store, List.mem_append, List.mem_filter] at hc
    rcases hc with (⟨hc, -⟩ | hc) | ⟨hc, -⟩
    · exact hb c hc
    · have := (mem_cells hc).2
      simp only [Config.DOC_CAP]; omega
    · exact hb c hc

/-- Storing at the end of a buffer that lists exactly its first `a` offsets appends. -/
theorem store_at_end_keys {m : Memory} {a : Nat} {bs : List Byte} (h : m.map (·.1) = List.range a) :
    (m.store a bs).map (·.1) = List.range (a + bs.length) := by
  have hall : ∀ c ∈ m, c.1 < a := fun c hc => by
    have := List.mem_map_of_mem (f := fun c : Host.Cell => c.1) hc
    rw [h] at this; exact List.mem_range.mp this
  have h1 : m.filter (fun c => c.1 < a) = m := List.filter_eq_self.mpr fun c hc => by simpa using hall c hc
  have h2 : m.filter (fun c => a + bs.length ≤ c.1) = [] :=
    List.filter_eq_nil_iff.mpr fun c hc => by have := hall c hc; simp; omega
  rw [Memory.store, h1, h2, List.append_nil, List.map_append, h, cells_keys, List.range_eq_range',
    List.range_eq_range', ← List.range'_append]
  simp

/-- Overwriting one listed byte keeps the listed offsets. -/
theorem store_single_keys {m : Memory} {a n : Nat} {v : Byte} (h : m.map (·.1) = List.range n) (ha : a < n) :
    (m.store a [v]).map (·.1) = List.range n := by
  have hf : ∀ p : Nat → Bool, (m.filter fun c => p c.1).map (·.1) = (List.range n).filter p := fun p => by
    rw [← h, List.filter_map]; rfl
  have e1 := hf fun y => decide (y < a)
  have e2 := hf fun y => decide (a + 1 ≤ y)
  simp only [Memory.store, List.map_append, Memory.cells, List.map_cons, List.map_nil, List.length_cons, List.length_nil,
    Nat.zero_add, e1, e2]
  obtain ⟨k, rfl⟩ : ∃ k, n = a + (k + 1) := ⟨n - a - 1, by omega⟩
  have hr : List.range (a + (k + 1)) = List.range a ++ a :: List.range' (a + 1) k := by
    rw [List.range_eq_range', List.range_eq_range', ← List.range'_append, List.range'_succ]; simp
  have f1 : (List.range' (a + 1) k).filter (fun y => decide (y < a)) = [] :=
    List.filter_eq_nil_iff.mpr fun y hy => by rw [List.mem_range'_1] at hy; simp; omega
  have f2 : (List.range a).filter (fun y => decide (y < a)) = List.range a :=
    List.filter_eq_self.mpr fun y hy => by simpa using hy
  have f3 : (List.range a).filter (fun y => decide (a + 1 ≤ y)) = [] :=
    List.filter_eq_nil_iff.mpr fun y hy => by rw [List.mem_range] at hy; simp; omega
  have f4 : (List.range' (a + 1) k).filter (fun y => decide (a + 1 ≤ y)) = List.range' (a + 1) k :=
    List.filter_eq_self.mpr fun y hy => by rw [List.mem_range'_1] at hy; simp; omega
  rw [hr, List.filter_append, List.filter_append, List.filter_cons, List.filter_cons, f1, f2, f3, f4]
  simp

/-! ### Every operation on a buffer keeps its canonical form -/

theorem storeDoc_wf {s : State} {a : Nat} {bs : List Byte} (h : s.doc.wf) (hcap : a + bs.length ≤ 32768) :
    (storeDoc a bs s).doc.wf := wf_store h hcap

theorem storeDev_wf {s : State} {a : Nat} {bs : List Byte} (h : s.dev.wf) (hcap : a + bs.length ≤ 32768) :
    (storeDev a bs s).dev.wf := wf_store h hcap

theorem clearDev_wf (s : State) : (clearDev s).dev.wf := wf_nil

theorem putDevBlock_wf {s : State} {k : Nat} {blk : List Byte} (h : s.dev.wf) (hcap : 128 * k + blk.length ≤ 32768) :
    (putDevBlock k blk s).dev.wf := wf_store h hcap

theorem storeSelected_wf {bsel : BufSel} {s : State} {a : Nat} {v : Byte} (h1 : s.doc.wf) (h2 : s.dev.wf) (hcap : a < 32768) :
    (storeSelected bsel a v s).doc.wf ∧ (storeSelected bsel a v s).dev.wf := by
  cases bsel
  · exact ⟨wf_store h1 hcap, h2⟩
  · exact ⟨h1, wf_store h2 hcap⟩

theorem resetBlock_wf (s : State) : (resetBlock s).doc.wf ∧ (resetBlock s).dev.wf := ⟨wf_nil, wf_nil⟩

theorem reset_wf : State.reset.doc.wf ∧ State.reset.dev.wf := ⟨wf_nil, wf_nil⟩

end Sys2Proof.Laws
end

