-- ==== Sys2Proof/Laws/Checksum.lean ====
section
/-! SUPPORT. The arithmetic of the checksum (41_validator.md R90, R92, R95) and the shape of a block slice (40_document_model.md R82). -/

namespace Sys2Proof.Laws

open Sys2Proof Sys2Proof.Machine

@[simp] theorem byteSum_nil : byteSum [] = 0 := rfl

@[simp] theorem byteSum_cons (v : Byte) (S : List Byte) : byteSum (v :: S) = v.toNat + byteSum S := by
  simp [byteSum]

@[simp] theorem byteSum_append (S T : List Byte) : byteSum (S ++ T) = byteSum S + byteSum T := by
  simp [byteSum]

theorem foldl_add_toNat (S : List Byte) (a : Byte) :
    (S.foldl (fun acc b => acc + b) a).toNat = (a.toNat + byteSum S) % 256 := by
  induction S generalizing a with
  | nil => simp; omega
  | cons v S ih => simp [ih, Nat.add_assoc]

/-- The accumulator holds the sum of the bytes modulo 256 (R90). -/
theorem accOf_toNat (S : List Byte) : (accOf S).toNat = byteSum S % 256 := by
  simp [accOf, foldl_add_toNat]

theorem accOf_eq_zero_iff (S : List Byte) : accOf S = 0#8 ↔ byteSum S % 256 = 0 := by
  rw [← BitVec.toNat_inj, accOf_toNat]; simp

theorem checksumByte_toNat (v : Byte) : (checksumByte v).toNat = (256 - v.toNat) % 256 := by
  simp [checksumByte]

/-- The checksum byte cancels the sum it was computed from (R92). -/
theorem sum_with_checksum (S : List Byte) : (byteSum S + (checksumByte (accOf S)).toNat) % 256 = 0 := by
  rw [checksumByte_toNat, accOf_toNat]; omega

@[simp] theorem accumulate_eq (S : List Byte) (s : State) : (accumulate S s).acc = accOf S := rfl

/-! ### Block slices -/

theorem block_length (B : List Byte) (k : Nat) : (block B k).length = min 128 (B.length - 128 * k) := by
  simp [block, Config.BLOCK_SIZE]

theorem block_full_iff (B : List Byte) (k : Nat) : (block B k).length = 128 ↔ 128 * k + 128 ≤ B.length := by
  rw [block_length]; omega

theorem byteAt_eq_getElem {B : List Byte} {i : Nat} (h : i < B.length) : byteAt B i = B[i] := by
  simp [byteAt, h]

theorem byteAt_load (free : Nat → Byte) (m : Memory) (a n i : Nat) (h : i < n) :
    byteAt (m.load free a n) i = m.read free (a + i) := by
  rw [byteAt_eq_getElem (by simpa using h), load_getElem]

/-- A full block of a document in a buffer is the load of its 128 bytes. -/
theorem block_of_load (free : Nat → Byte) (m : Memory) (n k : Nat) (h : 128 * k + 128 ≤ n) :
    block (m.load free 0 n) k = m.load free (128 * k) 128 := by
  have := load_drop_take free m 0 n (128 * k) 128 h
  simpa [block, Config.BLOCK_SIZE] using this

@[simp] theorem docBytes_length (s : State) : (docBytes s).length = s.dlen := by simp [docBytes, loadDoc]

@[simp] theorem devBytes_length (s : State) : (devBytes s).length = s.devlen := by simp [devBytes, loadDev]

end Sys2Proof.Laws
end

