-- ==== Sys2Proof/Laws/Bus.lean ====
section
/-! SUPPORT. The procedures over the bus, each with one lemma that says what it does: the events (30_encoding.md R69), the frames
(42_frame_marshaller.md R101, R102), ReadBlock (R105) and ReadDocument (43_device_channel.md R120). -/

namespace Sys2Proof.Laws

open Sys2Proof Sys2Proof.Machine

/-! ### Results of procedures -/

@[simp] theorem andThen_done {α β : Type} (a : α) (s : State) (f : α → State → Res β) :
    (Res.done a s).andThen f = f a s := rfl

@[simp] theorem andThen_abandoned {α β : Type} (s : State) (f : α → State → Res β) :
    (Res.abandoned s : Res α).andThen f = .abandoned s := rfl

theorem andThen_assoc {α β γ : Type} (r : Res α) (f : α → State → Res β) (g : β → State → Res γ) :
    (r.andThen f).andThen g = r.andThen fun a s => (f a s).andThen g := by cases r <;> rfl

@[simp] theorem finish_done {α : Type} (a : α) (s : State) (f : α → State → State) :
    (Res.done a s).finish f = f a s := rfl

@[simp] theorem finish_abandoned {α : Type} (s : State) (f : α → State → State) :
    (Res.abandoned s : Res α).finish f = s := rfl

/-! ### Events -/

/-- The trace entry of an event emitted in state `s`. -/
def entryAt (s : State) (e : Event) : TraceEntry :=
  { event := e, status := s.status, wstate := s.wstate, pageI := s.pageI, pageN := s.pageN }

@[simp] theorem entryAt_event (s : State) (e : Event) : (entryAt s e).event = e := rfl

@[simp] theorem eventsOf_record (e : Event) (s : State) : eventsOf (record e s) = eventsOf s ++ [e] := by
  simp [eventsOf]

/-- Before an event there are three cases: a reset is due and strikes, a reset comes nearer, or none is on its way. -/
theorem beforeEvent_cases (s : State) :
    (s.resetIn = some 0 ∧ beforeEvent s = .abandoned (resetBlock s)) ∨
    (∃ k, s.resetIn = some (k + 1) ∧ beforeEvent s = .done () { s with resetIn := some k }) ∨
    (s.resetIn = none ∧ beforeEvent s = .done () s) := by
  unfold beforeEvent
  split <;> simp_all

@[simp] theorem beforeEvent_unreset {s : State} (h : s.resetIn = none) : beforeEvent s = .done () s := by
  simp [beforeEvent, h]

/-! ### The settle timer -/

theorem timerAfter_append (r : Bool) (xs ys : List Event) :
    timerAfter r (xs ++ ys) = (timerAfter r xs).bind fun d => timerAfter d ys := by
  induction xs generalizing r with
  | nil => rfl
  | cons x xs ih => cases x <;> simp only [List.cons_append, timerAfter, ih] <;> split <;> rfl

theorem settle_unreset {s : State} (h : s.resetIn = none) :
    settle s = .done () (record (.settle 10) (setTimer false s)) := by
  simp [settle, h, Config.SETTLE_MS]

@[simp] theorem awaitSettle_idle {s : State} (h : s.settleDue = false) : awaitSettle s = .done () s := by
  simp [awaitSettle, h]

@[simp] theorem awaitSettle_running {s : State} (h : s.settleDue = true) : awaitSettle s = settle s := by
  simp [awaitSettle, h]

@[simp] theorem heldSettle_idle {s : State} (h : s.settleDue = false) : heldSettle s = [] := by simp [heldSettle, h]

/-- The state once an outstanding settle delay has passed. -/
def afterSettle (s : State) : State := if s.settleDue then record (.settle 10) (setTimer false s) else s

theorem afterSettle_eq (s : State) :
    afterSettle s = { s with settleDue := false, trace := s.trace ++ (heldSettle s).map (entryAt s) } := by
  unfold afterSettle heldSettle
  cases h : s.settleDue
  · rw [if_neg (by decide), if_neg (by decide), List.map_nil, List.append_nil, ← h]
  · rfl

theorem awaitSettle_unreset {s : State} (h : s.resetIn = none) : awaitSettle s = .done () (afterSettle s) := by
  unfold awaitSettle afterSettle
  split
  · exact settle_unreset h
  · rfl

/-- A procedure that starts with `awaitSettle` may as well be preceded by it: after it the timer is idle. -/
theorem awaitSettle_andThen {α : Type} (s : State) (f : Unit → State → Res α) :
    ((awaitSettle s).andThen fun _ s => (awaitSettle s).andThen f) = (awaitSettle s).andThen f := by
  cases h : s.settleDue with
  | false => simp [h]
  | true =>
    rw [awaitSettle_running h, settle]
    rcases beforeEvent_cases s with ⟨h1, h2⟩ | ⟨k, h1, h2⟩ | ⟨h1, h2⟩ <;> rw [h2] <;> rfl

theorem busRead_awaits (bus : BusId) (reg : Byte) (n : Nat) (s : State) :
    busRead bus reg n s = (awaitSettle s).andThen fun _ s => busRead bus reg n s := by
  simp only [busRead, awaitSettle_andThen]

theorem busWrite_awaits (bus : BusId) (reg : Byte) (data : List Byte) (s : State) :
    busWrite bus reg data s = (awaitSettle s).andThen fun _ s => busWrite bus reg data s := by
  simp only [busWrite, awaitSettle_andThen]

/-- Emptying DEV and letting an outstanding settle delay pass are independent of each other. -/
theorem awaitSettle_clearDev {α : Type} (s : State) (f : Unit → State → Res α) :
    (awaitSettle (clearDev s)).andThen f = (awaitSettle s).andThen fun u s => f u (clearDev s) := by
  cases h : s.settleDue with
  | false => rw [awaitSettle_idle h, awaitSettle_idle (by simpa using h)]; rfl
  | true =>
    rw [awaitSettle_running h, awaitSettle_running (by simpa using h), settle, settle]
    have hr : (clearDev s).resetIn = s.resetIn := rfl
    rcases beforeEvent_cases s with ⟨h1, h2⟩ | ⟨k, h1, h2⟩ | ⟨h1, h2⟩ <;> rw [h2] <;>
      simp only [beforeEvent, hr, h1] <;> rfl

/-! ### Frames -/

/-- What a read frame leaves, with its answer. -/
def afterRead (bus : BusId) (reg : Byte) (n : Nat) (s : State) : State :=
  noteReadAnswer (readAnswer n s) (record (.rd (readFrame bus reg n) (readAnswer n s)) (takeBusAnswer s))

/-- What a write frame leaves, with its answer. -/
def afterWrite (bus : BusId) (reg : Byte) (data : List Byte) (s : State) : State :=
  setTimer true (noteWriteAnswer (writeAnswer s) (record (.wr (writeFrame bus reg data) (writeAnswer s)) (takeBusAnswer s)))

theorem busRead_unreset {bus : BusId} {reg : Byte} {n : Nat} {s : State} (h : s.resetIn = none) (hs : s.settleDue = false) :
    busRead bus reg n s = .done (readAnswer n s) (afterRead bus reg n s) := by
  simp [busRead, afterRead, h, hs]

theorem busWrite_unreset {bus : BusId} {reg : Byte} {data : List Byte} {s : State} (h : s.resetIn = none)
    (hs : s.settleDue = false) : busWrite bus reg data s = .done (writeAnswer s) (afterWrite bus reg data s) := by
  simp [busWrite, afterWrite, h, hs]

theorem hostBackup_unreset {bus : BusId} {bytes : List Byte} {s : State} (h : s.resetIn = none) :
    hostBackup bus bytes s =
      .done (backupAnswer s)
        (noteBackup (backupAnswer s) (record (.backup bus bytes (backupAnswer s)) (takeBackupAnswer s))) := by
  simp [hostBackup, h]

/-- A read frame that is answered with an I/O error stores it in IOERR and ACLASS. -/
theorem afterRead_ioErr {bus : BusId} {reg : Byte} {n : Nat} {s : State} {c : IoCode} {rest : List BusAnswer}
    (h : s.busIn = .ioErr c :: rest) :
    readAnswer n s = .ioErr c ∧
    afterRead bus reg n s = { s with
      ioerr := c, aclass := aclassOf (classOf s.platform c), chn := 0, busIn := rest
      trace := s.trace ++ [entryAt s (.rd (readFrame bus reg n) (.ioErr c))] } := by
  have ha : readAnswer n s = .ioErr c := by simp [readAnswer, busAnswer, h]
  exact ⟨ha, by simp [afterRead, ha, noteReadAnswer, noteIoErr, record, takeBusAnswer, h, entryAt]⟩

/-- A read frame that is answered with at most `n` bytes stages them. -/
theorem afterRead_ok {bus : BusId} {reg : Byte} {n : Nat} {s : State} {b : List Byte} {rest : List BusAnswer}
    (h : s.busIn = .ok b :: rest) (hb : b.length ≤ n) :
    readAnswer n s = .ok b ∧
    afterRead bus reg n s = { s with
      chbuf := b ++ s.chbuf.drop b.length, chn := b.length, busIn := rest
      trace := s.trace ++ [entryAt s (.rd (readFrame bus reg n) (.ok b))] } := by
  have ha : readAnswer n s = .ok b := by simp [readAnswer, busAnswer, h, List.take_of_length_le hb]
  exact ⟨ha, by simp [afterRead, ha, noteReadAnswer, stageChunk, record, takeBusAnswer, h, entryAt]⟩

/-! ### What a frame can do, whatever the answer -/

theorem aclassOf_ne_none (c : IoClass) : aclassOf c ≠ .none := by cases c <;> simp [aclassOf]

theorem readAnswer_length {n : Nat} {s : State} {b : List Byte} (h : readAnswer n s = .ok b) : b.length ≤ n := by
  unfold readAnswer at h
  split at h
  · cases h; simp
  · cases h

theorem takeBusAnswer_eq (s : State) :
    takeBusAnswer s = { s with busIn := s.busIn.tail, draws := (takeBusAnswer s).draws } := by
  unfold takeBusAnswer
  cases h : s.busIn <;> simp

theorem afterRead_frame (bus : BusId) (reg : Byte) (n : Nat) (s : State) :
    afterRead bus reg n s = { s with
      ioerr := (afterRead bus reg n s).ioerr, aclass := (afterRead bus reg n s).aclass
      chbuf := (afterRead bus reg n s).chbuf, chn := (afterRead bus reg n s).chn, busIn := s.busIn.tail
      trace := s.trace ++ [entryAt s (.rd (readFrame bus reg n) (readAnswer n s))]
      draws := (afterRead bus reg n s).draws } := by
  unfold afterRead
  rw [takeBusAnswer_eq]
  cases readAnswer n s <;> rfl

theorem afterWrite_frame (bus : BusId) (reg : Byte) (data : List Byte) (s : State) :
    afterWrite bus reg data s = { s with
      ioerr := (afterWrite bus reg data s).ioerr, aclass := (afterWrite bus reg data s).aclass, settleDue := true
      busIn := s.busIn.tail
      trace := s.trace ++ [entryAt s (.wr (writeFrame bus reg data) (writeAnswer s))]
      draws := (afterWrite bus reg data s).draws } := by
  unfold afterWrite
  rw [takeBusAnswer_eq]
  cases writeAnswer s <;> rfl

/-- What an I/O error on a read frame leaves in the registers (R101). -/
theorem afterRead_of_ioErr {bus : BusId} {reg : Byte} {n : Nat} {s : State} {c : IoCode} (h : readAnswer n s = .ioErr c) :
    (afterRead bus reg n s).ioerr = c ∧ (afterRead bus reg n s).aclass = aclassOf (classOf s.platform c) ∧
      (afterRead bus reg n s).chn = 0 ∧ (afterRead bus reg n s).chbuf = s.chbuf := by
  unfold afterRead
  rw [takeBusAnswer_eq, h]
  exact ⟨rfl, rfl, rfl, rfl⟩

/-- What the bytes of a read frame leave in the registers (R101). -/
theorem afterRead_of_ok {bus : BusId} {reg : Byte} {n : Nat} {s : State} {b : List Byte} (h : readAnswer n s = .ok b) :
    (afterRead bus reg n s).ioerr = s.ioerr ∧ (afterRead bus reg n s).aclass = s.aclass ∧
      (afterRead bus reg n s).chn = b.length ∧ (afterRead bus reg n s).chbuf = b ++ s.chbuf.drop b.length := by
  unfold afterRead
  rw [takeBusAnswer_eq, h]
  exact ⟨rfl, rfl, rfl, rfl⟩

/-- What a write frame leaves in the registers (R102). -/
theorem afterWrite_of_ioErr {bus : BusId} {reg : Byte} {data : List Byte} {s : State} {c : IoCode}
    (h : writeAnswer s = .ioErr c) :
    (afterWrite bus reg data s).ioerr = c ∧ (afterWrite bus reg data s).aclass = aclassOf (classOf s.platform c) := by
  unfold afterWrite
  rw [takeBusAnswer_eq, h]
  exact ⟨rfl, rfl⟩

/-- An acknowledged write frame leaves the registers alone (R102). -/
theorem afterWrite_of_ok {bus : BusId} {reg : Byte} {data : List Byte} {s : State} (h : writeAnswer s = .ok) :
    (afterWrite bus reg data s).ioerr = s.ioerr ∧ (afterWrite bus reg data s).aclass = s.aclass := by
  unfold afterWrite
  rw [takeBusAnswer_eq, h]
  exact ⟨rfl, rfl⟩

/-! ### What reading leaves alone -/

/-- `t` is `s` but for the staging of chunks, the answers taken and the trace. -/
abbrev SameButChunks (s t : State) : Prop :=
  t = { s with chbuf := t.chbuf, chn := t.chn, busIn := t.busIn, trace := t.trace }

/-- `t` is `s` but for `SameButChunks` and the document in DEV. -/
abbrev SameButDev (s t : State) : Prop :=
  t = { s with chbuf := t.chbuf, chn := t.chn, busIn := t.busIn, trace := t.trace, dev := t.dev, devlen := t.devlen }

theorem sameButDev_trans {s t u : State} (h1 : SameButDev s t) (h2 : SameButDev t u) : SameButDev s u := by
  rw [h2, h1]

theorem SameButChunks.toDev {s t : State} (h : SameButChunks s t) : SameButDev s t := by
  rw [h]

/-! ### ReadBlock -/

/-- The events of chunk reads at the listed document offsets. -/
def chunkReads (bus : BusId) (base : Nat) : List Nat → List (List Byte) → List Event
  | c :: cs, b :: bs => .rd (readFrame bus (regOff (base + c)) 32) (.ok b) :: chunkReads bus base cs bs
  | _, _ => []

/-- The chunks of a block whose frames are all answered: they are appended in order, and the length is tested at the end (R105). -/
theorem readChunks_answered (bus : BusId) (k : Nat) :
    ∀ (cs : List Nat) (bs : List (List Byte)) (blk : List Byte) (s : State) (rest : List BusAnswer),
      s.resetIn = none → s.settleDue = false → bs.length = cs.length → (∀ b ∈ bs, b.length ≤ 32) → s.busIn = bs.map .ok ++ rest →
      ∃ t, readChunks bus k cs blk s =
          .done (if (blk ++ bs.flatten).length = 128 then .ok (blk ++ bs.flatten) else .short (blk ++ bs.flatten).length) t ∧
        SameButChunks s t ∧ t.busIn = rest ∧
        t.trace = s.trace ++ (chunkReads bus (128 * k) cs bs).map (entryAt s) := by
  intro cs
  induction cs with
  | nil =>
    intro bs blk s rest _ _ hl _ hb
    obtain rfl : bs = [] := List.length_eq_zero_iff.mp hl
    refine ⟨s, ?_, rfl, by simpa using hb, by simp [chunkReads]⟩
    simp only [readChunks, List.flatten_nil, List.append_nil, Config.BLOCK_SIZE, ne_eq]
    split <;> simp_all
  | cons c cs ih =>
    intro bs blk s rest hr hs0 hl hle hb
    obtain ⟨b, bs, rfl⟩ : ∃ b bs', bs = b :: bs' := by
      cases bs with
      | nil => simp at hl
      | cons b bs => exact ⟨b, bs, rfl⟩
    have hb' : s.busIn = .ok b :: (bs.map .ok ++ rest) := by simpa using hb
    obtain ⟨ha, hs⟩ := afterRead_ok (bus := bus) (reg := regOff (128 * k + c)) hb' (hle b (by simp))
    obtain ⟨t, h1, h2, h3, h4⟩ := ih bs (blk ++ b) (afterRead bus (regOff (128 * k + c)) 32 s) rest
      (by rw [hs]; exact hr) (by rw [hs]; exact hs0) (by simpa using hl) (fun x hx => hle x (by simp [hx])) (by rw [hs])
    refine ⟨t, ?_, ?_, h3, ?_⟩
    · rw [readChunks]
      simp only [Config.BLOCK_SIZE, Config.RD_CHUNK]
      rw [busRead_unreset hr hs0, ha]
      simpa using h1
    · rw [h2, hs]
    · rw [h4, hs]
      simp [chunkReads, entryAt]

/-- An I/O error on a chunk stops the block at once (R105). -/
theorem readChunks_ioErr (bus : BusId) (k : Nat) (code : IoCode) :
    ∀ (cs : List Nat) (bs : List (List Byte)) (blk : List Byte) (s : State) (rest : List BusAnswer),
      s.resetIn = none → s.settleDue = false → bs.length < cs.length → (∀ b ∈ bs, b.length ≤ 32) →
      s.busIn = bs.map .ok ++ .ioErr code :: rest →
      ∃ t, readChunks bus k cs blk s = .done (.ioErr code) t ∧
        t = { s with chbuf := t.chbuf, chn := t.chn, busIn := rest, ioerr := code,
                     aclass := aclassOf (classOf s.platform code), trace := t.trace } ∧
        t.trace = s.trace ++ (chunkReads bus (128 * k) cs bs ++
          [Event.rd (readFrame bus (regOff (128 * k + cs.getD bs.length 0)) 32) (.ioErr code)]).map (entryAt s) := by
  intro cs
  induction cs with
  | nil => intro bs blk s rest _ _ hl; simp at hl
  | cons c cs ih =>
    intro bs blk s rest hr hs0 hl hle hb
    cases bs with
    | nil =>
      obtain ⟨ha, hs⟩ := afterRead_ioErr (bus := bus) (reg := regOff (128 * k + c)) (n := 32) (by simpa using hb)
      refine ⟨afterRead bus (regOff (128 * k + c)) 32 s, ?_, by rw [hs], ?_⟩
      · rw [readChunks]
        simp only [Config.BLOCK_SIZE, Config.RD_CHUNK]
        rw [busRead_unreset hr hs0, ha]; rfl
      · rw [hs]; simp [chunkReads]
    | cons b bs =>
      have hb' : s.busIn = .ok b :: (bs.map .ok ++ .ioErr code :: rest) := by simpa using hb
      obtain ⟨ha, hs⟩ := afterRead_ok (bus := bus) (reg := regOff (128 * k + c)) hb' (hle b (by simp))
      obtain ⟨t, h1, h2, h3⟩ := ih bs (blk ++ b) (afterRead bus (regOff (128 * k + c)) 32 s) rest
        (by rw [hs]; exact hr) (by rw [hs]; exact hs0) (by simpa using hl) (fun x hx => hle x (by simp [hx])) (by rw [hs])
      refine ⟨t, ?_, ?_, ?_⟩
      · rw [readChunks]
        simp only [Config.BLOCK_SIZE, Config.RD_CHUNK]
        rw [busRead_unreset hr hs0, ha]
        simpa using h1
      · rw [h2, hs]
      · rw [h3, hs]; simp [chunkReads, entryAt]

/-- A block whose four chunks are all answered (R105). -/
theorem readBlock_answered {bus : BusId} {k : Nat} {s : State} {bs : List (List Byte)} {rest : List BusAnswer}
    (hr : s.resetIn = none) (hs : s.settleDue = false) (hl : bs.length = 4) (hle : ∀ b ∈ bs, b.length ≤ 32)
    (hb : s.busIn = bs.map .ok ++ rest) :
    ∃ t, readBlock bus k s =
        .done (if bs.flatten.length = 128 then .ok bs.flatten else .short bs.flatten.length) t ∧
      SameButChunks s t ∧ t.busIn = rest ∧
      t.trace = s.trace ++ (chunkReads bus (128 * k) [0, 32, 64, 96] bs).map (entryAt s) := by
  simpa [readBlock, Config.CHUNK_OFFS] using
    readChunks_answered bus k [0, 32, 64, 96] bs [] s rest hr hs (by simpa using hl) hle hb

/-! ### ReadDocument -/

/-- The chunks of block `k` of a document. -/
def blockChunks (D : List Byte) (k : Nat) : List (List Byte) :=
  [chunk D (4 * k), chunk D (4 * k + 1), chunk D (4 * k + 2), chunk D (4 * k + 3)]

theorem chunk_length {D : List Byte} {i : Nat} (h : 32 * i + 32 ≤ D.length) : (chunk D i).length = 32 := by
  simp [chunk]; omega

theorem blockChunks_flatten (D : List Byte) (k : Nat) : (blockChunks D k).flatten = block D k := by
  have h : ∀ (L : List Byte) (i n : Nat), L.take (n + i) = L.take n ++ (L.drop n).take i := fun L i n => by
    rw [List.take_add]
  simp only [blockChunks, chunk, block, Config.BLOCK_SIZE, List.flatten_cons, List.flatten_nil, List.append_nil]
  rw [show 128 = 32 + (32 + (32 + 32)) from rfl, h, h, h, List.drop_drop, List.drop_drop, List.drop_drop]
  simp only [show 32 * (4 * k) = 128 * k by omega, show 32 * (4 * k + 1) = 128 * k + 32 by omega,
    show 32 * (4 * k + 2) = 128 * k + 32 + 32 by omega, show 32 * (4 * k + 3) = 128 * k + 32 + 32 + 32 by omega]

/-- The chunks of `n` blocks of a document from block `k` on. -/
def blockRun (D : List Byte) (k n : Nat) : List (List Byte) := (List.range' k n).flatMap (blockChunks D)

/-- The events that read `n` blocks of a document from block `k` on. -/
def blockReads (bus : BusId) (D : List Byte) (k n : Nat) : List Event :=
  (List.range' k n).flatMap fun j => chunkReads bus (128 * j) [0, 32, 64, 96] (blockChunks D j)

@[simp] theorem blockRun_zero (D : List Byte) (k : Nat) : blockRun D k 0 = [] := rfl

theorem blockRun_succ (D : List Byte) (k n : Nat) : blockRun D k (n + 1) = blockChunks D k ++ blockRun D (k + 1) n := by
  simp [blockRun, List.range'_succ]

@[simp] theorem blockReads_zero (bus : BusId) (D : List Byte) (k : Nat) : blockReads bus D k 0 = [] := rfl

theorem blockReads_succ (bus : BusId) (D : List Byte) (k n : Nat) :
    blockReads bus D k (n + 1) = chunkReads bus (128 * k) [0, 32, 64, 96] (blockChunks D k) ++ blockReads bus D (k + 1) n := by
  simp [blockReads, List.range'_succ]

/-- The document in DEV is the first `k` blocks of `D`. -/
structure DevHolds (D : List Byte) (k : Nat) (s : State) : Prop where
  len : s.devlen = 128 * k
  bytes : loadDev s 0 (128 * k) = D.take (128 * k)

theorem DevHolds.devBytes {D : List Byte} {k : Nat} {s : State} (h : DevHolds D k s) : devBytes s = D.take (128 * k) := by
  rw [Machine.devBytes, h.len, h.bytes]

/-- Putting block `k` of `D` behind its first `k` blocks. -/
theorem devHolds_put {D : List Byte} {k : Nat} {s : State} (h : loadDev s 0 (128 * k) = D.take (128 * k))
    (hD : 128 * k + 128 ≤ D.length) : DevHolds D (k + 1) (putDevBlock k (block D k) s) := by
  refine ⟨by simp, ?_⟩
  have hlen : (block D k).length = 128 := (block_full_iff D k).mpr hD
  have h1 := load_store_outside (Config.powerOnDev s.resets) s.dev (a := 0) (n := 128 * k) (b := 128 * k) (bs := block D k)
    (Or.inl (by omega))
  have h2 := load_store_same (Config.powerOnDev s.resets) s.dev (128 * k) (block D k)
  rw [hlen] at h2
  simp only [loadDev, putDevBlock_dev, putDevBlock_resets, show 128 * (k + 1) = 128 * k + 128 by omega] at *
  rw [load_add, h1, h, Nat.zero_add, h2, List.take_add]
  rfl

/-- Reading full blocks of a document: afterwards DEV holds them, and the rest is as if the reading started there (R120). -/
theorem readExtensions_run (bus : BusId) (D : List Byte) (left : Nat) :
    ∀ (n k : Nat) (s : State) (rest : List BusAnswer), s.resetIn = none → s.settleDue = false → 128 * (k + n) ≤ D.length →
      s.busIn = (blockRun D k n).map .ok ++ rest → DevHolds D k s →
      ∃ t, readExtensions bus (n + left) k s = readExtensions bus left (k + n) t ∧ SameButDev s t ∧ t.busIn = rest ∧
        DevHolds D (k + n) t ∧ t.trace = s.trace ++ (blockReads bus D k n).map (entryAt s) := by
  intro n
  induction n with
  | zero =>
    intro k s rest _ _ _ hb hd
    exact ⟨s, by simp, rfl, by simpa using hb, by simpa using hd, by simp⟩
  | succ n ih =>
    intro k s rest hr hs hD hb hd
    have hfull : 128 * k + 128 ≤ D.length := by omega
    have hlen : (block D k).length = 128 := (block_full_iff D k).mpr hfull
    have hle : ∀ b ∈ blockChunks D k, b.length ≤ 32 := by
      intro b hb
      simp only [blockChunks, List.mem_cons, List.not_mem_nil, or_false] at hb
      rcases hb with rfl | rfl | rfl | rfl <;> simp [chunk]
    obtain ⟨t, h1, h2, h3, h4⟩ := readBlock_answered (bus := bus) (k := k) (s := s) (bs := blockChunks D k)
      (rest := (blockRun D (k + 1) n).map .ok ++ rest) hr hs rfl hle
      (by rw [hb, blockRun_succ]; simp)
    rw [blockChunks_flatten, if_pos hlen] at h1
    have htr : t.resetIn = none := by rw [h2]; exact hr
    have hts : t.settleDue = false := by rw [h2]; exact hs
    have htd : loadDev t 0 (128 * k) = D.take (128 * k) := by rw [h2]; exact hd.bytes
    obtain ⟨u, g1, g2, g3, g4, g5⟩ := ih (k + 1) (putDevBlock k (block D k) t) rest (by simpa using htr) (by simpa using hts) (by omega)
      (by simpa using h3) (devHolds_put htd hfull)
    refine ⟨u, ?_, ?_, g3, by rw [show k + (n + 1) = k + 1 + n by omega]; exact g4, ?_⟩
    · rw [show n + 1 + left = n + left + 1 by omega, readExtensions, h1, show k + (n + 1) = k + 1 + n by omega]
      simpa using g1
    · refine sameButDev_trans h2.toDev (sameButDev_trans ?_ g2)
      simp [putDevBlock]
    · rw [g5, blockReads_succ]
      simp only [putDevBlock_trace, h4, List.map_append, List.append_assoc]
      have : entryAt (putDevBlock k (block D k) t) = entryAt s := by
        funext e; rw [h2]; rfl
      rw [this]

/-- Reading the base block and `n` more full blocks of a document whose byte 126 announces at least that many. -/
theorem readDocument_run {bus : BusId} {D : List Byte} {n : Nat} {s : State} {rest : List BusAnswer}
    (hr : s.resetIn = none) (hs : s.settleDue = false) (hD : 128 * (n + 1) ≤ D.length) (hn : n ≤ extCount D)
    (hb : s.busIn = (blockRun D 0 (n + 1)).map .ok ++ rest) :
    ∃ t, readDocument bus s = readExtensions bus (extCount D - n) (n + 1) t ∧ SameButDev s t ∧ t.busIn = rest ∧
      DevHolds D (n + 1) t ∧ t.trace = s.trace ++ (blockReads bus D 0 (n + 1)).map (entryAt s) := by
  have hfull : 128 * 0 + 128 ≤ D.length := by omega
  have hlen : (block D 0).length = 128 := (block_full_iff D 0).mpr hfull
  have hle : ∀ b ∈ blockChunks D 0, b.length ≤ 32 := by
    intro b hb
    simp only [blockChunks, List.mem_cons, List.not_mem_nil, or_false] at hb
    rcases hb with rfl | rfl | rfl | rfl <;> simp [chunk]
  obtain ⟨t, h1, h2, h3, h4⟩ := readBlock_answered (bus := bus) (k := 0) (s := clearDev s) (bs := blockChunks D 0)
    (rest := (blockRun D 1 n).map .ok ++ rest) (by simpa using hr) (by simpa using hs) rfl hle
    (by rw [clearDev_busIn, hb, blockRun_succ]; simp)
  rw [blockChunks_flatten, if_pos hlen] at h1
  have htr : t.resetIn = none := by rw [h2]; simpa using hr
  have hts : t.settleDue = false := by rw [h2]; simpa using hs
  have hput : DevHolds D 1 (putDevBlock 0 (block D 0) t) :=
    devHolds_put (by simp [loadDev, Memory.load]) hfull
  obtain ⟨u, g1, g2, g3, g4, g5⟩ := readExtensions_run bus D (extCount D - n) n 1 (putDevBlock 0 (block D 0) t) rest
    (by simpa using htr) (by simpa using hts) (by omega) (by simpa using h3) hput
  have hext : (devByte (putDevBlock 0 (block D 0) t) 126).toNat = extCount D := by
    have hb := byteAt_load (Config.powerOnDev t.resets) (putDevBlock 0 (block D 0) t).dev 0 128 126 (by omega)
    have hl := hput.bytes
    simp only [loadDev, putDevBlock_resets, Nat.mul_one] at hl
    rw [hl, Nat.zero_add] at hb
    rw [devByte, putDevBlock_resets, ← hb, extCount, Config.EXT_COUNT_OFF]
    congr 1
    simp only [byteAt, List.getD_eq_getElem?_getD, List.getElem?_take]
    simp
  refine ⟨u, ?_, ?_, g3, by rw [show n + 1 = 1 + n by omega]; exact g4, ?_⟩
  · rw [readDocument, h1]
    simp only [andThen_done, Config.EXT_COUNT_OFF]
    rw [hext]
    rw [show n + (extCount D - n) = extCount D by omega] at g1
    rw [g1, show n + 1 = 1 + n by omega]
  · refine sameButDev_trans (u := u) (t := t) ?_ (sameButDev_trans (by simp [putDevBlock]) g2)
    rw [h2]; rfl
  · rw [g5, blockReads_succ]
    simp only [putDevBlock_trace, h4, List.map_append, List.append_assoc, clearDev_trace]
    have h5 : entryAt (putDevBlock 0 (block D 0) t) = entryAt s := by funext e; rw [h2]; rfl
    have h6 : entryAt (clearDev s) = entryAt s := rfl
    rw [h5, h6]

/-! ### Whole documents -/

theorem range_four_mul {α : Type} (f : Nat → α) (n : Nat) :
    (List.range (4 * n)).map f =
      (List.range' 0 n).flatMap fun k => [f (4 * k), f (4 * k + 1), f (4 * k + 2), f (4 * k + 3)] := by
  induction n with
  | zero => rfl
  | succ n ih =>
    rw [show 4 * (n + 1) = 4 * n + 1 + 1 + 1 + 1 by omega, List.range_succ, List.range_succ, List.range_succ,
      List.range_succ, List.range'_concat]
    simp [ih]

/-- The answers of a device that hands over a document, block by block. -/
theorem handsOver_eq {D : List Byte} {n : Nat} (h : D.length = 128 * n) : handsOver D = (blockRun D 0 n).map .ok := by
  rw [handsOver, chunksOf, show D.length / 32 = 4 * n by omega, range_four_mul]
  rfl

theorem regOff_eq (o : Nat) : regOff o = BitVec.ofNat 8 o := by
  apply BitVec.eq_of_toNat_eq
  simp [regOff, Config.REG_SPAN]

/-- The frames that read a document, block by block. -/
theorem docReads_eq {bus : BusId} {D : List Byte} {n : Nat} (h : D.length = 128 * n) :
    docReads bus D = blockReads bus D 0 n := by
  rw [docReads, show D.length / 32 = 4 * n by omega, range_four_mul]
  simp only [blockReads, blockChunks, chunkReads, readFrame, regOff_eq, Config.EDID_ADDR7]
  congr 1
  funext k
  simp only [show 32 * (4 * k) = 128 * k + 0 by omega, show 32 * (4 * k + 1) = 128 * k + 32 by omega,
    show 32 * (4 * k + 2) = 128 * k + 64 by omega, show 32 * (4 * k + 3) = 128 * k + 96 by omega]

/-- ReadBlock starts with the outstanding settle delay, if there is one. -/
theorem readBlock_awaits (bus : BusId) (k : Nat) (s : State) :
    readBlock bus k s = (awaitSettle s).andThen fun _ s => readBlock bus k s := by
  simp only [readBlock, Config.CHUNK_OFFS, readChunks]
  conv => lhs; rw [busRead_awaits]
  rw [andThen_assoc]

/-- ReadDocument starts with the outstanding settle delay, if there is one. -/
theorem readDocument_awaits (bus : BusId) (s : State) :
    readDocument bus s = (awaitSettle s).andThen fun _ s => readDocument bus s := by
  simp only [readDocument]
  conv => lhs; rw [readBlock_awaits]
  rw [andThen_assoc, awaitSettle_clearDev]

/-- `t` is `s` but for what reading a document writes when it succeeds; no settle delay is outstanding after it. -/
abbrev SameButDoc (s t : State) : Prop :=
  t = { s with
    settleDue := false, chbuf := t.chbuf, chn := t.chn, busIn := t.busIn, trace := t.trace, dev := t.dev, devlen := t.devlen }

/-- ReadDocument on a device that hands over a document of the length its byte 126 says (R120). -/
theorem readDocument_handsOver {bus : BusId} {D : List Byte} {s : State} {rest : List BusAnswer}
    (hr : s.resetIn = none) (hD : SelfSized D) (hb : s.busIn = handsOver D ++ rest) :
    ∃ t, readDocument bus s = .done .ok t ∧ SameButDoc s t ∧ t.busIn = rest ∧ t.devlen = D.length ∧ devBytes t = D ∧
      t.trace = s.trace ++ (heldSettle s ++ docReads bus D).map (entryAt s) := by
  have hl : D.length = 128 * (extCount D + 1) := by rw [hD]; omega
  have e := afterSettle_eq s
  obtain ⟨t, h1, h2, h3, h4, h5⟩ := readDocument_run (bus := bus) (D := D) (n := extCount D) (s := afterSettle s) (rest := rest)
    (by rw [e]; exact hr) (by rw [e]) (by omega) (Nat.le_refl _) (by rw [e, ← handsOver_eq hl]; exact hb)
  refine ⟨t, ?_, by rw [h2, e], h3, by rw [h4.len, hl], ?_, ?_⟩
  · rw [readDocument_awaits, awaitSettle_unreset hr, andThen_done, h1, Nat.sub_self]; rfl
  · rw [h4.devBytes, ← hl, List.take_length]
  · have e1 : entryAt (afterSettle s) = entryAt s := by rw [e]; rfl
    have e2 : (afterSettle s).trace = s.trace ++ (heldSettle s).map (entryAt s) := by rw [e]
    rw [h5, docReads_eq hl, e1, e2, List.map_append, List.append_assoc]

end Sys2Proof.Laws
end

