-- ==== Sys2Proof/Laws/Noted.lean ====
section
/-! SUPPORT. What frames leave in IOERR and ACLASS: the last I/O error stays (10_state.md R16; 60_exceptions.md R172); and the probe of
the candidate buses (43_device_channel.md R122). -/

namespace Sys2Proof.Laws

open Sys2Proof Sys2Proof.Machine

/-- Frames with these answers lead from the registers IOERR and ACLASS of `s` to those of `t` (R16). -/
def NotedFrom (s t : State) (as : List BusAnswer) : Prop :=
  match lastError as with
  | some c => t.ioerr = c ∧ t.aclass = aclassOf (classOf s.platform c)
  | none => t.ioerr = s.ioerr ∧ t.aclass = s.aclass

theorem lastError_append (as bs : List BusAnswer) : lastError (as ++ bs) = (lastError bs).or (lastError as) := by
  simp [lastError, List.getLast?_append]

theorem notedFrom_nil {s t : State} (hi : t.ioerr = s.ioerr) (ha : t.aclass = s.aclass) : NotedFrom s t [] := ⟨hi, ha⟩

theorem NotedFrom.append {s t u : State} {as bs : List BusAnswer} (h1 : NotedFrom s t as) (h2 : NotedFrom t u bs)
    (hp : t.platform = s.platform) : NotedFrom s u (as ++ bs) := by
  unfold NotedFrom at *
  rw [lastError_append]
  cases hb : lastError bs with
  | some c => rw [hb, hp] at h2; exact h2
  | none =>
    rw [hb] at h2
    cases ha : lastError as with
    | some c => rw [ha] at h1; exact ⟨h2.1.trans h1.1, h2.2.trans h1.2⟩
    | none => rw [ha] at h1; exact ⟨h2.1.trans h1.1, h2.2.trans h1.2⟩

/-- Only IOERR, ACLASS and the platform of the two states count. -/
theorem NotedFrom.congr {s s' t t' : State} {as : List BusAnswer} (h : NotedFrom s t as) (hi : s'.ioerr = s.ioerr)
    (ha : s'.aclass = s.aclass) (hp : s'.platform = s.platform) (hi' : t'.ioerr = t.ioerr) (ha' : t'.aclass = t.aclass) :
    NotedFrom s' t' as := by
  unfold NotedFrom at *
  cases hl : lastError as with
  | some c => rw [hl] at h; exact ⟨hi'.trans h.1, by rw [ha', h.2, hp]⟩
  | none => rw [hl] at h; exact ⟨by rw [hi', h.1, hi], by rw [ha', h.2, ha]⟩

/-- From the start of a command, whose ACLASS is 0. -/
theorem NotedFrom.errorNoted {s u t : State} {as : List BusAnswer} (h : NotedFrom u t as) (hi : u.ioerr = s.ioerr)
    (ha : u.aclass = .none) (hp : u.platform = s.platform) : errorNoted s t as := by
  unfold NotedFrom at h
  unfold Machine.errorNoted
  cases hl : lastError as with
  | some c => rw [hl] at h; exact ⟨h.1, by rw [h.2, hp]⟩
  | none => rw [hl] at h; exact ⟨h.1.trans hi, h.2.trans ha⟩

theorem afterRead_noted (bus : BusId) (reg : Byte) (n : Nat) (s : State) :
    NotedFrom s (afterRead bus reg n s) [readAnswer n s] := by
  cases h : readAnswer n s with
  | ok b => exact ⟨(afterRead_of_ok h).1, (afterRead_of_ok h).2.1⟩
  | ioErr c => exact ⟨(afterRead_of_ioErr h).1, (afterRead_of_ioErr h).2.1⟩

theorem readAnswer_of {n : Nat} {s : State} {a : BusAnswer} {rest : List BusAnswer} (h : s.busIn = a :: rest) :
    readAnswer n s = cutTo n a := by
  cases a <;> simp [readAnswer, busAnswer, h, cutTo]

theorem writeAnswer_of {s : State} {a : BusAnswer} {rest : List BusAnswer} (h : s.busIn = a :: rest) :
    writeAnswer s = ackOf a := by
  cases a <;> simp [writeAnswer, busAnswer, h, ackOf]

theorem afterWrite_noted {bus : BusId} {reg : Byte} {data : List Byte} {s : State} {a : BusAnswer} {rest : List BusAnswer}
    (h : s.busIn = a :: rest) : NotedFrom s (afterWrite bus reg data s) [a] := by
  cases a with
  | ok b => exact afterWrite_of_ok (writeAnswer_of h)
  | ioErr c => exact afterWrite_of_ioErr (writeAnswer_of h)

/-- The last error does not depend on how the answers have been cut. -/
theorem notedFrom_cutTo {s t : State} {n : Nat} {a : BusAnswer} : NotedFrom s t [cutTo n a] ↔ NotedFrom s t [a] := by
  cases a <;> rfl

/-- Probing at least one bus starts with the outstanding settle delay, if there is one. -/
theorem probeBuses_awaits {bs : List BusId} (h : bs ≠ []) (s : State) :
    probeBuses bs s = (awaitSettle s).andThen fun _ s => probeBuses bs s := by
  cases bs with
  | nil => exact absurd rfl h
  | cons b bs =>
    simp only [probeBuses]
    conv => lhs; rw [busRead_awaits]
    rw [andThen_assoc]

/-- Probing the listed buses with the timer idle: one frame each, in order, and an entry that says whether its answer was the
one byte 0x00 (R122). -/
theorem probeBuses_run (bs : List BusId) :
    ∀ s : State, s.resetIn = none → s.settleDue = false →
      ∃ (t : State) (as : List BusAnswer), probeBuses bs s = .done () t ∧ as.length = bs.length ∧
      eventsOf t = eventsOf s ++ List.zipWith (fun b a => .rd (readFrame b 0 1) a) bs as ∧
      t.probe = s.probe ++ List.zipWith (fun b a => { busId := b, hasEdid := decide (a = .ok [0x00]) }) bs as ∧
      NotedFrom s t as ∧
      (∀ xs rest, s.busIn = xs ++ rest → xs.length = bs.length → t.busIn = rest ∧ as = xs.map (cutTo 1)) ∧
      t = { s with
        chbuf := t.chbuf, chn := t.chn, draws := t.draws, ioerr := t.ioerr, aclass := t.aclass, busIn := t.busIn
        trace := t.trace, probe := t.probe } := by
  induction bs with
  | nil =>
    intro s _ _
    refine ⟨s, [], rfl, rfl, by simp, by simp, notedFrom_nil rfl rfl, fun xs rest h1 h2 => ?_, rfl⟩
    obtain rfl : xs = [] := List.length_eq_zero_iff.mp h2
    exact ⟨h1, rfl⟩
  | cons b bs ih =>
    intro s hr hs
    have hfr := afterRead_frame b 0 1 s
    generalize hs1 : afterRead b 0 1 s = s1 at hfr
    obtain ⟨t, as, h1, h2, h3, h4, h5, h6, h7⟩ := ih (addProbe b (readAnswer 1 s == .ok [0x00]) s1) (by
      rw [addProbe_resetIn, hfr]; exact hr) (by rw [addProbe_settleDue, hfr]; exact hs)
    refine ⟨t, readAnswer 1 s :: as, ?_, by simp [h2], ?_, ?_, ?_, ?_, ?_⟩
    · rw [probeBuses, busRead_unreset hr hs, hs1]; exact h1
    · have e : eventsOf (addProbe b (readAnswer 1 s == .ok [0x00]) s1) =
          eventsOf s ++ [.rd (readFrame b 0 1) (readAnswer 1 s)] := by
        rw [eventsOf, addProbe_trace, hfr]; simp [eventsOf]
      rw [h3, e]; simp
    · have e : (addProbe b (readAnswer 1 s == .ok [0x00]) s1).probe =
          s.probe ++ [{ busId := b, hasEdid := decide (readAnswer 1 s = .ok [0x00]) }] := by
        rw [addProbe, hfr]; simp only [beq_eq_decide]
      rw [h4, e]; simp
    · have hn := afterRead_noted b 0 1 s
      rw [hs1] at hn
      exact hn.append (h5.congr rfl rfl rfl rfl rfl) (by rw [hfr])
    · intro xs rest g1 g2
      cases xs with
      | nil => simp at g2
      | cons x xs =>
        obtain ⟨k1, k2⟩ := h6 xs rest (by rw [addProbe_busIn, hfr, g1]; rfl) (by simpa using g2)
        exact ⟨k1, by rw [k2, readAnswer_of g1]; rfl⟩
    · rw [h7, hfr]; rfl

/-- The same from any state: an outstanding settle delay passes before the first probe (R50, R122). -/
theorem probeBuses_held (bs : List BusId) {s : State} (hr : s.resetIn = none) :
    ∃ (t : State) (as : List BusAnswer), probeBuses bs s = .done () t ∧ as.length = bs.length ∧
      eventsOf t = eventsOf s ++ (if bs = [] then [] else heldSettle s) ++
        List.zipWith (fun b a => .rd (readFrame b 0 1) a) bs as ∧
      t.probe = s.probe ++ List.zipWith (fun b a => { busId := b, hasEdid := decide (a = .ok [0x00]) }) bs as ∧
      NotedFrom s t as ∧
      (∀ xs rest, s.busIn = xs ++ rest → xs.length = bs.length → t.busIn = rest ∧ as = xs.map (cutTo 1)) ∧
      t = { s with
        chbuf := t.chbuf, chn := t.chn, draws := t.draws, ioerr := t.ioerr, aclass := t.aclass, busIn := t.busIn
        trace := t.trace, probe := t.probe, settleDue := s.settleDue && bs.isEmpty } := by
  by_cases h : bs = []
  · subst h
    refine ⟨s, [], rfl, rfl, by simp, by simp, notedFrom_nil rfl rfl, fun xs rest h1 h2 => ?_, by simp⟩
    obtain rfl : xs = [] := List.length_eq_zero_iff.mp h2
    exact ⟨h1, rfl⟩
  · have e := afterSettle_eq s
    have hv : eventsOf (afterSettle s) = eventsOf s ++ heldSettle s := by
      rw [e]; simp [eventsOf, Function.comp_def]
    obtain ⟨t, as, h1, h2, h3, h4, h5, h6, h7⟩ := probeBuses_run bs (afterSettle s) (by rw [e]; exact hr) (by rw [e])
    refine ⟨t, as, ?_, h2, by rw [h3, hv, if_neg h], by rw [h4, e], h5.congr (by rw [e]) (by rw [e]) (by rw [e]) rfl rfl,
      fun xs rest g1 g2 => h6 xs rest (by rw [e]; exact g1) g2, ?_⟩
    · rw [probeBuses_awaits h, awaitSettle_unreset hr, andThen_done, h1]
    · rw [h7, e]; simp [h]

end Sys2Proof.Laws
end

