-- ==== Sys2Proof/Laws/Write.lean ====
section
/-! SUPPORT. What the writing procedures do on given answers: WritePage and the pages of WRDOC (42_frame_marshaller.md R107, R110;
43_device_channel.md R124), HostBackup (R121) and the probe of TSTWR (R126). -/

namespace Sys2Proof.Laws

open Sys2Proof Sys2Proof.Machine

theorem take_load (free : Nat → Byte) (m : Memory) (a n k : Nat) (h : k ≤ n) :
    (m.load free a n).take k = m.load free a k := by
  simpa using load_drop_take free m a n 0 k (by omega)

/-- A page inside the document in DOC is the load of its 16 bytes. -/
theorem page_docBytes {s : State} {p : Nat} (h : 16 * p + 16 ≤ s.dlen) : page (docBytes s) p = loadDoc s (16 * p) 16 := by
  have := load_drop_take (Config.powerOnDoc s.resets) s.doc 0 s.dlen (16 * p) 16 h
  simpa [page, docBytes, loadDoc] using this

theorem backupAnswer_of {s : State} {a : BackupAnswer} {rest : List BackupAnswer} (h : s.backupIn = a :: rest) :
    backupAnswer s = a ∧ takeBackupAnswer s = { s with backupIn := rest } := by
  simp [backupAnswer, takeBackupAnswer, h]

theorem writeAnswer_ok {s : State} {w : List Byte} {rest : List BusAnswer} (h : s.busIn = .ok w :: rest) :
    writeAnswer s = .ok := by simp [writeAnswer, busAnswer, h]

theorem writeAnswer_ioErr {s : State} {c : IoCode} {rest : List BusAnswer} (h : s.busIn = .ioErr c :: rest) :
    writeAnswer s = .ioErr c := by simp [writeAnswer, busAnswer, h]

theorem takeBusAnswer_of {s : State} {a : BusAnswer} {rest : List BusAnswer} (h : s.busIn = a :: rest) :
    takeBusAnswer s = { s with busIn := rest } := by simp [takeBusAnswer, h]

/-- `t` is `s` but for the page being written, the answers taken and the trace. -/
abbrev SameButPages (s t : State) : Prop :=
  t = { s with wstate := t.wstate, pageI := t.pageI, pgbuf := t.pgbuf, busIn := t.busIn, trace := t.trace }

theorem sameButPages_trans {s t u : State} (h1 : SameButPages s t) (h2 : SameButPages t u) : SameButPages s u := by
  rw [h2, h1]

/-- One page that is acknowledged and settled. -/
theorem writePages_page {bus : BusId} {p : Nat} {ps : List Nat} {s : State} {w : List Byte} {rest : List BusAnswer}
    (hr : s.resetIn = none) (hs : s.settleDue = false) (hb : s.busIn = .ok w :: rest) (hp : 16 * p + 16 ≤ s.dlen) :
    ∃ t, writePages bus (p :: ps) s = writePages bus ps t ∧ SameButPages s t ∧ t.busIn = rest ∧ t.wstate = .writing ∧
      t.pageI = p + 1 ∧
      t.trace = s.trace ++
        [entryAt { s with wstate := .writing, pageI := p + 1 }
            (.wr { bus := bus, addr7 := 0x50, reg := BitVec.ofNat 8 (16 * p), data := page (docBytes s) p } .ok),
         entryAt { s with wstate := .writing, pageI := p + 1 } (.settle 10)] := by
  have hr' : (stagePage p (enterPage p s)).resetIn = none := hr
  have hs' : (stagePage p (enterPage p s)).settleDue = false := hs
  have ha : writeAnswer (stagePage p (enterPage p s)) = .ok :=
    writeAnswer_ok (s := stagePage p (enterPage p s)) (w := w) (rest := rest) hb
  have ht : (afterWrite bus (regOff (Config.WR_PAGE * p)) (stagePage p (enterPage p s)).pgbuf (stagePage p (enterPage p s))).resetIn =
      none := by
    rw [afterWrite_frame]; exact hr
  refine ⟨record (.settle 10) (setTimer false
    (afterWrite bus (regOff (Config.WR_PAGE * p)) (stagePage p (enterPage p s)).pgbuf (stagePage p (enterPage p s)))), ?_, ?_⟩
  · rw [writePages, writePage]
    simp only [busWrite_unreset hr' hs', ha, andThen_done, settle_unreset ht]
  · unfold afterWrite
    rw [ha, takeBusAnswer_of (s := stagePage p (enterPage p s)) hb, page_docBytes hp]
    refine ⟨?_, rfl, rfl, rfl, ?_⟩
    · show _ = { s with wstate := .writing, pageI := p + 1, pgbuf := _, busIn := rest, trace := _ }
      rw [← hs]; rfl
    simp [record, setTimer, noteWriteAnswer, entryAt, writeFrame, regOff_eq, Config.EDID_ADDR7, Config.WR_PAGE]
    rfl

/-- The trace entries of pages `k .. k + n - 1`, each acknowledged and settled, from state `s` on. -/
def pageEntries (bus : BusId) (s : State) (k n : Nat) : List TraceEntry :=
  (List.range' k n).flatMap fun p =>
    [entryAt { s with wstate := .writing, pageI := p + 1 }
        (.wr { bus := bus, addr7 := 0x50, reg := BitVec.ofNat 8 (16 * p), data := page (docBytes s) p } .ok),
     entryAt { s with wstate := .writing, pageI := p + 1 } (.settle 10)]

theorem pageEntries_succ (bus : BusId) (s : State) (k n : Nat) :
    pageEntries bus s k (n + 1) = pageEntries bus s k 1 ++ pageEntries bus s (k + 1) n := by
  simp [pageEntries, List.range'_succ]

theorem pageEntries_congr {bus : BusId} {s t : State} (h : SameButPages s t) (k n : Nat) :
    pageEntries bus t k n = pageEntries bus s k n := by
  rw [h]; rfl

theorem pageEntries_events (bus : BusId) (s : State) (n : Nat) :
    (pageEntries bus s 0 n).map (·.event) = pageWrites bus (docBytes s) n := by
  simp [pageEntries, pageWrites, List.map_flatMap, List.range_eq_range']

/-- Pages that are acknowledged: afterwards the rest of the pages is written as if the writing started there (R124). -/
theorem writePages_run (bus : BusId) (ps : List Nat) :
    ∀ (n k : Nat) (s : State) (ws : List (List Byte)) (rest : List BusAnswer), s.resetIn = none → s.settleDue = false → ws.length = n →
      16 * (k + n) ≤ s.dlen → s.busIn = ws.map .ok ++ rest → s.pageI = k →
      ∃ t, writePages bus (List.range' k n ++ ps) s = writePages bus ps t ∧ SameButPages s t ∧ t.busIn = rest ∧
        t.wstate = (if n = 0 then s.wstate else .writing) ∧ t.pageI = k + n ∧ t.trace = s.trace ++ pageEntries bus s k n := by
  intro n
  induction n with
  | zero =>
    intro k s ws rest _ _ hw _ hb hk
    obtain rfl : ws = [] := List.length_eq_zero_iff.mp hw
    exact ⟨s, rfl, rfl, by simpa using hb, by simp, hk, by simp [pageEntries]⟩
  | succ n ih =>
    intro k s ws rest hr hs hw hd hb _
    obtain ⟨w, ws, rfl⟩ : ∃ w ws', ws = w :: ws' := by
      cases ws with
      | nil => simp at hw
      | cons w ws => exact ⟨w, ws, rfl⟩
    obtain ⟨t, h1, h2, h3, h4, h5, h6⟩ := writePages_page (bus := bus) (p := k) (ps := List.range' (k + 1) n ++ ps) (s := s)
      (w := w) (rest := ws.map .ok ++ rest) hr hs (by simpa using hb) (by omega)
    obtain ⟨u, g1, g2, g3, g4, g5, g6⟩ := ih (k + 1) t ws rest (by rw [h2]; exact hr) (by rw [h2]; exact hs) (by simpa using hw)
      (by rw [h2]; show 16 * (k + 1 + n) ≤ s.dlen; omega) h3 h5
    refine ⟨u, ?_, sameButPages_trans h2 g2, g3, ?_, by omega, ?_⟩
    · rw [List.range'_succ, List.cons_append, h1, g1]
    · rw [g4, h4]; simp
    · rw [g6, h6, pageEntries_congr h2, pageEntries_succ, List.append_assoc]
      simp [pageEntries]

/-- A page write that ends in an I/O error ends the writing: no settle, no further page, and the settle timer runs on (R110, R124,
R182). -/
theorem writePages_failed {bus : BusId} {p : Nat} {ps : List Nat} {s : State} {c : IoCode} {rest : List BusAnswer}
    (hr : s.resetIn = none) (hs : s.settleDue = false) (hb : s.busIn = .ioErr c :: rest) (hp : 16 * p + 16 ≤ s.dlen) :
    ∃ t, writePages bus (p :: ps) s = .done (.ioErr c) t ∧
      t = { s with wstate := .writing, pageI := p + 1, pgbuf := t.pgbuf, busIn := rest, ioerr := c
                   aclass := aclassOf (classOf s.platform c), trace := t.trace, settleDue := true } ∧
      t.trace = s.trace ++
        [entryAt { s with wstate := .writing, pageI := p + 1 }
          (.wr { bus := bus, addr7 := 0x50, reg := BitVec.ofNat 8 (16 * p), data := page (docBytes s) p } (.ioErr c))] := by
  have hr' : (stagePage p (enterPage p s)).resetIn = none := hr
  have hs' : (stagePage p (enterPage p s)).settleDue = false := hs
  have ha : writeAnswer (stagePage p (enterPage p s)) = .ioErr c :=
    writeAnswer_ioErr (s := stagePage p (enterPage p s)) (rest := rest) hb
  refine ⟨afterWrite bus (regOff (Config.WR_PAGE * p)) (stagePage p (enterPage p s)).pgbuf (stagePage p (enterPage p s)), ?_, ?_⟩
  · rw [writePages, writePage]
    simp only [busWrite_unreset hr' hs', ha, andThen_done]
  · unfold afterWrite
    rw [ha, takeBusAnswer_of (s := stagePage p (enterPage p s)) hb, page_docBytes hp]
    refine ⟨rfl, ?_⟩
    simp [record, setTimer, noteWriteAnswer, noteIoErr, entryAt, writeFrame, regOff_eq, Config.EDID_ADDR7, Config.WR_PAGE]
    rfl

/-- The host takes the backup (R121). -/
theorem hostBackup_ok {bus : BusId} {bytes : List Byte} {s : State} {id : BackupId} {rest : List BackupAnswer}
    (hr : s.resetIn = none) (hb : s.backupIn = .ok id :: rest) :
    hostBackup bus bytes s = .done (.ok id) { s with
      bkid := id, bkvalid := true, backupIn := rest, trace := s.trace ++ [entryAt s (.backup bus bytes (.ok id))] } := by
  obtain ⟨h1, h2⟩ := backupAnswer_of hb
  rw [hostBackup_unreset hr, h1, h2]
  rfl

/-- The host cannot take the backup (R121). -/
theorem hostBackup_fail {bus : BusId} {bytes : List Byte} {s : State} {rest : List BackupAnswer}
    (hr : s.resetIn = none) (hb : s.backupIn = .fail :: rest) :
    hostBackup bus bytes s = .done .fail { s with
      backupIn := rest, trace := s.trace ++ [entryAt s (.backup bus bytes .fail)] } := by
  obtain ⟨h1, h2⟩ := backupAnswer_of hb
  rw [hostBackup_unreset hr, h1, h2]
  rfl

/-- Writing one byte, settling and reading it back, whatever the two answers (R126). -/
theorem pokeAndPeek_run {bus : BusId} {off : Nat} {v : Byte} {s : State} {w r : BusAnswer} {rest : List BusAnswer}
    (hr : s.resetIn = none) (hs : s.settleDue = false) (hb : s.busIn = w :: r :: rest) :
    ∃ t, pokeAndPeek bus off v s = .done (cutTo 1 r) t ∧ NotedFrom s t [w, r] ∧
      t = { s with ioerr := t.ioerr, aclass := t.aclass, chbuf := t.chbuf, chn := t.chn, busIn := rest, trace := t.trace } ∧
      t.trace = s.trace ++ List.map (entryAt s)
        [.wr { bus := bus, addr7 := 0x50, reg := BitVec.ofNat 8 off, data := [v] } (ackOf w), .settle 10,
         .rd { bus := bus, addr7 := 0x50, reg := BitVec.ofNat 8 off, n := 1 } (cutTo 1 r)] := by
  have hw := afterWrite_frame bus (regOff off) [v] s
  have hnw := afterWrite_noted (bus := bus) (reg := regOff off) (data := [v]) hb
  have hdw : (afterWrite bus (regOff off) [v] s).draws = s.draws := by
    unfold afterWrite; rw [takeBusAnswer_of hb]; cases writeAnswer s <;> rfl
  rw [writeAnswer_of hb] at hw
  generalize hs1 : afterWrite bus (regOff off) [v] s = s1 at hw hdw hnw
  have hr1 : s1.resetIn = none := by rw [hw]; exact hr
  have hb1 : (record (.settle 10) (setTimer false s1)).busIn = r :: rest := by rw [record_busIn, hw, hb]; rfl
  have hr2 : (record (.settle 10) (setTimer false s1)).resetIn = none := hr1
  have h2 := afterRead_frame bus (regOff off) 1 (record (.settle 10) (setTimer false s1))
  have hn2 := afterRead_noted bus (regOff off) 1 (record (.settle 10) (setTimer false s1))
  have hd2 : (afterRead bus (regOff off) 1 (record (.settle 10) (setTimer false s1))).draws = s1.draws := by
    unfold afterRead; rw [takeBusAnswer_of hb1]; cases readAnswer 1 (record (.settle 10) (setTimer false s1)) <;> rfl
  rw [readAnswer_of hb1] at h2 hn2
  refine ⟨afterRead bus (regOff off) 1 (record (.settle 10) (setTimer false s1)), ?_, ?_, ?_, ?_⟩
  · simp only [pokeAndPeek, busWrite_unreset hr hs, andThen_done, hs1, settle_unreset hr1, busRead_unreset hr2 rfl, readAnswer_of hb1]
  · exact hnw.append ((notedFrom_cutTo.mp hn2).congr rfl rfl rfl rfl rfl) (by rw [hw])
  · rw [h2, hd2, hdw, hb1]
    simp only [record, setTimer]
    rw [hw, ← hs]
    rfl
  · have e1 : s1.trace = s.trace ++ [entryAt s (.wr (writeFrame bus (regOff off) [v]) (ackOf w))] := by rw [hw]
    have e2 : entryAt s1 = entryAt s := by rw [hw]; rfl
    have e3 : (record (.settle 10) (setTimer false s1)).trace = s1.trace ++ [entryAt s1 (.settle 10)] := rfl
    have e4 : entryAt (record (.settle 10) (setTimer false s1)) = entryAt s1 := rfl
    rw [h2]
    show (record (.settle 10) (setTimer false s1)).trace ++ _ = _
    rw [e3, e4, e1, e2, regOff_eq]
    simp [writeFrame, readFrame, Config.EDID_ADDR7]

end Sys2Proof.Laws
end

