-- ==== Sys2Proof/Laws/Runs.lean ====
section
/-! SUPPORT. What the procedures can do whatever the answers from outside and whenever reset strikes: the events they emit, in order, and
what they leave alone. `RunsFrom` composes these facts along a procedure (60_exceptions.md R190 to R192; 70_reset_and_hazards.md R201). -/

namespace Sys2Proof.Laws

open Sys2Proof Sys2Proof.Machine

/-- From `s` to `t` the entries `es` were traced, and no reset has struck. -/
structure Emitted (s t : State) (es : List TraceEntry) : Prop where
  trace : t.trace = s.trace ++ es
  due : ∀ k, s.resetIn = some k → es.length ≤ k ∧ t.resetIn = some (k - es.length)
  undue : s.resetIn = none → t.resetIn = none
  timer : timerAfter s.settleDue (es.map (·.event)) = some t.settleDue
  resets : t.resets = s.resets

/-- After the entries `es` from `s` on, a reset has struck and left `t`. -/
structure Abandoned (s t : State) (es : List TraceEntry) : Prop where
  due : s.resetIn = some es.length
  struck : ∃ u, t = resetBlock u ∧ u.trace = s.trace ++ es ∧ u.resets = s.resets
  timer : ∃ d, timerAfter s.settleDue (es.map (·.event)) = some d

/-- A procedure that started at `s` is done, with `P`, or has been abandoned, with `Q` of what it had emitted. -/
def RunsFrom {α : Type} (s : State) (r : Res α) (P : α → State → List TraceEntry → Prop) (Q : List TraceEntry → Prop) : Prop :=
  match r with
  | .done a t => ∃ es, Emitted s t es ∧ P a t es
  | .abandoned t => ∃ es, Abandoned s t es ∧ Q es

theorem Emitted.refl (s : State) : Emitted s s [] := ⟨by simp, fun k h => ⟨by simp, by simpa using h⟩, id, rfl, rfl⟩

/-- An update that touches neither the trace, nor the reset to come, nor the settle timer, nor the count of resets. -/
theorem Emitted.update {s t u : State} {es : List TraceEntry} (h : Emitted s t es) (h1 : u.trace = t.trace)
    (h2 : u.resetIn = t.resetIn) (h3 : u.settleDue = t.settleDue) (h4 : u.resets = t.resets) : Emitted s u es :=
  ⟨by rw [h1, h.trace], fun k hk => by rw [h2]; exact h.due k hk, fun hk => by rw [h2]; exact h.undue hk, by rw [h3]; exact h.timer,
    by rw [h4, h.resets]⟩

theorem runsFrom_andThen {α β : Type} {s : State} {r : Res α} {f : α → State → Res β}
    {P : α → State → List TraceEntry → Prop} {P' : β → State → List TraceEntry → Prop} {Q : List TraceEntry → Prop}
    (h : RunsFrom s r P Q) (hf : ∀ a t es, Emitted s t es → P a t es → RunsFrom s (f a t) P' Q) :
    RunsFrom s (r.andThen f) P' Q := by
  cases r with
  | done a t => obtain ⟨es, h1, h2⟩ := h; exact hf a t es h1 h2
  | abandoned t => exact h

theorem runsFrom_mono {α : Type} {s : State} {r : Res α} {P P' : α → State → List TraceEntry → Prop}
    {Q Q' : List TraceEntry → Prop} (h : RunsFrom s r P Q) (hP : ∀ a t es, P a t es → P' a t es) (hQ : ∀ es, Q es → Q' es) :
    RunsFrom s r P' Q' := by
  cases r with
  | done a t => obtain ⟨es, h1, h2⟩ := h; exact ⟨es, h1, hP _ _ _ h2⟩
  | abandoned t => obtain ⟨es, h1, h2⟩ := h; exact ⟨es, h1, hQ _ h2⟩

/-- The way out of a procedure at the end of a command. -/
theorem runsFrom_finish {α : Type} {s : State} {r : Res α} {f : α → State → State}
    {P : α → State → List TraceEntry → Prop} {Q : List TraceEntry → Prop} {C : State → Prop}
    (h : RunsFrom s r P Q) (hf : ∀ a t es, Emitted s t es → P a t es → C (f a t))
    (hq : ∀ t es, Abandoned s t es → Q es → C t) : C (r.finish f) := by
  cases r with
  | done a t => obtain ⟨es, h1, h2⟩ := h; exact hf a t es h1 h2
  | abandoned t => obtain ⟨es, h1, h2⟩ := h; exact hq t es h1 h2

/-! ### One event -/

/-- Before an event the reset that is due strikes, or it comes one event nearer. -/
theorem beforeEvent_runs {α : Type} {s t : State} {es : List TraceEntry} {f : Unit → State → Res α}
    {P : α → State → List TraceEntry → Prop} {Q : List TraceEntry → Prop} (h : Emitted s t es) (hq : Q es)
    (hf : ∀ r, (∀ k, s.resetIn = some k → es.length + 1 ≤ k ∧ r = some (k - (es.length + 1))) → (s.resetIn = none → r = none) →
      RunsFrom s (f () { t with resetIn := r }) P Q) :
    RunsFrom s ((beforeEvent t).andThen f) P Q := by
  rcases beforeEvent_cases t with ⟨h1, h2⟩ | ⟨k, h1, h2⟩ | ⟨h1, h2⟩
  · rw [h2]
    refine ⟨es, ⟨?_, ⟨t, rfl, h.trace, h.resets⟩, _, h.timer⟩, hq⟩
    cases hs : s.resetIn with
    | none => rw [h.undue hs] at h1; cases h1
    | some k => have := h.due k hs; rw [h1] at this; simp at this; rw [show k = es.length by omega]
  · rw [h2]
    refine hf (some k) (fun j hj => ?_) (fun hs => ?_)
    · have := h.due j hj; rw [h1] at this; simp at this
      refine ⟨by omega, ?_⟩
      rw [show j - (es.length + 1) = k by omega]
    · rw [h.undue hs] at h1; cases h1
  · rw [h2, andThen_done]
    have := hf none (fun j hj => ?_) (fun _ => rfl)
    · rw [← h1] at this; exact this
    · have := (h.due j hj).2; rw [h1] at this; cases this

/-- Tracing one event. -/
theorem Emitted.snoc {s t u : State} {es : List TraceEntry} {e : TraceEntry} {r : Option Nat} (h : Emitted s t es)
    (h1 : ∀ k, s.resetIn = some k → es.length + 1 ≤ k ∧ r = some (k - (es.length + 1))) (h2 : s.resetIn = none → r = none)
    (ht : u.trace = t.trace ++ [e]) (hr : u.resetIn = r) (hd : timerAfter t.settleDue [e.event] = some u.settleDue)
    (hz : u.resets = t.resets) : Emitted s u (es ++ [e]) :=
  ⟨by rw [ht, h.trace, List.append_assoc], fun k hk => by simpa [hr] using h1 k hk, fun hs => by rw [hr, h2 hs],
    by rw [List.map_append, timerAfter_append, h.timer]; exact hd, by rw [hz, h.resets]⟩

/-- What a frame leaves alone. -/
abbrev SameButFrame (s t : State) : Prop :=
  t = { s with
    ioerr := t.ioerr, aclass := t.aclass, chbuf := t.chbuf, chn := t.chn, busIn := t.busIn, trace := t.trace
    resetIn := t.resetIn, draws := t.draws }

/-- What a write frame leaves alone; it starts the settle timer. -/
abbrev SameButAck (s t : State) : Prop :=
  t = { s with
    ioerr := t.ioerr, aclass := t.aclass, settleDue := true, busIn := t.busIn, trace := t.trace, resetIn := t.resetIn, draws := t.draws }

/-- One read frame with the timer idle, whatever the answer: one entry, at the registers of the state before it (R101). -/
theorem busRead_runs {bus : BusId} {reg : Byte} {n : Nat} {s t : State} {es : List TraceEntry}
    {P : BusAnswer → State → List TraceEntry → Prop} {Q : List TraceEntry → Prop} (h : Emitted s t es) (hs : t.settleDue = false)
    (hq : Q es)
    (hp : ∀ a u, SameButFrame t u → (∀ b, a = .ok b → b.length ≤ n) →
      (∀ b, a = .ok b → u.chn = b.length ∧ u.chbuf = b ++ t.chbuf.drop b.length ∧ u.ioerr = t.ioerr ∧ u.aclass = t.aclass) →
      (∀ c, a = .ioErr c → u.chn = 0 ∧ u.chbuf = t.chbuf ∧ u.ioerr = c ∧ u.aclass = aclassOf (classOf t.platform c)) →
      P a u (es ++ [entryAt t (.rd (readFrame bus reg n) a)])) :
    RunsFrom s (busRead bus reg n t) P Q := by
  rw [busRead, awaitSettle_idle hs, andThen_done]
  refine beforeEvent_runs h hq fun r h1 h2 => ?_
  have hf := afterRead_frame bus reg n { t with resetIn := r }
  refine ⟨es ++ [entryAt t (.rd (readFrame bus reg n) (readAnswer n t))], h.snoc h1 h2 ?_ ?_ ?_ ?_, ?_⟩
  · show (afterRead bus reg n { t with resetIn := r }).trace = _
    rw [hf]; rfl
  · show (afterRead bus reg n { t with resetIn := r }).resetIn = _
    rw [hf]
  · show _ = some (afterRead bus reg n { t with resetIn := r }).settleDue
    rw [hf, hs]; rfl
  · show (afterRead bus reg n { t with resetIn := r }).resets = _
    rw [hf]
  · refine hp (readAnswer n t) (afterRead bus reg n { t with resetIn := r }) ?_ (fun b hb => readAnswer_length hb) ?_ ?_
    · rw [hf]
    · intro b hb
      obtain ⟨g1, g2, g3, g4⟩ := afterRead_of_ok (bus := bus) (reg := reg) (s := { t with resetIn := r }) hb
      exact ⟨g3, g4, g1, g2⟩
    · intro c hc
      obtain ⟨g1, g2, g3, g4⟩ := afterRead_of_ioErr (bus := bus) (reg := reg) (s := { t with resetIn := r }) hc
      exact ⟨g3, g4, g1, g2⟩

/-- One write frame with the timer idle, whatever the answer (R102). -/
theorem busWrite_runs {bus : BusId} {reg : Byte} {data : List Byte} {s t : State} {es : List TraceEntry}
    {P : WriteAnswer → State → List TraceEntry → Prop} {Q : List TraceEntry → Prop} (h : Emitted s t es)
    (hs : t.settleDue = false) (hq : Q es)
    (hp : ∀ a u, SameButAck t u →
      P a u (es ++ [entryAt t (.wr (writeFrame bus reg data) a)])) :
    RunsFrom s (busWrite bus reg data t) P Q := by
  rw [busWrite, awaitSettle_idle hs, andThen_done]
  refine beforeEvent_runs h hq fun r h1 h2 => ?_
  have hf := afterWrite_frame bus reg data { t with resetIn := r }
  refine ⟨es ++ [entryAt t (.wr (writeFrame bus reg data) (writeAnswer t))], h.snoc h1 h2 ?_ ?_ ?_ ?_, ?_⟩
  · show (afterWrite bus reg data { t with resetIn := r }).trace = _
    rw [hf]; rfl
  · show (afterWrite bus reg data { t with resetIn := r }).resetIn = _
    rw [hf]
  · show _ = some (afterWrite bus reg data { t with resetIn := r }).settleDue
    rw [hf, hs]; rfl
  · show (afterWrite bus reg data { t with resetIn := r }).resets = _
    rw [hf]
  · refine hp (writeAnswer t) (afterWrite bus reg data { t with resetIn := r }) ?_
    rw [hf]

/-- A settle delay (R110). -/
theorem settle_runs {s t : State} {es : List TraceEntry} {P : Unit → State → List TraceEntry → Prop}
    {Q : List TraceEntry → Prop} (h : Emitted s t es) (hq : Q es)
    (hp : ∀ u, u = { t with settleDue := false, trace := u.trace, resetIn := u.resetIn } →
      P () u (es ++ [entryAt t (.settle 10)])) :
    RunsFrom s (settle t) P Q := by
  refine beforeEvent_runs h hq fun r h1 h2 => ?_
  exact ⟨es ++ [entryAt t (.settle 10)], h.snoc h1 h2 rfl rfl (by simp [timerAfter]) rfl, hp _ rfl⟩

/-- The trace entry of an outstanding settle delay, if there is one. -/
def heldEntries (t : State) : List TraceEntry := (heldSettle t).map (entryAt t)

@[simp] theorem heldEntries_events (t : State) : (heldEntries t).map (·.event) = heldSettle t := by
  simp [heldEntries, Function.comp_def]

/-- Letting an outstanding settle delay pass (R50). -/
theorem awaitSettle_runs {s t : State} {es : List TraceEntry} {P : Unit → State → List TraceEntry → Prop}
    {Q : List TraceEntry → Prop} (h : Emitted s t es) (hq : Q es)
    (hp : ∀ u, u = { t with settleDue := false, trace := u.trace, resetIn := u.resetIn } → P () u (es ++ heldEntries t)) :
    RunsFrom s (awaitSettle t) P Q := by
  cases hs : t.settleDue with
  | false =>
    rw [awaitSettle_idle hs]
    refine ⟨es, h, ?_⟩
    have := hp t (by rw [← hs])
    rwa [heldEntries, heldSettle_idle hs, List.map_nil, List.append_nil] at this
  | true =>
    rw [awaitSettle_running hs]
    refine settle_runs h hq fun u hu => ?_
    have := hp u hu
    rwa [heldEntries, heldSettle, if_pos hs] at this

/-- What a backup request leaves, with its answer. -/
def afterBackup (bus : BusId) (bytes : List Byte) (s : State) : State :=
  noteBackup (backupAnswer s) (record (.backup bus bytes (backupAnswer s)) (takeBackupAnswer s))

theorem takeBackupAnswer_eq (s : State) :
    takeBackupAnswer s = { s with backupIn := s.backupIn.tail, draws := (takeBackupAnswer s).draws } := by
  unfold takeBackupAnswer
  cases h : s.backupIn <;> simp

theorem afterBackup_frame (bus : BusId) (bytes : List Byte) (s : State) :
    afterBackup bus bytes s = { s with
      bkid := (afterBackup bus bytes s).bkid, bkvalid := (afterBackup bus bytes s).bkvalid, backupIn := s.backupIn.tail
      trace := s.trace ++ [entryAt s (.backup bus bytes (backupAnswer s))], draws := (afterBackup bus bytes s).draws } := by
  unfold afterBackup
  rw [takeBackupAnswer_eq]
  cases backupAnswer s <;> rfl

/-- What the host's answer leaves in BKID and BKVALID (R121). -/
theorem afterBackup_bk (bus : BusId) (bytes : List Byte) (s : State) :
    (∀ id, backupAnswer s = .ok id → (afterBackup bus bytes s).bkid = id ∧ (afterBackup bus bytes s).bkvalid = true) ∧
    (backupAnswer s = .fail → (afterBackup bus bytes s).bkid = s.bkid ∧ (afterBackup bus bytes s).bkvalid = s.bkvalid) := by
  unfold afterBackup
  rw [takeBackupAnswer_eq]
  cases h : backupAnswer s with
  | ok id => exact ⟨fun j hj => by cases hj; exact ⟨rfl, rfl⟩, fun h => (nomatch h)⟩
  | fail => exact ⟨fun j hj => (nomatch hj), fun _ => ⟨rfl, rfl⟩⟩

/-- A backup request, whatever the host's answer (R121). -/
theorem hostBackup_runs {bus : BusId} {bytes : List Byte} {s t : State} {es : List TraceEntry}
    {P : BackupAnswer → State → List TraceEntry → Prop} {Q : List TraceEntry → Prop} (h : Emitted s t es) (hq : Q es)
    (hp : ∀ a u, u = { t with bkid := u.bkid, bkvalid := u.bkvalid, backupIn := t.backupIn.tail, trace := u.trace
                              resetIn := u.resetIn, draws := u.draws } →
      (∀ id, a = .ok id → u.bkid = id ∧ u.bkvalid = true) → (a = .fail → u.bkid = t.bkid ∧ u.bkvalid = t.bkvalid) →
      (∀ x rest, t.backupIn = x :: rest → a = x) →
      P a u (es ++ [entryAt t (.backup bus bytes a)])) :
    RunsFrom s (hostBackup bus bytes t) P Q := by
  refine beforeEvent_runs h hq fun r h1 h2 => ?_
  have hf := afterBackup_frame bus bytes { t with resetIn := r }
  refine ⟨es ++ [entryAt t (.backup bus bytes (backupAnswer t))], h.snoc h1 h2 ?_ ?_ ?_ ?_, ?_⟩
  · show (afterBackup bus bytes { t with resetIn := r }).trace = _
    rw [hf]; rfl
  · show (afterBackup bus bytes { t with resetIn := r }).resetIn = _
    rw [hf]
  · show _ = some (afterBackup bus bytes { t with resetIn := r }).settleDue
    rw [hf]; rfl
  · show (afterBackup bus bytes { t with resetIn := r }).resets = _
    rw [hf]
  · refine hp (backupAnswer t) (afterBackup bus bytes { t with resetIn := r }) ?_
      (afterBackup_bk bus bytes { t with resetIn := r }).1 (afterBackup_bk bus bytes { t with resetIn := r }).2 ?_
    · rw [hf]
    · intro x rest hx
      simp [backupAnswer, hx]

/-! ### ReadBlock and ReadDocument -/

/-- The entry is a chunk read of `bus`, at the registers of `t` (R105). -/
def IsChunkEntry (bus : BusId) (t : State) (e : TraceEntry) : Prop :=
  ∃ reg a, e = entryAt t (.rd (readFrame bus reg 32) a) ∧ reg.toNat % 32 = 0 ∧ ∀ b, a = .ok b → b.length ≤ 32

/-- At most `n` chunk reads of `bus`. -/
def ChunkReads (bus : BusId) (t : State) (n : Nat) (rs : List TraceEntry) : Prop :=
  rs.length ≤ n ∧ ∀ e ∈ rs, IsChunkEntry bus t e

/-- The entries are `es` and then at most `n` chunk reads of `bus`. -/
def ThenChunks (bus : BusId) (t : State) (n : Nat) (es es' : List TraceEntry) : Prop :=
  ∃ rs, es' = es ++ rs ∧ ChunkReads bus t n rs

theorem ThenChunks.none (bus : BusId) (t : State) (n : Nat) (es : List TraceEntry) : ThenChunks bus t n es es :=
  ⟨[], by simp, by simp, by simp⟩

theorem ThenChunks.trans {bus : BusId} {t u : State} {n m : Nat} {es es' es'' : List TraceEntry}
    (h1 : ThenChunks bus t n es es') (h2 : ThenChunks bus u m es' es'') (hu : entryAt u = entryAt t) :
    ThenChunks bus t (n + m) es es'' := by
  obtain ⟨rs, rfl, g1, g2⟩ := h1
  obtain ⟨ss, rfl, g3, g4⟩ := h2
  refine ⟨rs ++ ss, by simp, by simp; omega, fun e he => ?_⟩
  rcases List.mem_append.mp he with he | he
  · exact g2 e he
  · obtain ⟨reg, a, k1, k2⟩ := g4 e he
    exact ⟨reg, a, by rw [k1, hu], k2⟩

theorem ThenChunks.mono {bus : BusId} {t : State} {n m : Nat} {es es' : List TraceEntry} (h : ThenChunks bus t n es es')
    (hm : n ≤ m) : ThenChunks bus t m es es' := by
  obtain ⟨rs, h1, h2, h3⟩ := h
  exact ⟨rs, h1, by omega, h3⟩

/-- CHBUF and CHN keep their sizes (R27). -/
def KeepsStaging (t u : State) : Prop := t.chbuf.length = 32 → t.chn ≤ 32 → u.chbuf.length = 32 ∧ u.chn ≤ 32

theorem regOff_mod (k c : Nat) : (regOff (128 * k + 32 * c)).toNat % 32 = 0 := by
  simp only [regOff, Config.REG_SPAN, BitVec.toNat_ofNat]; omega

/-- The chunks of a block, whatever the answers (R105). -/
theorem readChunks_runs (bus : BusId) (k : Nat) (s : State) :
    ∀ (cs : List Nat) (blk : List Byte) (t : State) (es : List TraceEntry), (∀ c ∈ cs, c % 32 = 0) → Emitted s t es →
      t.settleDue = false →
      RunsFrom s (readChunks bus k cs blk t)
        (fun a u es' => ThenChunks bus t cs.length es es' ∧ SameButFrame t u ∧ KeepsStaging t u ∧
          ∀ b, a = .ok b → b.length = 128)
        (ThenChunks bus t cs.length es) := by
  intro cs
  induction cs with
  | nil =>
    intro blk t es _ h _
    rw [readChunks]
    split
    · exact ⟨es, h, .none .., rfl, fun h1 h2 => ⟨h1, h2⟩, fun b hb => (nomatch hb)⟩
    · rename_i hl
      exact ⟨es, h, .none .., rfl, fun h1 h2 => ⟨h1, h2⟩, fun b hb => by cases hb; exact not_not.mp hl⟩
  | cons c cs ih =>
    intro blk t es hc h hs
    have hreg : (regOff (Config.BLOCK_SIZE * k + c)).toNat % 32 = 0 := by
      obtain ⟨d, rfl⟩ : ∃ d, c = 32 * d := ⟨c / 32, by have := hc c (by simp); omega⟩
      exact regOff_mod k d
    refine runsFrom_andThen (P := fun a u es' => SameButFrame t u ∧ KeepsStaging t u ∧ ThenChunks bus t 1 es es') ?_ ?_
    · refine busRead_runs h hs (.none ..) fun a u h1 h2 h3 h4 => ⟨h1, ?_, _, rfl, by simp, ?_⟩
      · intro g1 g2
        cases a with
        | ok b =>
          obtain ⟨k1, k2, -, -⟩ := h3 b rfl
          have : b.length ≤ 32 := h2 b rfl
          rw [k1, k2]; simp; omega
        | ioErr c =>
          obtain ⟨k1, k2, -, -⟩ := h4 c rfl
          rw [k1, k2]; simp [g1]
      · intro e he
        obtain rfl : e = _ := by simpa using he
        exact ⟨_, a, rfl, hreg, h2⟩
    · intro a u es' hu ⟨h1, h2, h3⟩
      have he : entryAt u = entryAt t := by rw [h1]; rfl
      cases a with
      | ioErr code =>
        exact ⟨es', hu, h3.mono (by simp), h1, h2, fun b hb => (nomatch hb)⟩
      | ok bytes =>
        refine runsFrom_mono (ih (blk ++ bytes) u es' (fun c hc' => hc c (by simp [hc'])) hu (by rw [h1]; exact hs)) ?_ ?_
        · intro a v es'' ⟨g1, g2, g3, g4⟩
          refine ⟨(h3.trans g1 he).mono (by simp; omega), by rw [g2, h1], fun k1 k2 => ?_, g4⟩
          obtain ⟨k3, k4⟩ := h2 k1 k2
          exact g3 k3 k4
        · intro es'' g1
          exact (h3.trans g1 he).mono (by simp; omega)

/-- ReadBlock with the timer idle, whatever the answers (R105). -/
theorem readBlock_runs {bus : BusId} {k : Nat} {s t : State} {es : List TraceEntry} (h : Emitted s t es)
    (hs : t.settleDue = false) :
    RunsFrom s (readBlock bus k t)
      (fun a u es' => ThenChunks bus t 4 es es' ∧ SameButFrame t u ∧ KeepsStaging t u ∧ ∀ b, a = .ok b → b.length = 128)
      (ThenChunks bus t 4 es) :=
  readChunks_runs bus k s Config.CHUNK_OFFS [] t es (by decide) h hs

/-- DEV lists exactly its valid bytes, in whole blocks (R21, R120). -/
structure DevForm (t : State) : Prop where
  form : t.dev.wf
  range : t.devlen ≤ 32768
  blocks : t.devlen % 128 = 0
  listed : t.dev.map (·.1) = List.range t.devlen

theorem devForm_clear (t : State) : DevForm (clearDev t) := ⟨wf_nil, by simp, by simp, by simp⟩

theorem devForm_put {t : State} {k : Nat} {blk : List Byte} (h : DevForm t) (hk : t.devlen = 128 * k) (hb : blk.length = 128)
    (hc : k < 256) : DevForm (putDevBlock k blk t) := by
  refine ⟨?_, ?_, ?_, ?_⟩
  · show (t.dev.store (128 * k) blk).wf
    exact wf_store h.form (by omega)
  · show 128 * (k + 1) ≤ 32768; omega
  · show 128 * (k + 1) % 128 = 0; omega
  · have := store_at_end_keys (m := t.dev) (a := 128 * k) (bs := blk) (by rw [← hk]; exact h.listed)
    rw [hb] at this
    exact this

/-- What reading a document leaves alone, whatever the answers. -/
abbrev SameButReading (s t : State) : Prop :=
  t = { s with
    ioerr := t.ioerr, aclass := t.aclass, chbuf := t.chbuf, chn := t.chn, busIn := t.busIn, trace := t.trace
    resetIn := t.resetIn, draws := t.draws, dev := t.dev, devlen := t.devlen }

theorem SameButFrame.toReading {s t : State} (h : SameButFrame s t) : SameButReading s t := by rw [h]

theorem sameButReading_trans {s t u : State} (h1 : SameButReading s t) (h2 : SameButReading t u) : SameButReading s u := by
  rw [h2, h1]

theorem SameButReading.entryAt {s t : State} (h : SameButReading s t) : entryAt t = entryAt s := by rw [h]; rfl

/-- The extension blocks, whatever the answers (R120). -/
theorem readExtensions_runs (bus : BusId) (s : State) :
    ∀ (left k : Nat) (t : State) (es : List TraceEntry), Emitted s t es → t.settleDue = false → DevForm t → t.devlen = 128 * k →
      k + left ≤ 256 →
      RunsFrom s (readExtensions bus left k t)
        (fun _ u es' => ThenChunks bus t (4 * left) es es' ∧ SameButReading t u ∧ KeepsStaging t u ∧ DevForm u)
        (ThenChunks bus t (4 * left) es) := by
  intro left
  induction left with
  | zero =>
    intro k t es h _ hd _ _
    exact ⟨es, h, .none .., rfl, fun h1 h2 => ⟨h1, h2⟩, hd⟩
  | succ left ih =>
    intro k t es h hs hd hk hle
    rw [readExtensions]
    refine runsFrom_andThen (runsFrom_mono (readBlock_runs h hs) (fun a u es' hp => hp) fun es' hq => hq.mono (by omega)) ?_
    intro a u es' hu ⟨h1, h2, h3, h4⟩
    have hdu : DevForm u := by rw [h2]; exact ⟨hd.form, hd.range, hd.blocks, hd.listed⟩
    have hlu : u.devlen = 128 * k := by rw [h2]; exact hk
    cases a with
    | ioErr code => exact ⟨es', hu, h1.mono (by omega), h2.toReading, h3, hdu⟩
    | short len => exact ⟨es', hu, h1.mono (by omega), h2.toReading, h3, hdu⟩
    | ok blk =>
      have hput : SameButReading t (putDevBlock k blk u) := by rw [h2]; rfl
      refine runsFrom_mono (ih (k + 1) (putDevBlock k blk u) es' (hu.update rfl rfl rfl rfl)
        (by rw [putDevBlock_settleDue, h2]; exact hs) (devForm_put hdu hlu (h4 blk rfl) (by omega))
        rfl (by omega)) ?_ ?_
      · intro a v es'' ⟨g1, g2, g3, g4⟩
        refine ⟨(h1.trans g1 hput.entryAt).mono (by omega), sameButReading_trans hput g2, fun k1 k2 => ?_, g4⟩
        obtain ⟨k3, k4⟩ := h3 k1 k2
        exact g3 k3 k4
      · intro es'' g1
        exact (h1.trans g1 hput.entryAt).mono (by omega)

/-- ReadDocument with the timer idle, whatever the answers: at most 1024 chunk reads (R106, R120, R128). -/
theorem readDocument_runs_idle {bus : BusId} {s t : State} {es : List TraceEntry} (h : Emitted s t es)
    (hs : t.settleDue = false) :
    RunsFrom s (readDocument bus t)
      (fun _ u es' => ThenChunks bus t 1024 es es' ∧ SameButReading t u ∧ KeepsStaging t u ∧ DevForm u)
      (ThenChunks bus t 1024 es) := by
  have h0 : Emitted s (clearDev t) es := h.update rfl rfl rfl rfl
  refine runsFrom_andThen (runsFrom_mono (readBlock_runs h0 hs) (fun a u es' hp => hp) fun es' hq => ?_) ?_
  · obtain ⟨rs, k1, k2, k3⟩ := hq
    exact ⟨rs, k1, by omega, k3⟩
  intro a u es' hu ⟨h1, h2, h3, h4⟩
  have h1' : ThenChunks bus t 4 es es' := h1
  have hr : SameButReading t u := by rw [h2]; rfl
  have hdu : DevForm u := by
    have := devForm_clear t
    rw [h2]; exact ⟨this.form, this.range, this.blocks, this.listed⟩
  cases a with
  | ioErr code => exact ⟨es', hu, h1'.mono (by omega), hr, h3, hdu⟩
  | short len => exact ⟨es', hu, h1'.mono (by omega), hr, h3, hdu⟩
  | ok blk =>
    have hput : SameButReading t (putDevBlock 0 blk u) := by rw [h2]; rfl
    have hlt := (devByte (putDevBlock 0 blk u) Config.EXT_COUNT_OFF).isLt
    refine runsFrom_mono (readExtensions_runs bus s (devByte (putDevBlock 0 blk u) Config.EXT_COUNT_OFF).toNat 1 (putDevBlock 0 blk u)
      es' (hu.update rfl rfl rfl rfl) (by rw [putDevBlock_settleDue, h2]; exact hs)
      (devForm_put hdu (by rw [h2]; rfl) (h4 blk rfl) (by omega)) rfl (by omega)) ?_ ?_
    · intro a v es'' ⟨g1, g2, g3, g4⟩
      refine ⟨(h1'.trans g1 hput.entryAt).mono (by omega), sameButReading_trans hput g2, fun k1 k2 => ?_, g4⟩
      obtain ⟨k3, k4⟩ := h3 k1 k2
      exact g3 k3 k4
    · intro es'' g1
      exact (h1'.trans g1 hput.entryAt).mono (by omega)

/-- The frames of a document read from `t` on: an outstanding settle delay, if there is one, and then at most 1024 chunk reads. -/
def DocReads (bus : BusId) (t : State) (cs : List TraceEntry) : Prop :=
  ∃ held rs, cs = held ++ rs ∧ (held = [] ∨ t.settleDue = true ∧ held = [entryAt t (.settle 10)]) ∧ ChunkReads bus t 1024 rs

/-- The entries are `es` and then a document read. -/
def ThenDoc (bus : BusId) (t : State) (es es' : List TraceEntry) : Prop := ∃ cs, es' = es ++ cs ∧ DocReads bus t cs

theorem DocReads.none (bus : BusId) (t : State) : DocReads bus t [] := ⟨[], [], rfl, Or.inl rfl, by simp, by simp⟩

/-- With the timer idle there are only chunk reads. -/
theorem DocReads.idle {bus : BusId} {t : State} {cs : List TraceEntry} (h : DocReads bus t cs) (hs : t.settleDue = false) :
    ChunkReads bus t 1024 cs := by
  obtain ⟨held, rs, rfl, rfl | ⟨h1, -⟩, h2⟩ := h
  · exact h2
  · rw [hs] at h1; cases h1

theorem heldEntries_cases (t : State) : heldEntries t = [] ∨ t.settleDue = true ∧ heldEntries t = [entryAt t (.settle 10)] := by
  cases h : t.settleDue <;> simp [heldEntries, heldSettle, h]

/-- ReadDocument, whatever the answers: an outstanding settle delay passes, and then there are at most 1024 chunk reads; no settle delay
is outstanding afterwards (R50, R106, R120, R128). -/
theorem readDocument_runs {bus : BusId} {s t : State} {es : List TraceEntry} (h : Emitted s t es) :
    RunsFrom s (readDocument bus t)
      (fun _ u es' => ThenDoc bus t es es' ∧ SameButReading { t with settleDue := false } u ∧ KeepsStaging t u ∧ DevForm u)
      (ThenDoc bus t es) := by
  rw [readDocument_awaits]
  refine runsFrom_andThen (P := fun _ u es' => u = { t with settleDue := false, trace := u.trace, resetIn := u.resetIn } ∧
    es' = es ++ heldEntries t) (awaitSettle_runs h ⟨[], by simp, .none ..⟩ fun u hu => ⟨hu, rfl⟩) ?_
  rintro _ u es' hu ⟨h1, rfl⟩
  have he : entryAt u = entryAt t := by rw [h1]; rfl
  have hdoc : ∀ es'', ThenChunks bus u 1024 (es ++ heldEntries t) es'' → ThenDoc bus t es es'' := by
    rintro es'' ⟨rs, rfl, k1, k2⟩
    refine ⟨heldEntries t ++ rs, by simp, _, rs, rfl, heldEntries_cases t, k1, fun e hm => ?_⟩
    obtain ⟨reg, a, j1, j2⟩ := k2 e hm
    exact ⟨reg, a, by rw [j1, he], j2⟩
  refine runsFrom_mono (readDocument_runs_idle hu (by rw [h1])) ?_ hdoc
  rintro a v es'' ⟨g1, g2, g3, g4⟩
  exact ⟨hdoc es'' g1, by rw [g2, h1], by rw [h1] at g3; exact g3, g4⟩

/-! ### Pages and probes -/

/-- What writing pages leaves alone, whatever the answers. -/
abbrev SameButWriting (s t : State) : Prop :=
  t = { s with
    ioerr := t.ioerr, aclass := t.aclass, pgbuf := t.pgbuf, busIn := t.busIn, trace := t.trace, resetIn := t.resetIn
    draws := t.draws, wstate := t.wstate, pageI := t.pageI, settleDue := t.settleDue }

/-- The trace entry of the write frame of page `p` from state `s` on. -/
def pageEntry (bus : BusId) (s : State) (p : Nat) (a : WriteAnswer) : TraceEntry :=
  entryAt { s with wstate := .writing, pageI := p + 1 }
    (.wr { bus := bus, addr7 := 0x50, reg := BitVec.ofNat 8 (16 * p), data := page (docBytes s) p } a)

/-- The pages `k .. k + n - 1`, whatever the answers: an error ends the writing after that page's frame, and otherwise all pages are
written and settled; a reset strikes before a frame or before a settle delay (R110, R124, R201). -/
theorem writePages_runs (bus : BusId) (s : State) :
    ∀ (n k : Nat) (t : State) (es : List TraceEntry), Emitted s t es → t.settleDue = false → 16 * (k + n) ≤ t.dlen →
      RunsFrom s (writePages bus (List.range' k n) t)
        (fun a u es' => SameButWriting t u ∧ (t.pgbuf.length = 16 → u.pgbuf.length = 16) ∧
          (a = .ok → es' = es ++ pageEntries bus t k n ∧ u.settleDue = false ∧ (n = 0 → u = t) ∧
            (n ≠ 0 → u.wstate = .writing ∧ u.pageI = k + n)) ∧
          ∀ c, a = .ioErr c → ∃ m, m < n ∧ es' = es ++ pageEntries bus t k m ++ [pageEntry bus t (k + m) (.ioErr c)] ∧
            u.wstate = .writing ∧ u.pageI = k + m + 1 ∧ u.settleDue = true)
        (fun es' => ∃ m, m < n ∧
          (es' = es ++ pageEntries bus t k m ∨ es' = es ++ pageEntries bus t k m ++ [pageEntry bus t (k + m) .ok])) := by
  intro n
  induction n with
  | zero =>
    intro k t es h hs _
    exact ⟨es, h, rfl, fun h => h, fun _ => ⟨by simp [pageEntries], hs, fun _ => rfl, fun h => absurd rfl h⟩, fun c hc => (nomatch hc)⟩
  | succ n ih =>
    intro k t es h hs hd
    rw [List.range'_succ, writePages]
    have hdata : (stagePage k (enterPage k t)).pgbuf = page (docBytes t) k := by
      rw [page_docBytes (by omega)]; rfl
    have hlen : (page (docBytes t) k).length = 16 := by
      rw [page_docBytes (by omega)]; simp [loadDoc]
    have hstart : Emitted s (stagePage k (enterPage k t)) es := h.update rfl rfl rfl rfl
    refine runsFrom_andThen (P := fun a u es' => SameButWriting t u ∧ u.pgbuf.length = 16 ∧ u.wstate = .writing ∧ u.pageI = k + 1 ∧
      u.settleDue = true ∧ es' = es ++ [pageEntry bus t k a]) ?_ ?_
    · refine busWrite_runs hstart hs ⟨0, by omega, Or.inl (by simp [pageEntries])⟩ fun a u h1 => ?_
      refine ⟨by rw [h1]; rfl, ?_, ?_, ?_, by rw [h1], ?_⟩
      · rw [h1]; show (stagePage k (enterPage k t)).pgbuf.length = 16
        rw [hdata, hlen]
      · rw [h1]; rfl
      · rw [h1]; rfl
      · rw [hdata]
        simp only [pageEntry, writeFrame, regOff_eq, Config.EDID_ADDR7, Config.WR_PAGE]
        rfl
    · rintro a u es' hu ⟨h1, h2, h3, h4, h5, rfl⟩
      cases a with
      | ioErr c =>
        exact ⟨_, hu, h1, fun _ => h2, fun hc => (nomatch hc),
          fun c' hc => ⟨0, by omega, by cases hc; simp [pageEntries], h3, by simpa using h4, h5⟩⟩
      | ok =>
        refine runsFrom_andThen (P := fun _ v es'' => SameButWriting t v ∧ v.pgbuf.length = 16 ∧ v.wstate = .writing ∧
          v.pageI = k + 1 ∧ v.settleDue = false ∧ es'' = es ++ pageEntries bus t k 1) ?_ ?_
        · refine settle_runs hu ⟨0, by omega, Or.inr (by simp [pageEntries])⟩ fun v hv => ?_
          refine ⟨by rw [hv, h1], by rw [hv]; exact h2, by rw [hv]; exact h3, by rw [hv]; exact h4, by rw [hv], ?_⟩
          have : entryAt u = entryAt { t with wstate := .writing, pageI := k + 1 } := by
            rw [h1]; simp only [h3, h4]; rfl
          rw [this]
          simp [pageEntries, pageEntry]
        · rintro _ v es'' hv ⟨g1, g2, g3, g4, g5, rfl⟩
          have hdl : v.dlen = t.dlen := by rw [g1]
          have hpe : ∀ a b, pageEntries bus v a b = pageEntries bus t a b := fun a b => by rw [g1]; rfl
          have hpt : ∀ p a, pageEntry bus v p a = pageEntry bus t p a := fun p a => by rw [g1]; rfl
          refine runsFrom_mono (ih (k + 1) v _ hv g5 (by rw [hdl]; omega)) ?_ ?_
          · rintro a w es3 ⟨k1, k2, k3, k4⟩
            refine ⟨by rw [k1, g1], fun _ => k2 g2, fun ha => ?_, fun c hc => ?_⟩
            · obtain ⟨e1, e0, e2, e3⟩ := k3 ha
              refine ⟨?_, e0, fun h => absurd h (by omega), fun _ => ?_⟩
              · rw [e1, hpe, pageEntries_succ bus t k n, List.append_assoc]
              · by_cases hn : n = 0
                · rw [e2 hn]; exact ⟨g3, by rw [g4, hn]⟩
                · obtain ⟨f1, f2⟩ := e3 hn
                  exact ⟨f1, by omega⟩
            · obtain ⟨m, e1, e2, e3, e4, e5⟩ := k4 c hc
              refine ⟨m + 1, by omega, ?_, e3, by omega, e5⟩
              rw [e2, hpe, hpt, pageEntries_succ bus t k m, show k + (m + 1) = k + 1 + m by omega]
              simp
          · rintro es3 ⟨m, e1, e2 | e2⟩
            · exact ⟨m + 1, by omega, Or.inl (by rw [e2, hpe, pageEntries_succ bus t k m]; simp)⟩
            · refine ⟨m + 1, by omega, Or.inr ?_⟩
              rw [e2, hpe, hpt, pageEntries_succ bus t k m, show k + (m + 1) = k + 1 + m by omega]
              simp

/-- Writing one byte, settling and reading it back, whatever the answers (R126). -/
theorem pokeAndPeek_runs {bus : BusId} {off : Nat} {v : Byte} {s t : State} {es : List TraceEntry} (h : Emitted s t es)
    (hs : t.settleDue = false) :
    RunsFrom s (pokeAndPeek bus off v t)
      (fun a u es' => SameButFrame t u ∧ KeepsStaging t u ∧ (∀ b, a = .ok b → b.length ≤ 1) ∧
        ∃ w, es' = es ++ [entryAt t (.wr (writeFrame bus (regOff off) [v]) w), entryAt t (.settle 10),
          entryAt t (.rd (readFrame bus (regOff off) 1) a)])
      (fun es' => es' = es ∨ ∃ w, es' = es ++ [entryAt t (.wr (writeFrame bus (regOff off) [v]) w)] ∨
        es' = es ++ [entryAt t (.wr (writeFrame bus (regOff off) [v]) w), entryAt t (.settle 10)]) := by
  refine runsFrom_andThen (P := fun a u es' => SameButFrame { t with settleDue := true } u ∧ KeepsStaging t u ∧
    es' = es ++ [entryAt t (.wr (writeFrame bus (regOff off) [v]) a)]) ?_ ?_
  · exact busWrite_runs h hs (Or.inl rfl) fun a u h1 => ⟨by rw [h1], fun k1 k2 => by rw [h1]; exact ⟨k1, k2⟩, rfl⟩
  rintro w u es' hu ⟨h1, h2, rfl⟩
  have e1 : entryAt u = entryAt t := by rw [h1]; rfl
  refine runsFrom_andThen (P := fun _ x es' => SameButFrame t x ∧ KeepsStaging t x ∧
    es' = es ++ [entryAt t (.wr (writeFrame bus (regOff off) [v]) w), entryAt t (.settle 10)]) ?_ ?_
  · refine settle_runs hu (Or.inr ⟨w, Or.inl rfl⟩) fun x hx => ⟨by rw [hx, h1, ← hs], fun k1 k2 => ?_, by rw [e1]; simp⟩
    rw [hx]; exact h2 k1 k2
  rintro _ x es' hx ⟨g1, g2, rfl⟩
  have e2 : entryAt x = entryAt t := by rw [g1]; rfl
  refine busRead_runs hx (by rw [g1]; exact hs) (Or.inr ⟨w, Or.inr rfl⟩) fun a y k1 k2 k3 k4 =>
    ⟨by rw [k1, g1], fun m1 m2 => ?_, k2, w, by rw [e2]; simp⟩
  obtain ⟨n1, n2⟩ := g2 m1 m2
  cases a with
  | ok b =>
    obtain ⟨j1, j2, -, -⟩ := k3 b rfl
    have : b.length ≤ 1 := k2 b rfl
    rw [j1, j2]; simp; omega
  | ioErr c =>
    obtain ⟨j1, j2, -, -⟩ := k4 c rfl
    rw [j1, j2]; simp [n1]

end Sys2Proof.Laws
end

