-- ==== Sys2Proof/Laws/Commands.lean ====
section
/-! SUPPORT. What the body of each Device Channel command can do, whatever the answers and whenever reset strikes: its events in order,
its ways to end, and what it leaves alone (43_device_channel.md R122 to R127; 60_exceptions.md R171). -/

namespace Sys2Proof.Laws

open Sys2Proof Sys2Proof.Machine

/-- A body that started at `s` has ended at `t`, with `P`, or it has been abandoned and left `t`, with `Q` of what it had emitted. -/
def BodyRuns (s t : State) (P : State → List TraceEntry → Prop) (Q : List TraceEntry → Prop) : Prop :=
  ∃ es, (Emitted s t es ∧ P t es) ∨ (Abandoned s t es ∧ Q es)

/-- From the last procedure of a body to the body. -/
theorem bodyRuns_finish {α : Type} {s : State} {r : Res α} {f : α → State → State}
    {P : α → State → List TraceEntry → Prop} {Q : List TraceEntry → Prop} {P' : State → List TraceEntry → Prop}
    {Q' : List TraceEntry → Prop} (h : RunsFrom s r P Q)
    (hf : ∀ a t es, Emitted s t es → P a t es → BodyRuns s (f a t) P' Q') (hq : ∀ es, Q es → Q' es) :
    BodyRuns s (r.finish f) P' Q' :=
  runsFrom_finish (C := fun t => BodyRuns s t P' Q') h hf fun _ es h1 h2 => ⟨es, Or.inr ⟨h1, hq es h2⟩⟩

/-- A body that ends where its last procedure has left it. -/
theorem bodyRuns_end {s t u : State} {es : List TraceEntry} {P : State → List TraceEntry → Prop} {Q : List TraceEntry → Prop}
    (h : Emitted s t es) (h1 : u.trace = t.trace) (h2 : u.resetIn = t.resetIn) (h3 : u.settleDue = t.settleDue)
    (h4 : u.resets = t.resets) (hp : P u es) :
    BodyRuns s u P Q :=
  ⟨es, Or.inl ⟨h.update h1 h2 h3 h4, hp⟩⟩

/-- The end of a command: STATUS, ERR and MSG. -/
abbrev EndsIn (t : State) (ok fail : Bool) (err : ErrCode) (msg : Msg) : Prop :=
  t.status = { busy := false, done := true, ok := ok, fail := fail } ∧ t.err = err ∧ t.msg = msg

/-- What a command that reads the document leaves alone. -/
abbrev SameButReadBody (s t : State) : Prop :=
  t = { s with
    status := t.status, err := t.err, aclass := t.aclass, msg := t.msg, rval := t.rval, rvalid := t.rvalid
    chbuf := t.chbuf, chn := t.chn, draws := t.draws, dev := t.dev, devlen := t.devlen, ioerr := t.ioerr
    busIn := t.busIn, trace := t.trace, resetIn := t.resetIn, settleDue := t.settleDue }

theorem devForm_congr {t u : State} (h : DevForm t) (h1 : u.dev = t.dev) (h2 : u.devlen = t.devlen) : DevForm u :=
  ⟨by rw [h1]; exact h.form, by rw [h2]; exact h.range, by rw [h2]; exact h.blocks, by rw [h1, h2]; exact h.listed⟩

/-- The two failures of a document read, with the message and RVAL as they were. -/
def ReadFails (s t : State) : Prop :=
  (EndsIn t false true .accessError s.msg ∨ EndsIn t false true .sizeError s.msg) ∧ t.rval = s.rval ∧ t.rvalid = s.rvalid

/-! ### RDDOC and CMPDOC -/

/-- RDDOC (R123). -/
theorem rddocBody_runs (bus : BusId) (s : State) :
    BodyRuns s (rddocBody bus s)
      (fun t es => ThenDoc bus s [] es ∧ SameButReadBody s t ∧ KeepsStaging s t ∧ DevForm t ∧
        (EndsIn t true false .none .none ∧ t.rvalid = true ∨ ReadFails s t))
      (ThenDoc bus s []) := by
  refine bodyRuns_finish (readDocument_runs (Emitted.refl s)) ?_ fun es h => h
  intro r t es ht ⟨h1, h2, h3, h4⟩
  have hm : t.msg = s.msg ∧ t.rval = s.rval ∧ t.rvalid = s.rvalid := by rw [h2]; exact ⟨rfl, rfl, rfl⟩
  cases r with
  | ok => exact bodyRuns_end ht rfl rfl rfl rfl ⟨h1, by rw [h2]; rfl, h3, devForm_congr h4 rfl rfl, Or.inl ⟨⟨rfl, rfl, rfl⟩, rfl⟩⟩
  | access =>
    exact bodyRuns_end ht rfl rfl rfl rfl ⟨h1, by rw [h2]; rfl, h3, devForm_congr h4 rfl rfl, Or.inr ⟨Or.inl ⟨rfl, rfl, hm.1⟩, hm.2⟩⟩
  | size =>
    exact bodyRuns_end ht rfl rfl rfl rfl ⟨h1, by rw [h2]; rfl, h3, devForm_congr h4 rfl rfl, Or.inr ⟨Or.inr ⟨rfl, rfl, hm.1⟩, hm.2⟩⟩

theorem diffsFrom_length (o : Nat) (ds fs : List Byte) : (diffsFrom o ds fs).length ≤ fs.length := by
  induction ds generalizing o fs with
  | nil => simp [diffsFrom]
  | cons d ds ih =>
    cases fs with
    | nil => simp [diffsFrom]
    | cons f fs =>
      have := ih (o + 1) fs
      simp only [diffsFrom]
      split <;> simp <;> omega

/-- CMPDOC (R127). -/
theorem cmpdocBody_runs (bus : BusId) (s : State) :
    BodyRuns s (cmpdocBody bus s)
      (fun t es => ThenDoc bus s [] es ∧ SameButReadBody { s with diff := t.diff } t ∧ KeepsStaging s t ∧ DevForm t ∧
        t.diff.length ≤ s.dlen ∧
        ((EndsIn t true false .none .isMatch ∨ EndsIn t false false .none .sizeMismatch ∨ EndsIn t false false .none .differ) ∧
           t.rval = s.rval ∧ t.rvalid = s.rvalid ∨ ReadFails s t))
      (ThenDoc bus s []) := by
  have h0 : Emitted s { s with diff := [] } [] := (Emitted.refl s).update rfl rfl rfl rfl
  refine bodyRuns_finish (readDocument_runs h0) ?_ fun es h => h
  intro r t es ht ⟨h1, h2, h3, h4⟩
  have h1' : ThenDoc bus s [] es := h1
  have h3' : KeepsStaging s t := h3
  have hm : t.msg = s.msg ∧ t.rval = s.rval ∧ t.rvalid = s.rvalid := by rw [h2]; exact ⟨rfl, rfl, rfl⟩
  have hd : t.diff = [] := by rw [h2]
  have hl : t.dlen = s.dlen := by rw [h2]
  cases r with
  | access =>
    exact bodyRuns_end ht rfl rfl rfl rfl ⟨h1', by rw [h2]; rfl, h3', devForm_congr h4 rfl rfl, by simp [hd],
      Or.inr ⟨Or.inl ⟨rfl, rfl, hm.1⟩, hm.2⟩⟩
  | size =>
    exact bodyRuns_end ht rfl rfl rfl rfl ⟨h1', by rw [h2]; rfl, h3', devForm_congr h4 rfl rfl, by simp [hd],
      Or.inr ⟨Or.inr ⟨rfl, rfl, hm.1⟩, hm.2⟩⟩
  | ok =>
    simp only
    split
    · exact bodyRuns_end ht rfl rfl rfl rfl ⟨h1', by rw [h2]; rfl, h3', devForm_congr h4 rfl rfl, by simp [hd],
        Or.inl ⟨Or.inr (Or.inl ⟨rfl, rfl, rfl⟩), hm.2⟩⟩
    · have hlen : (diffsFrom 0 (devBytes t) (docBytes t)).length ≤ s.dlen := by
        have := diffsFrom_length 0 (devBytes t) (docBytes t)
        simpa [hl] using this
      split
      · exact bodyRuns_end ht rfl rfl rfl rfl ⟨h1', by rw [h2]; rfl, h3', devForm_congr h4 rfl rfl, hlen,
          Or.inl ⟨Or.inl ⟨rfl, rfl, rfl⟩, hm.2⟩⟩
      · exact bodyRuns_end ht rfl rfl rfl rfl ⟨h1', by rw [h2]; rfl, h3', devForm_congr h4 rfl rfl, hlen,
          Or.inl ⟨Or.inr (Or.inr ⟨rfl, rfl, rfl⟩), hm.2⟩⟩

/-! ### DISCOVER -/

/-- The probes of the listed buses with the timer idle, whatever the answers: one read frame each, in order (R122). -/
theorem probeBuses_runs_idle (s : State) :
    ∀ (bs : List BusId) (t : State) (es : List TraceEntry), Emitted s t es → t.settleDue = false →
      RunsFrom s (probeBuses bs t)
        (fun _ u es' => (∃ as : List BusAnswer, as.length = bs.length ∧ (∀ b, .ok b ∈ as → b.length ≤ 1) ∧
            es' = es ++ List.zipWith (fun b a => entryAt t (.rd (readFrame b 0x00 1) a)) bs as ∧
            u.probe = t.probe ++ List.zipWith (fun b a => { busId := b, hasEdid := a == .ok [0x00] }) bs as) ∧
          SameButFrame { t with probe := u.probe } u ∧ KeepsStaging t u)
        (fun es' => ∃ as : List BusAnswer, as.length < bs.length ∧ (∀ b, .ok b ∈ as → b.length ≤ 1) ∧
          es' = es ++ List.zipWith (fun b a => entryAt t (.rd (readFrame b 0x00 1) a)) bs as) := by
  intro bs
  induction bs with
  | nil => intro t es h _; exact ⟨es, h, ⟨[], rfl, by simp, by simp, by simp⟩, rfl, fun h1 h2 => ⟨h1, h2⟩⟩
  | cons b bs ih =>
    intro t es h hs
    rw [probeBuses]
    refine runsFrom_andThen (P := fun a u es' => SameButFrame t u ∧ KeepsStaging t u ∧ (∀ b, a = .ok b → b.length ≤ 1) ∧
      es' = es ++ [entryAt t (.rd (readFrame b 0x00 1) a)]) ?_ ?_
    · refine busRead_runs h hs ⟨[], by simp, by simp, by simp⟩ fun a u h1 h2 h3 h4 => ⟨h1, fun g1 g2 => ?_, h2, rfl⟩
      cases a with
      | ok b =>
        obtain ⟨j1, j2, -, -⟩ := h3 b rfl
        have : b.length ≤ 1 := h2 b rfl
        rw [j1, j2]; simp; omega
      | ioErr c =>
        obtain ⟨j1, j2, -, -⟩ := h4 c rfl
        rw [j1, j2]; simp [g1]
    · rintro a u es' hu ⟨h1, h2, h3, rfl⟩
      have he : entryAt u = entryAt t := by rw [h1]; rfl
      have hp : u.probe = t.probe := by rw [h1]
      refine runsFrom_mono (ih (addProbe b (a == .ok [0x00]) u) _ (hu.update rfl rfl rfl rfl)
        (by rw [addProbe_settleDue, h1]; exact hs)) ?_ ?_
      · rintro _ v es'' ⟨⟨as, g1, g2, g3, g4⟩, g5, g6⟩
        refine ⟨⟨a :: as, by simp [g1], ?_, ?_, ?_⟩, by rw [g5, h1]; rfl, fun k1 k2 => ?_⟩
        · intro x hx
          rcases List.mem_cons.mp hx with hx | hx
          · exact h3 x hx.symm
          · exact g2 x hx
        · rw [g3, show entryAt (addProbe b (a == .ok [0x00]) u) = entryAt u from rfl, he]; simp
        · rw [g4, addProbe_probe, hp]; simp
        · obtain ⟨k3, k4⟩ := h2 k1 k2
          exact g6 k3 k4
      · rintro es'' ⟨as, g1, g2, g3⟩
        refine ⟨a :: as, by simpa using g1, ?_, ?_⟩
        · intro x hx
          rcases List.mem_cons.mp hx with hx | hx
          · exact h3 x hx.symm
          · exact g2 x hx
        · rw [g3, show entryAt (addProbe b (a == .ok [0x00]) u) = entryAt u from rfl, he]; simp

/-- The probes of the listed buses, whatever the answers: an outstanding settle delay passes before the first (R50, R122). -/
theorem probeBuses_runs {s t : State} {es : List TraceEntry} (bs : List BusId) (h : Emitted s t es) :
    RunsFrom s (probeBuses bs t)
      (fun _ u es' => (∃ as : List BusAnswer, as.length = bs.length ∧ (∀ b, .ok b ∈ as → b.length ≤ 1) ∧
          es' = es ++ (if bs = [] then [] else heldEntries t) ++
            List.zipWith (fun b a => entryAt t (.rd (readFrame b 0x00 1) a)) bs as ∧
          u.probe = t.probe ++ List.zipWith (fun b a => { busId := b, hasEdid := a == .ok [0x00] }) bs as) ∧
        SameButFrame { t with probe := u.probe, settleDue := t.settleDue && bs.isEmpty } u ∧ KeepsStaging t u)
      (fun es' => es' = es ∨ ∃ as : List BusAnswer, as.length < bs.length ∧ (∀ b, .ok b ∈ as → b.length ≤ 1) ∧
        es' = es ++ heldEntries t ++ List.zipWith (fun b a => entryAt t (.rd (readFrame b 0x00 1) a)) bs as) := by
  by_cases hbs : bs = []
  · subst hbs
    exact ⟨es, h, ⟨[], rfl, by simp, by simp, by simp⟩, by simp, fun h1 h2 => ⟨h1, h2⟩⟩
  rw [probeBuses_awaits hbs]
  refine runsFrom_andThen (P := fun _ u es' => u = { t with settleDue := false, trace := u.trace, resetIn := u.resetIn } ∧
    es' = es ++ heldEntries t) (awaitSettle_runs h (Or.inl rfl) fun u hu => ⟨hu, rfl⟩) ?_
  rintro _ u es' hu ⟨h1, rfl⟩
  have he : entryAt u = entryAt t := by rw [h1]; rfl
  refine runsFrom_mono (probeBuses_runs_idle s bs u _ hu (by rw [h1])) ?_ ?_
  · rintro _ v es'' ⟨⟨as, g1, g2, g3, g4⟩, g5, g6⟩
    refine ⟨⟨as, g1, g2, by rw [g3, he, if_neg hbs], by rw [g4, h1]⟩, by rw [g5, h1]; simp [hbs], ?_⟩
    rw [h1] at g6; exact g6
  · rintro es'' ⟨as, g1, g2, g3⟩
    exact Or.inr ⟨as, g1, g2, by rw [g3, he]⟩

/-! ### WRDOC -/

/-- What WRDOC leaves alone. -/
abbrev SameButWriteBody (s t : State) : Prop :=
  t = { s with
    status := t.status, err := t.err, aclass := t.aclass, msg := t.msg, rval := t.rval, rvalid := t.rvalid
    chbuf := t.chbuf, chn := t.chn, draws := t.draws, dev := t.dev, devlen := t.devlen, ioerr := t.ioerr
    busIn := t.busIn, trace := t.trace, resetIn := t.resetIn, settleDue := t.settleDue, bkid := t.bkid, bkvalid := t.bkvalid
    backupIn := t.backupIn, wstate := t.wstate, pageI := t.pageI, pageN := t.pageN, pgbuf := t.pgbuf }

/-- What follows the backup of WRDOC: pages, each acknowledged and settled; then nothing, or a page with any answer, or, when all
`n` pages are written, the frames that re-read the device (R124). -/
def AfterBackup (bus : BusId) (s : State) (n : Nat) (es : List TraceEntry) : Prop :=
  ∃ m tail, es = pageEntries bus { s with pageN := n } 0 m ++ tail ∧ m ≤ n ∧
    (tail = [] ∨ (m < n ∧ ∃ a, tail = [pageEntry bus { s with pageN := n } m a]) ∨
     (m = n ∧ ∃ u : State, u.status = s.status ∧ u.wstate = .readBack ∧ u.pageI = n ∧ u.pageN = n ∧ ChunkReads bus u 1024 tail))

/-- The events of WRDOC: the document read; then nothing, or the backup with any answer, or a backup that is taken and what follows it
(R124). -/
def WriteEvents (bus : BusId) (s : State) (es : List TraceEntry) : Prop :=
  ∃ cs tail, es = cs ++ tail ∧ DocReads bus (clearWrite s) cs ∧
    (tail = [] ∨ ∃ bytes a more, tail = entryAt (clearWrite s) (.backup bus bytes a) :: more ∧ bytes.length % 128 = 0 ∧
      (more = [] ∨ (∃ id, a = .ok id) ∧ AfterBackup bus s (s.dlen / 16) more))

/-- A backup that is taken in `es` is the one in BKID. -/
def KeepsBackup (t : State) (es : List TraceEntry) : Prop :=
  ∀ e ∈ es, ∀ b bytes id, e.event = .backup b bytes (.ok id) → t.bkid = id ∧ t.bkvalid = true

/-- The ends of WRDOC. -/
def WriteEnds (s t : State) : Prop :=
  (EndsIn t true false .none .none ∧ t.wstate = .verified ∨
   EndsIn t false true .sizeError s.msg ∨ EndsIn t false true .accessError s.msg ∨
   EndsIn t false true .backupFailed s.msg ∨
   (EndsIn t false true .writeVerificationFailed s.msg ∧ t.wstate = .verificationFailed)) ∧
  t.rval = s.rval ∧ t.rvalid = s.rvalid

theorem keepsBackup_chunks {bus : BusId} {s t : State} {n : Nat} {cs : List TraceEntry} (h : ChunkReads bus s n cs) :
    KeepsBackup t cs := by
  intro e he b bytes id hb
  obtain ⟨reg, a, rfl, -, -⟩ := h.2 e he
  cases hb

theorem keepsBackup_doc {bus : BusId} {s t : State} {cs : List TraceEntry} (h : DocReads bus s cs) : KeepsBackup t cs := by
  obtain ⟨held, rs, rfl, hh, hc⟩ := h
  intro e he b bytes id hb
  rcases List.mem_append.mp he with he | he
  · rcases hh with rfl | ⟨-, rfl⟩
    · simp at he
    · obtain rfl : e = _ := by simpa using he
      cases hb
  · exact keepsBackup_chunks hc e he b bytes id hb

theorem pageEntries_isWrite {bus : BusId} {s : State} {m : Nat} {e : TraceEntry} (h : e ∈ pageEntries bus s 0 m) :
    ∃ p, p < m ∧ (e = pageEntry bus s p .ok ∨ e = entryAt { s with wstate := .writing, pageI := p + 1 } (.settle 10)) := by
  simp only [pageEntries, List.mem_flatMap, List.mem_range'_1, List.mem_cons, List.not_mem_nil, or_false] at h
  obtain ⟨p, h1, h2⟩ := h
  exact ⟨p, by omega, h2⟩

theorem keepsBackup_afterBackup {bus : BusId} {s t : State} {n : Nat} {es : List TraceEntry} (h : AfterBackup bus s n es) :
    KeepsBackup t es := by
  obtain ⟨m, tail, rfl, -, h⟩ := h
  intro e he b bytes id hb
  rcases List.mem_append.mp he with he | he
  · obtain ⟨p, -, rfl | rfl⟩ := pageEntries_isWrite he <;> cases hb
  · rcases h with rfl | ⟨-, a, rfl⟩ | ⟨-, u, -, -, -, -, hc⟩
    · simp at he
    · obtain rfl : e = _ := by simpa using he
      cases hb
    · exact keepsBackup_chunks (t := t) hc e he b bytes id hb

theorem entryAt_congr {s t : State} (h1 : t.status = s.status) (h2 : t.wstate = s.wstate) (h3 : t.pageI = s.pageI)
    (h4 : t.pageN = s.pageN) : entryAt t = entryAt s := by
  funext e
  simp only [entryAt, h1, h2, h3, h4]

theorem pageEntry_congr {bus : BusId} {s t : State} (h1 : t.status = s.status) (h2 : t.pageN = s.pageN)
    (h3 : docBytes t = docBytes s) (p : Nat) (a : WriteAnswer) : pageEntry bus t p a = pageEntry bus s p a := by
  simp only [pageEntry, entryAt, h1, h2, h3]

theorem pageEntries_eq_of {bus : BusId} {s t : State} (h1 : t.status = s.status) (h2 : t.pageN = s.pageN)
    (h3 : docBytes t = docBytes s) (k n : Nat) : pageEntries bus t k n = pageEntries bus s k n := by
  simp only [pageEntries, entryAt, h1, h2, h3]

theorem afterBackup_congr {bus : BusId} {s t : State} {n : Nat} {es : List TraceEntry} (h1 : t.status = s.status)
    (h3 : docBytes t = docBytes s) (h : AfterBackup bus t n es) : AfterBackup bus s n es := by
  obtain ⟨m, tail, rfl, k2, k3⟩ := h
  have hpe := pageEntries_eq_of (bus := bus) (s := { s with pageN := n }) (t := { t with pageN := n }) h1 rfl h3
  have hpt := pageEntry_congr (bus := bus) (s := { s with pageN := n }) (t := { t with pageN := n }) h1 rfl h3
  refine ⟨m, tail, by rw [hpe], k2, ?_⟩
  rcases k3 with k | ⟨k, a, rfl⟩ | ⟨k, u, k1, k2⟩
  · exact Or.inl k
  · exact Or.inr (Or.inl ⟨k, a, by rw [hpt]⟩)
  · exact Or.inr (Or.inr ⟨k, u, by rw [k1, h1], k2⟩)

/-- What holds at the end of the pages and the verification. -/
structure VerifyPost (bus : BusId) (pre : List TraceEntry) (w t : State) (es : List TraceEntry) : Prop where
  events : ∃ more, es = pre ++ more ∧ AfterBackup bus w (w.dlen / 16) more
  frame : SameButWriteBody w t
  backup : t.bkid = w.bkid ∧ t.bkvalid = w.bkvalid ∧ t.backupIn = w.backupIn
  staging : KeepsStaging w t
  page : w.pgbuf.length = 16 → t.pgbuf.length = 16
  dev : DevForm t
  pages : t.pageI ≤ t.pageN ∧ t.pageN = w.dlen / 16
  ends : WriteEnds w t

/-- The pages and the verification, once the backup is taken: `w` is the state after the backup (R124). -/
theorem writeAndVerify_runs {bus : BusId} {s w : State} {pre : List TraceEntry} (h : Emitted s w pre) (hsd : w.settleDue = false)
    (hdev : DevForm w) (hI0 : w.pageI = 0) :
    BodyRuns s (writeAndVerify bus w) (VerifyPost bus pre w)
      (fun es => ∃ more, es = pre ++ more ∧ AfterBackup bus w (w.dlen / 16) more) := by
  obtain ⟨n, hn⟩ : ∃ n, w.dlen / 16 = n := ⟨_, rfl⟩
  have hdl : 16 * (0 + n) ≤ w.dlen := by omega
  unfold writeAndVerify
  simp only [Config.WR_PAGE, List.range_eq_range']
  rw [hn]
  generalize hw0 : ({ setWstate .backedUp w with pageN := n } : State) = w0
  have h0 : Emitted s w0 pre := by rw [← hw0]; exact h.update rfl rfl rfl rfl
  have hpe : ∀ m, pageEntries bus w0 0 m = pageEntries bus { w with pageN := n } 0 m := fun m => by rw [← hw0]; rfl
  have hpt : ∀ p a, pageEntry bus w0 p a = pageEntry bus { w with pageN := n } p a := fun p a => by rw [← hw0]; rfl
  refine bodyRuns_finish (writePages_runs bus s n 0 w0 pre h0 (by rw [← hw0]; exact hsd) (by rw [← hw0]; exact hdl)) ?_ ?_
  · rintro r t es ht ⟨h1, h2, h3, h4⟩
    have hm : t.msg = w.msg ∧ t.rval = w.rval ∧ t.rvalid = w.rvalid := by rw [h1, ← hw0]; exact ⟨rfl, rfl, rfl⟩
    have hN : t.pageN = n := by rw [h1, ← hw0]
    have hst : KeepsStaging w t := by rw [h1, ← hw0]; exact fun k1 k2 => ⟨k1, k2⟩
    have hpg : w.pgbuf.length = 16 → t.pgbuf.length = 16 := fun k => h2 (by rw [← hw0]; exact k)
    have hdt : DevForm t := devForm_congr hdev (by rw [h1, ← hw0]; rfl) (by rw [h1, ← hw0]; rfl)
    cases r with
    | ioErr c =>
      obtain ⟨m, e1, e2, e3, e4, -⟩ := h4 c rfl
      refine bodyRuns_end ht rfl rfl rfl rfl ⟨⟨_, ?_, by
        rw [hn]; exact ⟨m, [pageEntry bus { w with pageN := n } m (.ioErr c)], rfl, by omega, Or.inr (Or.inl ⟨e1, _, rfl⟩)⟩⟩,
        ?_, ⟨?_, ?_, ?_⟩, hst, hpg,
        devForm_congr hdt rfl rfl, ⟨?_, ?_⟩, ?_⟩
      · rw [e2, hpe, hpt, Nat.zero_add, List.append_assoc]
      · rw [h1, ← hw0]; rfl
      · show t.bkid = _; rw [h1, ← hw0]; rfl
      · show t.bkvalid = _; rw [h1, ← hw0]; rfl
      · show t.backupIn = _; rw [h1, ← hw0]; rfl
      · show t.pageI ≤ t.pageN; omega
      · show t.pageN = _; rw [hn]; exact hN
      · exact ⟨Or.inr (Or.inr (Or.inl ⟨rfl, rfl, hm.1⟩)), hm.2⟩
    | ok =>
      obtain ⟨e1, e0, e2, e3⟩ := h3 rfl
      have hI : t.pageI = n := by
        by_cases hn0 : n = 0
        · rw [e2 hn0, ← hw0, hn0]; exact hI0
        · rw [(e3 hn0).2, Nat.zero_add]
      unfold verifyWrite
      generalize hv0 : setWstate .readBack (setWstate .writtenAll t) = v0
      have hv : Emitted s v0 es := by rw [← hv0]; exact ht.update rfl rfl rfl rfl
      have hu : v0.status = w.status ∧ v0.wstate = .readBack ∧ v0.pageI = n ∧ v0.pageN = n := by
        rw [← hv0]; refine ⟨?_, rfl, hI, hN⟩
        show t.status = _; rw [h1, ← hw0]; rfl
      have key : ∀ es', ThenDoc bus v0 es es' → ∃ more, es' = pre ++ more ∧ AfterBackup bus w n more := by
        rintro es' ⟨cs, rfl, hd⟩
        have hc := hd.idle (by rw [← hv0]; exact e0)
        refine ⟨_, ?_, n, cs, rfl, Nat.le_refl n, Or.inr (Or.inr ⟨rfl, v0, hu.1, hu.2.1, hu.2.2.1, hu.2.2.2, hc⟩)⟩
        rw [e1, hpe, List.append_assoc]
      refine bodyRuns_finish (readDocument_runs hv) ?_ key
      intro r x es' hx ⟨g1, g2, g3, g4⟩
      have hxw : SameButWriteBody w x := by rw [g2, ← hv0, h1, ← hw0]; rfl
      have hb : x.bkid = w.bkid ∧ x.bkvalid = w.bkvalid ∧ x.backupIn = w.backupIn := by
        rw [g2, ← hv0, h1, ← hw0]; exact ⟨rfl, rfl, rfl⟩
      have hmx : x.msg = w.msg ∧ x.rval = w.rval ∧ x.rvalid = w.rvalid := by
        rw [g2, ← hv0]; exact hm
      have hIx : x.pageI = n ∧ x.pageN = n := by rw [g2]; exact ⟨hu.2.2.1, hu.2.2.2⟩
      have hsx : KeepsStaging w x := by
        intro k1 k2
        obtain ⟨k3, k4⟩ := hst k1 k2
        exact g3 (by rw [← hv0]; exact k3) (by rw [← hv0]; exact k4)
      have hpx : w.pgbuf.length = 16 → x.pgbuf.length = 16 := fun k => by rw [g2, ← hv0]; exact hpg k
      have close : ∀ y : State, y = { x with status := y.status, err := y.err, msg := y.msg, wstate := y.wstate } →
          WriteEnds w y → BodyRuns s y (VerifyPost bus pre w) (fun es => ∃ more, es = pre ++ more ∧ AfterBackup bus w n more) :=
        fun y y0 y1 => bodyRuns_end (u := y) hx (by rw [y0]) (by rw [y0]) (by rw [y0]) (by rw [y0])
          ⟨by rw [hn]; exact key es' g1, by rw [y0, hxw], by rw [y0]; exact hb, by rw [y0]; exact hsx, by rw [y0]; exact hpx,
            devForm_congr g4 (by rw [y0]) (by rw [y0]), by rw [y0, hn]; exact ⟨Nat.le_of_eq (hIx.1.trans hIx.2.symm), hIx.2⟩, y1⟩
      cases r with
      | access =>
        exact close _ rfl ⟨Or.inr (Or.inr (Or.inl ⟨rfl, rfl, hmx.1⟩)), hmx.2⟩
      | size =>
        exact close _ rfl ⟨Or.inr (Or.inl ⟨rfl, rfl, hmx.1⟩), hmx.2⟩
      | ok =>
        simp only
        split
        · exact close _ rfl ⟨Or.inl ⟨⟨rfl, rfl, rfl⟩, rfl⟩, hmx.2⟩
        · exact close _ rfl
            ⟨Or.inr (Or.inr (Or.inr (Or.inr ⟨⟨rfl, rfl, hmx.1⟩, rfl⟩))), hmx.2⟩
  · rintro es ⟨m, e1, rfl | rfl⟩
    · exact ⟨_, rfl, m, [], by rw [hpe]; simp, by omega, Or.inl rfl⟩
    · exact ⟨_, by rw [List.append_assoc], m, _, by rw [hpe], by omega, Or.inr (Or.inl ⟨e1, .ok, by rw [hpt, Nat.zero_add]⟩)⟩

/-- What holds at the end of WRDOC. -/
structure WritePost (bus : BusId) (s t : State) (es : List TraceEntry) : Prop where
  events : WriteEvents bus s es
  backup : KeepsBackup t es
  frame : SameButWriteBody s t
  staging : KeepsStaging s t
  page : s.pgbuf.length = 16 → t.pgbuf.length = 16
  dev : DevForm s → DevForm t
  pages : t.pageI ≤ t.pageN ∧ (t.pageN = 0 ∨ t.pageN = s.dlen / 16)
  ends : WriteEnds s t

/-- WRDOC (R124). -/
theorem wrdocBody_runs (bus : BusId) (s : State) :
    BodyRuns s (wrdocBody bus s) (WritePost bus s) (WriteEvents bus s) := by
  have h0 : Emitted s (clearWrite s) [] := (Emitted.refl s).update rfl rfl rfl rfl
  unfold wrdocBody
  simp only
  split
  · exact bodyRuns_end h0 rfl rfl rfl rfl ⟨⟨[], [], rfl, .none .., Or.inl rfl⟩, fun e he => absurd he (by simp), rfl,
      fun k1 k2 => ⟨k1, k2⟩, id, fun k => devForm_congr k rfl rfl, ⟨Nat.le_refl _, Or.inl rfl⟩,
      Or.inr (Or.inl ⟨rfl, rfl, rfl⟩), rfl, rfl⟩
  have hread : ∀ es, ThenDoc bus (clearWrite s) [] es → WriteEvents bus s es := by
    rintro es ⟨cs, he, hc⟩
    exact ⟨cs, [], by simpa using he, hc, Or.inl rfl⟩
  refine bodyRuns_finish (readDocument_runs h0) ?_ hread
  intro r t es ht ⟨h1, h2, h3, h4⟩
  have hm : t.msg = s.msg ∧ t.rval = s.rval ∧ t.rvalid = s.rvalid := by rw [h2]; exact ⟨rfl, rfl, rfl⟩
  have hp : t.pageI = 0 ∧ t.pageN = 0 := by rw [h2]; exact ⟨rfl, rfl⟩
  have hst : KeepsStaging s t := h3
  have hpg : t.pgbuf = s.pgbuf := by rw [h2]; rfl
  have hs : SameButWriteBody s t := by rw [h2]; rfl
  have hback : ∀ t', KeepsBackup t' es := fun t' => by
    obtain ⟨cs, e, hc⟩ := h1
    rw [e]; exact keepsBackup_doc (by simpa using hc)
  have hfail : ∀ y : State, y = { t with status := y.status, err := y.err } → WriteEnds s y →
      BodyRuns s y (WritePost bus s) (WriteEvents bus s) :=
    fun y y0 y1 => bodyRuns_end (u := y) ht (by rw [y0]) (by rw [y0]) (by rw [y0]) (by rw [y0])
      ⟨hread es h1, hback y, by rw [y0, hs], by rw [y0]; exact hst, fun k => by rw [y0]; exact hpg ▸ k,
        fun _ => devForm_congr h4 (by rw [y0]) (by rw [y0]), by rw [y0]; exact ⟨by show t.pageI ≤ t.pageN; omega, Or.inl hp.2⟩, y1⟩
  cases r with
  | access => exact hfail _ rfl ⟨Or.inr (Or.inr (Or.inl ⟨rfl, rfl, hm.1⟩)), hm.2⟩
  | size => exact hfail _ rfl ⟨Or.inr (Or.inl ⟨rfl, rfl, hm.1⟩), hm.2⟩
  | ok =>
    obtain ⟨cs, he, hc⟩ := h1
    rw [List.nil_append] at he
    have hmod : (devBytes t).length % 128 = 0 := by rw [devBytes_length]; exact h4.blocks
    have hen : entryAt t = entryAt (clearWrite s) := h2.entryAt
    refine bodyRuns_finish (P := fun a u es' => u = { t with bkid := u.bkid, bkvalid := u.bkvalid, backupIn := u.backupIn
                                                             trace := u.trace, resetIn := u.resetIn, draws := u.draws } ∧
        (∀ id, a = .ok id → u.bkid = id ∧ u.bkvalid = true) ∧
        es' = cs ++ [entryAt (clearWrite s) (.backup bus (devBytes t) a)]) (Q := fun es' => es' = cs) ?_ ?_ ?_
    · refine hostBackup_runs ht he fun a u g1 g2 _ _ => ⟨?_, g2, by rw [hen, he]⟩
      rw [g1]
    · rintro a u es' hu ⟨g1, g2, rfl⟩
      have hmu : u.msg = s.msg ∧ u.rval = s.rval ∧ u.rvalid = s.rvalid := by rw [g1]; exact hm
      have hpu : u.pageI = 0 ∧ u.pageN = 0 := by rw [g1]; exact hp
      have hsu : SameButWriteBody s u := by rw [g1, hs]
      have hdu : DevForm u := devForm_congr h4 (by rw [g1]) (by rw [g1])
      have hstu : KeepsStaging s u := fun k1 k2 => by rw [g1]; exact hst k1 k2
      have hsdu : u.settleDue = false := by rw [g1]; show t.settleDue = false; rw [h2]
      have hpgu : u.pgbuf = s.pgbuf := by rw [g1]; exact hpg
      cases a with
      | fail =>
        refine bodyRuns_end hu rfl rfl rfl rfl ⟨⟨cs, _, rfl, hc, Or.inr ⟨_, .fail, [], rfl, hmod, Or.inl rfl⟩⟩, ?_, by rw [hsu]; rfl, hstu,
          fun k => by show u.pgbuf.length = 16; rw [hpgu]; exact k, fun _ => devForm_congr hdu rfl rfl,
          ⟨by show u.pageI ≤ u.pageN; omega, Or.inl hpu.2⟩, Or.inr (Or.inr (Or.inr (Or.inl ⟨rfl, rfl, hmu.1⟩))), hmu.2⟩
        intro e he b bytes id hb
        rcases List.mem_append.mp he with he | he
        · exact keepsBackup_doc hc e he b bytes id hb
        · obtain rfl : e = _ := by simpa using he
          cases hb
      | ok id =>
        have hdl : u.dlen = s.dlen := by rw [hsu]
        have hen' : u.status = s.status := by rw [g1]; show t.status = _; rw [h2]; rfl
        have hdoc : docBytes u = docBytes s := by rw [hsu]; rfl
        have hall : ∀ es', (∃ more, es' = cs ++ [entryAt (clearWrite s) (.backup bus (devBytes t) (.ok id))] ++ more ∧
            AfterBackup bus u (u.dlen / 16) more) → WriteEvents bus s es' := by
          rintro es' ⟨more, rfl, k⟩
          refine ⟨cs, _ :: more, by simp, hc, Or.inr ⟨_, _, more, rfl, hmod, Or.inr ⟨⟨id, rfl⟩, ?_⟩⟩⟩
          rw [← hdl]
          exact afterBackup_congr hen' hdoc k
        obtain ⟨es', hb⟩ := writeAndVerify_runs (bus := bus) hu hsdu hdu hpu.1
        refine ⟨es', hb.imp (fun ⟨k1, k2⟩ => ⟨k1, hall _ k2.events, ?_, ?_, ?_, ?_, fun _ => k2.dev, ?_, ?_⟩) fun ⟨k1, k2⟩ => ⟨k1, hall _ k2⟩⟩
        · obtain ⟨more, rfl, j2⟩ := k2.events
          intro e he b bytes id' hb
          obtain ⟨m1, m2, -⟩ := k2.backup
          rw [m1, m2]
          simp only [List.append_assoc, List.mem_append, List.mem_cons, List.not_mem_nil, or_false] at he
          rcases he with he | rfl | he
          · exact keepsBackup_doc hc e he b bytes id' hb
          · cases hb; exact g2 id rfl
          · exact keepsBackup_afterBackup j2 e he b bytes id' hb
        · rw [k2.frame, hsu]
        · intro j1 j2
          obtain ⟨j3, j4⟩ := hstu j1 j2
          exact k2.staging j3 j4
        · exact fun k => k2.page (by rw [hpgu]; exact k)
        · exact ⟨k2.pages.1, Or.inr (by rw [k2.pages.2, hdl])⟩
        · obtain ⟨j1, j2, j3⟩ := k2.ends
          rw [hmu.1] at j1
          exact ⟨j1, by rw [j2, hmu.2.1], by rw [j3, hmu.2.2]⟩
    · rintro es' rfl
      exact ⟨es', [], by simp, hc, Or.inl rfl⟩

/-! ### TSTWR -/

/-- What TSTWR leaves alone. -/
abbrev SameButTestBody (s t : State) : Prop :=
  t = { s with
    status := t.status, err := t.err, aclass := t.aclass, msg := t.msg, rval := t.rval, rvalid := t.rvalid
    chbuf := t.chbuf, chn := t.chn, draws := t.draws, dev := t.dev, devlen := t.devlen, ioerr := t.ioerr
    busIn := t.busIn, trace := t.trace, resetIn := t.resetIn, settleDue := t.settleDue, bkid := t.bkid, bkvalid := t.bkvalid
    backupIn := t.backupIn }

/-- One byte written, settled and read back (R126). -/
def PokeFull (bus : BusId) (s : State) (off : Nat) (v : Byte) (es : List TraceEntry) : Prop :=
  ∃ w a, es = [entryAt s (.wr (writeFrame bus (regOff off) [v]) w), entryAt s (.settle 10),
      entryAt s (.rd (readFrame bus (regOff off) 1) a)] ∧ ∀ b, a = .ok b → b.length ≤ 1

/-- What a reset leaves of it. -/
def PokePart (bus : BusId) (s : State) (off : Nat) (v : Byte) (es : List TraceEntry) : Prop :=
  es = [] ∨ ∃ w, es = [entryAt s (.wr (writeFrame bus (regOff off) [v]) w)] ∨
    es = [entryAt s (.wr (writeFrame bus (regOff off) [v]) w), entryAt s (.settle 10)]

/-- The probe of a byte and its restoration, as far as a reset let them come (R126). -/
def ProbeEvents (bus : BusId) (s : State) (off : Nat) (es : List TraceEntry) : Prop :=
  ∃ v v', PokePart bus s off v es ∨ ∃ x y, es = x ++ y ∧ PokeFull bus s off v x ∧ (PokePart bus s off v' y ∨ PokeFull bus s off v' y)

/-- The offsets FindSafeTestByte can give (R94). -/
def SafeOffset (off : Nat) : Prop := off ∈ [59, 77, 95, 113, 38, 40, 42, 44, 46, 48, 50, 52]

theorem findSafeTestByte_safe {D : List Byte} {off : Nat} (h : findSafeTestByte D = some off) :
    SafeOffset off ∧ 128 ≤ D.length := by
  unfold findSafeTestByte at h
  split at h
  · cases h
  rename_i hl
  refine ⟨?_, by simpa [Config.BLOCK_SIZE] using hl⟩
  split at h
  · rename_i d hd
    cases h
    have := List.mem_of_find?_eq_some hd
    simp only [Config.DESC_OFFS, List.mem_cons, List.not_mem_nil, or_false] at this
    rcases this with rfl | rfl | rfl | rfl <;> simp [SafeOffset, Config.SAFE_DELTA]
  · have := List.mem_of_find?_eq_some h
    simp only [Config.STD_TIMING_OFFS, List.mem_cons, List.not_mem_nil, or_false] at this
    rcases this with rfl | rfl | rfl | rfl | rfl | rfl | rfl | rfl <;> simp [SafeOffset]

/-- The events of TSTWR: the document read; then nothing, or the backup with any answer; after a backup that is taken the document
read again, and after that nothing or the probe of a safe byte (R126). -/
def TestEvents (bus : BusId) (s : State) (es : List TraceEntry) : Prop :=
  ∃ cs tail, es = cs ++ tail ∧ DocReads bus s cs ∧
    (tail = [] ∨ ∃ bytes a more, tail = entryAt s (.backup bus bytes a) :: more ∧ bytes.length % 128 = 0 ∧
      (more = [] ∨ (∃ id, a = .ok id) ∧ ∃ cs' pk, more = cs' ++ pk ∧ ChunkReads bus s 1024 cs' ∧
        (pk = [] ∨ ∃ off, SafeOffset off ∧ ProbeEvents bus s off pk)))

/-- The ends of TSTWR. -/
def TestEnds (s t : State) : Prop :=
  (EndsIn t true false .none .writable ∨ EndsIn t false false .none .notWritable ∨
   EndsIn t false true .restoreVerificationFailed .restoreFailed) ∧ t.rvalid = true ∨
  (EndsIn t false false .safeByteNotFound .noSafeByte ∨ EndsIn t false true .accessError s.msg ∨
   EndsIn t false true .sizeError s.msg ∨ EndsIn t false true .backupFailed s.msg) ∧ t.rval = s.rval ∧ t.rvalid = s.rvalid

/-- The probe of TSTWR, whatever the answers (R126). -/
theorem probeByte_runs {bus : BusId} {off : Nat} {s w : State} {pre : List TraceEntry} (h : Emitted s w pre)
    (hs : w.settleDue = false) :
    BodyRuns s (probeByte bus off w)
      (fun t es => (∃ pk, es = pre ++ pk ∧ ProbeEvents bus w off pk) ∧
        t = { w with status := t.status, err := t.err, msg := t.msg, aclass := t.aclass, rval := BitVec.ofNat 16 off
                     rvalid := true, chbuf := t.chbuf, chn := t.chn, draws := t.draws, ioerr := t.ioerr
                     busIn := t.busIn, trace := t.trace, resetIn := t.resetIn } ∧ KeepsStaging w t ∧
        (EndsIn t true false .none .writable ∨ EndsIn t false false .none .notWritable ∨
          EndsIn t false true .restoreVerificationFailed .restoreFailed))
      (fun es => ∃ pk, es = pre ++ pk ∧ ProbeEvents bus w off pk) := by
  unfold probeByte
  simp only
  generalize devByte w off = orig
  have h0 : Emitted s (putRval (BitVec.ofNat 16 off) w) pre := h.update rfl rfl rfl rfl
  refine bodyRuns_finish (pokeAndPeek_runs h0 hs) ?_ ?_
  · rintro r1 t es ht ⟨h1, h2, h3, w1, rfl⟩
    have he : entryAt t = entryAt w := by rw [h1]; rfl
    have full : PokeFull bus w off (orig ^^^ 0xFF) [entryAt w (.wr (writeFrame bus (regOff off) [orig ^^^ 0xFF]) w1),
        entryAt w (.settle 10), entryAt w (.rd (readFrame bus (regOff off) 1) r1)] := ⟨w1, r1, rfl, h3⟩
    refine bodyRuns_finish (pokeAndPeek_runs ht (by rw [h1]; exact hs)) ?_ ?_
    · rintro r2 u es hu ⟨g1, g2, g3, w2, rfl⟩
      have hpk : ∃ pk, pre ++ [entryAt w (.wr (writeFrame bus (regOff off) [orig ^^^ 0xFF]) w1), entryAt w (.settle 10),
          entryAt w (.rd (readFrame bus (regOff off) 1) r1)] ++ [entryAt t (.wr (writeFrame bus (regOff off) [orig]) w2),
          entryAt t (.settle 10), entryAt t (.rd (readFrame bus (regOff off) 1) r2)] = pre ++ pk ∧
          ProbeEvents bus w off pk :=
        ⟨_, by rw [List.append_assoc], _, orig, Or.inr ⟨_, _, rfl, full, Or.inr ⟨w2, r2, by rw [he], g3⟩⟩⟩
      have hst : KeepsStaging w u := fun k1 k2 => by
        obtain ⟨k3, k4⟩ := h2 k1 k2
        exact g2 k3 k4
      split
      · exact bodyRuns_end hu rfl rfl rfl rfl ⟨hpk, by rw [g1, h1]; rfl, hst, Or.inr (Or.inr ⟨rfl, rfl, rfl⟩)⟩
      · split
        · exact bodyRuns_end hu rfl rfl rfl rfl ⟨hpk, by rw [g1, h1]; rfl, hst, Or.inl ⟨rfl, rfl, rfl⟩⟩
        · exact bodyRuns_end hu rfl rfl rfl rfl ⟨hpk, by rw [g1, h1]; rfl, hst, Or.inr (Or.inl ⟨rfl, rfl, rfl⟩)⟩
    · intro es hes
      have key : ∀ y, PokePart bus w off orig y → es = pre ++ [entryAt w (.wr (writeFrame bus (regOff off) [orig ^^^ 0xFF]) w1),
          entryAt w (.settle 10), entryAt w (.rd (readFrame bus (regOff off) 1) r1)] ++ y →
          ∃ pk, es = pre ++ pk ∧ ProbeEvents bus w off pk :=
        fun y hy e => ⟨_, by rw [e, List.append_assoc], _, orig, Or.inr ⟨_, y, rfl, full, Or.inl hy⟩⟩
      rcases hes with rfl | ⟨w2, rfl | rfl⟩
      · exact key [] (Or.inl rfl) (by rw [List.append_nil]; rfl)
      · exact key _ (Or.inr ⟨w2, Or.inl rfl⟩) (by rw [he]; rfl)
      · exact key _ (Or.inr ⟨w2, Or.inr rfl⟩) (by rw [he]; rfl)
  · rintro es (rfl | ⟨w1, rfl | rfl⟩)
    · exact ⟨[], by simp, orig ^^^ 0xFF, orig, Or.inl (Or.inl rfl)⟩
    · exact ⟨_, rfl, orig ^^^ 0xFF, orig, Or.inl (Or.inr ⟨w1, Or.inl rfl⟩)⟩
    · exact ⟨_, rfl, orig ^^^ 0xFF, orig, Or.inl (Or.inr ⟨w1, Or.inr rfl⟩)⟩

/-- What holds at the end of TSTWR. -/
structure TestPost (bus : BusId) (s t : State) (es : List TraceEntry) : Prop where
  events : TestEvents bus s es
  backup : KeepsBackup t es
  frame : SameButTestBody s t
  staging : KeepsStaging s t
  dev : DevForm t
  ends : TestEnds s t

/-- The probe's events hold no backup. -/
theorem keepsBackup_probe {bus : BusId} {s t : State} {off : Nat} {es : List TraceEntry} (h : ProbeEvents bus s off es) :
    KeepsBackup t es := by
  have full : ∀ v x, PokeFull bus s off v x → KeepsBackup t x := by
    rintro v x ⟨w, a, rfl, -⟩ e he b bytes id hb
    simp only [List.mem_cons, List.not_mem_nil, or_false] at he
    rcases he with rfl | rfl | rfl <;> cases hb
  have part : ∀ v x, PokePart bus s off v x → KeepsBackup t x := by
    rintro v x (rfl | ⟨w, rfl | rfl⟩) e he b bytes id hb <;> simp only [List.mem_cons, List.not_mem_nil, or_false] at he
    · subst he; cases hb
    · rcases he with rfl | rfl <;> cases hb
  obtain ⟨v, v', h | ⟨x, y, rfl, h1, h2⟩⟩ := h
  · exact part v _ h
  · intro e he
    rcases List.mem_append.mp he with he | he
    · exact full v _ h1 e he
    · rcases h2 with h2 | h2
      · exact part v' _ h2 e he
      · exact full v' _ h2 e he

theorem chunkReads_congr {bus : BusId} {s t : State} {n : Nat} {es : List TraceEntry} (h : entryAt t = entryAt s)
    (hc : ChunkReads bus t n es) : ChunkReads bus s n es :=
  ⟨hc.1, fun e he => by
    obtain ⟨reg, a, h1, h2⟩ := hc.2 e he
    exact ⟨reg, a, by rw [h1, h], h2⟩⟩

/-- TSTWR (R126). -/
theorem tstwrBody_runs (bus : BusId) (s : State) :
    BodyRuns s (tstwrBody bus s) (TestPost bus s) (TestEvents bus s) := by
  have h0 : Emitted s { s with bkvalid := false } [] := (Emitted.refl s).update rfl rfl rfl rfl
  have hread : ∀ es, ThenDoc bus { s with bkvalid := false } [] es → TestEvents bus s es := by
    rintro es ⟨cs, he, hc⟩
    exact ⟨cs, [], by simpa using he, hc, Or.inl rfl⟩
  refine bodyRuns_finish (readDocument_runs h0) ?_ hread
  intro r t es ht ⟨h1, h2, h3, h4⟩
  have hm : t.msg = s.msg ∧ t.rval = s.rval ∧ t.rvalid = s.rvalid := by rw [h2]; exact ⟨rfl, rfl, rfl⟩
  have hst : KeepsStaging s t := h3
  have hs : SameButTestBody s t := by rw [h2]
  have hback : ∀ t', KeepsBackup t' es := fun t' => by
    obtain ⟨cs, e, hc⟩ := h1
    rw [e]; exact keepsBackup_doc (by simpa using hc)
  cases r with
  | access =>
    exact bodyRuns_end ht rfl rfl rfl rfl ⟨hread es h1, hback _, by rw [hs]; rfl, hst, devForm_congr h4 rfl rfl,
      Or.inr ⟨Or.inr (Or.inl ⟨rfl, rfl, hm.1⟩), hm.2⟩⟩
  | size =>
    exact bodyRuns_end ht rfl rfl rfl rfl ⟨hread es h1, hback _, by rw [hs]; rfl, hst, devForm_congr h4 rfl rfl,
      Or.inr ⟨Or.inr (Or.inr (Or.inl ⟨rfl, rfl, hm.1⟩)), hm.2⟩⟩
  | ok =>
    obtain ⟨cs, he, hc⟩ := h1
    rw [List.nil_append] at he
    have hmod : (devBytes t).length % 128 = 0 := by rw [devBytes_length]; exact h4.blocks
    have hen : entryAt t = entryAt s := h2.entryAt
    refine bodyRuns_finish (P := fun a u es' => u = { t with bkid := u.bkid, bkvalid := u.bkvalid, backupIn := u.backupIn
                                                             trace := u.trace, resetIn := u.resetIn, draws := u.draws } ∧
        (∀ id, a = .ok id → u.bkid = id ∧ u.bkvalid = true) ∧
        es' = cs ++ [entryAt s (.backup bus (devBytes t) a)]) (Q := fun es' => es' = cs) ?_ ?_ ?_
    · refine hostBackup_runs ht he fun a u g1 g2 _ _ => ⟨?_, g2, by rw [hen, he]⟩
      rw [g1]
    · rintro a u es' hu ⟨g1, g2, rfl⟩
      have hmu : u.msg = s.msg ∧ u.rval = s.rval ∧ u.rvalid = s.rvalid := by rw [g1]; exact hm
      have hsu : SameButTestBody s u := by rw [g1, hs]
      have hdu : DevForm u := devForm_congr h4 (by rw [g1]) (by rw [g1])
      have hstu : KeepsStaging s u := fun k1 k2 => by rw [g1]; exact hst k1 k2
      have hsdu : u.settleDue = false := by rw [g1]; show t.settleDue = false; rw [h2]
      have heu : entryAt u = entryAt s := by rw [g1]; exact hen
      cases a with
      | fail =>
        refine bodyRuns_end hu rfl rfl rfl rfl ⟨⟨cs, _, rfl, hc, Or.inr ⟨_, .fail, [], rfl, hmod, Or.inl rfl⟩⟩, ?_, by rw [hsu]; rfl, hstu,
          devForm_congr hdu rfl rfl, Or.inr ⟨Or.inr (Or.inr (Or.inr ⟨rfl, rfl, hmu.1⟩)), hmu.2⟩⟩
        intro e he b bytes id hb
        rcases List.mem_append.mp he with he | he
        · exact keepsBackup_doc hc e he b bytes id hb
        · obtain rfl : e = _ := by simpa using he
          cases hb
      | ok id =>
        have hall : ∀ cs' pk, ChunkReads bus s 1024 cs' → (pk = [] ∨ ∃ off, SafeOffset off ∧ ProbeEvents bus s off pk) →
            TestEvents bus s (cs ++ [entryAt s (.backup bus (devBytes t) (.ok id))] ++ (cs' ++ pk)) := fun cs' pk k1 k2 =>
          ⟨cs, _ :: (cs' ++ pk), by simp, hc, Or.inr ⟨_, _, _, rfl, hmod, Or.inr ⟨⟨id, rfl⟩, cs', pk, rfl, k1, k2⟩⟩⟩
        have hbk : ∀ t' : State, t'.bkid = u.bkid → t'.bkvalid = u.bkvalid → ∀ more, KeepsBackup t' more →
            KeepsBackup t' (cs ++ [entryAt s (.backup bus (devBytes t) (.ok id))] ++ more) := by
          intro t' m1 m2 more hmore e he b bytes id' hb
          simp only [List.append_assoc, List.mem_append, List.mem_cons, List.not_mem_nil, or_false] at he
          rcases he with he | rfl | he
          · exact keepsBackup_doc hc e he b bytes id' hb
          · cases hb; rw [m1, m2]; exact g2 id rfl
          · exact hmore e he b bytes id' hb
        refine bodyRuns_finish (readDocument_runs hu) ?_ ?_
        · rintro r2 v es' hv ⟨⟨cs', rfl, k0⟩, k2, k3, k4⟩
          have k1 := chunkReads_congr heu (k0.idle hsdu)
          have hsdv : v.settleDue = false := by rw [k2]
          have hmv : v.msg = s.msg ∧ v.rval = s.rval ∧ v.rvalid = s.rvalid := by rw [k2]; exact hmu
          have hsv : SameButTestBody s v := by rw [k2, hsu]
          have hev : entryAt v = entryAt s := k2.entryAt.trans heu
          have hbv : v.bkid = u.bkid ∧ v.bkvalid = u.bkvalid := by rw [k2]; exact ⟨rfl, rfl⟩
          have hstv : KeepsStaging s v := fun j1 j2 => by
            obtain ⟨j3, j4⟩ := hstu j1 j2
            exact k3 j3 j4
          have hnil := hall cs' [] k1 (Or.inl rfl)
          rw [List.append_nil] at hnil
          have close : ∀ y : State, y = { v with status := y.status, err := y.err, msg := y.msg } → TestEnds s y →
              BodyRuns s y (TestPost bus s) (TestEvents bus s) := fun y y0 y1 =>
            bodyRuns_end (u := y) hv (by rw [y0]) (by rw [y0]) (by rw [y0]) (by rw [y0]) ⟨hnil,
              hbk y (by rw [y0]; exact hbv.1) (by rw [y0]; exact hbv.2) cs' (keepsBackup_chunks k1), by rw [y0, hsv],
              by rw [y0]; exact hstv, devForm_congr k4 (by rw [y0]) (by rw [y0]), y1⟩
          cases r2 with
          | access => exact close _ rfl (Or.inr ⟨Or.inr (Or.inl ⟨rfl, rfl, hmv.1⟩), hmv.2⟩)
          | size => exact close _ rfl (Or.inr ⟨Or.inr (Or.inr (Or.inl ⟨rfl, rfl, hmv.1⟩)), hmv.2⟩)
          | ok =>
            simp only
            split
            · exact close _ rfl (Or.inr ⟨Or.inl ⟨rfl, rfl, rfl⟩, hmv.2⟩)
            · rename_i off hoff
              obtain ⟨hsafe, -⟩ := findSafeTestByte_safe hoff
              have hpe : ∀ pk, ProbeEvents bus v off pk → ProbeEvents bus s off pk := fun pk hp => by
                simpa only [ProbeEvents, PokePart, PokeFull, hev] using hp
              obtain ⟨es', hb⟩ := probeByte_runs (bus := bus) (off := off) hv hsdv
              refine ⟨es', hb.imp ?_ ?_⟩
              · rintro ⟨m1, ⟨pk, rfl, m2⟩, m3, m4, m5⟩
                refine ⟨m1, ?_, ?_, ?_, ?_, ?_, ?_⟩
                · rw [List.append_assoc]; exact hall cs' pk k1 (Or.inr ⟨off, hsafe, hpe pk m2⟩)
                · rw [List.append_assoc]
                  refine hbk _ (by rw [m3]; exact hbv.1) (by rw [m3]; exact hbv.2) _ ?_
                  intro e he
                  rcases List.mem_append.mp he with he | he
                  · exact keepsBackup_chunks k1 e he
                  · exact keepsBackup_probe m2 e he
                · rw [m3, hsv]
                · intro j1 j2
                  obtain ⟨j3, j4⟩ := hstv j1 j2
                  exact m4 j3 j4
                · exact devForm_congr k4 (by rw [m3]) (by rw [m3])
                · exact Or.inl ⟨m5, by rw [m3]⟩
              · rintro ⟨m1, pk, rfl, m2⟩
                refine ⟨m1, ?_⟩
                rw [List.append_assoc]; exact hall cs' pk k1 (Or.inr ⟨off, hsafe, hpe pk m2⟩)
        · rintro es' ⟨cs', rfl, k1⟩
          have := hall cs' [] (chunkReads_congr heu (k1.idle hsdu)) (Or.inl rfl)
          rwa [List.append_nil] at this
    · rintro es' rfl
      exact ⟨es', [], by simp, hc, Or.inl rfl⟩

end Sys2Proof.Laws
end

