-- ==== Sys2Proof/Laws/Failure.lean ====
section
/-! SUPPORT. What the bus procedures do when reading a document fails: ReadBlock on an I/O error (42_frame_marshaller.md R105) and
ReadDocument on either failure (43_device_channel.md R120). -/

namespace Sys2Proof.Laws

open Sys2Proof Sys2Proof.Machine

/-! ### The events of a read -/

theorem readsFrom_append (bus : BusId) (as bs : List BusAnswer) (i : Nat) :
    readsFrom bus i (as ++ bs) = readsFrom bus i as ++ readsFrom bus (i + as.length) bs := by
  induction as generalizing i with
  | nil => rfl
  | cons a as ih => simp [readsFrom, ih, show i + (as.length + 1) = i + 1 + as.length by omega]

/-- The answered chunks of block `k` are chunks `4*k` and on of the document. -/
theorem chunkReads_eq {bus : BusId} {k : Nat} {bs : List (List Byte)} (h : bs.length ≤ 4) :
    chunkReads bus (128 * k) [0, 32, 64, 96] bs = readsFrom bus (4 * k) (bs.map .ok) := by
  have e1 : 128 * k + 0 = 32 * (4 * k) := by omega
  have e2 : 128 * k + 32 = 32 * (4 * k + 1) := by omega
  have e3 : 128 * k + 64 = 32 * (4 * k + 1 + 1) := by omega
  have e4 : 128 * k + 96 = 32 * (4 * k + 1 + 1 + 1) := by omega
  match bs with
  | [] => rfl
  | [a] => simp [chunkReads, readsFrom, readFrame, regOff_eq, e1, Config.EDID_ADDR7]
  | [a, b] => simp [chunkReads, readsFrom, readFrame, regOff_eq, e1, e2, Config.EDID_ADDR7]
  | [a, b, c] => simp [chunkReads, readsFrom, readFrame, regOff_eq, e1, e2, e3, Config.EDID_ADDR7]
  | [a, b, c, d] => simp [chunkReads, readsFrom, readFrame, regOff_eq, e1, e2, e3, e4, Config.EDID_ADDR7]
  | _ :: _ :: _ :: _ :: _ :: _ => simp at h; omega

theorem blockReads_eq (bus : BusId) (D : List Byte) (n k : Nat) :
    blockReads bus D k n = readsFrom bus (4 * k) ((blockRun D k n).map .ok) := by
  induction n generalizing k with
  | zero => rfl
  | succ n ih =>
    rw [blockReads_succ, blockRun_succ, List.map_append, readsFrom_append, ih, chunkReads_eq (by simp [blockChunks])]
    simp [blockChunks, show 4 * (k + 1) = 4 * k + 4 by omega]

/-! ### Chunks as a document -/

theorem chunk_flatten (cs : List (List Byte)) (i : Nat) (hi : i < cs.length) (hc : ∀ c ∈ cs, c.length = 32) :
    chunk cs.flatten i = cs[i] := by
  induction cs generalizing i with
  | nil => simp at hi
  | cons c cs ih =>
    have h32 : c.length = 32 := hc c (by simp)
    cases i with
    | zero => simp [chunk, ← h32]
    | succ i =>
      have h := ih i (by simpa using hi) (fun x hx => hc x (by simp [hx]))
      simp only [chunk, List.flatten_cons, List.getElem_cons_succ] at h ⊢
      rw [show 32 * (i + 1) = c.length + 32 * i by omega, List.drop_append, List.drop_eq_nil_of_le (by omega),
        List.nil_append, Nat.add_sub_cancel_left]
      exact h

theorem flatten_length {cs : List (List Byte)} (hc : ∀ c ∈ cs, c.length = 32) : cs.flatten.length = 32 * cs.length := by
  induction cs with
  | nil => rfl
  | cons c cs ih =>
    have := ih (fun x hx => hc x (by simp [hx]))
    have := hc c (by simp)
    simp only [List.flatten_cons, List.length_append, List.length_cons]
    omega

theorem blockRun_flatten {cs : List (List Byte)} (hc : ∀ c ∈ cs, c.length = 32) {m : Nat} (hm : 4 * m ≤ cs.length) :
    blockRun cs.flatten 0 m = cs.take (4 * m) := by
  have h : blockRun cs.flatten 0 m = (List.range (4 * m)).map (chunk cs.flatten) := by rw [range_four_mul]; rfl
  rw [h]
  refine List.ext_getElem (by simp; omega) fun i h1 h2 => ?_
  simp only [List.length_map, List.length_range, List.length_take] at h1 h2
  simp [chunk_flatten cs i (by omega) hc]

/-! ### Failures -/

/-- What ReadDocument answers on a failure (R120). -/
def docAnswerOf : ReadFailure → DocAnswer
  | .ioErr _ => .access
  | .short _ => .size

/-- IOERR after the failure. -/
def ioerrAfter (s : State) : ReadFailure → IoCode
  | .ioErr code => code
  | .short _ => s.ioerr

/-- ACLASS after the failure. -/
def aclassAfter (s : State) : ReadFailure → AClass
  | .ioErr code => aclassOf (classOf s.platform code)
  | .short _ => s.aclass

theorem errorNoted_of {s t u : State} {f : ReadFailure} (hi : t.ioerr = ioerrAfter u f) (ha : t.aclass = aclassAfter u f)
    (hu : u.ioerr = s.ioerr) (hc : u.aclass = .none) (hp : u.platform = s.platform) : errorNoted s t f.answers := by
  cases f with
  | ioErr code => exact ⟨hi, by rw [ha, aclassAfter, hp]; rfl⟩
  | short chunks =>
    have h : lastError (chunks.map .ok) = none := by
      simp [lastError, List.filterMap_map, ioCodeOf, Function.comp_def]
    simp only [errorNoted, ReadFailure.answers, h]
    exact ⟨hi.trans hu, ha.trans hc⟩

/-- What a failure in block `k`, after `bs` full chunks of the block, makes of ReadBlock. -/
def blockAnswerOf : ReadFailure → BlockAnswer
  | .ioErr code => .ioErr code
  | .short chunks => .short chunks.flatten.length

/-- ReadBlock fails: on an I/O error after fewer than four chunks, or on four chunks that total other than 128 bytes (R105). -/
theorem readBlock_failed {bus : BusId} {k : Nat} {s : State} {bs : List (List Byte)} {f : ReadFailure} {rest : List BusAnswer}
    (hr : s.resetIn = none) (hs : s.settleDue = false) (hc : ∀ b ∈ bs, b.length = 32)
    (hf : match f with
      | .ioErr _ => bs.length < 4
      | .short chunks => bs = [] ∧ chunks.length = 4 ∧ (∀ c ∈ chunks, c.length ≤ 32) ∧ chunks.flatten.length ≠ 128)
    (hb : s.busIn = bs.map .ok ++ f.answers ++ rest) :
    ∃ t, readBlock bus k s = .done (blockAnswerOf f) t ∧
      t = { s with
        chbuf := t.chbuf, chn := t.chn, busIn := rest, ioerr := ioerrAfter s f, aclass := aclassAfter s f, trace := t.trace } ∧
      t.trace = s.trace ++ (readsFrom bus (4 * k) (bs.map .ok ++ f.answers)).map (entryAt s) := by
  cases f with
  | ioErr code =>
    simp only at hf
    obtain ⟨t, h1, h2, h3⟩ := readChunks_ioErr bus k code [0, 32, 64, 96] bs [] s rest hr hs hf
      (fun b h => Nat.le_of_eq (hc b h)) (by simpa [ReadFailure.answers] using hb)
    refine ⟨t, h1, h2, ?_⟩
    have e : 128 * k + [0, 32, 64, 96].getD bs.length 0 = 32 * (4 * k + bs.length) := by
      rcases (by omega : bs.length = 0 ∨ bs.length = 1 ∨ bs.length = 2 ∨ bs.length = 3) with h | h | h | h <;>
        rw [h] <;> simp <;> omega
    rw [h3, chunkReads_eq (by omega), readsFrom_append, e]
    simp [readsFrom, ReadFailure.answers, readFrame, regOff_eq, Config.EDID_ADDR7]
  | short chunks =>
    obtain ⟨rfl, h4, hle, hne⟩ := hf
    obtain ⟨t, h1, h2, h3, h5⟩ := readBlock_answered (bus := bus) (k := k) (s := s) (bs := chunks) (rest := rest) hr hs h4 hle
      (by simpa [ReadFailure.answers] using hb)
    rw [if_neg hne] at h1
    refine ⟨t, h1, ?_, ?_⟩
    · rw [h2, ← h3]; rfl
    · rw [h5, chunkReads_eq (by omega)]; rfl

/-- ReadDocument fails after the chunks `cs`, with the timer idle at its start (R120): DEV holds the blocks completed before, and no further
frame is emitted. -/
theorem readDocument_failed_idle {bus : BusId} {s : State} {cs : List (List Byte)} {f : ReadFailure} {rest : List BusAnswer}
    (hr : s.resetIn = none) (hs : s.settleDue = false) (hf : f.After cs) (hb : s.busIn = cs.map .ok ++ f.answers ++ rest) :
    ∃ t, readDocument bus s = .done (docAnswerOf f) t ∧
      t = { s with
        chbuf := t.chbuf, chn := t.chn, busIn := rest, ioerr := ioerrAfter s f, aclass := aclassAfter s f, trace := t.trace
        dev := t.dev, devlen := 128 * (cs.length / 4) } ∧
      devBytes t = cs.flatten.take (128 * (cs.length / 4)) ∧
      t.trace = s.trace ++ (readsFrom bus 0 (cs.map .ok ++ f.answers)).map (entryAt s) := by
  obtain ⟨hc, hf⟩ := hf
  have hfl := flatten_length hc
  by_cases h4 : 4 ≤ cs.length
  · have hx : cs.length < 4 * (1 + extCount cs.flatten) := by
      cases f with
      | ioErr code => exact hf h4
      | short chunks => exact hf.2.1 (by rintro rfl; simp at h4)
    obtain ⟨n, hn⟩ : ∃ n, cs.length / 4 = n + 1 := ⟨cs.length / 4 - 1, by omega⟩
    have hrun := blockRun_flatten hc (m := n + 1) (by omega)
    obtain ⟨t, h1, h2, h3, hd, h5⟩ := readDocument_run (bus := bus) (D := cs.flatten) (n := n) (s := s)
      (rest := (cs.drop (4 * (n + 1))).map .ok ++ f.answers ++ rest) hr hs (by omega) (by omega)
      (by rw [hb, hrun]; simp only [← List.append_assoc]; rw [← List.map_append, List.take_append_drop])
    obtain ⟨e, he⟩ : ∃ e, extCount cs.flatten - n = e + 1 := ⟨extCount cs.flatten - n - 1, by omega⟩
    obtain ⟨u, g1, g2, g3⟩ := readBlock_failed (bus := bus) (k := n + 1) (s := t) (bs := cs.drop (4 * (n + 1))) (f := f)
      (rest := rest) (by rw [h2]; exact hr) (by rw [h2]; exact hs) (fun b hb => hc b (List.mem_of_mem_drop hb))
      (by
        cases f with
        | ioErr code => simp only [List.length_drop]; omega
        | short chunks => exact ⟨List.drop_eq_nil_of_le (by have := hf.1; omega), hf.2.2⟩)
      h3
    refine ⟨u, ?_, ?_, ?_, ?_⟩
    · rw [h1, he, readExtensions, g1]; cases f <;> rfl
    · have hl : t.devlen = 128 * (cs.length / 4) := by rw [hd.len, hn]
      rw [g2, ← hl, h2]
      cases f <;> rfl
    · rw [hn, ← hd.devBytes, g2]; rfl
    · have hen : entryAt t = entryAt s := by funext e; rw [h2]; rfl
      rw [g3, h5, hen, blockReads_eq, hrun, List.append_assoc, ← List.map_append]
      congr 2
      have hl : (List.map BusAnswer.ok (cs.take (4 * (n + 1)))).length = 4 * (n + 1) := by
        rw [List.length_map, List.length_take]; omega
      have := readsFrom_append bus ((cs.take (4 * (n + 1))).map .ok) ((cs.drop (4 * (n + 1))).map .ok ++ f.answers) 0
      rw [hl, Nat.zero_add] at this
      rw [Nat.mul_zero, ← this, ← List.append_assoc, ← List.map_append, List.take_append_drop]
  · have h0 : cs.length / 4 = 0 := by omega
    obtain ⟨u, g1, g2, g3⟩ := readBlock_failed (bus := bus) (k := 0) (s := clearDev s) (bs := cs) (f := f) (rest := rest)
      (by simpa using hr) (by simpa using hs) hc
      (by
        cases f with
        | ioErr code => simp only; omega
        | short chunks =>
          have hm := hf.1
          exact ⟨List.length_eq_zero_iff.mp (by omega), hf.2.2⟩)
      (by simpa using hb)
    refine ⟨u, ?_, ?_, ?_, ?_⟩
    · rw [readDocument, g1]; cases f <;> rfl
    · rw [h0, g2]; cases f <;> rfl
    · rw [h0, g2]; rfl
    · rw [g3]; rfl

/-- ReadDocument fails after the chunks `cs` (R120): an outstanding settle delay passes first; DEV holds the blocks completed before the
failure, and no further frame is emitted. -/
theorem readDocument_failed {bus : BusId} {s : State} {cs : List (List Byte)} {f : ReadFailure} {rest : List BusAnswer}
    (hr : s.resetIn = none) (hf : f.After cs) (hb : s.busIn = cs.map .ok ++ f.answers ++ rest) :
    ∃ t, readDocument bus s = .done (docAnswerOf f) t ∧
      t = { s with
        chbuf := t.chbuf, chn := t.chn, settleDue := false, busIn := rest, ioerr := ioerrAfter s f, aclass := aclassAfter s f
        trace := t.trace, dev := t.dev, devlen := 128 * (cs.length / 4) } ∧
      devBytes t = cs.flatten.take (128 * (cs.length / 4)) ∧
      t.trace = s.trace ++ (heldSettle s ++ readsFrom bus 0 (cs.map .ok ++ f.answers)).map (entryAt s) := by
  have e := afterSettle_eq s
  obtain ⟨t, h1, h2, h3, h4⟩ := readDocument_failed_idle (bus := bus) (s := afterSettle s) (by rw [e]; exact hr) (by rw [e]) hf
    (by rw [e]; exact hb)
  have e1 : entryAt (afterSettle s) = entryAt s := by rw [e]; rfl
  have e2 : (afterSettle s).trace = s.trace ++ (heldSettle s).map (entryAt s) := by rw [e]
  refine ⟨t, by rw [readDocument_awaits, awaitSettle_unreset hr, andThen_done, h1], ?_, h3, ?_⟩
  · rw [h2, e]; cases f <;> rfl
  · rw [h4, e1, e2, List.map_append, List.append_assoc]

end Sys2Proof.Laws
end

