-- ==== Sys2Proof/Laws/HostPort.lean ====
section
/-! SUPPORT. What a write of CMD and a read of the host can do (10_state.md R13, R30, R31; 60_exceptions.md R183). -/

namespace Sys2Proof.Laws

open Sys2Proof Sys2Proof.Machine

variable {s : State} {w : BitVec 32} {i : Instr}

/-- While BUSY = 1 a write of CMD is ignored (R13). -/
theorem acceptCmd_busy (h : s.status.busy = true) : acceptCmd w s = s := by simp [acceptCmd, h]

/-- While BUSY = 0 a word that encodes a command starts it (R13, R30). -/
theorem acceptCmd_of_ok (h : s.status.busy = false) (hd : decode (.word w) = .ok i) :
    acceptCmd w s = { ownClears i (startCommand s) with cmd := some w } := by simp [acceptCmd, h, hd]

/-- While BUSY = 0 any other word ends at once (R183). -/
theorem acceptCmd_of_error {e : DecodeError} (h : s.status.busy = false) (hd : decode (.word w) = .error e) :
    acceptCmd w s = illegalCommand s := by simp [acceptCmd, h, hd]

/-- A word that selects no row decodes to nothing (R63). -/
theorem decode_of_no_row (h : ∀ r ∈ opRows, w &&& r.mask ≠ r.pattern) : ∃ e, decode (.word w) = .error e := by
  have hn : opRows.find? (·.selects w) = none := by
    rw [List.find?_eq_none]; intro r hr; simpa [OpRow.selects] using h r hr
  simp only [decode, decodeWord, hn]
  split <;> exact ⟨_, rfl⟩

/-- A read while BUSY = 0 gives the registers. -/
theorem hostRead_idle (h : s.status.busy = false) (r : HostReg) : hostRead r s = idleRead s r := by simp [hostRead, h]

/-- A read while BUSY = 1 gives STATUS, and the progress of a WRDOC. -/
theorem hostRead_busy (h : s.status.busy = true) (r : HostReg) :
    hostRead r s = busyRead (wrdocStarted s) s.status s.wstate s.pageI s.pageN r := by simp [hostRead, h]

theorem wrdocStarted_of (hc : s.cmd = some w) (hd : decode (.word w) = .ok i) : wrdocStarted s = isWrdoc i := by
  simp [wrdocStarted, hc, hd]

end Sys2Proof.Laws
end

