-- ==== Sys2Proof/Laws/PerInstr.lean ====
section
/-! SUPPORT. Per instruction: the code of a well-formed instruction selects its row of spec/opcode_table.json (30_encoding.md R62, R64). -/

namespace Sys2Proof.Laws.TableRow

open Sys2Proof

/-- The mask and match of an instruction's row of spec/opcode_table.json. -/
def row : Instr → Nat × Nat
  | .vcsum _ _ => (0xFF00FEFF, 0x10)
  | .rcsum _ _ => (0xFF00FEFF, 0x11)
  | .vstruct _ => (0xFFFFFEFF, 0x12)
  | .fsafe _ => (0xFFFFFEFF, 0x13)
  | .discover => (0xFFFFFFFF, 0x20)
  | .rddoc _ => (0x00FFFFFF, 0x21)
  | .wrdoc _ => (0x00FFFFFF, 0x22)
  | .tstwr _ => (0x00FFFFFF, 0x23)
  | .cmpdoc _ => (0x00FFFFFF, 0x24)
  | .fRd _ _ _ => (0x7F, 0x50)
  | .fWr _ _ _ => (0x7F, 0x50)

/-- The bits of a code that its row covers: the whole of a command word, the first byte of a frame record. -/
def rowBits : Code → Nat
  | .word w => w.toNat
  | .record r => (r.headD 0).toNat

/-- The code of the instruction has the row's match under its mask. -/
def Statement (i : Instr) : Prop := rowBits (encode i) &&& (row i).1 = (row i).2

theorem vcsum (blk : Byte) (bsel : BufSel) : Statement (.vcsum blk bsel) := by
  revert blk; cases bsel <;> (unfold Statement; decide +kernel)

theorem rcsum (blk : Byte) (bsel : BufSel) : Statement (.rcsum blk bsel) := by
  revert blk; cases bsel <;> (unfold Statement; decide +kernel)

theorem vstruct (bsel : BufSel) : Statement (.vstruct bsel) := by
  cases bsel <;> (unfold Statement; decide +kernel)

theorem fsafe (bsel : BufSel) : Statement (.fsafe bsel) := by
  cases bsel <;> (unfold Statement; decide +kernel)

theorem discover : Statement .discover := by
  unfold Statement; decide +kernel

theorem rddoc (bus : BusId) : Statement (.rddoc bus) := by
  revert bus; unfold Statement; decide +kernel

theorem wrdoc (bus : BusId) : Statement (.wrdoc bus) := by
  revert bus; unfold Statement; decide +kernel

theorem tstwr (bus : BusId) : Statement (.tstwr bus) := by
  revert bus; unfold Statement; decide +kernel

theorem cmpdoc (bus : BusId) : Statement (.cmpdoc bus) := by
  revert bus; unfold Statement; decide +kernel

theorem fRd (bus : BusId) (reg : Byte) (n : Nat) : Statement (.fRd bus reg n) := by
  show (recordHead false).toNat &&& 0x7F = 0x50
  decide +kernel

theorem fWr (bus : BusId) (reg : Byte) (data : List Byte) : Statement (.fWr bus reg data) := by
  show (recordHead true).toNat &&& 0x7F = 0x50
  decide +kernel

end Sys2Proof.Laws.TableRow
end

