-- ==== Sys2Proof/Laws/Validator.lean ====
section
/-! SUPPORT. What the operations of the Validator do (41_validator.md R91 to R94): the selected buffer after a store, the block scan, and
sequences of instructions. -/

namespace Sys2Proof.Laws

open Sys2Proof Sys2Proof.Machine

@[simp] theorem selected_startCommand (bsel : BufSel) (s : State) : selected bsel (startCommand s) = selected bsel s := by
  cases bsel <;> rfl

theorem setWidth16_toNat (b : Byte) : (b.setWidth 16).toNat = b.toNat := by
  have := b.isLt
  simp; omega

/-! ### RCSUM -/

theorem load_store_set (free : Nat → Byte) (m : Memory) (n a : Nat) (v : Byte) :
    (m.store a [v]).load free 0 n = (m.load free 0 n).set a v := by
  refine List.ext_getElem (by simp) fun i h1 h2 => ?_
  rw [load_getElem, List.getElem_set, load_getElem, read_store_single]
  simp [eq_comm]

/-- The selected buffer after a store to it. -/
theorem selected_storeSelected (bsel : BufSel) (a : Nat) (v : Byte) (s : State) :
    selected bsel (storeSelected bsel a v s) = (selected bsel s).set a v := by
  cases bsel <;> exact load_store_set ..

theorem block_set_same {B : List Byte} {k : Nat} (v : Byte) (h : 128 * k + 128 ≤ B.length) :
    block (B.set (128 * k + 127) v) k = (block B k).take 127 ++ [v] := by
  refine List.ext_getElem ?_ fun i i1 i2 => ?_
  · simp [block_length]; omega
  · simp only [block, Config.BLOCK_SIZE, List.getElem_take, List.getElem_drop, List.getElem_set, List.getElem_append]
    have : i < 128 := by simp [block_length] at i1; omega
    simp only [List.length_take, List.length_drop]
    split <;> split <;> first | rfl | omega | simp

theorem block_set_other {B : List Byte} {k j : Nat} (v : Byte) (h : j ≠ k) :
    block (B.set (128 * k + 127) v) j = block B j := by
  refine List.ext_getElem (by simp [block_length]) fun i i1 i2 => ?_
  simp only [block, Config.BLOCK_SIZE, List.getElem_take, List.getElem_drop, List.getElem_set]
  have : i < 128 := by simp [block_length] at i1; omega
  rw [if_neg (by omega)]

/-- A block whose last byte is the checksum of the others sums to 0 (R92). -/
theorem block_set_checksum {B : List Byte} {k : Nat} (h : 128 * k + 128 ≤ B.length) :
    byteSum (block (B.set (128 * k + 127) (checksumByte (accOf ((block B k).take 127)))) k) % 256 = 0 := by
  rw [block_set_same _ h, byteSum_append]
  simpa using sum_with_checksum ((block B k).take 127)

/-! ### VSTRUCT -/

/-- The scan writes ACC alone. -/
theorem scanBlocks_frame (B : List Byte) (ks : List Nat) (s : State) :
    (scanBlocks B ks s).2 = { s with acc := (scanBlocks B ks s).2.acc } := by
  induction ks generalizing s with
  | nil => rfl
  | cons k ks ih =>
    simp only [scanBlocks]
    split
    · rfl
    · rw [ih]; rfl

/-- When every listed block sums to 0, the scan finds none, and ACC is 0 (R93). -/
theorem scanBlocks_none {B : List Byte} {ks : List Nat} (s : State) (h : ∀ k ∈ ks, byteSum (block B k) % 256 = 0)
    (hne : ks ≠ []) : scanBlocks B ks s = (none, { s with acc := 0 }) := by
  induction ks generalizing s with
  | nil => exact absurd rfl hne
  | cons k ks ih =>
    have h0 : accOf (block B k) = 0#8 := (accOf_eq_zero_iff _).mpr (h k (by simp))
    by_cases hk : ks = []
    · subst hk; simp [scanBlocks, accumulate, h0]
    · have := ih (accumulate (block B k) s) (fun j hj => h j (by simp [hj])) hk
      simp [scanBlocks, accumulate, h0] at this ⊢
      exact this

/-- The scan stops at the first listed block that does not sum to 0 (R93). -/
theorem scanBlocks_some {B : List Byte} {k : Nat} (ks js : List Nat) (s : State) (h : ∀ j ∈ ks, byteSum (block B j) % 256 = 0)
    (hk : byteSum (block B k) % 256 ≠ 0) :
    scanBlocks B (ks ++ k :: js) s = (some k, { s with acc := accOf (block B k) }) := by
  have hne : ¬ accOf (block B k) = 0#8 := by rwa [accOf_eq_zero_iff]
  induction ks generalizing s with
  | nil => simp [scanBlocks, accumulate, hne]
  | cons j ks ih =>
    have h0 : accOf (block B j) = 0#8 := (accOf_eq_zero_iff _).mpr (h j (by simp))
    have := ih (accumulate (block B j) s) (fun j hj => h j (by simp [hj]))
    simp [scanBlocks, accumulate, h0] at this ⊢
    exact this

/-! ### Sequences of instructions -/

theorem runAll_append {is js : List Instr} {s t : State} (h : runAll is s = .next t) : runAll (is ++ js) s = runAll js t := by
  induction is generalizing s with
  | nil => cases h; rfl
  | cons i is ih =>
    simp only [runAll, List.cons_append] at h ⊢
    split at h
    · exact ih h
    · cases h
    · cases h

end Sys2Proof.Laws
end

