-- ==== Sys2Proof/Tests/Slice0.lean ====
section
/-! SUPPORT. The model's own tests: the well-formedness smoke test, words written out from the encoding of 30_encoding.md, single steps
with the expected values of 95_test_vectors.md, and for every statement with hypotheses a concrete case that meets them. -/

namespace Sys2Proof.Tests

open Sys2Proof Sys2Proof.Machine

/-! ## Well-formedness refuses an ill-formed term for each of its checks -/

theorem test_wf_refuses_read_length : (Instr.fRd 1 0x20 7).wf = false := by decide

theorem test_wf_refuses_write_length : (Instr.fWr 1 0x20 [0x11, 0x22]).wf = false := by decide

theorem test_wf_accepts_both_read_lengths : (Instr.fRd 1 0x20 1).wf = true ∧ (Instr.fRd 1 0x20 32).wf = true := by decide

theorem test_wf_accepts_both_write_lengths :
    (Instr.fWr 1 0x20 [0x11]).wf = true ∧ (Instr.fWr 1 0x20 (List.replicate 16 0x11)).wf = true := by decide

/-! ## Decoding: words written bit by bit from R60 (BUS 31:24, BLK 23:16, zero 15:9, BSEL 8, OPC 7:0) and R62 -/

theorem test_decode_vcsum : decode (.word 0b00000000_01011010_0000000_1_00010000) = .ok (.vcsum 0x5A .dev) := by decide +kernel

theorem test_decode_rcsum : decode (.word 0b00000000_11111111_0000000_0_00010001) = .ok (.rcsum 0xFF .doc) := by decide +kernel

theorem test_decode_vstruct : decode (.word 0b00000000_00000000_0000000_1_00010010) = .ok (.vstruct .dev) := by decide +kernel

theorem test_decode_fsafe : decode (.word 0b00000000_00000000_0000000_0_00010011) = .ok (.fsafe .doc) := by decide +kernel

theorem test_decode_discover : decode (.word 0b00000000_00000000_0000000_0_00100000) = .ok .discover := by decide +kernel

theorem test_decode_rddoc : decode (.word 0b10000001_00000000_0000000_0_00100001) = .ok (.rddoc 0x81) := by decide +kernel

theorem test_decode_wrdoc : decode (.word 0b00000011_00000000_0000000_0_00100010) = .ok (.wrdoc 3) := by decide +kernel

theorem test_decode_tstwr : decode (.word 0b00000010_00000000_0000000_0_00100011) = .ok (.tstwr 2) := by decide +kernel

theorem test_decode_cmpdoc : decode (.word 0b11111111_00000000_0000000_0_00100100) = .ok (.cmpdoc 0xFF) := by decide +kernel

/-- Kind 0 and address 1010000 in byte 0, bus 1, register offset 0xE0, the long length (R64; the record of log 13). -/
theorem test_decode_f_rd :
    decode (.record ([0b0_1010000, 0x01, 0xE0, 0x01] ++ List.replicate 16 0)) = .ok (.fRd 1 0xE0 32) := by decide +kernel

/-- Kind 1 and address 1010000 in byte 0, bus 2, register offset 0x4D, the one-byte length, the byte 0xB4. -/
theorem test_decode_f_wr :
    decode (.record ([0b1_1010000, 0x02, 0x4D, 0x00, 0xB4] ++ List.replicate 15 0)) = .ok (.fWr 2 0x4D [0xB4]) := by decide +kernel

theorem test_decode_refuses_other_address :
    decode (.record ([0x51, 0x01, 0x00, 0x00] ++ List.replicate 16 0)) = .error .frameAddress := by decide +kernel

theorem test_decode_refuses_other_shapes :
    decode (.record [0x50, 0x01, 0x00, 0x00]) = .error .frameShape ∧
    decode (.record ([0x50, 0x01, 0x00, 0x02] ++ List.replicate 16 0)) = .error .frameShape ∧
    decode (.record ([0x50, 0x01, 0x00, 0x00] ++ List.replicate 16 1)) = .error .frameShape := by decide +kernel

/-- 32 bits; 24 bits where the mask leaves BUS free; and the 8 bits of the frame rows. -/
theorem test_table_words :
    decodeTableWord 32 0x00FF0011 = some (.rcsum 0xFF .doc) ∧ decodeTableWord 32 0x00000014 = none ∧
    decodeTableWord 32 0x01000022 = some (.wrdoc 1) ∧ decodeTableWord 32 0x00000050 = none ∧
    decodeTableWord 24 0x000021 = some (.rddoc 0) ∧ decodeTableWord 24 0x000022 = some (.wrdoc 0) ∧
    decodeTableWord 24 0x000023 = some (.tstwr 0) ∧ decodeTableWord 24 0x000024 = some (.cmpdoc 0) ∧
    decodeTableWord 8 0x50 = some (.fRd 0 0 1) ∧ decodeTableWord 8 0xD0 = some (.fWr 0 0 [0]) := by decide +kernel

/-- The words of each width run at the very next step after reset. -/
theorem test_table_words_run :
    step (State.reset.withFetchWord 32 0x00000020) = exec .discover State.reset ∧
    step (State.reset.withFetchWord 24 0x000021) = exec (.rddoc 0) State.reset ∧
    step (State.reset.withFetchWord 24 0x000022) = exec (.wrdoc 0) State.reset ∧
    step (State.reset.withFetchWord 24 0x000023) = exec (.tstwr 0) State.reset ∧
    step (State.reset.withFetchWord 24 0x000024) = exec (.cmpdoc 0) State.reset ∧
    step (State.reset.withFetchWord 8 0x50) = exec (.fRd 0 0 1) State.reset ∧
    step (State.reset.withFetchWord 8 0xD0) = exec (.fWr 0 0 [0]) State.reset :=
  ⟨rfl, rfl, rfl, rfl, rfl, rfl, rfl⟩

/-! ## The blocks of 95_test_vectors.md section 2 and small states -/

/-- Block A without its bytes 10, 126 and 127. -/
def blockWith (b0 b10 b126 b127 : Byte) : List Byte :=
  [b0, 0xFF, 0xFF, 0xFF, 0xFF, 0xFF, 0xFF, 0x00, 0x4C, 0x2D, b10, 0x12, 0x78, 0x56, 0x34, 0x12,
   0x0A, 0x1E, 0x01, 0x03, 0x80, 0x35, 0x1E, 0x78, 0xE0] ++ List.replicate 13 0x00 ++ List.replicate 16 0x01 ++
  [0x02, 0x3A, 0x80, 0x18, 0x71, 0x38, 0x2D, 0x40, 0x58, 0x2C, 0x45, 0x00, 0x0F, 0x28, 0x21, 0x00, 0x00, 0x1E,
   0x00, 0x00, 0x00, 0xFC, 0x00, 0x4B, 0x4A, 0x4D, 0x20, 0x54, 0x45, 0x53, 0x54, 0x0A, 0x20, 0x20, 0x20, 0x20,
   0x00, 0x00, 0x00, 0x10] ++ List.replicate 14 0x00 ++ [0x00, 0x00, 0x00, 0x10] ++ List.replicate 14 0x00 ++ [b126, b127]

def blockA : List Byte := blockWith 0x00 0x34 0x00 0xBB
def blockA1 : List Byte := blockWith 0x00 0x34 0x01 0xBA
def blockZ : List Byte := blockWith 0x00 0x35 0x00 0xBA
def blockC : List Byte := blockWith 0x00 0x35 0x00 0xBB
def blockH : List Byte := blockWith 0x01 0x34 0x00 0xBB

/-- Block E, with its last byte. -/
def blockEWith (b127 : Byte) : List Byte :=
  [0x02, 0x03, 0x0A, 0x40, 0x23, 0x09, 0x07, 0x07, 0x41, 0x10] ++ List.replicate 117 0x00 ++ [b127]

def blockE : List Byte := blockEWith 0x26
def blockE' : List Byte := blockEWith 0x27

/-- A block with neither a dummy descriptor nor an unused timing pair (as V4.4 has it, with other bytes). -/
def blockPlain : List Byte := List.replicate 126 0x02 ++ [0x00, 0x02]

/-- After reset, with a platform of three buses and a classification, and a document in DOC. -/
def stateWith (doc : List Byte) : State :=
  { State.reset with
    doc := Memory.cells 0 doc, dlen := doc.length
    platform := { hasBus := true, buses := [0, 1, 2], classTable := [(9, .permissionDenied)], classDefault := .otherError } }

/-- The same, with the answers to come. -/
def stateAt (doc : List Byte) (answers : List BusAnswer) (backups : List BackupAnswer) : State :=
  { stateWith doc with busIn := answers, backupIn := backups }

theorem test_stateAt_busIn (doc : List Byte) (answers : List BusAnswer) (backups : List BackupAnswer) :
    (stateAt doc answers backups).busIn = answers ∧ (stateAt doc answers backups).backupIn = backups := ⟨rfl, rfl⟩

theorem test_stateAt_ready (doc : List Byte) (answers : List BusAnswer) (backups : List BackupAnswer) :
    Ready (stateAt doc answers backups) := ⟨rfl, rfl⟩

/-- Acknowledged writes. -/
def acks (n : Nat) : List BusAnswer := List.replicate n (.ok [])

/-- The next state, or the state after reset. -/
def nextOf (r : Host.Outcome State Fault Refusal) : State :=
  match r with
  | .next t => t
  | .fault _ => State.reset
  | .refused _ => State.reset

/-- The outcome is a next state. -/
def goesOn (r : Host.Outcome State Fault Refusal) : Bool :=
  match r with
  | .next _ => true
  | .fault _ => false
  | .refused _ => false

/-- The four ends of a state: OK, FAIL, ERR, MSG, when BUSY = 0 and DONE = 1. -/
def endOf (t : State) : Option (Bool × Bool × ErrCode × Msg) :=
  if t.status.busy = false ∧ t.status.done = true then some (t.status.ok, t.status.fail, t.err, t.msg) else none

theorem test_blocks_have_128_bytes :
    blockA.length = 128 ∧ blockE.length = 128 ∧ byteAt blockA 54 = 0x02 ∧ byteAt blockA 126 = 0x00 ∧ byteSum blockA = 4608 := by
  decide +kernel

/-! ## Single steps (95_test_vectors.md sections 3 and 6) -/

/-- V1.2: block C sums to 1. -/
theorem test_vcsum_stale : (let t := nextOf (exec (.vcsum 0 .doc) (stateWith blockC))
    (endOf t, t.acc)) = (some (false, false, .none, .none), 0x01) := by decide +kernel

/-- As V1.6, with a slice of 2 bytes: it is an ordinary false result, and ACC is unchanged. -/
theorem test_vcsum_short_slice : (let t := nextOf (exec (.vcsum 1 .doc) { stateWith ((blockA1 ++ blockE).take 130) with acc := 0x5A })
    (endOf t, t.acc)) = (some (false, false, .none, .none), 0x5A) := by decide +kernel

/-- V2.4: RCSUM of the second block. -/
theorem test_rcsum_second_block : (let t := nextOf (exec (.rcsum 1 .doc) (stateWith (blockA1 ++ blockE')))
    (endOf t, t.rval, t.acc, docByte t 255)) = (some (true, false, .none, .none), 0x0026, 0xDA, 0x26) := by decide +kernel

/-- V2.9: an empty slice is a SizeError, and RVALID = 0. -/
theorem test_rcsum_empty_slice : (let t := nextOf (exec (.rcsum 1 .doc) { stateWith blockA with rvalid := true, rval := 7 })
    (endOf t, t.rval, t.rvalid)) = (some (false, true, .sizeError, .none), 0, false) := by decide +kernel

/-- V3.11: of two bad blocks the lowest is reported, before the extension count. -/
theorem test_vstruct_lowest_bad_block : (let t := nextOf (exec (.vstruct .doc) (stateWith (blockC ++ blockE')))
    (endOf t, t.rvalid, t.rval, t.acc)) = (some (false, false, .checksumError, .none), true, 0, 0x01) := by decide +kernel

/-- V3.3: one block with an extension count of 1. -/
theorem test_vstruct_count_mismatch : (let t := nextOf (exec (.vstruct .doc) (stateWith blockA1))
    (endOf t, t.rvalid, t.acc)) = (some (false, false, .extensionCountMismatch, .none), false, 0) := by decide +kernel

/-- V4.1: the lowest descriptor that starts with two zero bytes is at 72. -/
theorem test_fsafe_descriptor : (let t := nextOf (exec (.fsafe .doc) (stateWith blockA))
    (endOf t, t.rvalid, t.rval)) = (some (true, false, .none, .none), true, 77) := by decide +kernel

/-- V4.6: fewer than 128 bytes. -/
theorem test_fsafe_short : (let t := nextOf (exec (.fsafe .doc) (stateWith (blockA.take 100)))
    (endOf t, t.rvalid)) = (some (false, false, .none, .none), false) := by decide +kernel

/-- V6.20: an error, the byte 0x00, another byte. -/
theorem test_discover_three_buses :
    (let t := nextOf (exec .discover (stateAt [] [.ioErr 9, .ok [0x00], .ok [0x5A]] []))
     (endOf t, t.probe, t.aclass)) =
    (some (true, false, .none, .none), [⟨0, false⟩, ⟨1, true⟩, ⟨2, false⟩], .permissionDenied) := by decide +kernel

/-- V6.22: no byte at all is no EDID. -/
theorem test_discover_empty_answer :
    (let s := stateAt [] [.ok []] []
     (nextOf (exec .discover { s with platform := { s.platform with buses := [4] } })).probe) = [⟨4, false⟩] := by decide +kernel

/-- V6.4: the sixth frame fails; the base block stays. -/
theorem test_rddoc_fails_in_extension :
    (let t := nextOf (exec (.rddoc 1) (stateAt [] ((handsOver (blockA1 ++ blockE)).take 5 ++ [.ioErr 9]) []))
     (endOf t, t.aclass, t.ioerr, t.devlen, devBytes t == blockA1, t.trace.length)) =
    (some (false, true, .accessError, .none), .permissionDenied, 9, 128, true, 6) := by decide +kernel

/-- V6.2: a short second frame; all four frames are issued and the length is tested at the end. -/
theorem test_rddoc_short_frame :
    (let t := nextOf (exec (.rddoc 1) (stateAt [] [.ok (chunk blockA 0), .ok ((chunk blockA 1).take 20),
       .ok (chunk blockA 2), .ok (chunk blockA 3)] []))
     (endOf t, t.aclass, t.devlen, t.trace.length)) = (some (false, true, .sizeError, .none), .none, 0, 4) := by decide +kernel

/-- V6.9: a read-only device; the backup is kept and DEV holds what was re-read. -/
theorem test_wrdoc_read_only_device :
    (let t := nextOf (exec (.wrdoc 1) (stateAt blockA (handsOver blockZ ++ acks 8 ++ handsOver blockZ) [.ok 7]))
     (endOf t, t.wstate, [t.pageI, t.pageN, t.bkid, t.trace.length], devBytes t == blockZ)) =
    (some (false, true, .writeVerificationFailed, .none), .verificationFailed, [8, 8, 7, 25], true) := by decide +kernel

/-- V6.10: an I/O error at the third write; no settle after it. -/
theorem test_wrdoc_failed_page :
    (let t := nextOf (exec (.wrdoc 1) (stateAt blockA (handsOver blockZ ++ acks 2 ++ [.ioErr 5]) [.ok 7]))
     (endOf t, t.aclass, t.wstate, [t.pageI, t.pageN, t.bkid, t.trace.length])) =
    (some (false, true, .accessError, .none), .otherError, .writing, [3, 8, 7, 10]) := by decide +kernel

/-- V6.16: the probe of a writable device, with its events. -/
theorem test_tstwr_writable :
    (let t := nextOf (exec (.tstwr 2) (stateAt [] (handsOver blockA ++ handsOver blockA ++
       [.ok [], .ok [0xB4], .ok [], .ok [0x4B]]) [.ok 7]))
     (endOf t, t.rval, t.bkid, (eventsOf t).drop 9)) =
    (some (true, false, .none, .writable), 77, 7,
      [.wr ⟨2, 0x50, 0x4D, [0xB4]⟩ .ok, .settle 10, .rd ⟨2, 0x50, 0x4D, 1⟩ (.ok [0xB4]),
       .wr ⟨2, 0x50, 0x4D, [0x4B]⟩ .ok, .settle 10, .rd ⟨2, 0x50, 0x4D, 1⟩ (.ok [0x4B])]) := by decide +kernel

/-- V6.18: the restore is not stored. -/
theorem test_tstwr_restore_fails :
    (let t := nextOf (exec (.tstwr 2) (stateAt [] (handsOver blockA ++ handsOver blockA ++
       [.ok [], .ok [0xB4], .ok [], .ok [0xB4]]) [.ok 7]))
     (endOf t, t.rval, t.bkvalid)) = (some (false, true, .restoreVerificationFailed, .restoreFailed), 77, true) := by decide +kernel

/-- V6.5: two bytes differ, device byte first. -/
theorem test_cmpdoc_differs :
    (let t := nextOf (exec (.cmpdoc 1) (stateAt blockA (handsOver blockZ) []))
     (endOf t, t.diff)) =
    (some (false, false, .none, .differ), [⟨10, 0x35, 0x34⟩, ⟨127, 0xBA, 0xBB⟩]) := by decide +kernel

/-- V6.6: a size mismatch compares no byte. -/
theorem test_cmpdoc_size_mismatch :
    (let t := nextOf (exec (.cmpdoc 1) (stateAt blockA (handsOver (blockA1 ++ blockE)) []))
     (endOf t, t.diffn, t.devlen, t.trace.length)) = (some (false, false, .none, .sizeMismatch), 0, 256, 8) := by decide +kernel

/-- R101: an answer of one byte to a frame of 32 is a short read, and fills one byte of CHBUF. -/
theorem test_f_rd_short :
    (let t := nextOf (exec (.fRd 1 0xE0 32) (stateAt [] [.ok [0x77]] []))
     (t.chn, t.chbuf.head?, eventsOf t)) = (1, some 0x77, [.rd ⟨1, 0x50, 0xE0, 32⟩ (.ok [0x77])]) := by decide +kernel

/-- R102: an I/O error is classified. -/
theorem test_f_wr_io_error :
    (let t := nextOf (exec (.fWr 1 0x20 [0x11]) (stateAt [] [.ioErr 9] []))
     (t.ioerr, t.aclass, eventsOf t)) = (9, .permissionDenied, [.wr ⟨1, 0x50, 0x20, [0x11]⟩ (.ioErr 9)]) := by decide +kernel

/-- WRDOC on bus 1 whose first page is answered with an I/O error, with the answers that are still to come. -/
def afterFailedPage (answers : List BusAnswer) : State :=
  nextOf (exec (.wrdoc 1) (stateAt blockA (handsOver blockZ ++ [.ioErr 5] ++ answers) [.ok 7]))

/-- R50, R110, R124: no settle delay follows the failed page in WRDOC; it passes before the first frame of the next command, on
whatever bus. -/
theorem test_settle_before_next_command :
    (afterFailedPage []).settleDue = true ∧
    (let t := nextOf (exec (.rddoc 2) (afterFailedPage [.ioErr 9]))
     (t.settleDue, (eventsOf t).drop 5)) =
    (false, [.wr ⟨1, 0x50, 0x00, page blockA 0⟩ (.ioErr 5), .settle 10, .rd ⟨2, 0x50, 0x00, 32⟩ (.ioErr 9)]) := by decide +kernel

/-- R50, R204: so it is with frames by themselves; a read frame starts no delay. -/
theorem test_settle_between_frames :
    (let t := nextOf (runAll [.fWr 1 0x20 [0x11], .fRd 1 0x20 1, .fRd 2 0x00 1] (stateAt [] [.ok [], .ok [0x11], .ok [0x00]] []))
     (t.settleDue, eventsOf t)) =
    (false, [.wr ⟨1, 0x50, 0x20, [0x11]⟩ .ok, .settle 10, .rd ⟨1, 0x50, 0x20, 1⟩ (.ok [0x11]), .rd ⟨2, 0x50, 0x00, 1⟩ (.ok [0x00])]) := by
  decide +kernel

/-- R201: a reset two events into RDDOC abandons it. -/
theorem test_reset_during_command :
    (let t := nextOf (exec (.rddoc 1) { stateAt [] (handsOver blockA) [] with resetIn := some 2 })
     (t.status, t.trace.length, t.resetIn)) = (⟨false, false, false, false⟩, 2, none) := by decide +kernel

/-- R63, R183: an illegal word ends at once, and the next CMD write starts a command. -/
theorem test_illegal_word_ends_at_once :
    (let t := nextOf (step { stateWith blockA with hostIn := [.writeCmd 0x14, .writeCmd 0x00010010] })
     (endOf t, t.cmd, (nextOf (step t)).cmd)) = (some (false, true, .illegalCommand, .none), none, some 0x00010010) := by
  decide +kernel

/-- R22, R31: a WRDOC that has just been started reads as Idle, whatever an earlier one has left; another command has no progress. -/
theorem test_progress_of_a_started_command :
    (let s := { stateWith blockA with wstate := .verified, pageI := 8, pageN := 8 }
     (hostRead .wstate (nextOf (hostAct (.writeCmd 0x01000022) s)), hostRead .pageI (nextOf (hostAct (.writeCmd 0x01000022) s)),
      hostRead .wstate (nextOf (hostAct (.writeCmd 0x01000021) s)))) =
    (some (.num 0), some (.num 0), some .meaningless) := by decide +kernel

/-! ## Document fields (95_test_vectors.md sections 2.1, 2.3 and 7) -/

theorem test_fields_of_block_A :
    displayName Config.fieldParams blockA = some ['K', 'J', 'M', ' ', 'T', 'E', 'S', 'T'] ∧ serialNumber blockA = 0x12345678 ∧
    manufactureYear blockA = 2020 ∧ gamma blockA = some (22 / 10) := by decide +kernel

theorem test_timing_of_block_A :
    (let T := detailedTiming Config.fieldParams (descriptorAt blockA 54)
     T.hActive = 1920 ∧ T.vTotal = 1125 ∧ T.refresh = some 60) := by decide +kernel

theorem test_data_blocks_of_block_E : dataBlocks Config.fieldParams blockE = some [(.audio, 3), (.video, 1)] := by decide +kernel

/-- U14: a manufacturer group of 0, and a boundary below 4, are refused. -/
theorem test_fields_refused :
    manufacturerId (List.replicate 128 0x00) = none ∧ dataBlocks Config.fieldParams (0x02 :: 0x03 :: 0x03 :: []) = none := by
  decide +kernel

/-! ## A case that meets the hypotheses of each statement -/

theorem test_witness_DecodeEncodeRoundTrip :
    (Instr.vcsum 255 .dev).wf = true ∧ (Instr.fRd 255 255 32).wf = true ∧ (Instr.fWr 0 0 (List.replicate 16 0xFF)).wf = true := by
  decide

theorem test_witness_EncodeDecodeGivesTheCodeBack :
    decode (.word 0xFF000021) = .ok (.rddoc 0xFF) ∧
    decode (.record ([0x50, 0xFF, 0x00, 0x01] ++ List.replicate 16 0)) = .ok (.fRd 0xFF 0x00 32) := by decide +kernel

theorem test_witness_EveryWordSelectsAtMostOneRow :
    (∃ r ∈ opRows, (0x00FF0110 : BitVec 32) &&& r.mask = r.pattern) ∧
    ∀ r ∈ opRows, (0x00000014 : BitVec 32) &&& r.mask ≠ r.pattern := by decide +kernel

/-- A command latched and the host waiting, or silent. -/
def latched : State := { stateWith [] with cmd := some 0x20, status := statusStarted, hostIn := [.await] }

theorem test_witness_StepRunsTheLatchedCommand :
    latched.frameReq = none ∧ latched.cmd = some 0x20 ∧ decode (.word 0x20) = .ok .discover ∧ latched.hostIn = .await :: [] ∧
    { latched with hostIn := [] }.hostIn = [] := by decide +kernel

theorem test_witness_StepRunsTheHandedFrame :
    { latched with frameReq := some ([0x50, 0x00, 0x00, 0x00] ++ List.replicate 16 0) }.frameReq =
      some ([0x50, 0x00, 0x00, 0x00] ++ List.replicate 16 0) ∧
    decode (.record ([0x50, 0x00, 0x00, 0x00] ++ List.replicate 16 0)) = .ok (.fRd 0 0 1) := by decide +kernel

theorem test_witness_StepTakesTheHostsMove :
    { stateWith [] with hostIn := [.await] }.hostIn = .await :: [] ∧ (stateWith []).cmd = none ∧
    { latched with hostIn := [.writeCmd 0] }.hostIn = .writeCmd 0 :: [] ∧ HostAction.writeCmd 0 ≠ .await ∧
    (stateWith []).hostIn = [] ∧ (stateWith []).frameReq = none ∧ latched.frameReq = none := by decide +kernel

/-- One word for each clause. -/
theorem test_witness_CmdWriteStartsOrIsIgnored :
    latched.status.busy = true ∧ (stateWith []).status.busy = false ∧
    decode (.word 0x01000022) = .ok (.wrdoc 1) ∧ decode (.word 0x02000023) = .ok (.tstwr 2) ∧
    decode (.word 0x01000024) = .ok (.cmpdoc 1) ∧ decode (.word 0x00000020) = .ok .discover ∧
    decode (.word 0x00000021) = .ok (.rddoc 0) ∧ decode (.word 0x00000112) = .ok (.vstruct .dev) := by decide +kernel

theorem test_witness_HostLibertiesDoNotDisturbACommand :
    latched.frameReq = none ∧ latched.cmd = some 0x20 ∧ latched.status.busy = true ∧
    { latched with hostIn := [.writeCmd 0x10] }.hostIn = .writeCmd 0x10 :: [] ∧
    { latched with hostIn := [.read .status] }.hostIn = .read .status :: [] := by decide +kernel

theorem test_witness_IllegalWordRaisesIllegalCommand :
    { stateWith [] with hostIn := [.writeCmd 0x14] }.frameReq = none ∧
    { stateWith [] with hostIn := [.writeCmd 0x14] }.status.busy = false ∧
    { stateWith [] with hostIn := [.writeCmd 0x14] }.hostIn = .writeCmd 0x14 :: [] ∧
    ∀ r ∈ opRows, (0x14 : BitVec 32) &&& r.mask ≠ r.pattern := by decide +kernel

/-- Every clause at the boundary of its range. -/
theorem test_witness_HostWritesOfDoc :
    latched.status.busy = true ∧ (stateWith []).status.busy = false ∧ 32767 + [0x01].length ≤ 32768 ∧
    32768 < 32768 + [0x01].length ∧ 32768 ≤ 32768 ∧ 32768 < 32769 := by decide

theorem test_witness_HostAccessRights :
    HostReg.cmd ∈ [HostReg.cmd, .chbuf, .chn, .pgbuf] ∧ HostReg.probe ∈ [HostReg.doc, .dlen, .dev, .diff, .probe] ∧
    HostReg.acc ∉ [HostReg.cmd, .chbuf, .chn, .pgbuf, .doc, .dlen, .dev, .diff, .probe] := by decide

/-- BUSY = 0 with each kind of code, and a started WRDOC. -/
theorem test_witness_HostReadsTheRegisters :
    (stateWith []).status.busy = false ∧ (stateWith []).err = ErrCode.none ∧ (stateWith []).aclass = AClass.none ∧
    (stateWith []).msg = Msg.none ∧ (stateWith []).wstate = WState.idle ∧
    { latched with cmd := some 0x01000022 }.cmd = some 0x01000022 ∧ decode (.word 0x01000022) = .ok (.wrdoc 1) := by
  decide +kernel

/-- A reset due after 4 events comes after the end of RDDOC of one block; one due after 3 abandons it. -/
theorem test_witness_ResetAbandonsARunningCommand :
    isCommand (.rddoc 1) = true ∧
    (∃ t, exec (.rddoc 1) { stateAt [] (handsOver blockA) [] with resetIn := some 4 } = .next t) ∧
    (nextOf (exec (.rddoc 1) { stateAt [] (handsOver blockA) [] with resetIn := some 4 })).resetIn = some 0 ∧
    (nextOf (exec (.rddoc 1) { stateAt [] (handsOver blockA) [] with resetIn := some 3 })).resetIn = none :=
  ⟨rfl, ⟨_, rfl⟩, by decide +kernel, by decide +kernel⟩

/-- A sequence of 200 bytes has one full slice, one of 72 bytes, and then none. -/
theorem test_witness_BlockSlice :
    0 < (List.replicate 200 (0x01 : Byte)).length / 128 ∧ 1 = (List.replicate 200 (0x01 : Byte)).length / 128 ∧
    (List.replicate 200 (0x01 : Byte)).length / 128 < 2 ∧ 71 < (block (List.replicate 200 (0x01 : Byte)) 1).length := by decide +kernel

theorem test_witness_VcsumResult :
    (block (selected .doc (stateWith blockA)) (0 : Byte).toNat).length = 128 ∧
    (block (selected .doc (stateWith blockA)) (1 : Byte).toNat).length ≠ 128 := by decide +kernel

theorem test_witness_RcsumResult :
    (block (selected .doc (stateWith (blockA1 ++ blockE))) (1 : Byte).toNat).length = 128 ∧
    (block (selected .dev { stateWith [] with dev := Memory.cells 0 blockA, devlen := 128 }) (0 : Byte).toNat).length = 128 ∧
    (block (selected .doc (stateWith blockA)) (255 : Byte).toNat).length ≠ 128 := by decide +kernel

/-- One document for each clause: too short, a remainder, a bad header, a bad last block, a count mismatch, and a good one. -/
theorem test_witness_VstructResult :
    (selected .doc (stateWith (blockA.take 127))).length < 128 ∧
    (selected .doc (stateWith ((blockA1 ++ blockE).take 129))).length % 128 ≠ 0 ∧
    (128 ≤ blockH.length ∧ blockH.length % 128 = 0 ∧
      (selected .doc (stateWith blockH)).take 8 ≠ [0x00, 0xFF, 0xFF, 0xFF, 0xFF, 0xFF, 0xFF, 0x00]) ∧
    (selected .doc (stateWith (blockA1 ++ blockE'))).take 8 = [0x00, 0xFF, 0xFF, 0xFF, 0xFF, 0xFF, 0xFF, 0x00] ∧
    1 < (blockA1 ++ blockE').length / 128 ∧ byteSum (block (blockA1 ++ blockE') 1) % 256 ≠ 0 ∧
    byteSum (block (blockA1 ++ blockE') 0) % 256 = 0 ∧
    byteSum (block blockA1 0) % 256 = 0 ∧ blockA1.length ≠ 128 * (1 + extCount blockA1) ∧
    byteSum (block blockA 0) % 256 = 0 ∧ blockA.length = 128 * (1 + extCount blockA) := by decide +kernel

/-- One buffer for each clause: 127 bytes; the first and the last descriptor; the first and the last timing pair; none. -/
theorem test_witness_FsafeResult :
    (selected .doc (stateWith (blockA.take 127))).length < 128 ∧
    (let B := List.replicate 128 (0x00 : Byte); byteAt B 54 = 0 ∧ byteAt B 55 = 0) ∧
    (let B := List.replicate 108 (0x02 : Byte) ++ List.replicate 20 0x00
     byteAt B 108 = 0 ∧ byteAt B 109 = 0 ∧ ∀ j, j < 3 → ¬ (byteAt B (54 + 18 * j) = 0 ∧ byteAt B (55 + 18 * j) = 0)) ∧
    (let B := List.replicate 128 (0x01 : Byte)
     (∀ i, i < 4 → ¬ (byteAt B (54 + 18 * i) = 0 ∧ byteAt B (55 + 18 * i) = 0)) ∧ byteAt B 38 = 1 ∧ byteAt B 39 = 1) ∧
    (let B := List.replicate 52 (0x02 : Byte) ++ List.replicate 76 0x01
     (∀ i, i < 4 → ¬ (byteAt B (54 + 18 * i) = 0 ∧ byteAt B (55 + 18 * i) = 0)) ∧ byteAt B 52 = 1 ∧ byteAt B 53 = 1 ∧
     ∀ j, j < 7 → ¬ (byteAt B (38 + 2 * j) = 1 ∧ byteAt B (39 + 2 * j) = 1)) ∧
    (∀ i, i < 4 → ¬ (byteAt blockPlain (54 + 18 * i) = 0 ∧ byteAt blockPlain (55 + 18 * i) = 0)) ∧
    ∀ i, i < 8 → ¬ (byteAt blockPlain (38 + 2 * i) = 1 ∧ byteAt blockPlain (39 + 2 * i) = 1) := by decide +kernel

theorem test_witness_RcsumThenVcsumIsValid :
    (block (selected .doc (stateWith blockC)) (0 : Byte).toNat).length = 128 := by decide +kernel

theorem test_witness_RcsumAllThenVstructAccepts :
    1 ≤ 2 ∧ 2 ≤ 256 ∧ (selected .doc (stateWith (blockA1 ++ blockE'))).length = 128 * 2 ∧
    (selected .doc (stateWith (blockA1 ++ blockE'))).take 8 = [0x00, 0xFF, 0xFF, 0xFF, 0xFF, 0xFF, 0xFF, 0x00] ∧
    extCount (selected .doc (stateWith (blockA1 ++ blockE'))) = 2 - 1 := by decide +kernel

theorem test_witness_ReadFrameEffect :
    Ready (stateAt [] [.ok [0x77]] []) ∧ (stateAt [] [.ok [0x77]] []).busIn = .ok [0x77] :: [] ∧
    readAnswer 1 (stateAt [] [.ok [0x77]] []) = .ok [0x77] ∧ readAnswer 32 (stateAt [] [.ioErr 9] []) = .ioErr 9 := by
  decide +kernel

theorem test_witness_WriteFrameEffect :
    Ready (stateAt [] [.ok []] []) ∧ [0x11].length = 1 ∧ (List.replicate 16 (0x11 : Byte)).length = 16 ∧
    writeAnswer (stateAt [] [.ok []] []) = .ok ∧ writeAnswer (stateAt [] [.ioErr 9] []) = .ioErr 9 := by decide +kernel

theorem test_witness_OtherFrameLengthsAreRefused :
    (stateWith []).platform.hasBus = true ∧ (0 ≠ 1 ∧ 0 ≠ 32) ∧ (([] : List Byte).length ≠ 1 ∧ ([] : List Byte).length ≠ 16) := by
  decide

theorem test_witness_NoBusNoDeviceChannel :
    { stateWith [] with platform := { (stateWith []).platform with hasBus := false } }.platform.hasBus = false := by decide

theorem test_witness_RegisterOffsetsWrap : 127 < 128 ∧ 96 ∈ Config.CHUNK_OFFS := by decide

theorem test_witness_ReadBlockInFourChunks :
    (stateAt [] [.ok (chunk blockA 0), .ok (chunk blockA 1), .ok (chunk blockA 2), .ok []] []).resetIn = none ∧
    (stateAt [] [.ok (chunk blockA 0), .ok (chunk blockA 1), .ok (chunk blockA 2), .ok []] []).busIn =
      [.ok (chunk blockA 0), .ok (chunk blockA 1), .ok (chunk blockA 2), .ok []] ++ [] ∧
    (stateAt [] [.ok [], .ioErr 9] []).busIn = [.ok [], .ioErr 9] ++ [] ∧
    (chunk blockA 0).length ≤ 32 ∧ (chunk blockA 1).length ≤ 32 ∧ (chunk blockA 2).length ≤ 32 := by decide +kernel

theorem test_witness_EveryEventIsInTheTable : ∃ t, exec (.tstwr 2) (stateAt [] (handsOver blockA) [.ok 7]) = .next t := ⟨_, rfl⟩

theorem test_witness_SettleFollowsEveryWrite :
    (∃ t, exec (.wrdoc 1) (stateAt blockA (handsOver blockZ ++ acks 8 ++ handsOver blockA) [.ok 7]) = .next t) ∧
    (eventsOf (nextOf (exec (.wrdoc 1) (stateAt blockA (handsOver blockZ ++ acks 8 ++ handsOver blockA) [.ok 7])))).any
      Event.isWrite = true :=
  ⟨⟨_, rfl⟩, by decide +kernel⟩

/-- The timer is idle, and it runs; a write frame is in the trace, and the settle delay of an earlier one. -/
theorem test_witness_SettleFollowsEveryWrite_running :
    goesOn (exec (.fRd 1 0x00 1) (afterFailedPage [.ok [0x00]])) = true ∧ (afterFailedPage []).settleDue = true ∧
    (stateAt blockA [] []).settleDue = false ∧ (afterFailedPage []).resets = State.reset.resets ∧
    (eventsOf (afterFailedPage [])).any Event.isWrite = true := by decide +kernel

/-- A trace that ends in a write frame whose settle delay has not passed, and RDDOC to run next. -/
theorem test_witness_StepKeepsTheTraceSettled :
    (let s := (afterFailedPage [.ioErr 9]).withFetchWord 32 0x00000021
     timerAfter false (eventsOf s) = some s.settleDue ∧ s.settleDue = true ∧ goesOn (step s) = true ∧
     (nextOf (step s)).resets = s.resets ∧ (eventsOf (nextOf (step s))).length = (eventsOf s).length + 2) := by decide +kernel

theorem test_witness_CommandsEmitBoundedlyManyEvents :
    (stateWith blockA).dlen ≤ 32768 ∧ ∃ t, exec (.wrdoc 1) (stateWith blockA) = .next t := ⟨by decide +kernel, _, rfl⟩

theorem test_witness_DiscoverResult :
    Ready (stateAt [] (acks 3) []) ∧ (stateAt [] (acks 3) []).busIn = acks 3 ++ [] ∧
    (acks 3).length = (stateAt [] (acks 3) []).platform.buses.length := by decide +kernel

theorem test_witness_RddocReadsTheDocument :
    Ready (stateAt [] (handsOver (blockA1 ++ blockE)) []) ∧ SelfSized (blockA1 ++ blockE) ∧
    (stateAt [] (handsOver (blockA1 ++ blockE)) []).busIn = handsOver (blockA1 ++ blockE) ++ [] := by decide +kernel

/-- The chunks before an error on the last frame of a document of two blocks. -/
def sevenChunks : List (List Byte) := (chunksOf (blockA1 ++ blockE)).take 7

/-- An error on the first frame, and on the last frame of a document of two blocks. -/
theorem test_witness_RddocAccessError :
    ((∀ c ∈ ([] : List (List Byte)), c.length = 32) ∧ ([] : List (List Byte)).length < 4) ∧
    (sevenChunks.all (·.length == 32) && decide (sevenChunks.length < 4 * (1 + extCount sevenChunks.flatten))) = true ∧
    ∀ answers, Ready (stateAt [] answers []) ∧ (stateAt [] answers []).busIn = answers :=
  ⟨by decide, by decide +kernel, fun _ => ⟨test_stateAt_ready .., (test_stateAt_busIn ..).1⟩⟩

/-- A short frame in the base block (no chunk before it), and in the extension block of a document of two blocks. -/
theorem test_witness_RddocSizeError :
    ((chunksOf blockA1).all (·.length == 32) && decide ((chunksOf blockA1).length = 4 * 1)) = true ∧
    1 < 1 + extCount (chunksOf blockA1).flatten ∧ (([] : List Byte) ++ [] ++ [] ++ []).length ≠ 128 ∧
    ∀ answers, Ready (stateAt [] answers []) ∧ (stateAt [] answers []).busIn = answers :=
  ⟨by decide +kernel, by decide +kernel, by decide, fun _ => ⟨test_stateAt_ready .., (test_stateAt_busIn ..).1⟩⟩

theorem test_witness_WrdocRefusesABadLength :
    (stateWith []).platform.hasBus = true ∧ (stateWith []).dlen = 0 ∧ (stateWith (blockA.take 127)).dlen % 128 ≠ 0 := by
  decide +kernel

/-- The state of a witness, whatever answers stand in its lists. -/
theorem test_witness_wrdoc_state (answers : List BusAnswer) (backups : List BackupAnswer) :
    Ready (stateAt blockA answers backups) ∧ (stateAt blockA answers backups).busIn = answers ∧
    (stateAt blockA answers backups).backupIn = backups ∧ (stateAt blockA answers backups).dlen ≠ 0 ∧
    (stateAt blockA answers backups).dlen % 128 = 0 ∧ (stateAt blockA answers backups).dlen / 16 = 8 :=
  ⟨test_stateAt_ready .., (test_stateAt_busIn ..).1, (test_stateAt_busIn ..).2, by show blockA.length ≠ 0; decide +kernel,
    by show blockA.length % 128 = 0; decide +kernel, by show blockA.length / 16 = 8; decide +kernel⟩

/-- The device as written, and a read-only one. -/
theorem test_witness_WrdocWritesAndVerifies :
    (let s := stateAt blockA (handsOver blockZ ++ (List.replicate 8 []).map .ok ++ handsOver blockA ++ []) [.ok 7]
     (Ready s ∧ s.busIn = handsOver blockZ ++ (List.replicate 8 []).map .ok ++ handsOver blockA ++ [] ∧ s.backupIn = [.ok 7] ∧
       s.dlen ≠ 0 ∧ s.dlen % 128 = 0 ∧ s.dlen / 16 = (List.replicate 8 ([] : List Byte)).length)) ∧
    SelfSized blockZ ∧ SelfSized blockA ∧ blockA = docBytes (stateWith blockA) ∧ blockZ ≠ docBytes (stateWith blockA) :=
  ⟨test_witness_wrdoc_state .., by decide +kernel, by decide +kernel, by decide +kernel, by decide +kernel⟩

/-- The first page fails, and the last. -/
theorem test_witness_WrdocStopsAtAFailedPage :
    (let s := stateAt blockA (handsOver blockZ ++ (List.replicate 7 []).map .ok ++ .ioErr 9 :: []) [.ok 7]
     (Ready s ∧ s.busIn = handsOver blockZ ++ (List.replicate 7 []).map .ok ++ .ioErr 9 :: [] ∧ s.backupIn = [.ok 7] ∧
       s.dlen ≠ 0 ∧ s.dlen % 128 = 0 ∧ s.dlen / 16 = 8)) ∧
    (List.replicate 7 ([] : List Byte)).length < 8 ∧ ([] : List (List Byte)).length < 8 ∧ SelfSized blockZ :=
  ⟨test_witness_wrdoc_state .., by decide, by decide, by decide +kernel⟩

theorem test_witness_BackupFailedWritesNothing :
    (let s := stateAt blockA (handsOver blockZ ++ []) [.fail]
     (Ready s ∧ s.busIn = handsOver blockZ ++ [] ∧ s.backupIn = [.fail] ∧ s.dlen ≠ 0 ∧ s.dlen % 128 = 0 ∧ s.dlen / 16 = 8)) ∧
    SelfSized blockZ :=
  ⟨test_witness_wrdoc_state .., by decide +kernel⟩

/-- Failures on the first frame, on the last frame of a document of two blocks, in its base block and in its extension block. -/
theorem test_witness_ReadFailure_After :
    (ReadFailure.ioErr 9).After [] ∧ (ReadFailure.ioErr 9).After sevenChunks ∧ (ReadFailure.short [[], [], [], [0x01]]).After [] ∧
    (ReadFailure.short [[], [], [], [0x01]]).After (sevenChunks.take 4) := by
  have h : ∀ c ∈ sevenChunks, c.length = 32 := by
    have h : sevenChunks.all (·.length == 32) = true := by decide +kernel
    simpa using h
  exact ⟨⟨by decide, by decide⟩, ⟨h, by decide +kernel⟩, ⟨by decide, by decide⟩,
    fun c hc => h c (List.mem_of_mem_take hc), by decide +kernel, fun _ => by decide +kernel, by decide, by decide, by decide⟩

theorem test_witness_FirstReadFailureEndsTheCommand :
    (let s := stateAt blockA (sevenChunks.map .ok ++ (ReadFailure.ioErr 9).answers ++ []) []
     (Ready s ∧ s.busIn = sevenChunks.map .ok ++ (ReadFailure.ioErr 9).answers ++ [] ∧ s.backupIn = [] ∧ s.dlen ≠ 0 ∧
       s.dlen % 128 = 0 ∧ s.dlen / 16 = 8)) :=
  test_witness_wrdoc_state ..

theorem test_witness_WrdocVerificationReadFails :
    (let s := stateAt blockA (handsOver blockZ ++ (List.replicate 8 []).map .ok ++
       (sevenChunks.map .ok ++ (ReadFailure.ioErr 9).answers) ++ []) [.ok 7]
     (Ready s ∧ s.busIn = handsOver blockZ ++ (List.replicate 8 []).map .ok ++
         (sevenChunks.map .ok ++ (ReadFailure.ioErr 9).answers) ++ [] ∧ s.backupIn = [.ok 7] ∧ s.dlen ≠ 0 ∧
       s.dlen % 128 = 0 ∧ s.dlen / 16 = (List.replicate 8 ([] : List Byte)).length)) ∧
    SelfSized blockZ :=
  ⟨test_witness_wrdoc_state .., by decide +kernel⟩

theorem test_witness_TstwrSecondReadFails :
    (let s := stateAt [] (handsOver blockA ++ ([].map .ok ++ (ReadFailure.short [[], [], [], [0x01]]).answers) ++ []) [.ok 7]
     Ready s ∧ s.busIn = handsOver blockA ++ ([].map .ok ++ (ReadFailure.short [[], [], [], [0x01]]).answers) ++ [] ∧
       s.backupIn = .ok 7 :: []) ∧
    SelfSized blockA :=
  ⟨⟨test_stateAt_ready .., test_stateAt_busIn ..⟩, by decide +kernel⟩

theorem test_witness_TstwrProbesAndRestores :
    (let s := stateAt [] (handsOver blockA ++ handsOver blockA ++ [.ok [], .ok [0xB4], .ok [], .ok [0x4B]] ++ []) [.ok 7]
     Ready s ∧ s.busIn = handsOver blockA ++ handsOver blockA ++ [.ok [], .ok [0xB4], .ok [], .ok [0x4B]] ++ [] ∧
       s.backupIn = .ok 7 :: []) ∧
    SelfSized blockA ∧ findSafeTestByte blockA = some 77 ∧ byteAt blockA 77 = 0x4B ∧ (0x4B ^^^ 0xFF : Byte) = 0xB4 :=
  ⟨⟨test_stateAt_ready .., test_stateAt_busIn ..⟩, by decide +kernel, by decide +kernel, by decide +kernel, by decide⟩

theorem test_witness_TstwrWithoutASafeByteWritesNothing :
    (let s := stateAt [] (handsOver blockA ++ handsOver blockPlain ++ []) [.ok 7]
     Ready s ∧ s.busIn = handsOver blockA ++ handsOver blockPlain ++ [] ∧ s.backupIn = .ok 7 :: []) ∧
    SelfSized blockA ∧ SelfSized blockPlain ∧ findSafeTestByte blockPlain = none :=
  ⟨⟨test_stateAt_ready .., test_stateAt_busIn ..⟩, by decide +kernel, by decide +kernel, by decide +kernel⟩

/-- Another length, the same document, another document. -/
theorem test_witness_CmpdocListsTheDifferences :
    (∀ answers, Ready (stateAt blockA answers []) ∧ (stateAt blockA answers []).busIn = answers) ∧
    (blockA1 ++ blockE).length ≠ (stateWith blockA).dlen ∧ blockA = docBytes (stateWith blockA) ∧
    blockZ.length = (stateWith blockA).dlen ∧ blockZ ≠ docBytes (stateWith blockA) ∧
    SelfSized blockZ ∧ SelfSized blockA ∧ SelfSized (blockA1 ++ blockE) :=
  ⟨fun _ => ⟨test_stateAt_ready .., (test_stateAt_busIn ..).1⟩, by decide +kernel, by decide +kernel, by decide +kernel,
    by decide +kernel, by decide +kernel, by decide +kernel, by decide +kernel⟩

theorem test_witness_EveryCommandEndsAsTheTableSays :
    isCommand (.rddoc 1) = true ∧ (stateWith []).resetIn = none ∧ ∃ t, exec (.rddoc 1) (stateWith []) = .next t :=
  ⟨rfl, rfl, _, rfl⟩

theorem test_witness_EveryCommandCompletes :
    (Instr.fWr 1 0 (List.replicate 16 0)).wf = true ∧ (stateWith []).platform.hasBus = true := by decide

/-- Each register is written by a command that the statement names. -/
theorem test_witness_OnlyTheNamedCommandsWriteARegister :
    (stateWith blockA1).resetIn = none ∧ (nextOf (exec (.vcsum 0 .doc) (stateWith blockC))).acc ≠ (stateWith blockC).acc ∧
    docByte (nextOf (exec (.rcsum 0 .doc) (stateWith blockC))) 127 ≠ docByte (stateWith blockC) 127 ∧
    (nextOf (exec (.rddoc 1) (stateAt [] (handsOver blockA) []))).devlen ≠ 0 ∧
    (nextOf (exec (.wrdoc 1) (stateAt blockA (handsOver blockZ ++ acks 1 ++ [.ioErr 9]) [.ok 7]))).pageN ≠ 0 ∧
    (nextOf (exec (.tstwr 1) (stateAt [] (handsOver blockA ++ [.ioErr 9]) [.ok 7]))).bkvalid = true ∧
    (nextOf (exec (.cmpdoc 1) (stateAt blockA (handsOver blockZ) []))).diff ≠ [] ∧
    (nextOf (exec .discover (stateAt [] (acks 3) []))).probe ≠ [] := by decide +kernel

theorem test_witness_NoWriteWithoutABackup :
    isCommand (.tstwr 2) = true ∧
    (∃ t, exec (.tstwr 2) (stateAt [] (handsOver blockA ++ handsOver blockA) [.ok 7]) = .next t) ∧
    (eventsOf (nextOf (exec (.tstwr 2) (stateAt [] (handsOver blockA ++ handsOver blockA ++
      [.ok [], .ok [], .ok [], .ok []]) [.ok 7])))).any Event.isWrite = true :=
  ⟨rfl, ⟨_, rfl⟩, by decide +kernel⟩

/-- The eighth page write is there to be seen. -/
theorem test_witness_ProgressIsVisible :
    isCommand (.wrdoc 1) = true ∧ (∃ t, exec (.wrdoc 1) (stateAt blockA [] []) = .next t) ∧
    ((nextOf (exec (.wrdoc 1) (stateAt blockA (handsOver blockZ ++ acks 8 ++ handsOver blockA) [.ok 7]))).trace.filter
      fun e => e.event.isWrite)[7]?.isSome = true :=
  ⟨rfl, ⟨_, rfl⟩, by decide +kernel⟩

/-- P3: WRDOC of A to IdealDev256(Z) on bus 1, then CMPDOC. -/
def afterWrdoc : State :=
  nextOf (exec (.wrdoc 1) (stateAt blockA (handsOver blockZ ++ acks 8 ++ handsOver blockA ++ handsOver blockA) [.ok 7]))

theorem test_witness_RoundTripOnTheIdealDevice :
    Ready (stateAt blockA (handsOver blockZ ++ acks 8 ++ handsOver blockA ++ handsOver blockA) [.ok 7]) ∧
    afterWrdoc.status.ok = true ∧ (∃ u, exec (.cmpdoc 1) (stateWith blockA) = .next u) ∧
    (idealRun 1 (blockZ ++ List.replicate 128 0) (eventsOf (nextOf (exec (.cmpdoc 1) afterWrdoc)))).isSome = true :=
  ⟨test_stateAt_ready .., by decide +kernel, ⟨_, rfl⟩, by decide +kernel⟩

/-- P4: TSTWR on ReadOnlyDev256(A). -/
theorem test_witness_ReadOnlyDeviceIsNotWritable :
    (let s := stateAt [] (handsOver blockA ++ handsOver blockA ++ [.ok [], .ok [0x4B], .ok [], .ok [0x4B]]) [.ok 7]
     Ready s ∧ s.backupIn = .ok 7 :: [] ∧
     readOnlyRun 2 (blockA ++ List.replicate 128 0) (eventsOf (nextOf (exec (.tstwr 2) s))) = true ∧
     findSafeTestByte (devBytes (nextOf (exec (.tstwr 2) s))) ≠ none ∧
     endOf (nextOf (exec (.tstwr 2) s)) = some (false, false, .none, .notWritable)) := by decide +kernel

/-- A state with a document, apart from reset, from which a step goes on. -/
theorem test_witness_StepKeepsTheInvariant :
    (stateWith blockA).doc.wf ∧ (stateWith blockA).dev.wf ∧ (stateWith blockA).dlen ≤ 32768 ∧
    (stateWith blockA).devlen = 0 ∧ (stateWith blockA).dev = [] ∧ (stateWith blockA).trace = [] ∧
    (stateWith blockA).status.busy = false ∧ ∃ t, step (stateWith blockA) = .next t :=
  ⟨by decide +kernel, by decide, by decide +kernel, rfl, rfl, rfl, rfl, _, rfl⟩

/-- The example; and a group at each end of the letters, and one beyond each. -/
theorem test_witness_ManufacturerOfTheExample :
    (byteAt blockA 8 = 0x4C ∧ byteAt blockA 9 = 0x2D) ∧
    (let B : List Byte := List.replicate 8 0x00 ++ [0x04, 0x3A]
     ((byteAt B 8).toNat * 256 + (byteAt B 9).toNat) % 32768 = 1024 * 1 + 32 * 1 + 26) ∧
    (let B : List Byte := List.replicate 8 0x00 ++ [0x00, 0x3B]
     ((byteAt B 8).toNat * 256 + (byteAt B 9).toNat) % 32768 = 1024 * 0 + 32 * 1 + 27) := by decide +kernel

/-- A boundary of 10 with two entries, one of 10 whose first entry would exceed it, and the boundaries next to the legal range. -/
theorem test_witness_DataBlocksStayBeforeTheBoundary :
    (byteAt blockE 2).toNat = 10 ∧ (4 ≤ 10 ∧ 10 ≤ 127) ∧ 0 < [(DataBlockClass.audio, 3), (.video, 1)].length ∧
    dataBlocks Config.fieldParams [0x02, 0x03, 0x0A, 0x00, 0x3F] = some [] ∧
    (byteAt [0x02, 0x03, 0x03] 2).toNat < 4 ∧ 127 < (byteAt [0x02, 0x03, 0x80] 2).toNat ∧
    (byteAt [0x02, 0x03, 0x04] 2).toNat = 4 ∧ (byteAt [0x02, 0x03, 0x7F] 2).toNat = 127 := by decide +kernel

end Sys2Proof.Tests
end

section
/-! SUPPORT. What several proofs share: a word decodes to a command, a command runs its body, and what the bodies of the Validator
commands and of DISCOVER and the frames by themselves can do (30_encoding.md R62; 41_validator.md R91 to R94;
42_frame_marshaller.md R101, R102; 43_device_channel.md R122). -/

namespace Sys2Proof.Proofs

open Sys2Proof Sys2Proof.Machine Sys2Proof.Laws

/-! ### Decoding -/

theorem isCommand_build {r : OpRow} (h : r ∈ opRows) (w : BitVec 32) : isCommand (r.build w) = true := by
  simp only [opRows, List.mem_cons, List.not_mem_nil, or_false] at h
  rcases h with rfl | rfl | rfl | rfl | rfl | rfl | rfl | rfl | rfl <;> rfl

/-- A command word decodes to a command, never to a frame (R62). -/
theorem isCommand_of_decode_word {w : BitVec 32} {i : Instr} (h : decode (.word w) = .ok i) : isCommand i = true := by
  simp only [decode, decodeWord] at h
  split at h
  · rename_i r hr
    cases h
    exact isCommand_build (List.mem_of_find?_eq_some hr) w
  · split at h <;> cases h

/-! ### The bodies of the commands -/

/-- The body of a command; a frame has none. -/
def commandBody : Instr → State → State
  | .vcsum blk bsel => vcsumBody blk bsel
  | .rcsum blk bsel => rcsumBody blk bsel
  | .vstruct bsel => vstructBody bsel
  | .fsafe bsel => fsafeBody bsel
  | .discover => discoverBody
  | .rddoc bus => rddocBody bus
  | .wrdoc bus => wrdocBody bus
  | .tstwr bus => tstwrBody bus
  | .cmpdoc bus => cmpdocBody bus
  | .fRd _ _ _ => id
  | .fWr _ _ _ => id

theorem withBus_next {body : State → State} {s t : State} (h : withBus body s = .next t) : t = runCommand body s := by
  unfold withBus at h
  split at h <;> cases h
  rfl

/-- A command that goes on has run its body between the start clears and the loss of the staging buffers (R30, R27). -/
theorem exec_command {i : Instr} {s t : State} (hi : isCommand i = true) (h : exec i s = .next t) :
    t = forgetStaging (commandBody i (startCommand s)) := by
  cases i with
  | vcsum blk bsel => cases h; rfl
  | rcsum blk bsel => cases h; rfl
  | vstruct bsel => cases h; rfl
  | fsafe bsel => cases h; rfl
  | discover => exact withBus_next h
  | rddoc bus => exact withBus_next h
  | wrdoc bus => exact withBus_next h
  | tstwr bus => exact withBus_next h
  | cmpdoc bus => exact withBus_next h
  | fRd bus reg n => cases hi
  | fWr bus reg data => cases hi

/-- The trace of a body goes on from where it started, with what its end or its abandonment says of the entries. -/
theorem bodyRuns_trace {s t : State} {P : State → List TraceEntry → Prop} {Q R : List TraceEntry → Prop} (h : BodyRuns s t P Q)
    (hP : ∀ es, P t es → R es) (hQ : ∀ es, Q es → R es) : ∃ es, t.trace = s.trace ++ es ∧ R es := by
  obtain ⟨es, ⟨h1, h2⟩ | ⟨h1, h2⟩⟩ := h
  · exact ⟨es, h1.trace, hP es h2⟩
  · obtain ⟨u, rfl, h3, -⟩ := h1.struck
    exact ⟨es, h3, hQ es h2⟩

/-- With no reset on its way a body is not abandoned. -/
theorem bodyRuns_unreset {s t : State} {P : State → List TraceEntry → Prop} {Q : List TraceEntry → Prop} (h : BodyRuns s t P Q)
    (hr : s.resetIn = none) : ∃ es, Emitted s t es ∧ P t es := by
  obtain ⟨es, h | ⟨h1, -⟩⟩ := h
  · exact ⟨es, h⟩
  · have := h1.due
    rw [hr] at this
    cases this

theorem bodyRuns_mono {s t : State} {P P' : State → List TraceEntry → Prop} {Q Q' : List TraceEntry → Prop} (h : BodyRuns s t P Q)
    (hP : ∀ es, P t es → P' t es) (hQ : ∀ es, Q es → Q' es) : BodyRuns s t P' Q' := by
  obtain ⟨es, h⟩ := h
  exact ⟨es, h.imp (fun ⟨h1, h2⟩ => ⟨h1, hP es h2⟩) fun ⟨h1, h2⟩ => ⟨h1, hQ es h2⟩⟩

/-! ### The Validator commands -/

/-- What VCSUM, VSTRUCT and FSAFE do: an ordinary result with no message, a new ACC, and RVAL as it was unless there is a value. -/
structure Validated (s t : State) : Prop where
  frame : t = { s with
    status := t.status, err := t.err, msg := t.msg, rval := t.rval, rvalid := t.rvalid, acc := t.acc }
  ends : ∃ ok e, EndsIn t ok false e .none ∧ (ok = true → e = .none)
  rval : t.rvalid = true ∨ t.rval = s.rval

theorem validated_result {s u : State} {ok : Bool} {e : ErrCode} (h : ok = true → e = .none)
    (hu : u = { s with rval := u.rval, rvalid := u.rvalid, acc := u.acc }) (hv : u.rvalid = true ∨ u.rval = s.rval) :
    Validated s (result ok e .none u) :=
  ⟨by rw [hu]; rfl, ⟨ok, e, ⟨rfl, rfl, rfl⟩, h⟩, hv⟩

/-- VCSUM (R91). -/
theorem vcsumBody_validated (blk : Byte) (bsel : BufSel) (s : State) : Validated s (vcsumBody blk bsel s) := by
  unfold vcsumBody
  simp only
  split
  · exact validated_result (fun h => by cases h) rfl (.inr rfl)
  · exact validated_result (fun _ => rfl) rfl (.inr rfl)

/-- VSTRUCT (R93). -/
theorem vstructBody_validated (bsel : BufSel) (s : State) : Validated s (vstructBody bsel s) := by
  unfold vstructBody
  simp only
  split
  · exact validated_result (fun h => by cases h) rfl (.inr rfl)
  split
  · exact validated_result (fun h => by cases h) rfl (.inr rfl)
  have hscan := scanBlocks_frame (selected bsel s) (List.range ((selected bsel s).length / Config.BLOCK_SIZE)) s
  generalize scanBlocks (selected bsel s) (List.range ((selected bsel s).length / Config.BLOCK_SIZE)) s = r at hscan
  obtain ⟨bad, u⟩ := r
  change u = { s with acc := u.acc } at hscan
  cases bad with
  | some k => exact validated_result (fun h => by cases h) (by rw [hscan]; rfl) (.inl rfl)
  | none =>
    have hu : u = { s with rval := u.rval, rvalid := u.rvalid, acc := u.acc } := by rw [hscan]
    have hv : u.rval = s.rval := by rw [hscan]
    simp only
    split
    · exact validated_result (fun h => by cases h) hu (.inr hv)
    · exact validated_result (fun _ => rfl) hu (.inr hv)

/-- FSAFE (R94). -/
theorem fsafeBody_validated (bsel : BufSel) (s : State) : Validated s (fsafeBody bsel s) := by
  unfold fsafeBody
  split
  · exact validated_result (fun _ => rfl) rfl (.inl rfl)
  · exact validated_result (fun h => by cases h) rfl (.inr rfl)

/-- FSAFE sums nothing. -/
theorem fsafeBody_acc (bsel : BufSel) (s : State) : (fsafeBody bsel s).acc = s.acc := by
  unfold fsafeBody
  split <;> rfl

/-- RCSUM: a slice that is no full block is a failure; else byte 127 of the block is stored, as 0 and then as the checksum (R92). -/
theorem rcsumBody_cases (blk : Byte) (bsel : BufSel) (s : State) :
    rcsumBody blk bsel s = raise .sizeError s ∨
    (128 * blk.toNat + 128 ≤ (selected bsel s).length ∧ ∃ S c v, rcsumBody blk bsel s =
      result true .none .none (putRval v (storeSelected bsel (128 * blk.toNat + 127) c
        (accumulate S (storeSelected bsel (128 * blk.toNat + 127) 0 s))))) := by
  by_cases h : (block (selected bsel s) blk.toNat).length = 128
  · exact .inr ⟨(block_full_iff _ _).mp h, _, _, _, if_neg (not_not.mpr h)⟩
  · exact .inl (if_pos h)

/-! ### DISCOVER -/

/-- The events of DISCOVER: none, or an outstanding settle delay and then the probes of the first buses, one byte each (R122). -/
def DiscoverEvents (s : State) (es : List TraceEntry) : Prop :=
  es = [] ∨ ∃ as : List BusAnswer, (∀ b, .ok b ∈ as → b.length ≤ 1) ∧
    es = heldEntries s ++ List.zipWith (fun b a => entryAt s (.rd (readFrame b 0x00 1) a)) s.platform.buses as

/-- What DISCOVER leaves alone. -/
abbrev SameButDiscoverBody (s t : State) : Prop :=
  t = { s with
    status := t.status, err := t.err, msg := t.msg, ioerr := t.ioerr, aclass := t.aclass, chbuf := t.chbuf, chn := t.chn
    busIn := t.busIn, trace := t.trace, resetIn := t.resetIn, draws := t.draws, probe := t.probe, settleDue := t.settleDue }

/-- DISCOVER (R122). -/
theorem discoverBody_runs (s : State) :
    BodyRuns s (discoverBody s)
      (fun t es => DiscoverEvents s es ∧ SameButDiscoverBody s t ∧ EndsIn t true false .none .none)
      (DiscoverEvents s) := by
  have h0 : Emitted s { s with probe := [] } [] := (Emitted.refl s).update rfl rfl rfl rfl
  refine bodyRuns_finish (probeBuses_runs s.platform.buses h0) ?_ ?_
  · rintro _ t es ht ⟨⟨as, -, h2, h3, -⟩, h5, -⟩
    refine bodyRuns_end ht rfl rfl rfl rfl ⟨?_, by rw [h5]; rfl, rfl, rfl, rfl⟩
    by_cases hb : s.platform.buses = []
    · left; rw [h3, if_pos hb, hb]; rfl
    · right; exact ⟨as, h2, by rw [h3, if_neg hb]; rfl⟩
  · rintro es (rfl | ⟨as, -, h2, rfl⟩)
    · exact .inl rfl
    · exact .inr ⟨as, h2, rfl⟩

/-! ### The frames as instructions -/

/-- One read frame, whatever the answer: an outstanding settle delay passes first (R50, R101). -/
theorem busRead_runs_held (bus : BusId) (reg : Byte) (n : Nat) (s : State) :
    RunsFrom s (busRead bus reg n s)
      (fun a u es => SameButFrame { s with settleDue := false } u ∧ (n ≤ 32 → KeepsStaging s u) ∧
        (∀ b, a = .ok b → b.length ≤ n) ∧
        es = heldEntries s ++ [entryAt s (.rd (readFrame bus reg n) a)])
      (fun es => es = [] ∨ es = heldEntries s) := by
  rw [busRead_awaits]
  refine runsFrom_andThen (P := fun _ u es => u = { s with settleDue := false, trace := u.trace, resetIn := u.resetIn } ∧
    es = heldEntries s) (awaitSettle_runs (Emitted.refl s) (.inl rfl) fun u hu => ⟨hu, rfl⟩) ?_
  rintro _ u es hu ⟨h1, rfl⟩
  have he : entryAt u = entryAt s := by rw [h1]; rfl
  refine busRead_runs hu (by rw [h1]) (.inr rfl) fun a v g1 g2 g3 g4 => ⟨by rw [g1, h1], fun hn k1 k2 => ?_, g2, by rw [he]⟩
  have hc : u.chbuf = s.chbuf := by rw [h1]
  cases a with
  | ok b =>
    obtain ⟨j1, j2, -, -⟩ := g3 b rfl
    have := g2 b rfl
    rw [j1, j2, hc]; simp; omega
  | ioErr c =>
    obtain ⟨j1, j2, -, -⟩ := g4 c rfl
    rw [j1, j2, hc]; exact ⟨k1, by omega⟩

/-- One write frame, whatever the answer: an outstanding settle delay passes first (R50, R102). -/
theorem busWrite_runs_held (bus : BusId) (reg : Byte) (data : List Byte) (s : State) :
    RunsFrom s (busWrite bus reg data s)
      (fun a u es => SameButAck s u ∧ es = heldEntries s ++ [entryAt s (.wr (writeFrame bus reg data) a)])
      (fun es => es = [] ∨ es = heldEntries s) := by
  rw [busWrite_awaits]
  refine runsFrom_andThen (P := fun _ u es => u = { s with settleDue := false, trace := u.trace, resetIn := u.resetIn } ∧
    es = heldEntries s) (awaitSettle_runs (Emitted.refl s) (.inl rfl) fun u hu => ⟨hu, rfl⟩) ?_
  rintro _ u es hu ⟨h1, rfl⟩
  have he : entryAt u = entryAt s := by rw [h1]; rfl
  exact busWrite_runs hu (by rw [h1]) (.inr rfl) fun a v g1 => ⟨by rw [g1, h1], by rw [he]⟩

/-- A frame by itself ends where its procedure ends. -/
theorem frameState_runs {α : Type} {s : State} {r : Res α} {P : α → State → List TraceEntry → Prop} {Q : List TraceEntry → Prop}
    (h : RunsFrom s r P Q) : BodyRuns s (frameState r) (fun t es => ∃ a, P a t es) Q :=
  bodyRuns_finish h (fun a _ es h1 h2 => ⟨es, .inl ⟨h1, a, h2⟩⟩) fun _ h => h

/-- F_RD: a read frame that goes on has a legal length and has run (R64, R101). -/
theorem execFRd_next {bus : BusId} {reg : Byte} {n : Nat} {s t : State} (h : execFRd bus reg n s = .next t) :
    legalReadLength n = true ∧ t = frameState (busRead bus reg n s) := by
  unfold execFRd at h
  split at h
  · cases h
  split at h
  · rename_i hn
    cases h
    exact ⟨hn, rfl⟩
  · cases h

/-- F_WR: a write frame that goes on has a legal length and has run (R64, R102). -/
theorem execFWr_next {bus : BusId} {reg : Byte} {data : List Byte} {s t : State} (h : execFWr bus reg data s = .next t) :
    legalWriteLength data.length = true ∧ t = frameState (busWrite bus reg data s) := by
  unfold execFWr at h
  split at h
  · cases h
  split at h
  · rename_i hn
    cases h
    exact ⟨hn, rfl⟩
  · cases h

end Sys2Proof.Proofs
end

section
/-! SUPPORT. The invariant in parts: the events a command can emit are legal and pending under its STATUS, reset meets the invariant,
and what it takes of a body to keep it (10_state.md R14 to R27; 30_encoding.md R64). -/

namespace Sys2Proof.Proofs

open Sys2Proof Sys2Proof.Machine Sys2Proof.Laws

/-! ### Legal events under the status of a running command -/

/-- What the invariant says of an event (R64, R100, R110, R121). -/
def LegalEvent : Event → Prop
  | .rd f a => f.addr7 = 0x50 ∧ (f.n = 1 ∨ f.n = 32) ∧ ∀ bytes, a = .ok bytes → bytes.length ≤ f.n
  | .wr f _ => f.addr7 = 0x50 ∧ (f.data.length = 1 ∨ f.data.length = 16)
  | .settle ms => 10 ≤ ms
  | .backup _ bytes _ => bytes.length % 128 = 0

/-- A legal event that was pending under the STATUS of `s`. -/
structure LegalEntry (s : State) (e : TraceEntry) : Prop where
  status : e.status = s.status
  event : LegalEvent e.event

/-- Entries that are all legal under the STATUS of `s`. -/
def LegalEntries (s : State) (es : List TraceEntry) : Prop := ∀ e ∈ es, LegalEntry s e

@[simp] theorem legalEntries_nil (s : State) : LegalEntries s [] := fun _ h => absurd h (by simp)

@[simp] theorem legalEntries_cons {s : State} {e : TraceEntry} {es : List TraceEntry} :
    LegalEntries s (e :: es) ↔ LegalEntry s e ∧ LegalEntries s es := List.forall_mem_cons

@[simp] theorem legalEntries_append {s : State} {es es' : List TraceEntry} :
    LegalEntries s (es ++ es') ↔ LegalEntries s es ∧ LegalEntries s es' := List.forall_mem_append

theorem LegalEntries.congr {s t : State} {es : List TraceEntry} (h : LegalEntries t es) (hs : t.status = s.status) :
    LegalEntries s es := fun e he => ⟨(h e he).status.trans hs, (h e he).event⟩

theorem legalEntry_rd {s u : State} {bus : BusId} {reg : Byte} {n : Nat} {a : BusAnswer} (hu : u.status = s.status)
    (hn : n = 1 ∨ n = 32) (ha : ∀ b, a = .ok b → b.length ≤ n) : LegalEntry s (entryAt u (.rd (readFrame bus reg n) a)) :=
  ⟨hu, rfl, hn, ha⟩

theorem legalEntry_wr {s u : State} {bus : BusId} {reg : Byte} {data : List Byte} {a : WriteAnswer} (hu : u.status = s.status)
    (hd : data.length = 1 ∨ data.length = 16) : LegalEntry s (entryAt u (.wr (writeFrame bus reg data) a)) :=
  ⟨hu, rfl, hd⟩

theorem legalEntry_settle {s u : State} (hu : u.status = s.status) : LegalEntry s (entryAt u (.settle 10)) := ⟨hu, Nat.le_refl 10⟩

theorem legalEntries_held (s : State) : LegalEntries s (heldEntries s) := by
  rcases heldEntries_cases s with h | ⟨-, h⟩ <;> rw [h]
  · exact legalEntries_nil s
  · simpa using legalEntry_settle rfl

theorem legalEntries_chunks {bus : BusId} {s : State} {n : Nat} {rs : List TraceEntry} (h : ChunkReads bus s n rs) :
    LegalEntries s rs := by
  intro e he
  obtain ⟨reg, a, rfl, -, ha⟩ := h.2 e he
  exact legalEntry_rd rfl (.inr rfl) ha

theorem legalEntries_doc {bus : BusId} {s : State} {cs : List TraceEntry} (h : DocReads bus s cs) : LegalEntries s cs := by
  obtain ⟨held, rs, rfl, hh, hc⟩ := h
  refine legalEntries_append.mpr ⟨?_, legalEntries_chunks hc⟩
  rcases hh with rfl | ⟨-, rfl⟩
  · exact legalEntries_nil s
  · simpa using legalEntry_settle rfl

theorem legalEntries_thenDoc {bus : BusId} {s : State} {es : List TraceEntry} (h : ThenDoc bus s [] es) : LegalEntries s es := by
  obtain ⟨cs, rfl, hc⟩ := h
  exact legalEntries_doc hc

theorem legalEntries_discover {s : State} {es : List TraceEntry} (h : DiscoverEvents s es) : LegalEntries s es := by
  obtain rfl | ⟨as, ha, rfl⟩ := h
  · exact legalEntries_nil s
  refine legalEntries_append.mpr ⟨legalEntries_held s, fun e he => ?_⟩
  rw [← List.map_uncurry_zip_eq_zipWith] at he
  obtain ⟨⟨b, a⟩, hm, rfl⟩ := List.mem_map.mp he
  exact legalEntry_rd rfl (.inl rfl) fun x hx => ha x (hx ▸ (List.of_mem_zip hm).2)

/-- A page that lies within the document is 16 bytes long (R107). -/
theorem page_length {s : State} {p : Nat} (h : 16 * p + 16 ≤ s.dlen) : (page (docBytes s) p).length = 16 := by
  rw [page_docBytes h]
  exact load_length ..

theorem legalEntry_page {bus : BusId} {s u : State} {p : Nat} {a : WriteAnswer} (hu : u.status = s.status)
    (h : 16 * p + 16 ≤ u.dlen) : LegalEntry s (pageEntry bus u p a) := ⟨hu, rfl, .inr (page_length h)⟩

/-- The pages, and the frames that read them back (R124). -/
theorem legalEntries_afterBackup {bus : BusId} {s : State} {es : List TraceEntry} (h : AfterBackup bus s (s.dlen / 16) es) :
    LegalEntries s es := by
  obtain ⟨m, tail, rfl, hm, htail⟩ := h
  refine legalEntries_append.mpr ⟨fun e he => ?_, ?_⟩
  · obtain ⟨p, hp, rfl | rfl⟩ := pageEntries_isWrite he
    · exact legalEntry_page rfl (by show 16 * p + 16 ≤ s.dlen; omega)
    · exact legalEntry_settle rfl
  · rcases htail with rfl | ⟨hlt, a, rfl⟩ | ⟨-, u, hu, -, -, -, hc⟩
    · exact legalEntries_nil s
    · exact legalEntries_cons.mpr ⟨legalEntry_page rfl (by show 16 * m + 16 ≤ s.dlen; omega), legalEntries_nil s⟩
    · exact (legalEntries_chunks hc).congr hu

theorem legalEntries_write {bus : BusId} {s : State} {es : List TraceEntry} (h : WriteEvents bus s es) : LegalEntries s es := by
  obtain ⟨cs, tail, rfl, hc, htail⟩ := h
  have hdoc : LegalEntries s cs := (legalEntries_doc hc).congr rfl
  rcases htail with rfl | ⟨bytes, a, more, rfl, hb, hmore⟩
  · simpa using hdoc
  refine legalEntries_append.mpr ⟨hdoc, legalEntries_cons.mpr ⟨⟨rfl, hb⟩, ?_⟩⟩
  rcases hmore with rfl | ⟨-, h⟩
  · exact legalEntries_nil s
  · exact legalEntries_afterBackup h

theorem legalEntries_pokeFull {bus : BusId} {s : State} {off : Nat} {v : Byte} {es : List TraceEntry}
    (h : PokeFull bus s off v es) : LegalEntries s es := by
  obtain ⟨w, a, rfl, ha⟩ := h
  simpa using ⟨legalEntry_wr rfl (.inl rfl), legalEntry_settle rfl, legalEntry_rd rfl (.inl rfl) ha⟩

theorem legalEntries_pokePart {bus : BusId} {s : State} {off : Nat} {v : Byte} {es : List TraceEntry}
    (h : PokePart bus s off v es) : LegalEntries s es := by
  obtain rfl | ⟨w, rfl | rfl⟩ := h
  · exact legalEntries_nil s
  · simpa using legalEntry_wr rfl (.inl rfl)
  · simpa using ⟨legalEntry_wr rfl (.inl rfl), legalEntry_settle rfl⟩

theorem legalEntries_probe {bus : BusId} {s : State} {off : Nat} {es : List TraceEntry} (h : ProbeEvents bus s off es) :
    LegalEntries s es := by
  obtain ⟨v, v', h | ⟨x, y, rfl, hx, hy⟩⟩ := h
  · exact legalEntries_pokePart h
  · exact legalEntries_append.mpr ⟨legalEntries_pokeFull hx, hy.elim legalEntries_pokePart legalEntries_pokeFull⟩

theorem legalEntries_test {bus : BusId} {s : State} {es : List TraceEntry} (h : TestEvents bus s es) : LegalEntries s es := by
  obtain ⟨cs, tail, rfl, hc, htail⟩ := h
  rcases htail with rfl | ⟨bytes, a, more, rfl, hb, hmore⟩
  · simpa using legalEntries_doc hc
  refine legalEntries_append.mpr ⟨legalEntries_doc hc, legalEntries_cons.mpr ⟨⟨rfl, hb⟩, ?_⟩⟩
  rcases hmore with rfl | ⟨-, cs', pk, rfl, hc', hpk⟩
  · exact legalEntries_nil s
  refine legalEntries_append.mpr ⟨legalEntries_chunks hc', ?_⟩
  rcases hpk with rfl | ⟨off, -, hp⟩
  · exact legalEntries_nil s
  · exact legalEntries_probe hp

/-! ### The parts of the invariant -/

/-- The part of the invariant about the buffers, the lengths, the page numbers and DIFF (R20, R21, R23, R25). -/
structure Kept (s : State) : Prop where
  doc : s.doc.wf
  dlen : s.dlen ≤ 32768
  dev : DevForm s
  pages : s.pageI ≤ s.pageN ∧ s.pageN ≤ 2048
  diff : s.diff.length ≤ 32768

/-- The part of the invariant about STATUS, ERR and RVAL (R14, R15, R18). -/
structure Agree (s : State) : Prop where
  latched : s.status.busy = true → s.cmd.isSome = true
  busyNotDone : ¬ (s.status.busy = true ∧ s.status.done = true)
  okNotFail : ¬ (s.status.ok = true ∧ s.status.fail = true)
  onlyWhenDone : s.status.done = false → s.status.ok = false ∧ s.status.fail = false ∧ s.err = .none
  okHasNoReason : s.status.ok = true → s.err = .none
  rvalCleared : s.rvalid = false → s.rval = 0

/-- The sizes of the staging buffers (R27). -/
def Staged (s : State) : Prop := s.chbuf.length = 32 ∧ s.chn ≤ 32 ∧ s.pgbuf.length = 16

/-- Every event of the trace is legal (R64, R100). -/
def LegalTrace (s : State) : Prop := ∀ e ∈ eventsOf s, LegalEvent e

theorem inv_iff (s : State) : Inv s ↔ Kept s ∧ Agree s ∧ Staged s ∧ LegalTrace s := by
  constructor
  · intro h
    exact ⟨⟨h.docForm, h.dlenRange, ⟨h.devForm, h.devlenRange.1, h.devlenRange.2, h.devListed⟩, h.pages, h.diffRange⟩,
      ⟨h.latched, h.busyNotDone, h.okNotFail, h.onlyWhenDone, h.okHasNoReason, h.rvalCleared⟩, h.staging,
      fun e he => by cases e <;> exact h.frames _ he⟩
  · rintro ⟨hk, ha, hs, hl⟩
    exact ⟨hk.doc, hk.dev.form, hk.dlen, ⟨hk.dev.range, hk.dev.blocks⟩, hk.dev.listed, hk.pages, hk.diff, ha.latched, ha.busyNotDone,
      ha.okNotFail, ha.onlyWhenDone, ha.okHasNoReason, ha.rvalCleared, hs, fun e he => by cases e <;> exact hl _ he⟩

theorem LegalTrace.append {s t : State} {es : List TraceEntry} (h : LegalTrace s) (ht : t.trace = s.trace ++ es)
    {u : State} (hes : LegalEntries u es) : LegalTrace t := by
  intro e he
  rw [eventsOf, ht, List.map_append, List.mem_append] at he
  rcases he with he | he
  · exact h e he
  · obtain ⟨x, hx, rfl⟩ := List.mem_map.mp he
    exact (hes x hx).event

/-- The registers that `Kept` speaks of. -/
def buffers (s : State) : Memory × Nat × Memory × Nat × Nat × Nat × List DiffEntry :=
  (s.doc, s.dlen, s.dev, s.devlen, s.pageI, s.pageN, s.diff)

/-- The registers that `Agree` speaks of. -/
def results (s : State) : Status × Option (BitVec 32) × ErrCode × Bool × BitVec 16 := (s.status, s.cmd, s.err, s.rvalid, s.rval)

theorem Kept.sameBuffers {s t : State} (h : Kept s) (he : buffers t = buffers s) : Kept t := by
  simp only [buffers, Prod.mk.injEq] at he
  obtain ⟨h1, h2, h3, h4, h5, h6, h7⟩ := he
  exact ⟨by rw [h1]; exact h.doc, by rw [h2]; exact h.dlen, devForm_congr h.dev h3 h4, by rw [h5, h6]; exact h.pages,
    by rw [h7]; exact h.diff⟩

/-- Another document in DEV, of the right form. -/
theorem Kept.withDev {s t : State} (h : Kept s) (hd : DevForm t)
    (he : buffers t = buffers { s with dev := t.dev, devlen := t.devlen }) : Kept t :=
  Kept.sameBuffers (s := { s with dev := t.dev, devlen := t.devlen }) ⟨h.doc, h.dlen, devForm_congr hd rfl rfl, h.pages, h.diff⟩ he

theorem Agree.sameResult {s t : State} (h : Agree s) (he : results t = results s) : Agree t := by
  simp only [results, Prod.mk.injEq] at he
  obtain ⟨h1, h2, h3, h4, h5⟩ := he
  obtain ⟨k1, k2, k3, k4, k5, k6⟩ := h
  exact ⟨by rwa [h1, h2], by rwa [h1], by rwa [h1], by rwa [h1, h3], by rwa [h1, h3], by rwa [h4, h5]⟩

/-! ### Reset -/

/-- `t` is the state after reset number `k` but for the platform, the inputs and the recorders. -/
abbrev FromReset (k : Nat) (t : State) : Prop :=
  t = { State.afterReset k with
    platform := t.platform, busIn := t.busIn, backupIn := t.backupIn, hostIn := t.hostIn, trace := t.trace, draws := t.draws }

theorem fromReset_resetBlock (s : State) : FromReset (s.resets + 1) (resetBlock s) := rfl

theorem FromReset.kept {k : Nat} {t : State} (h : FromReset k t) : Kept t := by
  rw [h]
  exact ⟨wf_nil, Nat.zero_le _, ⟨wf_nil, Nat.zero_le _, rfl, rfl⟩, ⟨Nat.le_refl _, Nat.zero_le _⟩, Nat.zero_le _⟩

theorem FromReset.agree {k : Nat} {t : State} (h : FromReset k t) : Agree t := by
  rw [h]
  exact ⟨(nomatch ·), (nomatch ·.1), (nomatch ·.1), fun _ => ⟨rfl, rfl, rfl⟩, (nomatch ·), fun _ => rfl⟩

theorem FromReset.staged {k : Nat} {t : State} (h : FromReset k t) : Staged t := by
  rw [h]
  refine ⟨?_, Nat.le_of_lt_succ (Config.resetChn k).isLt, ?_⟩ <;> simp [State.afterReset]

/-- Reset leads to the invariant, if the trace it leaves is legal (R29, R200). -/
theorem FromReset.inv {k : Nat} {t : State} (h : FromReset k t) (hl : LegalTrace t) : Inv t :=
  (inv_iff t).mpr ⟨h.kept, h.agree, h.staged, hl⟩

/-- Settles O54: every register has its reset value, and the trace is empty. -/
theorem invariantAtReset : Obligations.InvariantAtReset :=
  FromReset.inv (k := 0) rfl fun _ h => (nomatch h)

theorem staged_forgetStaging (s : State) : Staged (forgetStaging s) := by
  refine ⟨?_, Nat.le_of_lt_succ (Config.freeChn s.draws).isLt, ?_⟩ <;> simp

/-! ### The ends of the commands -/

/-- How every command ends: DONE, an outcome that is one of OK and FAIL at most, no reason beside OK, and RVAL 0 without RVALID
(R14, R15, R18). -/
structure EndedWell (t : State) : Prop where
  idle : t.status.busy = false
  done : t.status.done = true
  okNotFail : ¬ (t.status.ok = true ∧ t.status.fail = true)
  okHasNoReason : t.status.ok = true → t.err = .none
  rvalCleared : t.rvalid = false → t.rval = 0

theorem EndedWell.agree {t : State} (h : EndedWell t) : Agree t := by
  obtain ⟨h1, h2, h3, h4, h5⟩ := h
  exact ⟨fun h => by simp [h1] at h, fun h => by simp [h1] at h, h3, fun h => by simp [h2] at h, h4, h5⟩

/-- An ordinary result. -/
theorem endedWell_result {t : State} {ok : Bool} {e : ErrCode} {m : Msg} (h : EndsIn t ok false e m) (he : ok = true → e = .none)
    (hr : t.rvalid = false → t.rval = 0) : EndedWell t := by
  obtain ⟨h1, h2, -⟩ := h
  exact ⟨by rw [h1], by rw [h1], by simp [h1], by rw [h1, h2]; exact he, hr⟩

/-- A failure. -/
theorem endedWell_failure {t : State} {e : ErrCode} {m : Msg} (h : EndsIn t false true e m)
    (hr : t.rvalid = false → t.rval = 0) : EndedWell t := by
  obtain ⟨h1, -, -⟩ := h
  exact ⟨by rw [h1], by rw [h1], by simp [h1], by simp [h1], hr⟩

theorem endedWell_readFails {s t : State} (h : ReadFails s t) (h0 : s.rval = 0) : EndedWell t := by
  obtain ⟨hend, hv, -⟩ := h
  rcases hend with hend | hend <;> exact endedWell_failure hend fun _ => hv.trans h0

/-! ### What the bodies keep -/

/-- A body that started at `s` adds legal entries only, and when it comes to its end from registers that meet the invariant, with RVAL
cleared, they meet it again. -/
def BodyKeeps (s t : State) : Prop :=
  BodyRuns s t (fun t es => (Kept s → s.rval = 0 → Kept t ∧ EndedWell t) ∧ LegalEntries s es) (LegalEntries s)

/-- A body without events. -/
theorem bodyKeeps_silent {s t : State}
    (hs : (t.trace, t.resetIn, t.settleDue, t.resets) = (s.trace, s.resetIn, s.settleDue, s.resets))
    (h : Kept s → s.rval = 0 → Kept t ∧ EndedWell t) : BodyKeeps s t := by
  simp only [Prod.mk.injEq] at hs
  obtain ⟨h1, h2, h3, h4⟩ := hs
  exact bodyRuns_end (Emitted.refl s) h1 h2 h3 h4 ⟨h, legalEntries_nil s⟩

theorem Validated.bodyKeeps {s t : State} (h : Validated s t) : BodyKeeps s t := by
  obtain ⟨hf, ⟨ok, e, hend, hok⟩, hv⟩ := h
  refine bodyKeeps_silent (by rw [hf]) fun hk h0 => ⟨?_, ?_⟩
  · exact hk.sameBuffers (by rw [hf]; rfl)
  · refine endedWell_result hend hok fun hr => ?_
    rcases hv with hv | hv
    · rw [hr] at hv; cases hv
    · rw [hv, h0]

/-- A store of one byte to a valid position of a buffer. -/
theorem kept_storeSelected {bsel : BufSel} {s : State} {a : Nat} {v : Byte} (h : Kept s) (ha : a < (selected bsel s).length) :
    Kept (storeSelected bsel a v s) := by
  cases bsel with
  | doc =>
    have hd : a < s.dlen := by simpa [selected] using ha
    have := h.dlen
    exact ⟨storeDoc_wf h.doc (by simp; omega), h.dlen, devForm_congr h.dev rfl rfl, h.pages, h.diff⟩
  | dev =>
    have hd : a < s.devlen := by simpa [selected] using ha
    have := h.dev.range
    exact ⟨h.doc, h.dlen, ⟨storeDev_wf h.dev.form (by simp; omega), h.dev.range, h.dev.blocks, store_single_keys h.dev.listed hd⟩,
      h.pages, h.diff⟩

end Sys2Proof.Proofs
end

section
/-! SUPPORT. Every instruction, every move of the host and so every step keeps the invariant. -/

namespace Sys2Proof.Proofs

open Sys2Proof Sys2Proof.Machine Sys2Proof.Laws

/-! ### Every body keeps the invariant -/

theorem selected_accumulate (bsel : BufSel) (S : List Byte) (s : State) : selected bsel (accumulate S s) = selected bsel s := by
  cases bsel <;> rfl

theorem rcsumBody_keeps (blk : Byte) (bsel : BufSel) (s : State) : BodyKeeps s (rcsumBody blk bsel s) := by
  rcases rcsumBody_cases blk bsel s with h | ⟨hlen, S, c, v, h⟩
  · rw [h]
    exact bodyKeeps_silent rfl fun hk h0 => ⟨hk.sameBuffers rfl, endedWell_failure ⟨rfl, rfl, rfl⟩ fun _ => h0⟩
  · rw [h]
    refine bodyKeeps_silent (by cases bsel <;> simp [storeSelected]) fun hk h0 => ⟨?_, ?_⟩
    · have h1 := kept_storeSelected (bsel := bsel) (a := 128 * blk.toNat + 127) (v := 0) hk (by omega)
      have h2 : Kept (accumulate S (storeSelected bsel (128 * blk.toNat + 127) 0 s)) :=
        h1.sameBuffers rfl
      have hl : (selected bsel (accumulate S (storeSelected bsel (128 * blk.toNat + 127) 0 s))).length =
          (selected bsel s).length := by
        rw [selected_accumulate, selected_storeSelected, List.length_set]
      exact (kept_storeSelected (a := 128 * blk.toNat + 127) (v := c) h2 (by omega)).sameBuffers rfl
    · exact endedWell_result ⟨rfl, rfl, rfl⟩ (fun _ => rfl) fun hr => by cases hr

theorem discoverBody_keeps (s : State) : BodyKeeps s (discoverBody s) := by
  refine bodyRuns_mono (discoverBody_runs s) (fun es ⟨h1, h2, h3⟩ => ⟨fun hk h0 => ⟨?_, ?_⟩, legalEntries_discover h1⟩)
    fun es h => legalEntries_discover h
  · rw [h2]
    exact hk.sameBuffers rfl
  · exact endedWell_result h3 (fun _ => rfl) fun _ => by rw [h2]; exact h0

theorem rddocBody_keeps (bus : BusId) (s : State) : BodyKeeps s (rddocBody bus s) := by
  refine bodyRuns_mono (rddocBody_runs bus s) (fun es ⟨h1, h2, _, h4, h5⟩ => ⟨fun hk h0 => ⟨?_, ?_⟩, legalEntries_thenDoc h1⟩)
    fun es h => legalEntries_thenDoc h
  · exact hk.withDev h4 (by rw [h2]; rfl)
  · rcases h5 with ⟨hend, hv⟩ | hfail
    · exact endedWell_result hend (fun _ => rfl) fun hr => by rw [hv] at hr; cases hr
    · exact endedWell_readFails hfail h0

theorem cmpdocBody_keeps (bus : BusId) (s : State) : BodyKeeps s (cmpdocBody bus s) := by
  refine bodyRuns_mono (cmpdocBody_runs bus s) (fun es ⟨h1, h2, _, h4, h5, h6⟩ => ⟨fun hk h0 => ⟨?_, ?_⟩, legalEntries_thenDoc h1⟩)
    fun es h => legalEntries_thenDoc h
  · exact ⟨by rw [h2]; exact hk.doc, by rw [h2]; exact hk.dlen, h4, by rw [h2]; exact hk.pages, h5.trans hk.dlen⟩
  · rcases h6 with ⟨hend, hv, -⟩ | hfail
    · rcases hend with hend | hend | hend
      · exact endedWell_result hend (fun _ => rfl) fun _ => hv.trans h0
      · exact endedWell_result hend (fun h => by cases h) fun _ => hv.trans h0
      · exact endedWell_result hend (fun h => by cases h) fun _ => hv.trans h0
    · exact endedWell_readFails hfail h0

theorem endedWell_write {s t : State} (h : WriteEnds s t) (h0 : s.rval = 0) : EndedWell t := by
  obtain ⟨hend, hv, -⟩ := h
  have hr : t.rvalid = false → t.rval = 0 := fun _ => hv.trans h0
  rcases hend with ⟨hend, -⟩ | hend | hend | hend | ⟨hend, -⟩
  · exact endedWell_result hend (fun _ => rfl) hr
  all_goals exact endedWell_failure hend hr

theorem wrdocBody_keeps (bus : BusId) (s : State) : BodyKeeps s (wrdocBody bus s) := by
  refine bodyRuns_mono (wrdocBody_runs bus s) (fun es h => ⟨fun hk h0 => ⟨?_, endedWell_write h.ends h0⟩, legalEntries_write h.events⟩)
    fun es h => legalEntries_write h
  have hf := h.frame
  obtain ⟨hi, hn⟩ := h.pages
  have := hk.dlen
  exact ⟨by rw [hf]; exact hk.doc, by rw [hf]; exact hk.dlen, h.dev hk.dev, ⟨hi, by omega⟩, by rw [hf]; exact hk.diff⟩

theorem endedWell_test {s t : State} (h : TestEnds s t) (h0 : s.rval = 0) : EndedWell t := by
  rcases h with ⟨hend, hv⟩ | ⟨hend, hv, -⟩
  · have hr : t.rvalid = false → t.rval = 0 := fun hr => by rw [hv] at hr; cases hr
    rcases hend with hend | hend | hend
    · exact endedWell_result hend (fun _ => rfl) hr
    · exact endedWell_result hend (fun _ => rfl) hr
    · exact endedWell_failure hend hr
  · have hr : t.rvalid = false → t.rval = 0 := fun _ => hv.trans h0
    rcases hend with hend | hend | hend | hend
    · exact endedWell_result hend (fun h => by cases h) hr
    all_goals exact endedWell_failure hend hr

theorem tstwrBody_keeps (bus : BusId) (s : State) : BodyKeeps s (tstwrBody bus s) := by
  refine bodyRuns_mono (tstwrBody_runs bus s) (fun es h => ⟨fun hk h0 => ⟨?_, endedWell_test h.ends h0⟩, legalEntries_test h.events⟩)
    fun es h => legalEntries_test h
  have hf := h.frame
  exact hk.withDev h.dev (by rw [hf]; rfl)

theorem commandBody_keeps {i : Instr} (hi : isCommand i = true) (s : State) : BodyKeeps s (commandBody i s) := by
  cases i with
  | vcsum blk bsel => exact (vcsumBody_validated blk bsel s).bodyKeeps
  | rcsum blk bsel => exact rcsumBody_keeps blk bsel s
  | vstruct bsel => exact (vstructBody_validated bsel s).bodyKeeps
  | fsafe bsel => exact (fsafeBody_validated bsel s).bodyKeeps
  | discover => exact discoverBody_keeps s
  | rddoc bus => exact rddocBody_keeps bus s
  | wrdoc bus => exact wrdocBody_keeps bus s
  | tstwr bus => exact tstwrBody_keeps bus s
  | cmpdoc bus => exact cmpdocBody_keeps bus s
  | fRd bus reg n => cases hi
  | fWr bus reg data => cases hi

/-! ### Every instruction keeps the invariant -/

theorem Kept.startCommand {s : State} (h : Kept s) : Kept (startCommand s) := h.sameBuffers rfl

/-- A body that keeps the registers leads to the invariant once the staging buffers are forgotten: at its end, and also when reset has
struck under it (R27, R201). -/
theorem inv_forgetStaging {s u : State} (hb : BodyKeeps s u) (hk : Kept s) (hl : LegalTrace s) (h0 : s.rval = 0) :
    Inv (forgetStaging u) := by
  obtain ⟨es, ⟨hem, hend, hes⟩ | ⟨hab, hes⟩⟩ := hb
  · obtain ⟨hk', hw⟩ := hend hk h0
    exact (inv_iff _).mpr ⟨hk'.sameBuffers rfl, hw.agree.sameResult rfl, staged_forgetStaging u,
      hl.append (t := forgetStaging u) hem.trace hes⟩
  · obtain ⟨v, rfl, hv, -⟩ := hab.struck
    have hr := fromReset_resetBlock v
    exact (inv_iff _).mpr ⟨hr.kept.sameBuffers rfl, hr.agree.sameResult rfl, staged_forgetStaging _,
      hl.append (t := forgetStaging (resetBlock v)) hv hes⟩

/-- A command needs nothing of the STATUS it starts from (R30). -/
theorem inv_exec_command {i : Instr} {s t : State} (hi : isCommand i = true) (h : exec i s = .next t) (hk : Kept s)
    (hl : LegalTrace s) : Inv t := by
  rw [exec_command hi h]
  exact inv_forgetStaging (commandBody_keeps hi _) hk.startCommand hl rfl

/-- From the run of a frame by itself to the invariant (R64, R201). -/
theorem inv_frame {α : Type} {s : State} {r : Res α} {P : α → State → List TraceEntry → Prop} {Q : List TraceEntry → Prop}
    (h : RunsFrom s r P Q) (hl : LegalTrace s) (hq : ∀ es, Q es → LegalEntries s es)
    (hp : ∀ a t es, P a t es → LegalEntries s es ∧ Kept t ∧ Agree t ∧ Staged t) : Inv (frameState r) := by
  obtain ⟨es, ⟨hem, a, ha⟩ | ⟨hab, hes⟩⟩ := frameState_runs h
  · obtain ⟨h1, h2, h3, h4⟩ := hp a _ es ha
    exact (inv_iff _).mpr ⟨h2, h3, h4, hl.append hem.trace h1⟩
  · obtain ⟨v, hv, htr, -⟩ := hab.struck
    rw [hv]
    exact (fromReset_resetBlock v).inv (hl.append (t := resetBlock v) htr (hq es hes))

theorem legalEntries_heldOrNone {s : State} {es : List TraceEntry} (h : es = [] ∨ es = heldEntries s) : LegalEntries s es := by
  rcases h with rfl | rfl
  · exact legalEntries_nil s
  · exact legalEntries_held s

theorem inv_execFRd {bus : BusId} {reg : Byte} {n : Nat} {s t : State} (hs : Inv s) (h : execFRd bus reg n s = .next t) : Inv t := by
  obtain ⟨hk, ha, hst, hl⟩ := (inv_iff s).mp hs
  obtain ⟨hn, rfl⟩ := execFRd_next h
  have hn' : n = 1 ∨ n = 32 := by simpa [legalReadLength, Config.RD_CHUNK] using hn
  refine inv_frame (busRead_runs_held bus reg n s) hl (fun es => legalEntries_heldOrNone) ?_
  rintro a t es ⟨h1, h2, h3, rfl⟩
  obtain ⟨hc, hn, hp⟩ := hst
  obtain ⟨hc', hn'⟩ := h2 (by omega) hc hn
  refine ⟨legalEntries_append.mpr ⟨legalEntries_held s, legalEntries_cons.mpr ⟨legalEntry_rd rfl ‹_› h3, legalEntries_nil s⟩⟩,
    ?_, ?_, hc', hn', by rw [h1]; exact hp⟩
  · rw [h1]; exact hk.sameBuffers rfl
  · rw [h1]; exact ha.sameResult rfl

theorem inv_execFWr {bus : BusId} {reg : Byte} {data : List Byte} {s t : State} (hs : Inv s)
    (h : execFWr bus reg data s = .next t) : Inv t := by
  obtain ⟨hk, ha, hst, hl⟩ := (inv_iff s).mp hs
  obtain ⟨hn, rfl⟩ := execFWr_next h
  have hn' : data.length = 1 ∨ data.length = 16 := by simpa [legalWriteLength, Config.WR_PAGE] using hn
  refine inv_frame (busWrite_runs_held bus reg data s) hl (fun es => legalEntries_heldOrNone) ?_
  rintro a t es ⟨h1, rfl⟩
  refine ⟨legalEntries_append.mpr ⟨legalEntries_held s, legalEntries_cons.mpr ⟨legalEntry_wr rfl hn', legalEntries_nil s⟩⟩, ?_, ?_, ?_⟩
  · rw [h1]; exact hk.sameBuffers rfl
  · rw [h1]; exact ha.sameResult rfl
  · rw [h1]; exact hst

/-- Every instruction keeps the invariant. -/
theorem inv_exec {i : Instr} {s t : State} (hs : Inv s) (h : exec i s = .next t) : Inv t := by
  obtain ⟨hk, -, -, hl⟩ := (inv_iff s).mp hs
  by_cases hi : isCommand i = true
  · exact inv_exec_command hi h hk hl
  · cases i with
    | fRd bus reg n => exact inv_execFRd hs h
    | fWr bus reg data => exact inv_execFWr hs h
    | _ => exact absurd rfl hi

/-! ### Every move of the host keeps the invariant -/

theorem kept_ownClears {s : State} (h : Kept s) (i : Instr) : Kept (ownClears i s) := by
  cases i with
  | wrdoc bus => exact ⟨h.doc, h.dlen, devForm_congr h.dev rfl rfl, ⟨Nat.le_refl _, Nat.zero_le _⟩, h.diff⟩
  | cmpdoc bus => exact ⟨h.doc, h.dlen, devForm_congr h.dev rfl rfl, h.pages, Nat.zero_le _⟩
  | _ => exact h.sameBuffers rfl

/-- A word that encodes no command ends as a failure, whatever STATUS was (R183). -/
theorem inv_illegalCommand {s : State} (hk : Kept s) (hst : Staged s) (hl : LegalTrace s) : Inv (illegalCommand s) :=
  (inv_iff _).mpr ⟨hk.sameBuffers rfl, (endedWell_failure (t := illegalCommand s) ⟨rfl, rfl, rfl⟩ fun _ => rfl).agree, hst, hl⟩

/-- A write of CMD starts a command, ends as IllegalCommand or is ignored (R13, R183). -/
theorem inv_acceptCmd {s : State} (hs : Inv s) (w : BitVec 32) : Inv (acceptCmd w s) := by
  obtain ⟨hk, -, hst, hl⟩ := (inv_iff s).mp hs
  cases hb : s.status.busy with
  | true => rw [acceptCmd_busy hb]; exact hs
  | false =>
    cases hd : decode (.word w) with
    | ok i =>
      rw [acceptCmd_of_ok hb hd]
      refine (inv_iff _).mpr ⟨(kept_ownClears hk.startCommand i).sameBuffers rfl, ?_, ?_, ?_⟩
      · constructor <;> simp [statusStarted]
      · simpa [Staged] using hst
      · simpa [LegalTrace, eventsOf] using hl
    | error e =>
      rw [acceptCmd_of_error hb hd]
      exact inv_illegalCommand hk hst hl

/-- The same registers with other moves of the host or another reset to come. -/
theorem inv_sameRegisters {s t : State} (hs : Inv s)
    (h : t = { s with hostIn := t.hostIn, resetIn := t.resetIn, frameReq := t.frameReq }) : Inv t := by
  rw [h]
  obtain ⟨hk, ha, hst, hl⟩ := (inv_iff s).mp hs
  exact (inv_iff _).mpr ⟨hk.sameBuffers rfl, ha.sameResult rfl, hst, hl⟩

theorem inv_hostWriteDoc {o : Nat} {bs : List Byte} {s t : State} (hs : Inv s) (h : hostWriteDoc o bs s = .next t) : Inv t := by
  obtain ⟨hk, ha, hst, hl⟩ := (inv_iff s).mp hs
  unfold hostWriteDoc at h
  split at h
  · cases h
  split at h
  · rename_i hcap
    cases h
    exact (inv_iff _).mpr ⟨⟨storeDoc_wf hk.doc hcap, hk.dlen, devForm_congr hk.dev rfl rfl, hk.pages, hk.diff⟩,
      ha.sameResult rfl, hst, hl⟩
  · cases h

theorem inv_hostWriteDlen {n : Nat} {s t : State} (hs : Inv s) (h : hostWriteDlen n s = .next t) : Inv t := by
  obtain ⟨hk, ha, hst, hl⟩ := (inv_iff s).mp hs
  unfold hostWriteDlen at h
  split at h
  · cases h
  split at h
  · rename_i hcap
    cases h
    exact (inv_iff _).mpr ⟨⟨hk.doc, hcap, devForm_congr hk.dev rfl rfl, hk.pages, hk.diff⟩, ha.sameResult rfl, hst, hl⟩
  · cases h

theorem inv_resetBlock {s : State} (hs : Inv s) : Inv (resetBlock s) :=
  (fromReset_resetBlock s).inv ((inv_iff s).mp hs).2.2.2

theorem inv_hostAct {a : HostAction} {s t : State} (hs : Inv s) (h : hostAct a s = .next t) : Inv t := by
  cases a with
  | writeCmd w => cases h; exact inv_acceptCmd hs w
  | writeDoc o bs => exact inv_hostWriteDoc hs h
  | writeDlen n => exact inv_hostWriteDlen hs h
  | read r => cases h; exact hs
  | await => cases h; exact hs
  | reset => cases h; exact inv_resetBlock hs
  | resetAfter k =>
    cases h
    split
    · exact inv_sameRegisters hs rfl
    · exact inv_resetBlock hs

/-! ### Every step keeps the invariant -/

theorem inv_runRecord {r : List Byte} {s t : State} (hs : Inv s) (h : runRecord r s = .next t) : Inv t := by
  unfold runRecord at h
  split at h
  · exact inv_exec hs h
  · cases h

/-- The latched word has been taken, so STATUS may still say BUSY; the start of the command sets it anew (R30). -/
theorem inv_runWord {w : BitVec 32} {s t : State} (hk : Kept s) (hst : Staged s) (hl : LegalTrace s) (h : runWord w s = .next t) :
    Inv t := by
  unfold runWord at h
  split at h
  · rename_i i hd
    exact inv_exec_command (isCommand_of_decode_word hd) h hk hl
  · cases h
    exact inv_illegalCommand hk hst hl

/-- Settles O55: a frame, a command or a move of the host, each of which keeps the invariant. -/
theorem stepKeepsTheInvariant : Obligations.StepKeepsTheInvariant := by
  intro s t hs h
  obtain ⟨hk, -, hst, hl⟩ := (inv_iff s).mp hs
  rw [step, runNext] at h
  split at h
  · exact inv_runRecord (inv_sameRegisters hs rfl) h
  split at h
  · exact inv_runWord (s := { s with cmd := none }) (hk.sameBuffers rfl) hst hl h
  · rename_i rest _ _
    exact inv_runWord (s := { s with cmd := none, hostIn := rest }) (hk.sameBuffers rfl) hst hl h
  · exact inv_hostAct (inv_sameRegisters hs rfl) h
  · cases h; exact hs

end Sys2Proof.Proofs
end

section
/-! SUPPORT. What the host writes and reads, and how a command comes to run (10_state.md R12, R13, R20, R29 to R31). -/

namespace Sys2Proof.Proofs

open Sys2Proof Sys2Proof.Machine Sys2Proof.Laws

/-- Settles O11: what a store puts into DOC is read back, and it leaves every other byte alone. -/
theorem hostWritesOfDoc : Obligations.HostWritesOfDoc := by
  intro s o bs n
  refine ⟨fun hb => ?_, fun hb hcap => ?_, fun hb hcap => ?_, fun hb hn => ?_, fun hb hn => ?_⟩
  · simp [hostAct, hostWriteDoc, hostWriteDlen, hb]
  · refine ⟨storeDoc o bs s, ?_, rfl, fun j hj => ?_, fun a ha => ?_⟩
    · simp [hostAct, hostWriteDoc, hb, Config.DOC_CAP, hcap]
    · rw [byteAt_eq_getElem hj]
      exact read_store_inside _ s.doc hj
    · exact read_store_outside _ s.doc ha
  · simp [hostAct, hostWriteDoc, hb, Config.DOC_CAP, Nat.not_le.mpr hcap]
  · simp [hostAct, hostWriteDlen, hb, Config.DOC_CAP, hn]
  · simp [hostAct, hostWriteDlen, hb, Config.DOC_CAP, Nat.not_le.mpr hn]

/-- Settles O5: with a word latched and no move of the host before its next wait, the step runs the word. -/
theorem stepRunsTheLatchedCommand : Obligations.StepRunsTheLatchedCommand := by
  intro s w i rest hf hc hd
  have hrun : ∀ t, runWord w t = exec i t := fun t => by rw [runWord, hd]
  constructor
  · intro hh
    rw [← hrun]
    simp [step, runNext, hf, hc, hh]
  · intro hh
    rw [← hrun]
    simp [step, runNext, hf, hc, hh]

/-- Settles O8: the start clears of R30 and then those of the command itself, one case per command. -/
theorem cmdWriteStartsOrIsIgnored : Obligations.CmdWriteStartsOrIsIgnored := by
  intro w s
  refine ⟨fun hb => ?_, fun i started hb hd hs => ?_⟩
  · rw [hostAct, acceptCmd_busy hb]
  have hstart : hostAct (.writeCmd w) s = .next { ownClears i (startCommand s) with cmd := some w } := by
    rw [hostAct, acceptCmd_of_ok hb hd]
  rw [hstart]
  subst hs
  refine ⟨?_, ?_, ?_, ?_, ?_⟩
  · rintro ⟨bus, rfl⟩; rfl
  · rintro ⟨bus, rfl⟩; rfl
  · rintro ⟨bus, rfl⟩; rfl
  · rintro rfl; rfl
  · rintro (⟨bus, rfl⟩ | ⟨k, b, rfl | rfl⟩ | ⟨b, rfl | rfl⟩) <;> rfl

/-- Settles O12: the rights differ with BUSY, register by register. -/
theorem hostAccessRights : Obligations.HostAccessRights := by
  intro s r
  cases hb : s.status.busy with
  | false =>
    simp only [hostRead_idle hb]
    cases r <;> simp [idleRead, hostMayWrite, hostAct, hb]
  | true =>
    simp only [hostRead_busy hb]
    cases r <;> simp [busyRead, hostMayWrite, hostAct, hb]

/-- Settles O14: State.reset is written with the values of the table, so each holds as it stands there. -/
theorem resetStateHasTheTablesValues : Obligations.ResetStateHasTheTablesValues :=
  ⟨rfl, rfl, rfl, rfl, rfl, rfl, rfl, rfl, rfl, rfl, rfl, rfl, rfl, rfl, rfl, rfl, rfl⟩

/-- Settles O13: while BUSY = 0 from the registers themselves; WSTATE, PAGE_I and PAGE_N also while a WRDOC is started. -/
theorem hostReadsTheRegisters : Obligations.HostReadsTheRegisters := by
  intro s
  refine ⟨fun hb => ?_, fun h => ?_, fun i e => rfl⟩
  · simp only [hostRead_idle hb]
    refine ⟨?_, ?_, ?_, rfl, rfl, ?_, rfl, rfl, ?_, rfl, rfl, rfl, rfl, rfl, rfl, rfl, rfl⟩
    · intro c hc he
      rw [idleRead, he]
      fin_cases hc <;> rfl
    · intro c hc he
      rw [idleRead, he]
      fin_cases hc <;> rfl
    · intro c hc he
      rw [idleRead, he]
      fin_cases hc <;> rfl
    · rw [idleRead]
      cases s.rvalid <;> rfl
    · rw [idleRead]
      cases s.bkvalid <;> rfl
  · have hread : hostRead .wstate s = some (.num (wstateBits s.wstate).toNat) ∧
        hostRead .pageI s = some (.num s.pageI) ∧ hostRead .pageN s = some (.num s.pageN) := by
      cases hb : s.status.busy with
      | false => simp only [hostRead_idle hb]; exact ⟨rfl, rfl, rfl⟩
      | true =>
        obtain h | ⟨w, bus, hc, hd⟩ := h
        · rw [hb] at h; cases h
        · simp only [hostRead_busy hb, wrdocStarted_of hc hd]; exact ⟨rfl, rfl, rfl⟩
    obtain ⟨hw, hpages⟩ := hread
    refine ⟨fun c hc he => ?_, hpages⟩
    rw [hw, he]
    fin_cases hc <;> rfl

end Sys2Proof.Proofs
end

section
/-! SUPPORT. What a host can see of a command while an event is pending (10_state.md R14, R22, R23, R31). -/

namespace Sys2Proof.Proofs

open Sys2Proof Sys2Proof.Machine Sys2Proof.Laws

/-! ### The write frames of WRDOC -/

/-- The entries of write frames. -/
def writesOf (es : List TraceEntry) : List TraceEntry := es.filter fun e => e.event.isWrite

theorem writesOf_append (es es' : List TraceEntry) : writesOf (es ++ es') = writesOf es ++ writesOf es' := List.filter_append ..

theorem writesOf_chunks {bus : BusId} {s : State} {n : Nat} {rs : List TraceEntry} (h : ChunkReads bus s n rs) : writesOf rs = [] := by
  refine List.filter_eq_nil_iff.mpr fun e he => ?_
  obtain ⟨reg, a, rfl, -⟩ := h.2 e he
  exact Bool.false_ne_true

theorem writesOf_doc {bus : BusId} {s : State} {cs : List TraceEntry} (h : DocReads bus s cs) : writesOf cs = [] := by
  obtain ⟨held, rs, rfl, hh, hc⟩ := h
  rw [writesOf_append, writesOf_chunks hc, List.append_nil]
  obtain rfl | ⟨-, rfl⟩ := hh <;> rfl

theorem writesOf_pageEntries (bus : BusId) (s : State) (k n : Nat) :
    writesOf (pageEntries bus s k n) = (List.range' k n).map fun p => pageEntry bus s p .ok := by
  induction n generalizing k with
  | zero => rfl
  | succ n ih =>
    rw [pageEntries_succ, writesOf_append, ih, List.range'_succ]
    rfl

/-- The write frames after the backup are the pages, in ascending order, each at its own number (R124). -/
theorem writesOf_afterBackup {bus : BusId} {s : State} {n j : Nat} {es : List TraceEntry} {e : TraceEntry}
    (h : AfterBackup bus s n es) (he : (writesOf es)[j]? = some e) : ∃ a, e = pageEntry bus { s with pageN := n } j a := by
  obtain ⟨m, tail, rfl, -, htail⟩ := h
  rw [writesOf_append, writesOf_pageEntries, List.getElem?_append] at he
  simp only [List.length_map, List.length_range'] at he
  split at he
  · rename_i hj
    rw [List.getElem?_map, List.getElem?_range' hj] at he
    simp only [Option.map_some, Nat.one_mul, Nat.zero_add, Option.some.injEq] at he
    exact ⟨.ok, he.symm⟩
  · rename_i hj
    rcases htail with rfl | ⟨-, a, rfl⟩ | ⟨-, u, -, -, -, -, hc⟩
    · cases he
    · obtain ⟨rfl, rfl⟩ : j = m ∧ pageEntry bus { s with pageN := n } m a = e := by
        have he' : [pageEntry bus { s with pageN := n } m a][j - m]? = some e := he
        rw [List.getElem?_singleton] at he'
        split at he'
        · exact ⟨by omega, Option.some.inj he'⟩
        · cases he'
      exact ⟨a, rfl⟩
    · rw [writesOf_chunks hc] at he
      cases he

/-- The write frames of WRDOC are the pages, in ascending order (R124). -/
theorem writesOf_write {bus : BusId} {s : State} {j : Nat} {es : List TraceEntry} {e : TraceEntry}
    (h : WriteEvents bus s es) (he : (writesOf es)[j]? = some e) : ∃ a, e = pageEntry bus { s with pageN := s.dlen / 16 } j a := by
  obtain ⟨cs, tail, rfl, hc, htail⟩ := h
  rw [writesOf_append, writesOf_doc hc, List.nil_append] at he
  rcases htail with rfl | ⟨bytes, a, more, rfl, -, hmore⟩
  · cases he
  have he' : (writesOf more)[j]? = some e := he
  rcases hmore with rfl | ⟨-, hafter⟩
  · cases he'
  · exact writesOf_afterBackup hafter he'

/-- What a command adds to the trace is legal and was pending under STATUS = BUSY; of WRDOC it is the events of its body. -/
theorem exec_command_events {i : Instr} {s t : State} (hi : isCommand i = true) (h : exec i s = .next t) :
    ∃ es, t.trace = s.trace ++ es ∧ LegalEntries (startCommand s) es ∧
      ∀ bus, i = .wrdoc bus → WriteEvents bus (startCommand s) es := by
  rw [exec_command hi h]
  by_cases hw : ∃ bus, i = .wrdoc bus
  · obtain ⟨bus, rfl⟩ := hw
    obtain ⟨es, htr, hes⟩ := bodyRuns_trace (wrdocBody_runs bus (startCommand s)) (fun _ hp => hp.events) fun _ hq => hq
    exact ⟨es, htr, legalEntries_write hes, fun _ hb => by cases hb; exact hes⟩
  · obtain ⟨es, htr, hes⟩ := bodyRuns_trace (commandBody_keeps hi (startCommand s)) (fun _ hp => hp.2) fun _ hq => hq
    exact ⟨es, htr, hes, fun bus hb => absurd ⟨bus, hb⟩ hw⟩

/-- Settles O51: STATUS from what every body traces, and the j-th write frame of WRDOC is page j with its registers. -/
theorem progressIsVisible : Obligations.ProgressIsVisible := by
  intro i s t hi h
  obtain ⟨es, htr, hlegal, hwrite⟩ := exec_command_events hi h
  refine ⟨es, htr, fun e he => ⟨(hlegal e he).status, rfl⟩, ?_⟩
  rintro bus rfl j e he
  obtain ⟨a, rfl⟩ := writesOf_write (hwrite bus rfl) he
  exact ⟨rfl, rfl, rfl, rfl, a, rfl⟩

end Sys2Proof.Proofs
end

section
/-! SUPPORT. Which instruction writes which register when no reset strikes (10_state.md R19 to R26; 60_exceptions.md R182). -/

namespace Sys2Proof.Proofs

open Sys2Proof Sys2Proof.Machine Sys2Proof.Laws

theorem docByte_congr {s t : State} (h : t.doc = s.doc) (hr : t.resets = s.resets) (a : Nat) : docByte t a = docByte s a := by
  rw [docByte, docByte, h, hr]

theorem devByte_congr {s t : State} (h : t.dev = s.dev) (hr : t.resets = s.resets) (a : Nat) : devByte t a = devByte s a := by
  rw [devByte, devByte, h, hr]

theorem docByte_storeDoc_other {s : State} {a b : Nat} (v : Byte) (h : b ≠ a) : docByte (storeDoc a [v] s) b = docByte s b :=
  (read_store_single ..).trans (if_neg h)

/-- The commands that read the document of a device into DEV (R21, R120). -/
abbrev ReadsDocument (i : Instr) : Prop := ∃ bus, i ∈ [Instr.rddoc bus, .wrdoc bus, .tstwr bus, .cmpdoc bus]

/-- The commands that sum bytes into ACC (R19). -/
abbrev SumsBlocks (i : Instr) : Prop := (∃ k b, i = .vcsum k b) ∨ (∃ k b, i = .rcsum k b) ∨ ∃ b, i = .vstruct b

/-- From `s` to `t` each register is as it was, or the instruction is one that writes it (R19 to R26, R182). -/
structure OnlyNamed (i : Instr) (s t : State) : Prop where
  fixed : (t.dlen, t.platform, t.cmd, t.hostIn, t.resets) = (s.dlen, s.platform, s.cmd, s.hostIn, s.resets)
  acc : t.acc = s.acc ∨ SumsBlocks i
  doc : t.doc = s.doc ∨ ∃ k, i = .rcsum k .doc ∧ ∀ a, a ≠ 128 * k.toNat + 127 → docByte t a = docByte s a
  dev : (t.dev, t.devlen) = (s.dev, s.devlen) ∨ (∃ k, i = .rcsum k .dev) ∨ ReadsDocument i
  progress : (t.wstate, t.pageI, t.pageN) = (s.wstate, s.pageI, s.pageN) ∨ ∃ bus, i = .wrdoc bus
  backup : (t.bkid, t.bkvalid) = (s.bkid, s.bkvalid) ∨ ∃ bus, i = .wrdoc bus ∨ i = .tstwr bus
  diff : t.diff = s.diff ∨ ∃ bus, i = .cmpdoc bus
  probe : t.probe = s.probe ∨ i = .discover
  timer : t.settleDue = s.settleDue ∨ i = .discover ∨ ReadsDocument i ∨ (∃ bus reg n, i = .fRd bus reg n) ∨
    ∃ bus reg data, i = .fWr bus reg data

/-- The start of a command and the loss of the staging buffers write none of these registers. -/
theorem OnlyNamed.ofBody {i : Instr} {s u : State} (h : OnlyNamed i (startCommand s) u) : OnlyNamed i s (forgetStaging u) :=
  ⟨h.fixed, h.acc, h.doc, h.dev, h.progress, h.backup, h.diff, h.probe, h.timer⟩

theorem Validated.onlyNamed {i : Instr} {s t : State} (h : Validated s t) (hacc : t.acc = s.acc ∨ SumsBlocks i) :
    OnlyNamed i s t := by
  have hf := h.frame
  refine ⟨?_, hacc, .inl ?_, .inl ?_, .inl ?_, .inl ?_, .inl ?_, .inl ?_, .inl ?_⟩ <;> rw [hf]

/-- RCSUM stores to byte 127 of its block and nowhere else (R92). -/
theorem rcsumBody_onlyNamed (blk : Byte) (bsel : BufSel) (s : State) : OnlyNamed (.rcsum blk bsel) s (rcsumBody blk bsel s) := by
  have hacc : SumsBlocks (.rcsum blk bsel) := .inr (.inl ⟨blk, bsel, rfl⟩)
  rcases rcsumBody_cases blk bsel s with h | ⟨-, S, c, v, h⟩
  · rw [h]
    exact ⟨rfl, .inr hacc, .inl rfl, .inl rfl, .inl rfl, .inl rfl, .inl rfl, .inl rfl, .inl rfl⟩
  rw [h]
  cases bsel with
  | doc =>
    refine ⟨?_, .inr hacc, .inr ⟨blk, rfl, fun a ha => ?other⟩, .inl ?_, .inl ?_, .inl ?_, .inl ?_, .inl ?_, .inl ?_⟩
    case other => exact (docByte_storeDoc_other c ha).trans (docByte_storeDoc_other 0 ha)
    all_goals simp [storeSelected]
  | dev =>
    refine ⟨?_, .inr hacc, .inl ?_, .inr (.inl ⟨blk, rfl⟩), .inl ?_, .inl ?_, .inl ?_, .inl ?_, .inl ?_⟩
    all_goals simp [storeSelected]

theorem discoverBody_onlyNamed {s : State} (hr : s.resetIn = none) : OnlyNamed .discover s (discoverBody s) := by
  obtain ⟨es, -, -, hf, -⟩ := bodyRuns_unreset (discoverBody_runs s) hr
  refine ⟨?_, .inl ?_, .inl ?_, .inl ?_, .inl ?_, .inl ?_, .inl ?_, .inr rfl, .inr (.inl rfl)⟩ <;> rw [hf]

theorem rddocBody_onlyNamed {s : State} (hr : s.resetIn = none) (bus : BusId) : OnlyNamed (.rddoc bus) s (rddocBody bus s) := by
  obtain ⟨es, -, -, hf, -⟩ := bodyRuns_unreset (rddocBody_runs bus s) hr
  have hi : ReadsDocument (.rddoc bus) := ⟨bus, by simp⟩
  refine ⟨?_, .inl ?_, .inl ?_, .inr (.inr hi), .inl ?_, .inl ?_, .inl ?_, .inl ?_, .inr (.inr (.inl hi))⟩ <;> rw [hf]

theorem cmpdocBody_onlyNamed {s : State} (hr : s.resetIn = none) (bus : BusId) : OnlyNamed (.cmpdoc bus) s (cmpdocBody bus s) := by
  obtain ⟨es, -, -, hf, -⟩ := bodyRuns_unreset (cmpdocBody_runs bus s) hr
  have hi : ReadsDocument (.cmpdoc bus) := ⟨bus, by simp⟩
  refine ⟨?_, .inl ?_, .inl ?_, .inr (.inr hi), .inl ?_, .inl ?_, .inr ⟨bus, rfl⟩, .inl ?_, .inr (.inr (.inl hi))⟩ <;> rw [hf]

theorem tstwrBody_onlyNamed {s : State} (hr : s.resetIn = none) (bus : BusId) : OnlyNamed (.tstwr bus) s (tstwrBody bus s) := by
  obtain ⟨es, -, hp⟩ := bodyRuns_unreset (tstwrBody_runs bus s) hr
  have hf := hp.frame
  have hi : ReadsDocument (.tstwr bus) := ⟨bus, by simp⟩
  refine ⟨?_, .inl ?_, .inl ?_, .inr (.inr hi), .inl ?_, .inr ⟨bus, .inr rfl⟩, .inl ?_, .inl ?_, .inr (.inr (.inl hi))⟩ <;> rw [hf]

theorem wrdocBody_onlyNamed {s : State} (hr : s.resetIn = none) (bus : BusId) : OnlyNamed (.wrdoc bus) s (wrdocBody bus s) := by
  obtain ⟨es, -, hp⟩ := bodyRuns_unreset (wrdocBody_runs bus s) hr
  have hf := hp.frame
  have hi : ReadsDocument (.wrdoc bus) := ⟨bus, by simp⟩
  refine ⟨?_, .inl ?_, .inl ?_, .inr (.inr hi), .inr ⟨bus, rfl⟩, .inr ⟨bus, .inl rfl⟩, .inl ?_, .inl ?_, .inr (.inr (.inl hi))⟩ <;>
    rw [hf]

theorem execFRd_onlyNamed {bus : BusId} {reg : Byte} {n : Nat} {s t : State} (hr : s.resetIn = none)
    (h : execFRd bus reg n s = .next t) : OnlyNamed (.fRd bus reg n) s t := by
  obtain ⟨-, rfl⟩ := execFRd_next h
  obtain ⟨es, -, a, hf, -⟩ := bodyRuns_unreset (frameState_runs (busRead_runs_held bus reg n s)) hr
  refine ⟨?_, .inl ?_, .inl ?_, .inl ?_, .inl ?_, .inl ?_, .inl ?_, .inl ?_, .inr (.inr (.inr (.inl ⟨bus, reg, n, rfl⟩)))⟩ <;> rw [hf]

theorem execFWr_onlyNamed {bus : BusId} {reg : Byte} {data : List Byte} {s t : State} (hr : s.resetIn = none)
    (h : execFWr bus reg data s = .next t) : OnlyNamed (.fWr bus reg data) s t := by
  obtain ⟨-, rfl⟩ := execFWr_next h
  obtain ⟨es, -, a, hf, -⟩ := bodyRuns_unreset (frameState_runs (busWrite_runs_held bus reg data s)) hr
  refine ⟨?_, .inl ?_, .inl ?_, .inl ?_, .inl ?_, .inl ?_, .inl ?_, .inl ?_, .inr (.inr (.inr (.inr ⟨bus, reg, data, rfl⟩)))⟩ <;>
    rw [hf]

theorem commandBody_onlyNamed {i : Instr} (hi : isCommand i = true) {s : State} (hr : s.resetIn = none) :
    OnlyNamed i s (commandBody i s) := by
  cases i with
  | vcsum blk bsel => exact (vcsumBody_validated blk bsel s).onlyNamed (.inr (.inl ⟨blk, bsel, rfl⟩))
  | rcsum blk bsel => exact rcsumBody_onlyNamed blk bsel s
  | vstruct bsel => exact (vstructBody_validated bsel s).onlyNamed (.inr (.inr (.inr ⟨bsel, rfl⟩)))
  | fsafe bsel => exact (fsafeBody_validated bsel s).onlyNamed (.inl (fsafeBody_acc bsel s))
  | discover => exact discoverBody_onlyNamed hr
  | rddoc bus => exact rddocBody_onlyNamed hr bus
  | wrdoc bus => exact wrdocBody_onlyNamed hr bus
  | tstwr bus => exact tstwrBody_onlyNamed hr bus
  | cmpdoc bus => exact cmpdocBody_onlyNamed hr bus
  | fRd bus reg n => cases hi
  | fWr bus reg data => cases hi

theorem exec_onlyNamed {i : Instr} {s t : State} (hr : s.resetIn = none) (h : exec i s = .next t) : OnlyNamed i s t := by
  by_cases hi : isCommand i = true
  · rw [exec_command hi h]
    exact (commandBody_onlyNamed hi (s := startCommand s) hr).ofBody
  · cases i with
    | fRd bus reg n => exact execFRd_onlyNamed hr h
    | fWr bus reg data => exact execFWr_onlyNamed hr h
    | _ => exact absurd rfl hi

/-- A byte of DOC that differs is the checksum byte of RCSUM. -/
theorem OnlyNamed.docByte {i : Instr} {s t : State} (h : OnlyNamed i s t) {a : Nat} (hne : docByte t a ≠ docByte s a) :
    ∃ k, i = .rcsum k .doc ∧ a = 128 * k.toNat + 127 := by
  have hresets : t.resets = s.resets := congrArg (·.2.2.2.2) h.fixed
  rcases h.doc with hdoc | ⟨k, hi, hother⟩
  · exact absurd (docByte_congr hdoc hresets a) hne
  · exact ⟨k, hi, by_contra fun ha => hne (hother a ha)⟩

/-- A change of DEV is made by RCSUM or by a document read. -/
theorem OnlyNamed.devByte {i : Instr} {s t : State} (h : OnlyNamed i s t)
    (hne : (∃ a, devByte t a ≠ devByte s a) ∨ t.devlen ≠ s.devlen) : (∃ k, i = .rcsum k .dev) ∨ ReadsDocument i := by
  have hresets : t.resets = s.resets := congrArg (·.2.2.2.2) h.fixed
  refine h.dev.resolve_left fun hdev => ?_
  obtain ⟨hbytes, hlen⟩ := Prod.mk.inj hdev
  exact hne.elim (fun ⟨a, ha⟩ => ha (devByte_congr hbytes hresets a)) fun hl => hl hlen

/-- Settles O49: what each body leaves alone, register by register. -/
theorem onlyTheNamedCommandsWriteARegister : Obligations.OnlyTheNamedCommandsWriteARegister := by
  intro i s t hr h
  have ho := exec_onlyNamed hr h
  obtain ⟨hfixed, hacc, -, -, hprogress, hbackup, hdiff, hprobe, htimer⟩ := exec_onlyNamed hr h
  simp only [Prod.mk.injEq] at hfixed hprogress hbackup
  obtain ⟨hdlen, hplatform, hcmd, hhost, -⟩ := hfixed
  refine ⟨hacc.resolve_left, hdlen, fun a => ho.docByte, ho.devByte, fun hne => hprogress.resolve_left ?_,
    fun hne => hbackup.resolve_left ?_, hdiff.resolve_left, hprobe.resolve_left, htimer.resolve_left, hplatform, hcmd, hhost⟩
  · rintro ⟨h1, h2, h3⟩
    simp [h1, h2, h3] at hne
  · rintro ⟨h1, h2⟩
    simp [h1, h2] at hne

end Sys2Proof.Proofs
end

section
/-! SUPPORT. The settle timer across steps: every step that is no reset leaves it as the events of the step say
(20_memory.md R50; 42_frame_marshaller.md R110; 60_exceptions.md R182; 70_reset_and_hazards.md R204). -/

namespace Sys2Proof.Proofs

open Sys2Proof Sys2Proof.Machine Sys2Proof.Laws

/-- Unless a reset has struck between `s` and `t`, the trace of `t` goes on from that of `s`, and the settle timer of `t` is what the
new events make of that of `s` (R182). -/
def TimerFollows (s t : State) : Prop :=
  t.resets = s.resets →
    ∃ es, t.trace = s.trace ++ es ∧ timerAfter s.settleDue (es.map (·.event)) = some t.settleDue

theorem timerFollows_silent {s t : State} (ht : t.trace = s.trace) (hd : t.settleDue = s.settleDue) : TimerFollows s t :=
  fun _ => ⟨[], by rw [ht, List.append_nil], congrArg some hd.symm⟩

theorem timerFollows_resetBlock {s u : State} (hu : u.resets = s.resets) : TimerFollows s (resetBlock u) := by
  intro (h : u.resets + 1 = s.resets)
  omega

/-- What holds of the procedures (`Emitted.timer`) holds of every body that runs on them. -/
theorem bodyRuns_timerFollows {s t : State} {P : State → List TraceEntry → Prop} {Q : List TraceEntry → Prop}
    (h : BodyRuns s t P Q) : TimerFollows s t := by
  obtain ⟨es, ⟨hem, -⟩ | ⟨hab, -⟩⟩ := h
  · exact fun _ => ⟨es, hem.trace, hem.timer⟩
  · obtain ⟨u, rfl, -, hu⟩ := hab.struck
    exact timerFollows_resetBlock hu

/-! ### Every instruction -/

theorem exec_timerFollows {i : Instr} {s t : State} (h : exec i s = .next t) : TimerFollows s t := by
  by_cases hi : isCommand i = true
  · have hbody := bodyRuns_timerFollows (commandBody_keeps hi (startCommand s))
    rw [exec_command hi h]
    exact hbody
  · cases i with
    | fRd bus reg n =>
      obtain ⟨-, rfl⟩ := execFRd_next h
      exact bodyRuns_timerFollows (frameState_runs (busRead_runs_held bus reg n s))
    | fWr bus reg data =>
      obtain ⟨-, rfl⟩ := execFWr_next h
      exact bodyRuns_timerFollows (frameState_runs (busWrite_runs_held bus reg data s))
    | _ => exact absurd rfl hi

theorem runRecord_timerFollows {r : List Byte} {s t : State} (h : runRecord r s = .next t) : TimerFollows s t := by
  unfold runRecord at h
  split at h
  · exact exec_timerFollows h
  · cases h

theorem runWord_timerFollows {w : BitVec 32} {s t : State} (h : runWord w s = .next t) : TimerFollows s t := by
  unfold runWord at h
  split at h
  · exact exec_timerFollows h
  · cases h
    exact timerFollows_silent rfl rfl

/-! ### Every move of the host -/

/-- A write of CMD emits nothing: the events of a command come with the step that runs it. -/
theorem acceptCmd_timerFollows (w : BitVec 32) (s : State) : TimerFollows s (acceptCmd w s) := by
  cases hb : s.status.busy with
  | true => rw [acceptCmd_busy hb]; exact timerFollows_silent rfl rfl
  | false =>
    cases hd : decode (.word w) with
    | ok i =>
      rw [acceptCmd_of_ok hb hd]
      exact timerFollows_silent (by simp) (by simp)
    | error e => rw [acceptCmd_of_error hb hd]; exact timerFollows_silent rfl rfl

theorem hostAct_timerFollows {a : HostAction} {s t : State} (h : hostAct a s = .next t) : TimerFollows s t := by
  cases a with
  | writeCmd w => cases h; exact acceptCmd_timerFollows w s
  | writeDoc o bs =>
    simp only [hostAct, hostWriteDoc] at h
    split at h
    · cases h
    split at h <;> cases h
    exact timerFollows_silent rfl rfl
  | writeDlen n =>
    simp only [hostAct, hostWriteDlen] at h
    split at h
    · cases h
    split at h <;> cases h
    exact timerFollows_silent rfl rfl
  | read r => cases h; exact timerFollows_silent rfl rfl
  | await => cases h; exact timerFollows_silent rfl rfl
  | reset => cases h; exact timerFollows_resetBlock rfl
  | resetAfter k =>
    cases h
    split
    · exact timerFollows_silent rfl rfl
    · exact timerFollows_resetBlock rfl

/-! ### Every step -/

/-- A step takes a frame record, a command word or a move of the host out of its input, which leaves the trace and the timer alone,
and then runs it. -/
theorem step_timerFollows {s t : State} (h : step s = .next t) : TimerFollows s t := by
  rw [step, runNext] at h
  split at h
  · exact runRecord_timerFollows (s := { s with frameReq := none }) h
  split at h
  · exact runWord_timerFollows (s := { s with cmd := none }) h
  · rename_i rest _ _
    exact runWord_timerFollows (s := { s with cmd := none, hostIn := rest }) h
  · rename_i rest _ _
    exact hostAct_timerFollows (s := { s with hostIn := rest }) h
  · cases h; exact timerFollows_silent rfl rfl

/-- Settles O56: the timer after the whole trace is the timer after the events of the step, from where the trace before left it. -/
theorem stepKeepsTheTraceSettled : Obligations.StepKeepsTheTraceSettled := by
  intro s t hs h hr
  obtain ⟨es, htr, htimer⟩ := step_timerFollows h hr
  calc timerAfter false (eventsOf t)
    _ = timerAfter false (eventsOf s ++ es.map (·.event)) := by rw [eventsOf, htr, List.map_append]; rfl
    _ = (timerAfter false (eventsOf s)).bind (timerAfter · (es.map (·.event))) := timerAfter_append ..
    _ = timerAfter s.settleDue (es.map (·.event)) := by rw [hs]; rfl
    _ = some t.settleDue := htimer

end Sys2Proof.Proofs
end

section
/-! SUPPORT. The decoder and the encoder (30_encoding.md R60 to R64): the fields of a command word, and which words and which records
decode and to what. -/

namespace Sys2Proof.Proofs

open Sys2Proof Sys2Proof.Machine Sys2Proof.Laws

/-! ### The fields of a command word (R60) -/

/-- BSEL as the bit it is read from. -/
theorem bit_bselField (w : BitVec 32) : (bselField w).bit = w.extractLsb' 8 1 := by
  ext i hi
  obtain rfl : i = 0 := by omega
  show (bselField w).bit[0] = (w.extractLsb' 8 1)[0]
  rw [BitVec.getElem_extractLsb', bselField]
  cases w.getLsbD (8 + 0) <;> simp [BufSel.bit]

theorem bit_injective {a b : BufSel} (h : a.bit = b.bit) : a = b := by
  cases a <;> cases b <;> simp_all [BufSel.bit]

section Fields

variable (bus : BusId) (blk : Byte) (bsel : BufSel) (opc : Byte)

/-- Every field above OPC lies in the word without OPC. -/
theorem extractLsb'_commandWord {start : Nat} (len : Nat) (h : 8 ≤ start) :
    (commandWord bus blk bsel opc).extractLsb' start len =
      (bus ++ blk ++ (0 : BitVec 7) ++ bsel.bit).extractLsb' (start - 8) len :=
  BitVec.extractLsb'_append_eq_of_le h

@[simp] theorem busField_commandWord : busField (commandWord bus blk bsel opc) = bus := by
  rw [busField, extractLsb'_commandWord _ _ _ _ _ (by decide), BitVec.extractLsb'_append_eq_of_le (by decide),
    BitVec.extractLsb'_append_eq_of_le (by decide)]
  exact BitVec.extractLsb'_append_eq_left

@[simp] theorem blkField_commandWord : blkField (commandWord bus blk bsel opc) = blk := by
  rw [blkField, extractLsb'_commandWord _ _ _ _ _ (by decide), BitVec.extractLsb'_append_eq_of_le (by decide),
    BitVec.extractLsb'_append_eq_of_le (by decide)]
  exact BitVec.extractLsb'_append_eq_right

@[simp] theorem bselField_commandWord : bselField (commandWord bus blk bsel opc) = bsel := by
  apply bit_injective
  rw [bit_bselField, extractLsb'_commandWord _ _ _ _ _ (by decide)]
  exact BitVec.extractLsb'_append_eq_right

end Fields

/-- A word whose reserved bits are zero is the command word of its fields. -/
theorem commandWord_fields {w : BitVec 32} (h : w.extractLsb' 9 7 = 0) :
    commandWord (busField w) (blkField w) (bselField w) (opcField w) = w := by
  have join := @BitVec.extractLsb'_append_extractLsb'_eq_extractLsb' 32
  rw [commandWord, busField, blkField, bit_bselField, opcField, ← h, join (rfl : 24 = 16 + 8), join (rfl : 16 = 9 + 7),
    join (rfl : 9 = 8 + 1), join (rfl : 8 = 0 + 8)]
  exact BitVec.extractLsb'_eq_self

/-- A field that a mask covers has the value it has in the match. -/
theorem extractLsb'_of_masked {w m p : BitVec 32} {start len : Nat} (h : w &&& m = p)
    (hm : m.extractLsb' start len = BitVec.allOnes len) : w.extractLsb' start len = p.extractLsb' start len := by
  rw [← h, BitVec.extractLsb'_and, hm, BitVec.and_allOnes]

/-! ### The rows (R62) -/

/-- Every mask covers OPC, so the opcode of a word is that of the row it selects. -/
theorem opcField_of_selects {r : OpRow} (hr : r ∈ opRows) {w : BitVec 32} (h : w &&& r.mask = r.pattern) :
    opcField w = opcField r.pattern :=
  extractLsb'_of_masked h ((by decide +kernel : ∀ q ∈ opRows, q.mask.extractLsb' 0 8 = BitVec.allOnes 8) r hr)

/-- No two rows have the same opcode, so a word selects one row at most. -/
theorem row_unique {r q : OpRow} (hr : r ∈ opRows) (hq : q ∈ opRows) {w : BitVec 32} (h : w &&& r.mask = r.pattern)
    (h' : w &&& q.mask = q.pattern) : r = q :=
  List.inj_on_of_nodup_map (f := fun r => opcField r.pattern) (by decide +kernel) hr hq
    ((opcField_of_selects hr h).symm.trans (opcField_of_selects hq h'))

/-- A word decodes to what the row it selects builds from it, and only that way. -/
theorem decode_word_iff {w : BitVec 32} {i : Instr} :
    decode (.word w) = .ok i ↔ ∃ r ∈ opRows, w &&& r.mask = r.pattern ∧ r.build w = i := by
  cases hf : opRows.find? (·.selects w) with
  | some q =>
    have hq := List.mem_of_find?_eq_some hf
    have hw : w &&& q.mask = q.pattern := by simpa [OpRow.selects] using List.find?_some hf
    simp only [decode, decodeWord, hf, Except.ok.injEq]
    exact ⟨fun h => ⟨q, hq, hw, h⟩, fun ⟨r, hr, hrw, hb⟩ => row_unique hr hq hrw hw ▸ hb⟩
  | none =>
    have hn : ∀ r ∈ opRows, w &&& r.mask ≠ r.pattern := by simpa [OpRow.selects] using hf
    obtain ⟨e, he⟩ := decode_of_no_row hn
    rw [he]
    exact ⟨nofun, fun ⟨r, hr, hrw, _⟩ => absurd hrw (hn r hr)⟩

/-- Settles O3: the rows are disjoint because every mask covers OPC and no two rows share an opcode. -/
theorem everyWordSelectsAtMostOneRow : Obligations.EveryWordSelectsAtMostOneRow :=
  ⟨fun r hr _ hw => decode_word_iff.mpr ⟨r, hr, hw, rfl⟩,
    fun _ hr _ hq _ hw hw' => congrArg OpRow.pattern (row_unique hr hq hw hw'),
    fun _ => decode_of_no_row⟩

/-- Settles O4: the 23 vectors are closed and small. -/
theorem sampleWordsDecode : Obligations.SampleWordsDecode := by
  unfold Obligations.SampleWordsDecode
  decide +kernel

/-! ### Command words -/

/-- A word that has the match of row `k` under its mask decodes to what the row builds. -/
theorem decode_of_row (k : Nat) {r : OpRow} {w : BitVec 32} {i : Instr} (hk : opRows[k]? = some r)
    (hw : w.toNat &&& r.mask.toNat = r.pattern.toNat) (hb : r.build w = i) : decode (.word w) = .ok i :=
  decode_word_iff.mpr ⟨r, List.mem_of_getElem? hk, BitVec.eq_of_toNat_eq (by rw [BitVec.toNat_and, hw]), hb⟩

/-- A word is the command word of its fields, once the row it selects fixes the reserved bits and what the command does not use. -/
theorem commandWord_eq {w : BitVec 32} {bus : BusId} {blk : Byte} {bsel : BufSel} {opc : Byte} (hz : w.extractLsb' 9 7 = 0)
    (hbus : busField w = bus) (hblk : blkField w = blk) (hbsel : w.extractLsb' 8 1 = bsel.bit) (hopc : opcField w = opc) :
    commandWord bus blk bsel opc = w := by
  obtain rfl : bselField w = bsel := bit_injective ((bit_bselField w).trans hbsel)
  subst hbus hblk hopc
  exact commandWord_fields hz

/-- The code of what a row builds is the word it was built from. -/
theorem encode_build {r : OpRow} (hr : r ∈ opRows) {w : BitVec 32} (hw : w &&& r.mask = r.pattern) :
    encode (r.build w) = .word w := by
  have field := fun start len => extractLsb'_of_masked (start := start) (len := len) hw
  have hz := field 9 7 ((by decide +kernel : ∀ q ∈ opRows, q.mask.extractLsb' 9 7 = BitVec.allOnes 7) r hr)
  have hopc := opcField_of_selects hr hw
  simp only [opRows, List.mem_cons, List.not_mem_nil, or_false] at hr
  rcases hr with rfl | rfl | rfl | rfl | rfl | rfl | rfl | rfl | rfl
  iterate 2 -- VCSUM and RCSUM use BLK and BSEL
    · exact congrArg Code.word (commandWord_eq hz (field 24 8 rfl) rfl (bit_bselField w).symm hopc)
  iterate 2 -- VSTRUCT and FSAFE use BSEL
    · exact congrArg Code.word (commandWord_eq hz (field 24 8 rfl) (field 16 8 rfl) (bit_bselField w).symm hopc)
  · exact congrArg Code.word (commandWord_eq hz (field 24 8 rfl) (field 16 8 rfl) (field 8 1 rfl) hopc)
  iterate 4 -- RDDOC, WRDOC, TSTWR and CMPDOC use BUS
    · exact congrArg Code.word (commandWord_eq hz rfl (field 16 8 rfl) (field 8 1 rfl) hopc)

/-- The operands of a command fill their fields, so every command is well formed (R60). -/
theorem wf_of_isCommand {i : Instr} (h : isCommand i = true) : i.wf = true := by
  cases i with
  | fRd bus reg n => cases h
  | fWr bus reg data => cases h
  | _ => rfl

/-! ### Frame records (R64) -/

@[simp] theorem recordHead_inj (a b : Bool) : recordHead a = recordHead b ↔ a = b := by
  cases a <;> cases b <;> decide

@[simp] theorem lengthCode_inj (a b : Bool) : lengthCode a = lengthCode b ↔ a = b := by
  cases a <;> cases b <;> decide

section Records

variable {bus : BusId} {reg v : Byte} {long : Bool} {rest : List Byte}

/-- A record with the head of a read is a read, if the data bytes are zero. -/
theorem decode_readRecord (h : rest.length = 16) :
    decode (.record (recordHead false :: bus :: reg :: lengthCode long :: rest)) =
      if rest.all (· == 0) then .ok (.fRd bus reg (if long then 32 else 1)) else .error .frameShape := by
  simp [decode, decodeRecord, h, RECORD_DATA, Config.RD_CHUNK]

/-- A record with the head of a write and the long length is a write of all its data bytes. -/
theorem decode_pageRecord (h : rest.length = 16) :
    decode (.record (recordHead true :: bus :: reg :: lengthCode true :: rest)) = .ok (.fWr bus reg rest) := by
  simp [decode, decodeRecord, h, RECORD_DATA]

/-- A record with the head of a write and the short length is a write of the first data byte, if the others are zero. -/
theorem decode_byteRecord (h : rest.length = 15) :
    decode (.record (recordHead true :: bus :: reg :: lengthCode false :: v :: rest)) =
      if rest.all (· == 0) then .ok (.fWr bus reg [v]) else .error .frameShape := by
  simp [decode, decodeRecord, h, RECORD_DATA]

end Records

/-- What decodes has the head and the length byte of a frame, and 16 data bytes. -/
theorem record_shape {r : List Byte} {i : Instr} (h : decode (.record r) = .ok i) : ∃ write bus reg long rest,
    rest.length = 16 ∧ r = recordHead write :: bus :: reg :: lengthCode long :: rest := by
  match r with
  | head :: bus :: reg :: len :: rest =>
    simp only [decode, decodeRecord, ite_not] at h
    have hrest : rest.length = RECORD_DATA := by
      by_contra hn
      rw [if_neg hn] at h
      cases h
    rw [if_pos hrest] at h
    have hlen : ∃ long, len = lengthCode long := by
      by_contra hn
      rw [if_pos ⟨fun e => hn ⟨_, e⟩, fun e => hn ⟨_, e⟩⟩] at h
      cases h
    have hhead : ∃ write, head = recordHead write := by
      by_contra hn
      rw [if_neg fun e => hn ⟨_, e⟩, if_neg fun e => hn ⟨_, e⟩] at h
      split at h <;> cases h
    obtain ⟨long, rfl⟩ := hlen
    obtain ⟨write, rfl⟩ := hhead
    exact ⟨write, bus, reg, long, rest, hrest, rfl⟩
  | [] | [_] | [_, _] | [_, _, _] => cases h

theorem eq_replicate_of_all_zero {bs : List Byte} {n : Nat} (h : bs.all (· == 0) = true) (hn : bs.length = n) :
    bs = List.replicate n 0 :=
  List.eq_replicate_iff.mpr ⟨hn, fun b hb => by simpa using List.all_eq_true.mp h b hb⟩

/-- What a record decodes to has the record as its code, and is a frame of a legal length. -/
theorem encode_of_decode_record {r : List Byte} {i : Instr} (h : decode (.record r) = .ok i) :
    encode i = .record r ∧ i.wf = true := by
  obtain ⟨write, bus, reg, long, rest, hrest, rfl⟩ := record_shape h
  cases write with
  | false =>
    rw [decode_readRecord hrest] at h
    split at h <;> cases h
    rename_i hz
    rw [eq_replicate_of_all_zero hz hrest]
    cases long <;> exact ⟨rfl, rfl⟩
  | true =>
    cases long with
    | true =>
      rw [decode_pageRecord hrest] at h
      cases h
      simp [encode, frameRecord, Instr.wf, legalWriteLength, hrest, Config.WR_PAGE, RECORD_DATA]
    | false =>
      obtain ⟨v, vs, rfl⟩ := List.exists_cons_of_length_eq_add_one hrest
      have hvs : vs.length = 15 := Nat.succ.inj hrest
      rw [decode_byteRecord hvs] at h
      split at h <;> cases h
      rename_i hz
      rw [eq_replicate_of_all_zero hz hvs]
      exact ⟨rfl, rfl⟩

/-- A read of a legal length decodes from its record. -/
theorem decode_encode_fRd {bus : BusId} {reg : Byte} {n : Nat} (h : legalReadLength n = true) :
    decode (encode (.fRd bus reg n)) = .ok (.fRd bus reg n) := by
  obtain rfl | rfl : n = 1 ∨ n = 32 := by simpa [legalReadLength, Config.RD_CHUNK] using h
  · exact decode_readRecord rfl
  · exact decode_readRecord rfl

/-- A write of a legal length decodes from its record. -/
theorem decode_encode_fWr {bus : BusId} {reg : Byte} {data : List Byte} (h : legalWriteLength data.length = true) :
    decode (encode (.fWr bus reg data)) = .ok (.fWr bus reg data) := by
  obtain h1 | h16 : data.length = 1 ∨ data.length = 16 := by simpa [legalWriteLength, Config.WR_PAGE] using h
  · obtain ⟨v, rfl⟩ := List.length_eq_one_iff.mp h1
    exact decode_byteRecord rfl
  · simpa [encode, frameRecord, h16, Config.WR_PAGE, RECORD_DATA] using decode_pageRecord h16

/-! ### The two round trips -/

/-- Settles O1: the code of a command selects its row, whose fields are the operands; the record of a frame has its form. -/
theorem decodeEncodeRoundTrip : Obligations.DecodeEncodeRoundTrip := by
  intro i hi
  cases i with
  | vcsum blk bsel => exact decode_of_row 0 rfl (TableRow.vcsum blk bsel) (by simp)
  | rcsum blk bsel => exact decode_of_row 1 rfl (TableRow.rcsum blk bsel) (by simp)
  | vstruct bsel => exact decode_of_row 2 rfl (TableRow.vstruct bsel) (by simp)
  | fsafe bsel => exact decode_of_row 3 rfl (TableRow.fsafe bsel) (by simp)
  | discover => exact decode_of_row 4 rfl TableRow.discover rfl
  | rddoc bus => exact decode_of_row 5 rfl (TableRow.rddoc bus) (by simp)
  | wrdoc bus => exact decode_of_row 6 rfl (TableRow.wrdoc bus) (by simp)
  | tstwr bus => exact decode_of_row 7 rfl (TableRow.tstwr bus) (by simp)
  | cmpdoc bus => exact decode_of_row 8 rfl (TableRow.cmpdoc bus) (by simp)
  | fRd bus reg n => exact decode_encode_fRd hi
  | fWr bus reg data => exact decode_encode_fWr hi

/-- Settles O2: a row fixes every bit that its command does not use; a record is the record of the frame it has the form of. -/
theorem encodeDecodeGivesTheCodeBack : Obligations.EncodeDecodeGivesTheCodeBack := by
  intro c i h
  cases c with
  | word w =>
    obtain ⟨r, hr, hw, rfl⟩ := decode_word_iff.mp h
    exact ⟨encode_build hr hw, wf_of_isCommand (isCommand_build hr w)⟩
  | record r => exact encode_of_decode_record h

end Sys2Proof.Proofs
end

section
/-! SUPPORT. A frame by itself: the step that runs it, the lengths that are refused, and its bytes on the wire (30_encoding.md R64, R65). -/

namespace Sys2Proof.Proofs

open Sys2Proof Sys2Proof.Machine Sys2Proof.Laws

/-- Settles O6: a frame handed over comes before the host and the latched command. -/
theorem stepRunsTheHandedFrame : Obligations.StepRunsTheHandedFrame := by
  intro s r i hf hd
  calc step s
    _ = runRecord r { s with frameReq := none } := by rw [step, runNext, hf]
    _ = exec i { s with frameReq := none } := by rw [runRecord, hd]

/-- With a bus interface a read frame of a length that no frame has is refused. -/
theorem execFRd_illegal {bus : BusId} {reg : Byte} {n : Nat} {s : State} (hb : s.platform.hasBus = true)
    (hn : legalReadLength n = false) : execFRd bus reg n s = .refused .illegalFrame := by
  simp [execFRd, hb, hn]

/-- With a bus interface a write frame of a length that no frame has is refused. -/
theorem execFWr_illegal {bus : BusId} {reg : Byte} {data : List Byte} {s : State} (hb : s.platform.hasBus = true)
    (hn : legalWriteLength data.length = false) : execFWr bus reg data s = .refused .illegalFrame := by
  simp [execFWr, hb, hn]

/-- Settles O26: with a bus interface only the length can stop a frame. -/
theorem otherFrameLengthsAreRefused : Obligations.OtherFrameLengthsAreRefused := by
  intro bus reg n data s hb
  refine ⟨fun h1 h32 => execFRd_illegal hb ?_, fun h1 h16 => execFWr_illegal hb ?_⟩
  · simp [legalReadLength, Config.RD_CHUNK, h1, h32]
  · simp [legalWriteLength, Config.WR_PAGE, h1, h16]

/-- The controller acknowledges every byte it receives but the last (R65). -/
theorem wireReceive_succ (n : Nat) : wireReceive (n + 1) = List.replicate n (.receive true) ++ [.receive false] := by
  induction n with
  | zero => rfl
  | succ n ih => rw [wireReceive, ih, List.replicate_succ, List.cons_append]

/-- Settles O60: the address 0x50 above the direction bit is 0xA0 to write and 0xA1 to read. -/
theorem wireAddressBytes : Obligations.WireAddressBytes := by
  intro bus reg data n
  have hw : addressByte Config.EDID_ADDR7 false = 0xA0 := by decide
  have hr : addressByte Config.EDID_ADDR7 true = 0xA1 := by decide
  constructor
  · simp [wireWrite, writeFrame, hw]
  · simp [wireRead, readFrame, hw, hr, wireReceive_succ]

end Sys2Proof.Proofs
end

section
/-! SUPPORT. The length and the bytes of a block slice (40_document_model.md R82). -/

namespace Sys2Proof.Proofs

open Sys2Proof Sys2Proof.Machine Sys2Proof.Laws

/-- A byte of a block slice is the document's byte at the slice's offset. -/
theorem byteAt_block {B : List Byte} {k i : Nat} (h : i < (block B k).length) : byteAt (block B k) i = byteAt B (128 * k + i) := by
  have hB : 128 * k + i < B.length := by
    rw [block_length] at h
    omega
  rw [byteAt_eq_getElem h, byteAt_eq_getElem hB]
  simp [block, Config.BLOCK_SIZE]

/-- Settles O17: a slice has the bytes from `128 * k` on, at most 128 of them. -/
theorem blockSlice : Obligations.BlockSlice := by
  intro B k
  have hlen : (block B k).length = min 128 (B.length - 128 * k) := block_length B k
  refine ⟨fun hfull => ?_, fun htail => ?_, fun hbeyond => List.eq_nil_of_length_eq_zero ?_, fun i hi => byteAt_block hi⟩
  · omega
  · omega
  · omega

end Sys2Proof.Proofs
end

section
/-! SUPPORT. What the Validator commands answer, case by case, and what they leave alone: VCSUM and RCSUM (41_validator.md R91, R92). -/

namespace Sys2Proof.Proofs

open Sys2Proof Sys2Proof.Machine Sys2Proof.Laws

/-! ### The frame of VCSUM, VSTRUCT and FSAFE -/

/-- What a Validator command that stores no byte leaves alone, from its start to its end. -/
structure BuffersKept (s t : State) : Prop where
  frame : SameButEnd { s with acc := t.acc } t
  aclass : t.aclass = .none
  bytes : ∀ a, docByte t a = docByte s a ∧ devByte t a = devByte s a

theorem Validated.buffersKept {s u : State} (h : Validated (startCommand s) u) : BuffersKept s (forgetStaging u) := by
  have hf := h.frame
  refine ⟨?_, ?_, fun a => ⟨docByte_congr ?_ ?_ a, devByte_congr ?_ ?_ a⟩⟩
  all_goals rw [hf]
  all_goals rfl

/-! ### VCSUM (R91) -/

section Vcsum
variable {blk : Byte} {bsel : BufSel} {s : State} {S : List Byte}

theorem vcsumBody_full (hS : block (selected bsel s) blk.toNat = S) (h : S.length = 128) :
    vcsumBody blk bsel s = result (decide (byteSum S % 256 = 0)) .none .none (accumulate S s) := by
  subst hS
  have hzero : (accOf (block (selected bsel s) blk.toNat) == 0) = decide (byteSum (block (selected bsel s) blk.toNat) % 256 = 0) :=
    decide_eq_decide.mpr (accOf_eq_zero_iff _)
  rw [← hzero]
  exact if_neg (not_not.mpr h)

theorem vcsumBody_notFull (hS : block (selected bsel s) blk.toNat = S) (h : S.length ≠ 128) :
    vcsumBody blk bsel s = result false .none .none s :=
  if_pos (hS ▸ h)

/-- VCSUM returns no value. -/
theorem vcsumBody_rval : (vcsumBody blk bsel s).rval = s.rval ∧ (vcsumBody blk bsel s).rvalid = s.rvalid := by
  unfold vcsumBody
  simp only
  split <;> exact ⟨rfl, rfl⟩

end Vcsum

/-- Settles O18: the accumulator of a full block is its sum modulo 256, and any other slice sums nothing. -/
theorem vcsumResult : Obligations.VcsumResult := by
  intro blk bsel s
  obtain ⟨hframe, haclass, hbytes⟩ := (vcsumBody_validated blk bsel (startCommand s)).buffersKept
  obtain ⟨hrval, hrvalid⟩ := vcsumBody_rval (blk := blk) (bsel := bsel) (s := startCommand s)
  have hS : block (selected bsel (startCommand s)) blk.toNat = block (selected bsel s) blk.toNat := by
    rw [selected_startCommand]
  refine ⟨forgetStaging (vcsumBody blk bsel (startCommand s)), rfl, fun hfull => ?_, fun hother => ?_,
    hframe, hrval, hrvalid, haclass, hbytes⟩
  · rw [vcsumBody_full hS hfull]
    exact ⟨accOf_toNat _, rfl, rfl, rfl⟩
  · rw [vcsumBody_notFull hS hother]
    exact ⟨rfl, rfl, rfl, rfl⟩

/-! ### RCSUM (R92) -/

section Rcsum
variable {blk : Byte} {bsel : BufSel} {s : State} {S : List Byte}

theorem loadSelected_storeSelected_above {a n b : Nat} (v : Byte) (h : a + n ≤ b) :
    loadSelected bsel (storeSelected bsel b v s) a n = loadSelected bsel s a n := by
  cases bsel <;> exact load_store_outside _ _ (.inl h)

/-- The bytes of a full block but the last, read as storage. -/
theorem loadSelected_of_block {k : Nat} (h : (block (selected bsel s) k).length = 128) :
    loadSelected bsel s (128 * k) 127 = (block (selected bsel s) k).take 127 := by
  rw [block_full_iff] at h
  cases bsel with
  | doc =>
    have hk : 128 * k + 128 ≤ s.dlen := by simpa [selected] using h
    exact ((congrArg _ (block_of_load _ _ _ _ hk)).trans (take_load _ _ _ _ _ (by decide))).symm
  | dev =>
    have hk : 128 * k + 128 ≤ s.devlen := by simpa [selected] using h
    exact ((congrArg _ (block_of_load _ _ _ _ hk)).trans (take_load _ _ _ _ _ (by decide))).symm

/-- The state RCSUM ends its work on block `k` with, when the block's other bytes are `S`: byte 127 has been 0 while `S` was
summed, and is the checksum of `S` then. -/
def checksumStored (bsel : BufSel) (k : Nat) (S : List Byte) (s : State) : State :=
  putRval ((checksumByte (accOf S)).setWidth 16)
    (storeSelected bsel (128 * k + 127) (checksumByte (accOf S)) (accumulate S (storeSelected bsel (128 * k + 127) 0 s)))

theorem rcsumBody_full (hS : block (selected bsel s) blk.toNat = S) (h : S.length = 128) :
    rcsumBody blk bsel s = result true .none .none (checksumStored bsel blk.toNat (S.take 127) s) := by
  subst hS
  rw [checksumStored, ← loadSelected_of_block h, ← loadSelected_storeSelected_above 0 (Nat.le_refl (128 * blk.toNat + 127))]
  exact if_neg (not_not.mpr h)

theorem rcsumBody_notFull (hS : block (selected bsel s) blk.toNat = S) (h : S.length ≠ 128) :
    rcsumBody blk bsel s = raise .sizeError s :=
  if_pos (hS ▸ h)

theorem exec_rcsum_full (hS : block (selected bsel s) blk.toNat = S) (h : S.length = 128) :
    exec (.rcsum blk bsel) s =
      .next (forgetStaging (result true .none .none (checksumStored bsel blk.toNat (S.take 127) (startCommand s)))) := by
  rw [← selected_startCommand] at hS
  exact congrArg (fun u => Host.Outcome.next (forgetStaging u)) (rcsumBody_full hS h)

theorem exec_rcsum_notFull (hS : block (selected bsel s) blk.toNat = S) (h : S.length ≠ 128) :
    exec (.rcsum blk bsel) s = .next (forgetStaging (raise .sizeError (startCommand s))) := by
  rw [← selected_startCommand] at hS
  exact congrArg (fun u => Host.Outcome.next (forgetStaging u)) (rcsumBody_notFull hS h)

end Rcsum

theorem checksumByte_accOf_toNat (S : List Byte) : (checksumByte (accOf S)).toNat = (256 - byteSum S % 256) % 256 := by
  rw [checksumByte_toNat, accOf_toNat]

/-- Of two stores to one offset the second stands. -/
theorem read_store_twice (free : Nat → Byte) (m : Memory) (a x : Nat) (v w : Byte) :
    ((m.store a [v]).store a [w]).read free x = if x = a then w else m.read free x := by
  rw [read_store_single, read_store_single]
  split <;> rfl

theorem docByte_checksumStored (k : Nat) (S : List Byte) (s : State) (a : Nat) :
    docByte (checksumStored .doc k S s) a = if a = 128 * k + 127 then checksumByte (accOf S) else docByte s a :=
  read_store_twice ..

theorem devByte_checksumStored (k : Nat) (S : List Byte) (s : State) (a : Nat) :
    devByte (checksumStored .dev k S s) a = if a = 128 * k + 127 then checksumByte (accOf S) else devByte s a :=
  read_store_twice ..

/-- Settles O19: a full block gets its checksum stored and nothing else; any other slice stops the command before its stores. -/
theorem rcsumResult : Obligations.RcsumResult := by
  intro blk bsel s
  generalize hS : block (selected bsel s) blk.toNat = S
  by_cases hfull : S.length = 128
  · refine ⟨_, exec_rcsum_full hS hfull, ?aclass, fun _ => ⟨⟨rfl, rfl, rfl⟩, rfl, ?rval, ?acc, ?frame, ?doc, ?dev⟩,
      (absurd hfull ·)⟩
    case aclass => cases bsel <;> rfl
    case rval => exact (setWidth16_toNat _).trans (checksumByte_accOf_toNat _)
    case acc => cases bsel <;> exact accOf_toNat _
    case frame => cases bsel <;> rfl
    case doc =>
      rintro rfl
      have hbyte := docByte_checksumStored blk.toNat (S.take 127) (startCommand s)
      exact ⟨congrArg _ ((hbyte _).trans (if_pos rfl)), fun a ha => (hbyte a).trans (if_neg ha), fun a => rfl⟩
    case dev =>
      rintro rfl
      have hbyte := devByte_checksumStored blk.toNat (S.take 127) (startCommand s)
      exact ⟨congrArg _ ((hbyte _).trans (if_pos rfl)), fun a ha => (hbyte a).trans (if_neg ha), fun a => rfl⟩
  · exact ⟨_, exec_rcsum_notFull hS hfull, rfl, (absurd · hfull), fun _ =>
      ⟨⟨rfl, rfl, rfl⟩, rfl, rfl, rfl, fun a => ⟨rfl, rfl⟩⟩⟩

end Sys2Proof.Proofs
end

section
/-! SUPPORT. VSTRUCT: the checks in their order, and what each answers (41_validator.md R93). -/

namespace Sys2Proof.Proofs

open Sys2Proof Sys2Proof.Machine Sys2Proof.Laws

/-! ### The body, check by check -/

/-- The document is one or more whole blocks (R83, R93). -/
abbrev WholeBlocks (B : List Byte) : Prop := 128 ≤ B.length ∧ B.length % 128 = 0

/-- The document starts with the fixed header (R84). -/
abbrev GoodHeader (B : List Byte) : Prop := B.take 8 = [0x00, 0xFF, 0xFF, 0xFF, 0xFF, 0xFF, 0xFF, 0x00]

theorem WholeBlocks.passes {B : List Byte} (h : WholeBlocks B) :
    ¬ (B.length < Config.BLOCK_SIZE ∨ B.length % Config.BLOCK_SIZE ≠ 0) := by
  simp only [Config.BLOCK_SIZE]
  omega

theorem headerGood_iff (B : List Byte) : headerGood B = true ↔ GoodHeader B := beq_iff_eq

theorem range_split {k n : Nat} (h : k < n) : ∃ js, List.range n = List.range k ++ k :: js := by
  obtain ⟨m, rfl⟩ : ∃ m, n = k + (m + 1) := ⟨n - k - 1, by omega⟩
  exact ⟨_, by rw [List.range_add, List.range_succ_eq_map, List.map_cons, Nat.add_zero]⟩

section Vstruct
variable {bsel : BufSel} {s : State} {B : List Byte} (hB : selected bsel s = B)
include hB

theorem vstructBody_badSize (h : B.length < 128 ∨ B.length % 128 ≠ 0) : vstructBody bsel s = result false .sizeError .none s :=
  if_pos (hB ▸ h)

theorem vstructBody_badHeader (hw : WholeBlocks B) (h : ¬ GoodHeader B) :
    vstructBody bsel s = result false .headerError .none s := by
  rw [← headerGood_iff, Bool.not_eq_true] at h
  simp only [vstructBody, hB, if_neg hw.passes, h, Bool.not_false, if_true]

/-- Past the size and the header the scan of the blocks decides whether the checksums or the extension count do. -/
theorem vstructBody_scanned (hw : WholeBlocks B) (h : GoodHeader B) {bad : Option Nat} {u : State}
    (hscan : scanBlocks B (List.range (B.length / 128)) s = (bad, u)) : vstructBody bsel s =
      bad.elim
        (if B.length ≠ 128 * (1 + extCount B) then result false .extensionCountMismatch .none u else result true .none .none u)
        fun k => result false .checksumError .none (putRval (BitVec.ofNat 16 k) u) := by
  rw [← headerGood_iff] at h
  change scanBlocks B (List.range (B.length / Config.BLOCK_SIZE)) s = _ at hscan
  simp only [vstructBody, hB, if_neg hw.passes, h, Bool.not_true, Bool.false_eq_true, if_false, hscan]
  cases bad <;> rfl

theorem vstructBody_badChecksum (hw : WholeBlocks B) (h : GoodHeader B) {k : Nat} (hk : k < B.length / 128)
    (hbad : byteSum (block B k) % 256 ≠ 0) (hlow : ∀ j < k, byteSum (block B j) % 256 = 0) :
    vstructBody bsel s =
      result false .checksumError .none (putRval (BitVec.ofNat 16 k) { s with acc := accOf (block B k) }) := by
  obtain ⟨js, hjs⟩ := range_split hk
  refine vstructBody_scanned hB hw h (bad := some k) ?_
  rw [hjs]
  exact scanBlocks_some _ js s (fun j hj => hlow j (List.mem_range.mp hj)) hbad

theorem vstructBody_goodChecksums (hw : WholeBlocks B) (h : GoodHeader B)
    (hsum : ∀ k < B.length / 128, byteSum (block B k) % 256 = 0) :
    vstructBody bsel s = if B.length ≠ 128 * (1 + extCount B) then result false .extensionCountMismatch .none { s with acc := 0 }
      else result true .none .none { s with acc := 0 } := by
  refine vstructBody_scanned hB hw h (bad := none) (scanBlocks_none s (fun k hk => hsum k (List.mem_range.mp hk)) ?_)
  rw [ne_eq, List.range_eq_nil]
  omega

end Vstruct

/-- Settles O20: the four checks in their order, each deciding when those before it have passed. -/
theorem vstructResult : Obligations.VstructResult := by
  intro bsel s B hB
  obtain ⟨hframe, haclass, hbytes⟩ := (vstructBody_validated bsel (startCommand s)).buffersKept
  rw [← selected_startCommand] at hB
  refine ⟨forgetStaging (vstructBody bsel (startCommand s)), rfl, hframe, haclass, hbytes, fun hsize => ?size,
    fun hlen hmod hheader => ?header, fun hlen hmod hheader => ⟨fun k hk hbad hlow => ?checksum, fun hsum => ?good⟩⟩
  case size =>
    rw [vstructBody_badSize hB hsize]
    exact ⟨⟨rfl, rfl, rfl⟩, rfl, rfl, rfl⟩
  case header =>
    rw [vstructBody_badHeader hB ⟨hlen, hmod⟩ hheader]
    exact ⟨⟨rfl, rfl, rfl⟩, rfl, rfl, rfl⟩
  case checksum =>
    rw [vstructBody_badChecksum hB ⟨hlen, hmod⟩ hheader hk hbad hlow]
    exact ⟨⟨rfl, rfl, rfl⟩, accOf_toNat _, rfl, rfl⟩
  case good =>
    rw [vstructBody_goodChecksums hB ⟨hlen, hmod⟩ hheader hsum]
    by_cases hcount : B.length = 128 * (1 + extCount B)
    · rw [if_neg (not_not.mpr hcount)]
      exact ⟨rfl, rfl, rfl, (absurd hcount ·), fun _ => ⟨rfl, rfl, rfl⟩⟩
    · rw [if_pos hcount]
      exact ⟨rfl, rfl, rfl, fun _ => ⟨rfl, rfl, rfl⟩, (absurd · hcount)⟩

end Sys2Proof.Proofs
end

section
/-! SUPPORT. FSAFE: which of the descriptors and timing pairs FindSafeTestByte takes (41_validator.md R94). -/

namespace Sys2Proof.Proofs

open Sys2Proof Sys2Proof.Machine Sys2Proof.Laws

/-! ### FindSafeTestByte -/

/-- Descriptor `i` of the base block starts with two zero bytes (R87, R94). -/
abbrev DummyDescriptor (B : List Byte) (i : Nat) : Prop := byteAt B (54 + 18 * i) = 0 ∧ byteAt B (55 + 18 * i) = 0

/-- Standard-timing pair `i` of the base block is the unused marker (R88, R94). -/
abbrev UnusedTiming (B : List Byte) (i : Nat) : Prop := byteAt B (38 + 2 * i) = 1 ∧ byteAt B (39 + 2 * i) = 1

theorem descOffs_eq : Config.DESC_OFFS = (List.range 4).map (54 + 18 * ·) := by decide

theorem stdTimingOffs_eq : Config.STD_TIMING_OFFS = (List.range 8).map (38 + 2 * ·) := by decide

/-- No descriptor's test byte is the checksum byte. -/
theorem dummyDescriptorAt_iff (B : List Byte) (i : Nat) : dummyDescriptorAt B (54 + 18 * i) = true ↔ DummyDescriptor B i := by
  have hnext : 54 + 18 * i + 1 = 55 + 18 * i := by omega
  have hsafe : 54 + 18 * i + 5 ≠ 127 := by omega
  simp only [dummyDescriptorAt, Config.SAFE_DELTA, Config.CKSUM_OFF, hnext, Bool.and_eq_true, beq_iff_eq, bne_iff_ne, ne_eq, hsafe,
    not_false_eq_true, and_true]

theorem unusedTimingAt_iff (B : List Byte) (i : Nat) : unusedTimingAt B (38 + 2 * i) = true ↔ UnusedTiming B i := by
  have hnext : 38 + 2 * i + 1 = 39 + 2 * i := by omega
  simp only [unusedTimingAt, Config.STD_UNUSED, hnext, Bool.and_eq_true, beq_iff_eq]

/-- The lowest of the offsets `f 0, ..., f (n - 1)` that pass. -/
theorem find?_offsets_some {p : Nat → Bool} {f : Nat → Nat} {n i : Nat} (hi : i < n) (hp : p (f i) = true)
    (hlow : ∀ j < i, ¬ p (f j) = true) : ((List.range n).map f).find? p = some (f i) := by
  have hfind : (List.range n).find? (p ∘ f) = some i :=
    List.find?_range_eq_some.mpr ⟨hp, List.mem_range.mpr hi, fun j hj => by simpa using hlow j hj⟩
  rw [List.find?_map, hfind, Option.map_some]

theorem find?_offsets_none {p : Nat → Bool} {f : Nat → Nat} {n : Nat} (h : ∀ i < n, ¬ p (f i) = true) :
    ((List.range n).map f).find? p = none := by
  have hfind : (List.range n).find? (p ∘ f) = none := List.find?_range_eq_none.mpr fun i hi => by simpa using h i hi
  rw [List.find?_map, hfind, Option.map_none]

section FindSafe
variable {B : List Byte}

theorem findSafeTestByte_short (h : B.length < 128) : findSafeTestByte B = none := if_pos h

theorem findSafeTestByte_descriptor (hB : 128 ≤ B.length) {i : Nat} (hi : i < 4) (h : DummyDescriptor B i)
    (hlow : ∀ j < i, ¬ DummyDescriptor B j) : findSafeTestByte B = some (59 + 18 * i) := by
  have hfind : Config.DESC_OFFS.find? (dummyDescriptorAt B) = some (54 + 18 * i) := by
    rw [descOffs_eq]
    simp only [← dummyDescriptorAt_iff] at h hlow
    exact find?_offsets_some hi h hlow
  have hoff : 54 + 18 * i + Config.SAFE_DELTA = 59 + 18 * i := by simp only [Config.SAFE_DELTA]; omega
  have hsize : ¬ B.length < Config.BLOCK_SIZE := Nat.not_lt.mpr hB
  rw [findSafeTestByte, if_neg hsize, hfind, ← hoff]

/-- Without a dummy descriptor the timing pairs decide. -/
theorem findSafeTestByte_noDescriptor (hB : 128 ≤ B.length) (h : ∀ i < 4, ¬ DummyDescriptor B i) :
    findSafeTestByte B = ((List.range 8).map (38 + 2 * ·)).find? (unusedTimingAt B) := by
  have hfind : Config.DESC_OFFS.find? (dummyDescriptorAt B) = none := by
    rw [descOffs_eq]
    simp only [← dummyDescriptorAt_iff] at h
    exact find?_offsets_none h
  have hsize : ¬ B.length < Config.BLOCK_SIZE := Nat.not_lt.mpr hB
  rw [findSafeTestByte, if_neg hsize, hfind, stdTimingOffs_eq]

theorem findSafeTestByte_timing (hB : 128 ≤ B.length) (hd : ∀ i < 4, ¬ DummyDescriptor B i) {i : Nat} (hi : i < 8)
    (h : UnusedTiming B i) (hlow : ∀ j < i, ¬ UnusedTiming B j) : findSafeTestByte B = some (38 + 2 * i) := by
  simp only [← unusedTimingAt_iff] at h hlow
  exact (findSafeTestByte_noDescriptor hB hd).trans (find?_offsets_some hi h hlow)

theorem findSafeTestByte_none (hB : 128 ≤ B.length) (hd : ∀ i < 4, ¬ DummyDescriptor B i) (h : ∀ i < 8, ¬ UnusedTiming B i) :
    findSafeTestByte B = none := by
  simp only [← unusedTimingAt_iff] at h
  exact (findSafeTestByte_noDescriptor hB hd).trans (find?_offsets_none h)

/-- An offset FindSafeTestByte gives fits RVAL. -/
theorem findSafeTestByte_fits {o : Nat} (h : findSafeTestByte B = some o) : (BitVec.ofNat 16 o).toNat = o := by
  have hsafe : SafeOffset o := (findSafeTestByte_safe h).1
  have hlt : o < 128 := (by decide : ∀ x ∈ [59, 77, 95, 113, 38, 40, 42, 44, 46, 48, 50, 52], x < 128) o hsafe
  rw [BitVec.toNat_ofNat]
  omega

end FindSafe

/-! ### FSAFE -/

/-- How FSAFE ends, by what FindSafeTestByte has found. -/
def SafeByteAnswer (t : State) : Option Nat → Prop
  | some o => endsWith t true false .none .none ∧ t.rvalid = true ∧ t.rval = BitVec.ofNat 16 o
  | none => endsWith t false false .none .none ∧ t.rvalid = false ∧ t.rval = 0

theorem fsafe_answers {bsel : BufSel} {s : State} {r : Option Nat} (h : findSafeTestByte (selected bsel s) = r) :
    SafeByteAnswer (forgetStaging (fsafeBody bsel (startCommand s))) r := by
  rw [← selected_startCommand] at h
  rw [fsafeBody, h]
  cases r <;> exact ⟨⟨rfl, rfl, rfl⟩, rfl, rfl⟩

/-- RVALID and RVAL give back what was found. -/
theorem SafeByteAnswer.found {B : List Byte} {t : State} (h : SafeByteAnswer t (findSafeTestByte B)) :
    findSafeTestByte B = if t.rvalid then some t.rval.toNat else none := by
  cases hr : findSafeTestByte B with
  | some o =>
    rw [hr] at h
    obtain ⟨-, hvalid, hval⟩ := h
    rw [hvalid, hval, findSafeTestByte_fits hr, if_pos rfl]
  | none =>
    rw [hr] at h
    obtain ⟨-, hvalid, -⟩ := h
    rw [hvalid, if_neg Bool.false_ne_true]

/-- Settles O21: FSAFE answers what FindSafeTestByte finds, the descriptors before the timing pairs and each from the lowest on. -/
theorem fsafeResult : Obligations.FsafeResult := by
  rintro bsel s B rfl
  obtain ⟨hframe, haclass, hbytes⟩ := (fsafeBody_validated bsel (startCommand s)).buffersKept
  have hacc : (forgetStaging (fsafeBody bsel (startCommand s))).acc = s.acc := fsafeBody_acc bsel (startCommand s)
  rw [hacc] at hframe
  exact ⟨forgetStaging (fsafeBody bsel (startCommand s)), rfl, hframe, haclass, (fsafe_answers rfl).found, hbytes,
    fun hshort => fsafe_answers (findSafeTestByte_short hshort), fun hlen =>
      ⟨fun i hi h0 h1 hlow => fsafe_answers (findSafeTestByte_descriptor hlen hi ⟨h0, h1⟩ hlow), fun hdesc =>
        ⟨fun i hi h0 h1 hlow => fsafe_answers (findSafeTestByte_timing hlen hdesc hi ⟨h0, h1⟩ hlow),
          fun htiming => fsafe_answers (findSafeTestByte_none hlen hdesc htiming)⟩⟩⟩

end Sys2Proof.Proofs
end

section
/-! SUPPORT. RCSUM and then VCSUM or VSTRUCT: the checksums RCSUM stores are the ones the other two accept (41_validator.md R92, R96). -/

namespace Sys2Proof.Proofs

open Sys2Proof Sys2Proof.Machine Sys2Proof.Laws

/-- A document with the checksum of block `k` stored as its byte 127. -/
def withChecksum (B : List Byte) (k : Nat) : List Byte := B.set (128 * k + 127) (checksumByte (accOf ((block B k).take 127)))

theorem selected_checksumStored (bsel : BufSel) (k : Nat) (S : List Byte) (s : State) :
    selected bsel (checksumStored bsel k S s) = (selected bsel s).set (128 * k + 127) (checksumByte (accOf S)) := calc
  selected bsel (checksumStored bsel k S s)
  _ = selected bsel (storeSelected bsel (128 * k + 127) (checksumByte (accOf S))
        (accumulate S (storeSelected bsel (128 * k + 127) 0 s))) := by cases bsel <;> rfl
  _ = (selected bsel s).set (128 * k + 127) (checksumByte (accOf S)) := by
    rw [selected_storeSelected, selected_accumulate, selected_storeSelected, List.set_set]

/-- RCSUM of a full block leaves the document with that block's checksum stored. -/
theorem exec_rcsum_selected {blk : Byte} {bsel : BufSel} {s : State} {B : List Byte} (hB : selected bsel s = B)
    (h : 128 * blk.toNat + 128 ≤ B.length) :
    ∃ t, exec (.rcsum blk bsel) s = .next t ∧ selected bsel t = withChecksum B blk.toNat := by
  subst hB
  refine ⟨_, exec_rcsum_full rfl ((block_full_iff _ _).mpr h), ?_⟩
  have hsel := selected_checksumStored bsel blk.toNat ((block (selected bsel s) blk.toNat).take 127) (startCommand s)
  rw [selected_startCommand] at hsel
  rw [withChecksum, ← hsel]
  cases bsel <;> rfl

/-- Settles O22: the block sums to 0 once its checksum is stored, which is what VCSUM tests. -/
theorem rcsumThenVcsumIsValid : Obligations.RcsumThenVcsumIsValid := by
  intro blk bsel s hfull
  rw [block_full_iff] at hfull
  obtain ⟨t, ht, hsel⟩ := exec_rcsum_selected rfl hfull
  obtain ⟨u, hu, hvalid, -⟩ := vcsumResult blk bsel t
  have hsum : byteSum (block (selected bsel t) blk.toNat) % 256 = 0 := hsel ▸ block_set_checksum hfull
  have hlen : (block (selected bsel t) blk.toNat).length = 128 := by
    rw [block_full_iff, hsel, withChecksum, List.length_set]
    exact hfull
  obtain ⟨hacc, hend⟩ := hvalid hlen
  rw [hsum] at hacc hend
  exact ⟨t, u, ht, hu, hend, BitVec.eq_of_toNat_eq hacc⟩

/-! ### Every block -/

/-- `E` is `D` with the checksums of the blocks below `n` stored: as long as `D`, with its header and its extension count, and
those blocks sum to 0. -/
structure Rechecked (D E : List Byte) (n : Nat) : Prop where
  length : E.length = D.length
  header : E.take 8 = D.take 8
  count : extCount E = extCount D
  sums : ∀ k < n, byteSum (block E k) % 256 = 0

theorem byteAt_set_other {B : List Byte} {a i : Nat} (v : Byte) (h : i ≠ a) : byteAt (B.set a v) i = byteAt B i := by
  simp [byteAt, List.getElem?_set_ne h.symm]

theorem Rechecked.next {D E : List Byte} {n : Nat} (h : Rechecked D E n) (hn : 128 * n + 128 ≤ D.length) :
    Rechecked D (withChecksum E n) (n + 1) where
  length := List.length_set.trans h.length
  header := (List.take_set_of_le (by omega)).trans h.header
  count := (congrArg BitVec.toNat (byteAt_set_other _ (by simp only [Config.EXT_COUNT_OFF]; omega))).trans h.count
  sums k hk := by
    by_cases hkn : k = n
    · subst hkn
      exact block_set_checksum (h.length ▸ hn)
    · rw [withChecksum, block_set_other _ hkn]
      exact h.sums k (by omega)

/-- RCSUM on the blocks below `n`, one after the other. -/
theorem runAll_rcsum {bsel : BufSel} {s : State} {D : List Byte} (hD : selected bsel s = D) (n : Nat) (hn : n ≤ 256)
    (hlen : 128 * n ≤ D.length) :
    ∃ t, runAll ((List.range n).map fun k => .rcsum (BitVec.ofNat 8 k) bsel) s = .next t ∧ Rechecked D (selected bsel t) n := by
  induction n with
  | zero => exact ⟨s, rfl, by rw [hD], by rw [hD], by rw [hD], fun k hk => absurd hk (Nat.not_lt_zero k)⟩
  | succ n ih =>
    obtain ⟨t, ht, hre⟩ := ih (by omega) (by omega)
    have hblk : (BitVec.ofNat 8 n).toNat = n := by
      rw [BitVec.toNat_ofNat]
      omega
    obtain ⟨u, hu, hsel⟩ := exec_rcsum_selected (blk := BitVec.ofNat 8 n) (bsel := bsel) (s := t) rfl <| by
      rw [hblk, hre.length]
      omega
    refine ⟨u, ?_, ?_⟩
    · rw [List.range_succ, List.map_append, runAll_append ht]
      simp only [List.map_cons, List.map_nil, runAll, hu]
    · rw [hsel, hblk]
      exact hre.next (by omega)

/-- Settles O23: RCSUM on every block leaves a document that passes the four checks of VSTRUCT. -/
theorem rcsumAllThenVstructAccepts : Obligations.RcsumAllThenVstructAccepts := by
  intro bsel s D m hD hm1 hm256 hlen hheader hcount
  obtain ⟨t, ht, hre⟩ := runAll_rcsum hD m hm256 hlen.ge
  obtain ⟨u, hu, -, -, -, -, -, hchecks⟩ := vstructResult bsel t _ rfl
  have hlen' := hre.length.trans hlen
  obtain ⟨-, hgood⟩ := hchecks (by omega) (by omega) (hre.header.trans hheader)
  obtain ⟨hacc, -, -, -, haccepts⟩ := hgood fun k hk => hre.sums k (by omega)
  refine ⟨u, ?_, haccepts ?_, hacc⟩
  · rw [rcsumAllThenVstruct, runAll_append ht]
    simp only [runAll, hu]
  · rw [hlen', hre.count, hcount]
    omega

end Sys2Proof.Proofs
end

section
/-! SUPPORT. Register offsets, the two frames as instructions and ReadBlock on given answers (42_frame_marshaller.md R101, R102, R104,
R105). -/

namespace Sys2Proof.Proofs

open Sys2Proof Sys2Proof.Machine Sys2Proof.Laws

/-! ### Register offsets -/

theorem regOff_toNat (o : Nat) : (regOff o).toNat = o % 256 := by rw [regOff_eq, BitVec.toNat_ofNat]

/-- Document offsets that agree modulo 256 share their register offset. -/
theorem regOff_congr {o o' : Nat} (h : o % 256 = o' % 256) : regOff o = regOff o' :=
  BitVec.eq_of_toNat_eq (by rw [regOff_toNat, regOff_toNat, h])

theorem chunkOffs_mod {c : Nat} (h : c ∈ Config.CHUNK_OFFS) : c % 32 = 0 := by
  revert c
  decide

/-- Settles O28: the register offset is a remainder, so every clause is about `o % 256`. -/
theorem registerOffsetsWrap : Obligations.RegisterOffsetsWrap := by
  intro o k c p
  refine ⟨regOff_toNat o, fun hc => ?_, regOff_congr (by omega), regOff_congr (by omega), ?_, fun hc => ?_⟩
  · rw [regOff_toNat]
    split <;> omega
  · rw [regOff_toNat]
    omega
  · have := chunkOffs_mod hc
    rw [regOff_toNat]
    omega

/-! ### An outstanding settle delay -/

section Settled
variable {s : State}

@[simp] theorem afterSettle_busIn : (afterSettle s).busIn = s.busIn := by rw [afterSettle_eq]

@[simp] theorem afterSettle_resetIn : (afterSettle s).resetIn = s.resetIn := by rw [afterSettle_eq]

@[simp] theorem afterSettle_settleDue : (afterSettle s).settleDue = false := by rw [afterSettle_eq]

@[simp] theorem afterSettle_platform : (afterSettle s).platform = s.platform := by rw [afterSettle_eq]

@[simp] theorem eventsOf_afterSettle : eventsOf (afterSettle s) = eventsOf s ++ heldSettle s := by
  rw [afterSettle_eq]
  simp [eventsOf, Function.comp_def]

theorem eventsOf_append {t : State} {es : List Event} {u : State} (h : t.trace = s.trace ++ es.map (entryAt u)) :
    eventsOf t = eventsOf s ++ es := by
  simp [eventsOf, h, Function.comp_def]

variable {bus : BusId} {reg : Byte}

/-- A read frame by itself, with no reset due (R101). -/
theorem exec_fRd_ready {n : Nat} (h : Ready s) (hn : n = 1 ∨ n = 32) :
    exec (.fRd bus reg n) s = .next (afterRead bus reg n (afterSettle s)) := by
  obtain ⟨hb, hr⟩ := h
  have hl : legalReadLength n = true := by simpa [legalReadLength, Config.RD_CHUNK] using hn
  have hread : busRead bus reg n s = .done (readAnswer n (afterSettle s)) (afterRead bus reg n (afterSettle s)) := by
    rw [busRead_awaits, awaitSettle_unreset hr, andThen_done, busRead_unreset (afterSettle_resetIn.trans hr) afterSettle_settleDue]
  show execFRd bus reg n s = _
  rw [execFRd, hb, hl, hread]
  rfl

/-- A write frame by itself, with no reset due (R102). -/
theorem exec_fWr_ready {data : List Byte} (h : Ready s) (hd : data.length = 1 ∨ data.length = 16) :
    exec (.fWr bus reg data) s = .next (afterWrite bus reg data (afterSettle s)) := by
  obtain ⟨hb, hr⟩ := h
  have hl : legalWriteLength data.length = true := by simpa [legalWriteLength, Config.WR_PAGE] using hd
  have hwrite : busWrite bus reg data s = .done (writeAnswer (afterSettle s)) (afterWrite bus reg data (afterSettle s)) := by
    rw [busWrite_awaits, awaitSettle_unreset hr, andThen_done, busWrite_unreset (afterSettle_resetIn.trans hr) afterSettle_settleDue]
  show execFWr bus reg data s = _
  rw [execFWr, hb, hl, hwrite]
  rfl

end Settled

/-- Settles O24: the frame runs from the state in which the outstanding settle delay has passed. -/
theorem readFrameEffect : Obligations.ReadFrameEffect := by
  intro bus reg n s hs hn
  have hf := afterRead_frame bus reg n (afterSettle s)
  have he := afterSettle_eq s
  refine ⟨afterRead bus reg n (afterSettle s), readAnswer n (afterSettle s), exec_fRd_ready hs hn, ?_, ?_, ?_, ?_, ?_, ?_⟩
  · have := eventsOf_append (es := [.rd (readFrame bus reg n) (readAnswer n (afterSettle s))]) (congrArg State.trace hf)
    rw [this, eventsOf_afterSettle]
    rfl
  · rw [hf, he]
  · intro x rest hx
    rw [readAnswer_of (afterSettle_busIn.trans hx)]
    cases x <;> rfl
  · intro bytes ha
    obtain ⟨hi, hc, hn, hb⟩ := afterRead_of_ok (bus := bus) (reg := reg) ha
    exact ⟨readAnswer_length ha, hn, by rw [hb, he], by rw [hi, he], by rw [hc, he]⟩
  · intro c ha
    obtain ⟨hi, hc, hn, hb⟩ := afterRead_of_ioErr (bus := bus) (reg := reg) ha
    rw [afterSettle_platform] at hc
    exact ⟨hi, hc, by rw [hc]; exact aclassOf_ne_none _, hn, by rw [hb, he]⟩
  · exact fun x => ⟨docByte_congr (by rw [hf, he]) (by rw [hf, he]) x, devByte_congr (by rw [hf, he]) (by rw [hf, he]) x⟩

/-- Settles O25: the frame runs from the state in which the outstanding settle delay has passed. -/
theorem writeFrameEffect : Obligations.WriteFrameEffect := by
  intro bus reg data s hs hd
  have hf := afterWrite_frame bus reg data (afterSettle s)
  have he := afterSettle_eq s
  refine ⟨afterWrite bus reg data (afterSettle s), writeAnswer (afterSettle s), exec_fWr_ready hs hd, ?_, ?_, ?_, ?_, ?_, ?_⟩
  · have := eventsOf_append (es := [.wr (writeFrame bus reg data) (writeAnswer (afterSettle s))]) (congrArg State.trace hf)
    rw [this, eventsOf_afterSettle]
    rfl
  · rw [hf, he]
  · intro x rest hx
    rw [writeAnswer_of (afterSettle_busIn.trans hx)]
    cases x <;> rfl
  · intro ha
    obtain ⟨hi, hc⟩ := afterWrite_of_ok (bus := bus) (reg := reg) (data := data) ha
    exact ⟨by rw [hi, he], by rw [hc, he]⟩
  · intro c ha
    obtain ⟨hi, hc⟩ := afterWrite_of_ioErr (bus := bus) (reg := reg) (data := data) ha
    rw [afterSettle_platform] at hc
    exact ⟨hi, hc, by rw [hc]; exact aclassOf_ne_none _⟩
  · exact fun x => ⟨docByte_congr (by rw [hf, he]) (by rw [hf, he]) x, devByte_congr (by rw [hf, he]) (by rw [hf, he]) x⟩

/-! ### ReadBlock -/

theorem readBlock_held {bus : BusId} {k : Nat} {s : State} (hr : s.resetIn = none) :
    readBlock bus k s = readBlock bus k (afterSettle s) := by
  rw [readBlock_awaits, awaitSettle_unreset hr, andThen_done]

/-- Settles O29: ReadBlock runs from the state in which the outstanding settle delay has passed. -/
theorem readBlockInFourChunks : Obligations.ReadBlockInFourChunks := by
  intro bus k s b0 b1 b2 b3 rest hr h0 h1 h2 h3
  have hr' := afterSettle_resetIn.trans hr
  refine ⟨fun hb => ?_, fun code hb => ?_⟩
  · obtain ⟨t, hdone, hframe, hrest, htrace⟩ := readBlock_answered (bus := bus) (k := k) (bs := [b0, b1, b2, b3]) hr'
      afterSettle_settleDue rfl (by simp [h0, h1, h2, h3]) (afterSettle_busIn.trans hb)
    have hflat : [b0, b1, b2, b3].flatten = b0 ++ b1 ++ b2 ++ b3 := by simp
    refine ⟨t, ?_, hrest, by rw [hframe]; exact afterSettle_settleDue, ?_⟩
    · rw [readBlock_held hr, hdone, hflat]
    · rw [eventsOf_append htrace, eventsOf_afterSettle]
      simp [chunkReads, readFrame, regOff_eq, Config.EDID_ADDR7]
  · obtain ⟨t, hdone, hframe, htrace⟩ := readChunks_ioErr bus k code Config.CHUNK_OFFS [b0] [] (afterSettle s) rest hr'
      afterSettle_settleDue (by simp [Config.CHUNK_OFFS]) (by simpa using h0) (afterSettle_busIn.trans hb)
    refine ⟨t, (readBlock_held hr).trans hdone, ?_, ?_, ?_, ?_⟩
    · rw [hframe]
    · rw [hframe]
    · rw [hframe]
      exact afterSettle_settleDue
    · rw [eventsOf_append htrace, eventsOf_afterSettle]
      simp [chunkReads, readFrame, regOff_eq, Config.EDID_ADDR7, Config.CHUNK_OFFS]

end Sys2Proof.Proofs
end

section
/-! SUPPORT. The events of every instruction, in order, and what they make of the settle timer (30_encoding.md R69;
42_frame_marshaller.md R108, R110). -/

namespace Sys2Proof.Proofs

open Sys2Proof Sys2Proof.Machine Sys2Proof.Laws

/-! ### What an instruction emits -/

/-- The events of a frame by itself, as far as a reset let them come: an outstanding settle delay, and then the frame. -/
def FrameEvents (s : State) (IsFrame : Event → Prop) (es : List TraceEntry) : Prop :=
  es = [] ∨ es = heldEntries s ∨ ∃ f, IsFrame f ∧ es = heldEntries s ++ [entryAt s f]

/-- The entries an instruction that starts its body at `s` traces. -/
def InstrEvents (i : Instr) (s : State) (es : List TraceEntry) : Prop :=
  match i with
  | .vcsum _ _ => es = []
  | .rcsum _ _ => es = []
  | .vstruct _ => es = []
  | .fsafe _ => es = []
  | .discover => DiscoverEvents s es
  | .rddoc bus => DocReads bus s es
  | .wrdoc bus => WriteEvents bus s es
  | .tstwr bus => TestEvents bus s es
  | .cmpdoc bus => DocReads bus s es
  | .fRd bus reg n => FrameEvents s (fun f => ∃ a, f = .rd (readFrame bus reg n) a) es
  | .fWr bus reg data => FrameEvents s (fun f => ∃ a, f = .wr (writeFrame bus reg data) a) es

/-- A body that traces nothing. -/
theorem bodyRuns_silent {s t : State} (hs : (t.trace, t.resetIn, t.settleDue, t.resets) = (s.trace, s.resetIn, s.settleDue, s.resets)) :
    BodyRuns s t (fun _ es => es = []) (fun es => es = []) := by
  simp only [Prod.mk.injEq] at hs
  obtain ⟨h1, h2, h3, h4⟩ := hs
  exact bodyRuns_end (Emitted.refl s) h1 h2 h3 h4 rfl

theorem Validated.silent {s t : State} (h : Validated s t) : BodyRuns s t (fun _ es => es = []) (fun es => es = []) :=
  bodyRuns_silent (by rw [h.frame])

theorem rcsumBody_silent (blk : Byte) (bsel : BufSel) (s : State) :
    BodyRuns s (rcsumBody blk bsel s) (fun _ es => es = []) (fun es => es = []) := by
  refine bodyRuns_silent ?_
  rcases rcsumBody_cases blk bsel s with h | ⟨-, S, c, v, h⟩ <;> rw [h]
  · rfl
  · cases bsel <;> rfl

theorem docReads_of_thenDoc {bus : BusId} {s : State} {es : List TraceEntry} (h : ThenDoc bus s [] es) : DocReads bus s es := by
  obtain ⟨cs, rfl, hc⟩ := h
  exact hc

theorem commandBody_events {i : Instr} (hi : isCommand i = true) (s : State) :
    BodyRuns s (commandBody i s) (fun _ => InstrEvents i s) (InstrEvents i s) := by
  cases i with
  | vcsum blk bsel => exact (vcsumBody_validated blk bsel s).silent
  | rcsum blk bsel => exact rcsumBody_silent blk bsel s
  | vstruct bsel => exact (vstructBody_validated bsel s).silent
  | fsafe bsel => exact (fsafeBody_validated bsel s).silent
  | discover => exact bodyRuns_mono (discoverBody_runs s) (fun _ h => h.1) fun _ h => h
  | rddoc bus => exact bodyRuns_mono (rddocBody_runs bus s) (fun _ h => docReads_of_thenDoc h.1) fun _ => docReads_of_thenDoc
  | wrdoc bus => exact bodyRuns_mono (wrdocBody_runs bus s) (fun _ h => h.events) fun _ h => h
  | tstwr bus => exact bodyRuns_mono (tstwrBody_runs bus s) (fun _ h => h.events) fun _ h => h
  | cmpdoc bus => exact bodyRuns_mono (cmpdocBody_runs bus s) (fun _ h => docReads_of_thenDoc h.1) fun _ => docReads_of_thenDoc
  | fRd bus reg n => cases hi
  | fWr bus reg data => cases hi

/-- The state an instruction starts to emit events from: a command makes its start clears first (R30). -/
def begun (i : Instr) (s : State) : State := if isCommand i then startCommand s else s

@[simp] theorem heldSettle_begun (i : Instr) (s : State) : heldSettle (begun i s) = heldSettle s := by
  unfold begun
  split <;> rfl

/-- From `s` to `t` the entries `es` were traced, and the settle timer of `t` is what they make of that of `s`, or idle where a
reset has struck (R182). -/
structure Traced (s t : State) (es : List TraceEntry) : Prop where
  trace : t.trace = s.trace ++ es
  timer : ∃ running, timerAfter s.settleDue (es.map (·.event)) = some running ∧
    (t.resets = s.resets → t.settleDue = running) ∧ (t.resets ≠ s.resets → t.settleDue = false)

theorem bodyRuns_traced {s t : State} {P : State → List TraceEntry → Prop} {Q R : List TraceEntry → Prop} (h : BodyRuns s t P Q)
    (hP : ∀ es, P t es → R es) (hQ : ∀ es, Q es → R es) : ∃ es, Traced s t es ∧ R es := by
  obtain ⟨es, ⟨hem, hp⟩ | ⟨hab, hq⟩⟩ := h
  · exact ⟨es, ⟨hem.trace, _, hem.timer, fun _ => rfl, fun hne => absurd hem.resets hne⟩, hP es hp⟩
  · obtain ⟨u, rfl, htrace, hresets⟩ := hab.struck
    obtain ⟨d, hd⟩ := hab.timer
    have hne : (resetBlock u).resets ≠ s.resets := by
      show u.resets + 1 ≠ s.resets
      omega
    exact ⟨es, ⟨htrace, d, hd, fun heq => absurd heq hne, fun _ => rfl⟩, hQ es hq⟩

/-- Every instruction emits its own events, whatever the answers and whenever reset strikes. -/
theorem exec_events {i : Instr} {s t : State} (h : exec i s = .next t) : ∃ es, Traced s t es ∧ InstrEvents i (begun i s) es := by
  by_cases hi : isCommand i = true
  · rw [exec_command hi h, begun, if_pos hi]
    obtain ⟨es, ⟨htrace, htimer⟩, hes⟩ := bodyRuns_traced (commandBody_events hi (startCommand s)) (fun _ h => h) fun _ h => h
    exact ⟨es, ⟨htrace, htimer⟩, hes⟩
  · cases i with
    | fRd bus reg n =>
      obtain ⟨-, rfl⟩ := execFRd_next h
      refine bodyRuns_traced (frameState_runs (busRead_runs_held bus reg n s)) ?_ fun es hes => hes.imp_right .inl
      rintro es ⟨a, -, -, -, rfl⟩
      exact .inr (.inr ⟨_, ⟨a, rfl⟩, rfl⟩)
    | fWr bus reg data =>
      obtain ⟨-, rfl⟩ := execFWr_next h
      refine bodyRuns_traced (frameState_runs (busWrite_runs_held bus reg data s)) ?_ fun es hes => hes.imp_right .inl
      rintro es ⟨a, -, rfl⟩
      exact .inr (.inr ⟨_, ⟨a, rfl⟩, rfl⟩)
    | _ => exact absurd rfl hi

end Sys2Proof.Proofs
end

section
/-! SUPPORT. The table of frames: every event of an instruction is one that the table gives it (42_frame_marshaller.md R108). -/

namespace Sys2Proof.Proofs

open Sys2Proof Sys2Proof.Machine Sys2Proof.Laws

/-- The entries all have the kind `A`. -/
def AllEvents (A : Event → Bool) (es : List TraceEntry) : Prop := ∀ e ∈ es, A e.event = true

/-- An outstanding settle delay, or nothing, and then entries of the kind `A`. -/
def HeldThen (s : State) (A : Event → Bool) (es : List TraceEntry) : Prop :=
  ∃ held rs, es = held ++ rs ∧ (held = [] ∨ held.map (·.event) = heldSettle s) ∧ AllEvents A rs

section Kinds
variable {A B : Event → Bool} {bus : BusId} {s : State} {es es' : List TraceEntry}

theorem all_nil : AllEvents A [] := fun _ h => (nomatch h)

theorem all_cons {e : TraceEntry} : AllEvents A (e :: es) ↔ A e.event = true ∧ AllEvents A es := List.forall_mem_cons

theorem all_append : AllEvents A (es ++ es') ↔ AllEvents A es ∧ AllEvents A es' := List.forall_mem_append

theorem AllEvents.mono (h : AllEvents A es) (hAB : ∀ e, A e = true → B e = true) : AllEvents B es := fun e he => hAB _ (h e he)

theorem heldThen_nil : HeldThen s A [] := ⟨[], [], rfl, .inl rfl, all_nil⟩

theorem heldThen_held (h : AllEvents A es) : HeldThen s A (heldEntries s ++ es) :=
  ⟨_, es, rfl, .inr (heldEntries_events s), h⟩

/-- More entries behind, in a wider table. -/
theorem HeldThen.append (h : HeldThen s A es) (hAB : ∀ e, A e = true → B e = true) (h' : AllEvents B es') :
    HeldThen s B (es ++ es') := by
  obtain ⟨held, rs, rfl, hheld, hrs⟩ := h
  exact ⟨held, rs ++ es', List.append_assoc .., hheld, all_append.mpr ⟨hrs.mono hAB, h'⟩⟩

/-! ### The procedures -/

theorem all_chunks {n : Nat} (h : ChunkReads bus s n es) : AllEvents (·.isChunkRead bus) es := by
  intro e he
  obtain ⟨reg, a, rfl, hreg, -⟩ := h.2 e he
  simp [Event.isChunkRead, readFrame, Config.EDID_ADDR7, hreg]

theorem heldThen_doc (h : DocReads bus s es) : HeldThen s (·.isChunkRead bus) es := by
  obtain ⟨held, rs, rfl, hheld, hrs⟩ := h
  refine ⟨held, rs, rfl, hheld.imp_right fun ⟨hdue, hheld⟩ => ?_, all_chunks hrs⟩
  rw [hheld, heldSettle, if_pos hdue]
  rfl

theorem heldThen_discover (h : DiscoverEvents s es) : HeldThen s Event.isProbe es := by
  obtain rfl | ⟨as, -, rfl⟩ := h
  · exact heldThen_nil
  refine heldThen_held fun e he => ?_
  rw [← List.map_uncurry_zip_eq_zipWith] at he
  obtain ⟨p, -, rfl⟩ := List.mem_map.mp he
  rfl

theorem heldThen_frame {F : Event → Prop} (h : FrameEvents s F es) (hF : ∀ f, F f → A f = true) : HeldThen s A es := by
  obtain rfl | rfl | ⟨f, hf, rfl⟩ := h
  · exact heldThen_nil
  · rw [← List.append_nil (heldEntries s)]
    exact heldThen_held all_nil
  · exact heldThen_held (all_cons.mpr ⟨hF f hf, all_nil⟩)

/-! ### WRDOC -/

theorem mayEmit_wrdoc_chunk (e : Event) (h : e.isChunkRead bus = true) : mayEmit (.wrdoc bus) e = true := by
  simp [mayEmit, h]

/-- A page of the document is 16 bytes at a multiple of 16 (R104, R107). -/
theorem pageEntry_isPageWrite {p : Nat} {a : WriteAnswer} (h : 16 * p + 16 ≤ s.dlen) :
    (pageEntry bus s p a).event.isPageWrite bus = true := by
  have hreg : 16 * p % 256 % 16 = 0 := by omega
  simp [pageEntry, Event.isPageWrite, page_length h, hreg]

theorem mayEmit_wrdoc_page {p : Nat} {a : WriteAnswer} (h : 16 * p + 16 ≤ s.dlen) :
    mayEmit (.wrdoc bus) (pageEntry bus s p a).event = true := by
  simp [mayEmit, pageEntry_isPageWrite h]

theorem all_afterBackup (h : AfterBackup bus s (s.dlen / 16) es) : AllEvents (mayEmit (.wrdoc bus)) es := by
  obtain ⟨m, tail, rfl, hm, htail⟩ := h
  refine all_append.mpr ⟨fun e he => ?_, ?_⟩
  · obtain ⟨p, hp, rfl | rfl⟩ := pageEntries_isWrite he
    · exact mayEmit_wrdoc_page (by show 16 * p + 16 ≤ s.dlen; omega)
    · rfl
  · rcases htail with rfl | ⟨hlt, a, rfl⟩ | ⟨-, u, -, -, -, -, hc⟩
    · exact all_nil
    · exact all_cons.mpr ⟨mayEmit_wrdoc_page (by show 16 * m + 16 ≤ s.dlen; omega), all_nil⟩
    · exact (all_chunks hc).mono mayEmit_wrdoc_chunk

theorem heldThen_write (h : WriteEvents bus s es) : HeldThen s (mayEmit (.wrdoc bus)) es := by
  obtain ⟨cs, tail, rfl, hc, htail⟩ := h
  have hdoc : HeldThen s (·.isChunkRead bus) cs := heldThen_doc (s := clearWrite s) hc
  refine hdoc.append mayEmit_wrdoc_chunk ?_
  rcases htail with rfl | ⟨bytes, a, more, rfl, -, hmore⟩
  · exact all_nil
  refine all_cons.mpr ⟨by simp [mayEmit, Event.isBackupOf], ?_⟩
  rcases hmore with rfl | ⟨-, hafter⟩
  · exact all_nil
  · exact all_afterBackup hafter

/-! ### TSTWR -/

theorem mayEmit_tstwr_chunk (e : Event) (h : e.isChunkRead bus = true) : mayEmit (.tstwr bus) e = true := by
  simp [mayEmit, h]

/-- The register offset of a safe byte is one of those the table lists (R108, R109). -/
theorem regOff_mem_safeOffsets {off : Nat} (h : SafeOffset off) : regOff off ∈ safeOffsets := by
  revert off
  unfold SafeOffset
  decide

section Probe
variable {off : Nat} (hoff : SafeOffset off)
include hoff

theorem mayEmit_tstwr_rd (a : BusAnswer) : mayEmit (.tstwr bus) (.rd (readFrame bus (regOff off) 1) a) = true := by
  simp [mayEmit, Event.isSafeByteFrame, readFrame, Config.EDID_ADDR7, regOff_mem_safeOffsets hoff]

theorem mayEmit_tstwr_wr (v : Byte) (a : WriteAnswer) : mayEmit (.tstwr bus) (.wr (writeFrame bus (regOff off) [v]) a) = true := by
  simp [mayEmit, Event.isSafeByteFrame, writeFrame, Config.EDID_ADDR7, regOff_mem_safeOffsets hoff]

theorem all_pokeFull {v : Byte} (h : PokeFull bus s off v es) : AllEvents (mayEmit (.tstwr bus)) es := by
  obtain ⟨w, a, rfl, -⟩ := h
  exact all_cons.mpr ⟨mayEmit_tstwr_wr hoff v w, all_cons.mpr ⟨rfl, all_cons.mpr ⟨mayEmit_tstwr_rd hoff a, all_nil⟩⟩⟩

theorem all_pokePart {v : Byte} (h : PokePart bus s off v es) : AllEvents (mayEmit (.tstwr bus)) es := by
  obtain rfl | ⟨w, rfl | rfl⟩ := h
  · exact all_nil
  · exact all_cons.mpr ⟨mayEmit_tstwr_wr hoff v w, all_nil⟩
  · exact all_cons.mpr ⟨mayEmit_tstwr_wr hoff v w, all_cons.mpr ⟨rfl, all_nil⟩⟩

theorem all_probe (h : ProbeEvents bus s off es) : AllEvents (mayEmit (.tstwr bus)) es := by
  obtain ⟨v, v', h | ⟨x, y, rfl, hx, hy⟩⟩ := h
  · exact all_pokePart hoff h
  · exact all_append.mpr ⟨all_pokeFull hoff hx, hy.elim (all_pokePart hoff) (all_pokeFull hoff)⟩

end Probe

theorem heldThen_test (h : TestEvents bus s es) : HeldThen s (mayEmit (.tstwr bus)) es := by
  obtain ⟨cs, tail, rfl, hc, htail⟩ := h
  refine (heldThen_doc hc).append mayEmit_tstwr_chunk ?_
  rcases htail with rfl | ⟨bytes, a, more, rfl, -, hmore⟩
  · exact all_nil
  refine all_cons.mpr ⟨by simp [mayEmit, Event.isBackupOf], ?_⟩
  rcases hmore with rfl | ⟨-, cs', pk, rfl, hc', hpk⟩
  · exact all_nil
  refine all_append.mpr ⟨(all_chunks hc').mono mayEmit_tstwr_chunk, ?_⟩
  rcases hpk with rfl | ⟨off, hoff, hp⟩
  · exact all_nil
  · exact all_probe hoff hp

/-! ### Every instruction -/

theorem InstrEvents.inTable {i : Instr} (h : InstrEvents i s es) : HeldThen s (mayEmit i) es := by
  cases i with
  | vcsum blk bsel => cases h; exact heldThen_nil
  | rcsum blk bsel => cases h; exact heldThen_nil
  | vstruct bsel => cases h; exact heldThen_nil
  | fsafe bsel => cases h; exact heldThen_nil
  | discover => exact heldThen_discover h
  | rddoc bus => exact heldThen_doc h
  | wrdoc bus => exact heldThen_write h
  | tstwr bus => exact heldThen_test h
  | cmpdoc bus => exact heldThen_doc h
  | fRd bus reg n =>
    refine heldThen_frame h ?_
    rintro _ ⟨a, rfl⟩
    simp [mayEmit, readFrame, Config.EDID_ADDR7]
  | fWr bus reg data =>
    refine heldThen_frame h ?_
    rintro _ ⟨a, rfl⟩
    simp [mayEmit, writeFrame, Config.EDID_ADDR7]

end Kinds

/-- Settles O30: the events of each instruction, entry by entry; what may stand before them is the outstanding settle delay. -/
theorem everyEventIsInTheTable : Obligations.EveryEventIsInTheTable := by
  intro i s t h
  obtain ⟨es, htraced, hes⟩ := exec_events h
  obtain ⟨held, rs, rfl, hheld, hrs⟩ := hes.inTable
  rw [heldSettle_begun] at hheld
  exact ⟨held, rs, by rw [htraced.trace, List.append_assoc], hheld, hrs⟩

end Sys2Proof.Proofs
end

section
/-! SUPPORT. Every write frame that an event of its instruction follows is followed by its settle delay (20_memory.md R50;
42_frame_marshaller.md R110; 70_reset_and_hazards.md R204). -/

namespace Sys2Proof.Proofs

open Sys2Proof Sys2Proof.Machine Sys2Proof.Laws

/-- Every write frame among the entries that an entry follows is settled by it. -/
def WritesSettled (es : List TraceEntry) : Prop := settled (es.map (·.event)) = true

/-- The entries leave no write frame to be settled by what follows them. -/
def NoneOpen (es : List TraceEntry) : Prop := ∀ es', WritesSettled es' → WritesSettled (es ++ es')

section Settles
variable {bus : BusId} {s : State} {es es' : List TraceEntry}

theorem noneOpen_nil : NoneOpen [] := fun _ h => h

theorem NoneOpen.append (h : NoneOpen es) (h' : NoneOpen es') : NoneOpen (es ++ es') := fun ts ht => by
  rw [List.append_assoc]
  exact h _ (h' ts ht)

theorem NoneOpen.writesSettled (h : NoneOpen es) : WritesSettled es := by
  have := h [] rfl
  rwa [List.append_nil] at this

/-- An event that is no write frame needs nothing behind it. -/
theorem noneOpen_cons {e : TraceEntry} (he : e.event.isWrite = false) (h : NoneOpen es) : NoneOpen (e :: es) := by
  intro ts ht
  have := h ts ht
  unfold WritesSettled at *
  rw [List.cons_append, List.map_cons]
  cases hl : (es ++ ts).map (·.event) with
  | nil => rfl
  | cons f fs =>
    rw [hl] at this
    simp [settled, he, this]

theorem noneOpen_of_noWrite (h : ∀ e ∈ es, e.event.isWrite = false) : NoneOpen es := by
  induction es with
  | nil => exact noneOpen_nil
  | cons e es ih =>
    obtain ⟨he, hes⟩ := List.forall_mem_cons.mp h
    exact noneOpen_cons he (ih hes)

/-- A write frame with its settle delay behind it. -/
theorem noneOpen_wr_settle {u v : State} {f : WriteFrame} {a : WriteAnswer} (h : NoneOpen es) :
    NoneOpen (entryAt u (.wr f a) :: entryAt v (.settle 10) :: es) := fun ts ht =>
  noneOpen_cons (e := entryAt v (.settle 10)) rfl h ts ht

theorem writesSettled_wr {u : State} {f : WriteFrame} {a : WriteAnswer} : WritesSettled [entryAt u (.wr f a)] := rfl

/-! ### The procedures -/

theorem noneOpen_held : NoneOpen (heldEntries s) := by
  rcases heldEntries_cases s with h | ⟨-, h⟩ <;> rw [h]
  · exact noneOpen_nil
  · exact noneOpen_cons rfl noneOpen_nil

theorem noneOpen_chunks {n : Nat} (h : ChunkReads bus s n es) : NoneOpen es := by
  refine noneOpen_of_noWrite fun e he => ?_
  obtain ⟨reg, a, rfl, -⟩ := h.2 e he
  rfl

theorem noneOpen_doc (h : DocReads bus s es) : NoneOpen es := by
  obtain ⟨held, rs, rfl, rfl | ⟨-, rfl⟩, hrs⟩ := h
  · exact noneOpen_chunks hrs
  · exact noneOpen_cons rfl (noneOpen_chunks hrs)

theorem noneOpen_discover (h : DiscoverEvents s es) : NoneOpen es := by
  obtain rfl | ⟨as, -, rfl⟩ := h
  · exact noneOpen_nil
  refine noneOpen_held.append (noneOpen_of_noWrite fun e he => ?_)
  rw [← List.map_uncurry_zip_eq_zipWith] at he
  obtain ⟨p, -, rfl⟩ := List.mem_map.mp he
  rfl

/-- A frame by itself is the last event of its instruction, so a write frame needs nothing behind it here. -/
theorem writesSettled_frame {F : Event → Prop} (h : FrameEvents s F es) : WritesSettled es := by
  obtain rfl | rfl | ⟨f, -, rfl⟩ := h
  · rfl
  · exact noneOpen_held.writesSettled
  · exact noneOpen_held _ rfl

/-! ### WRDOC -/

theorem noneOpen_pageEntries (k n : Nat) : NoneOpen (pageEntries bus s k n) := by
  induction n generalizing k with
  | zero => exact noneOpen_nil
  | succ n ih =>
    rw [pageEntries_succ]
    exact NoneOpen.append (noneOpen_wr_settle noneOpen_nil) (ih (k + 1))

theorem writesSettled_afterBackup {n : Nat} (h : AfterBackup bus s n es) : WritesSettled es := by
  obtain ⟨m, tail, rfl, -, htail⟩ := h
  refine noneOpen_pageEntries 0 m tail ?_
  rcases htail with rfl | ⟨-, a, rfl⟩ | ⟨-, u, -, -, -, -, hc⟩
  · rfl
  · exact writesSettled_wr
  · exact (noneOpen_chunks hc).writesSettled

theorem writesSettled_write (h : WriteEvents bus s es) : WritesSettled es := by
  obtain ⟨cs, tail, rfl, hc, htail⟩ := h
  refine noneOpen_doc hc tail ?_
  rcases htail with rfl | ⟨bytes, a, more, rfl, -, hmore⟩
  · rfl
  refine noneOpen_cons rfl noneOpen_nil more ?_
  rcases hmore with rfl | ⟨-, hafter⟩
  · rfl
  · exact writesSettled_afterBackup hafter

/-! ### TSTWR -/

theorem noneOpen_pokeFull {off : Nat} {v : Byte} (h : PokeFull bus s off v es) : NoneOpen es := by
  obtain ⟨w, a, rfl, -⟩ := h
  exact noneOpen_wr_settle (noneOpen_cons rfl noneOpen_nil)

theorem writesSettled_pokePart {off : Nat} {v : Byte} (h : PokePart bus s off v es) : WritesSettled es := by
  obtain rfl | ⟨w, rfl | rfl⟩ := h
  · rfl
  · exact writesSettled_wr
  · exact (noneOpen_wr_settle noneOpen_nil).writesSettled

theorem writesSettled_probe {off : Nat} (h : ProbeEvents bus s off es) : WritesSettled es := by
  obtain ⟨v, v', h | ⟨x, y, rfl, hx, hy⟩⟩ := h
  · exact writesSettled_pokePart h
  · exact noneOpen_pokeFull hx y (hy.elim writesSettled_pokePart fun h => (noneOpen_pokeFull h).writesSettled)

theorem writesSettled_test (h : TestEvents bus s es) : WritesSettled es := by
  obtain ⟨cs, tail, rfl, hc, htail⟩ := h
  refine noneOpen_doc hc tail ?_
  rcases htail with rfl | ⟨bytes, a, more, rfl, -, hmore⟩
  · rfl
  refine noneOpen_cons rfl noneOpen_nil more ?_
  rcases hmore with rfl | ⟨-, cs', pk, rfl, hc', hpk⟩
  · rfl
  refine noneOpen_chunks hc' pk ?_
  rcases hpk with rfl | ⟨off, -, hp⟩
  · rfl
  · exact writesSettled_probe hp

/-! ### Every instruction -/

theorem InstrEvents.writesSettled {i : Instr} (h : InstrEvents i s es) : WritesSettled es := by
  cases i with
  | vcsum blk bsel => cases h; rfl
  | rcsum blk bsel => cases h; rfl
  | vstruct bsel => cases h; rfl
  | fsafe bsel => cases h; rfl
  | discover => exact (noneOpen_discover h).writesSettled
  | rddoc bus => exact (noneOpen_doc h).writesSettled
  | wrdoc bus => exact writesSettled_write h
  | tstwr bus => exact writesSettled_test h
  | cmpdoc bus => exact (noneOpen_doc h).writesSettled
  | fRd bus reg n => exact writesSettled_frame h
  | fWr bus reg data => exact writesSettled_frame h

end Settles

/-- Settles O31: the timer from what every procedure makes of it, and the settle delays from the events of each instruction. -/
theorem settleFollowsEveryWrite : Obligations.SettleFollowsEveryWrite := by
  intro i s t h
  obtain ⟨es, ⟨htrace, running, htimer, hkept, hreset⟩, hes⟩ := exec_events h
  exact ⟨es, running, htrace, hes.writesSettled, htimer, hkept, hreset⟩

end Sys2Proof.Proofs
end

section
/-! SUPPORT. The Device Channel commands whatever the answers: every well-formed instruction completes with a bus interface, and the number of
events of each command is bounded (43_device_channel.md R128; 60_exceptions.md R192); WRDOC of a bad length (R124); DISCOVER (R122). -/

namespace Sys2Proof.Proofs

open Sys2Proof Sys2Proof.Machine Sys2Proof.Laws

/-! ### Completion -/

/-- With a bus interface a command runs its body between the start clears and the loss of the staging buffers (R30, R27). -/
theorem exec_command_withBus {i : Instr} {s : State} (hi : isCommand i = true) (hb : s.platform.hasBus = true) :
    exec i s = .next (forgetStaging (commandBody i (startCommand s))) := by
  cases i with
  | vcsum blk bsel => rfl
  | rcsum blk bsel => rfl
  | vstruct bsel => rfl
  | fsafe bsel => rfl
  | discover => exact if_pos hb
  | rddoc bus => exact if_pos hb
  | wrdoc bus => exact if_pos hb
  | tstwr bus => exact if_pos hb
  | cmpdoc bus => exact if_pos hb
  | fRd bus reg n => cases hi
  | fWr bus reg data => cases hi

theorem exec_of_body {i : Instr} {s u : State} (hi : isCommand i = true) (hb : s.platform.hasBus = true)
    (h : commandBody i (startCommand s) = u) : exec i s = .next (forgetStaging u) := by
  rw [exec_command_withBus hi hb, h]

/-- Settles O48: a command runs its body, which is total, and a frame of a legal length is run. -/
theorem everyCommandCompletes : Obligations.EveryCommandCompletes := by
  intro i s hwf hb
  by_cases hi : isCommand i = true
  · exact ⟨_, exec_command_withBus hi hb⟩
  · cases i with
    | fRd bus reg n =>
      have hn : legalReadLength n = true := hwf
      exact ⟨frameState (busRead bus reg n s), by simp [exec, execFRd, hb, hn]⟩
    | fWr bus reg data =>
      have hd : legalWriteLength data.length = true := hwf
      exact ⟨frameState (busWrite bus reg data s), by simp [exec, execFWr, hb, hd]⟩
    | _ => exact absurd rfl hi

/-! ### WRDOC of a bad length -/

/-- Settles O37: the length is checked before the first frame. -/
theorem wrdocRefusesABadLength : Obligations.WrdocRefusesABadLength := by
  intro bus s hb hlen
  have hbody : wrdocBody bus (startCommand s) = raise .sizeError (clearWrite (startCommand s)) := if_pos hlen
  exact ⟨_, exec_of_body rfl hb hbody, ⟨rfl, rfl, rfl⟩, rfl, rfl, rfl, rfl, rfl, rfl⟩

/-! ### How many events -/

section Counts
variable {bus : BusId} {s : State} {es : List TraceEntry}

@[simp] theorem heldEntries_length (s : State) : (heldEntries s).length = (heldSettle s).length := by simp [heldEntries]

theorem docReads_length_le (h : DocReads bus s es) : es.length ≤ (heldSettle s).length + 1024 := by
  obtain ⟨held, rs, rfl, hheld, hrs, -⟩ := h
  have : held.length ≤ (heldSettle s).length := by
    rcases hheld with rfl | ⟨hdue, rfl⟩
    · exact Nat.zero_le _
    · simp [heldSettle, hdue]
  rw [List.length_append]
  omega

theorem discoverEvents_length_le (h : DiscoverEvents s es) : es.length ≤ (heldSettle s).length + s.platform.buses.length := by
  obtain rfl | ⟨as, -, rfl⟩ := h
  · exact Nat.zero_le _
  · simp only [List.length_append, heldEntries_length, List.length_zipWith]
    omega

theorem pageEntries_length (bus : BusId) (s : State) (k n : Nat) : (pageEntries bus s k n).length = 2 * n := by
  simp [pageEntries, Nat.mul_comm]

/-- Two events for a page that is settled, one for a page that is the last event, and then no re-read. -/
theorem afterBackup_length_le {n : Nat} (h : AfterBackup bus s n es) : es.length ≤ 2 * n + 1024 := by
  obtain ⟨m, tail, rfl, hm, htail⟩ := h
  rw [List.length_append, pageEntries_length]
  rcases htail with rfl | ⟨hlt, a, rfl⟩ | ⟨-, u, -, -, -, -, hc, -⟩
  · simp only [List.length_nil]
    omega
  · simp only [List.length_singleton]
    omega
  · omega

theorem writeEvents_length_le (h : WriteEvents bus s es) (hd : s.dlen ≤ 32768) :
    es.length ≤ (heldSettle s).length + 1024 + 1 + 2 * 2048 + 1024 := by
  obtain ⟨cs, tail, rfl, hc, htail⟩ := h
  have hdoc : cs.length ≤ (heldSettle s).length + 1024 := docReads_length_le (s := clearWrite s) hc
  rw [List.length_append]
  rcases htail with rfl | ⟨bytes, a, more, rfl, -, rfl | ⟨-, hafter⟩⟩
  · simp only [List.length_nil]
    omega
  · simp only [List.length_singleton]
    omega
  · have := afterBackup_length_le hafter
    rw [List.length_cons]
    omega

theorem pokeFull_length {off : Nat} {v : Byte} (h : PokeFull bus s off v es) : es.length = 3 := by
  obtain ⟨w, a, rfl, -⟩ := h
  rfl

theorem pokePart_length_le {off : Nat} {v : Byte} (h : PokePart bus s off v es) : es.length ≤ 2 := by
  obtain rfl | ⟨w, rfl | rfl⟩ := h <;> simp

theorem probeEvents_length_le {off : Nat} (h : ProbeEvents bus s off es) : es.length ≤ 6 := by
  obtain ⟨v, v', h | ⟨x, y, rfl, hx, hy⟩⟩ := h
  · have := pokePart_length_le h
    omega
  · have hx := pokeFull_length hx
    have hy : y.length ≤ 3 := hy.elim (fun h => (pokePart_length_le h).trans (by omega)) fun h => (pokeFull_length h).le
    rw [List.length_append]
    omega

theorem testEvents_length_le (h : TestEvents bus s es) : es.length ≤ (heldSettle s).length + 1024 + 1 + 1024 + 6 := by
  obtain ⟨cs, tail, rfl, hc, htail⟩ := h
  have hdoc := docReads_length_le hc
  rw [List.length_append]
  rcases htail with rfl | ⟨bytes, a, more, rfl, -, rfl | ⟨-, cs', pk, rfl, ⟨hc', -⟩, hpk⟩⟩
  · simp only [List.length_nil]
    omega
  · simp only [List.length_singleton]
    omega
  · have hpk : pk.length ≤ 6 := by
      rcases hpk with rfl | ⟨off, -, hp⟩
      · exact Nat.zero_le _
      · exact probeEvents_length_le hp
    simp only [List.length_cons, List.length_append]
    omega

end Counts

/-- Settles O32: the events of each command, counted part by part. -/
theorem commandsEmitBoundedlyManyEvents : Obligations.CommandsEmitBoundedlyManyEvents := by
  intro i s t hd h
  obtain ⟨es, htraced, hes⟩ := exec_events h
  refine ⟨es, htraced.trace, ?_, ?_, ?_, ?_⟩
  · rintro rfl
    exact discoverEvents_length_le (s := startCommand s) hes
  · rintro bus (rfl | rfl) <;> exact docReads_length_le (s := startCommand s) hes
  · rintro bus rfl
    exact writeEvents_length_le (s := startCommand s) hes hd
  · rintro bus rfl
    exact testEvents_length_le (s := startCommand s) hes

/-! ### DISCOVER -/

/-- Settles O33: the probes of the candidate buses, from the state in which PROBE is empty. -/
theorem discoverResult : Obligations.DiscoverResult := by
  intro s hs
  obtain ⟨t, as, hrun, hlen, hev, hprobe, hnoted, hin, hframe⟩ :=
    probeBuses_held s.platform.buses (s := { startCommand s with probe := [] }) hs.2
  have hbody : discoverBody (startCommand s) = result true .none .none t := by
    show (probeBuses s.platform.buses { startCommand s with probe := [] }).finish _ = _
    rw [hrun, finish_done]
  refine ⟨_, as, exec_of_body rfl hs.1 hbody, ⟨rfl, rfl, rfl⟩, hlen, hev, hprobe, ?_, hin, ?_, ?_, ?_, ?_, ?_⟩
  · exact hnoted.errorNoted (t := t) rfl rfl rfl
  · show t.settleDue = _
    rw [hframe]
    by_cases h : s.platform.buses = [] <;> simp [h]
  · rw [hframe]
    rfl
  · rw [hframe]
    rfl
  · rw [hframe]
    rfl
  · exact fun a => ⟨docByte_congr (by rw [hframe]; rfl) (by rw [hframe]; rfl) a, devByte_congr (by rw [hframe]; rfl) (by rw [hframe]; rfl) a⟩

end Sys2Proof.Proofs
end

section
/-! SUPPORT. The commands on a device whose answers are given: how reading a document goes on or ends the command, RDDOC and CMPDOC
(43_device_channel.md R120, R123, R127), and the first read of the commands that write (R124, R126). -/

namespace Sys2Proof.Proofs

open Sys2Proof Sys2Proof.Machine Sys2Proof.Laws

/-! ### The two ways a document read can go -/

/-- In `v` the command that started at `s` has noted no I/O error and returned neither a value nor a message yet (R30). -/
structure Fresh (s v : State) : Prop where
  ioerr : v.ioerr = s.ioerr
  aclass : v.aclass = .none
  msg : v.msg = .none
  rval : v.rval = 0
  rvalid : v.rvalid = false
  platform : v.platform = s.platform

@[simp] theorem eventsOf_startCommand (s : State) : eventsOf (startCommand s) = eventsOf s := rfl

@[simp] theorem heldSettle_startCommand (s : State) : heldSettle (startCommand s) = heldSettle s := rfl

theorem fresh_startCommand (s : State) : Fresh s (startCommand s) := ⟨rfl, rfl, rfl, rfl, rfl, rfl⟩

/-- The document `D` has been read from `v` to `u`, by the frames of R106 after an outstanding settle delay. -/
structure HasRead (bus : BusId) (D : List Byte) (rest : List BusAnswer) (v u : State) : Prop where
  frame : SameButDoc v u
  busIn : u.busIn = rest
  devlen : u.devlen = D.length
  devBytes : devBytes u = D
  events : eventsOf u = eventsOf v ++ heldSettle v ++ docReads bus D

/-- The command that started at `s` and read from `v` on has ended at `t` in the failure `f` after the chunks `cs`. -/
structure FailedRead (bus : BusId) (cs : List (List Byte)) (f : ReadFailure) (rest : List BusAnswer) (s v t : State) : Prop where
  ends : endsInFailedRead s t cs f
  busIn : t.busIn = rest
  idle : t.settleDue = false
  events : eventsOf t = eventsOf v ++ heldSettle v ++ readsFrom bus 0 (cs.map .ok ++ f.answers)
  frame : SameButRead v t

section Reading
variable {bus : BusId} {s v u : State} {D : List Byte} {cs : List (List Byte)} {f : ReadFailure} {rest : List BusAnswer}

theorem readDocument_hasRead (hr : v.resetIn = none) (hD : SelfSized D) (hb : v.busIn = handsOver D ++ rest) :
    ∃ u, readDocument bus v = .done .ok u ∧ HasRead bus D rest v u := by
  obtain ⟨u, hread, hframe, hrest, hlen, hbytes, htrace⟩ := readDocument_handsOver (bus := bus) hr hD hb
  exact ⟨u, hread, hframe, hrest, hlen, hbytes, by rw [eventsOf_append htrace, List.append_assoc]⟩

/-- A command that ends in its failed read keeps what the read has left (R176). -/
theorem readDocument_failedRead (hv : Fresh s v) (hr : v.resetIn = none) (hf : f.After cs)
    (hb : v.busIn = cs.map .ok ++ f.answers ++ rest) :
    ∃ u, readDocument bus v = .done (docAnswerOf f) u ∧ FailedRead bus cs f rest s v (forgetStaging (raise f.err u)) := by
  obtain ⟨u, hread, hframe, hbytes, htrace⟩ := readDocument_failed (bus := bus) hr hf hb
  have hnoted : errorNoted s u f.answers :=
    errorNoted_of (u := v) (by rw [hframe]) (by rw [hframe]) hv.ioerr hv.aclass hv.platform
  have hu : u.msg = .none ∧ u.rvalid = false ∧ u.rval = 0 ∧ u.devlen = 128 * (cs.length / 4) := by
    rw [hframe]
    exact ⟨hv.msg, hv.rvalid, hv.rval, rfl⟩
  obtain ⟨hmsg, hvalid, hval, hlen⟩ := hu
  refine ⟨u, hread, ⟨⟨rfl, rfl, hmsg⟩, hnoted, hvalid, hval, hlen, hbytes⟩, ?_, ?_, ?_, ?_⟩
  · show u.busIn = rest
    rw [hframe]
  · show u.settleDue = false
    rw [hframe]
  · show eventsOf u = _
    rw [eventsOf_append htrace, List.append_assoc]
  · rw [hframe]
    rfl

/-! ### What the bodies make of it -/

theorem rddocBody_failed (h : readDocument bus s = .done (docAnswerOf f) u) : rddocBody bus s = raise f.err u := by
  rw [rddocBody, h]
  cases f <;> rfl

theorem cmpdocBody_failed (h : readDocument bus { s with diff := [] } = .done (docAnswerOf f) u) :
    cmpdocBody bus s = raise f.err u := by
  rw [cmpdocBody, h]
  cases f <;> rfl

theorem tstwrBody_failed (h : readDocument bus { s with bkvalid := false } = .done (docAnswerOf f) u) :
    tstwrBody bus s = raise f.err u := by
  rw [tstwrBody, h]
  cases f <;> rfl

theorem verifyWrite_failed (h : readDocument bus (setWstate .readBack (setWstate .writtenAll s)) = .done (docAnswerOf f) u) :
    verifyWrite bus s = raise f.err u := by
  rw [verifyWrite, h]
  cases f <;> rfl

/-- The length that WRDOC takes (R124). -/
abbrev GoodLength (s : State) : Prop := s.dlen ≠ 0 ∧ s.dlen % 128 = 0

theorem GoodLength.passes (h : GoodLength s) : ¬ (s.dlen = 0 ∨ s.dlen % Config.BLOCK_SIZE ≠ 0) := by
  obtain ⟨hne, hmod⟩ := h
  simp [hne, hmod, Config.BLOCK_SIZE]

theorem wrdocBody_failed (hl : GoodLength s) (h : readDocument bus (clearWrite s) = .done (docAnswerOf f) u) :
    wrdocBody bus s = raise f.err u := by
  rw [show wrdocBody bus s = _ from if_neg hl.passes, h]
  cases f <;> rfl

end Reading

/-! ### RDDOC -/

/-- Settles O34: the document read goes through, and RVAL is the number of blocks in DEV. -/
theorem rddocReadsTheDocument : Obligations.RddocReadsTheDocument := by
  intro bus s D rest hs hD hb
  obtain ⟨u, hread, h⟩ := readDocument_hasRead (bus := bus) (v := startCommand s) hs.2 hD hb
  have hblocks : u.devlen / 128 = 1 + extCount D := by
    rw [h.devlen, hD]
    omega
  have hbody : rddocBody bus (startCommand s) = result true .none .none (putRval (BitVec.ofNat 16 (1 + extCount D)) u) := by
    rw [rddocBody, hread, ← hblocks]
    rfl
  refine ⟨_, exec_of_body rfl hs.1 hbody, ⟨rfl, rfl, rfl⟩, h.devBytes, h.devlen, rfl, rfl, ?_, ?_, h.busIn, h.events, ?_, ?_,
    docByte_congr ?_ ?_⟩ <;> rw [h.frame] <;> rfl

/-- RDDOC whose read fails (R123). -/
theorem rddoc_failedRead {bus : BusId} {s : State} {cs : List (List Byte)} {f : ReadFailure} {rest : List BusAnswer} (hs : Ready s)
    (hf : f.After cs) (hb : s.busIn = cs.map .ok ++ f.answers ++ rest) :
    ∃ t, exec (.rddoc bus) s = .next t ∧ FailedRead bus cs f rest s (startCommand s) t := by
  obtain ⟨u, hread, h⟩ := readDocument_failedRead (bus := bus) (fresh_startCommand s) hs.2 hf hb
  exact ⟨_, exec_of_body rfl hs.1 (rddocBody_failed hread), h⟩

theorem readsFrom_length (bus : BusId) (i : Nat) (as : List BusAnswer) : (readsFrom bus i as).length = as.length := by
  induction as generalizing i with
  | nil => rfl
  | cons a as ih => simp [readsFrom, ih]

/-- Settles O35: the failed read of RDDOC for an I/O error. -/
theorem rddocAccessError : Obligations.RddocAccessError := by
  intro bus s cs code rest hs hfull hshort hb
  obtain ⟨t, hexec, h⟩ := rddoc_failedRead (bus := bus) (f := .ioErr code) (rest := rest) hs ⟨hfull, hshort⟩
    (by simpa [ReadFailure.answers] using hb)
  obtain ⟨hend, ⟨hio, hclass⟩, hvalid, hval, hlen, hbytes⟩ := h.ends
  refine ⟨t, hexec, hend, hio, hclass, hvalid, hval, hlen, hbytes, h.busIn, ?_, h.idle, ?_, docByte_congr ?_ ?_⟩
  · rw [h.events]
    simp only [eventsOf_startCommand, heldSettle_startCommand, List.length_append, readsFrom_length, List.length_map,
      ReadFailure.answers, List.length_singleton]
    omega
  all_goals
    rw [h.frame]
    rfl

/-- Settles O36: the failed read of RDDOC for a short block, which starts after whole blocks. -/
theorem rddocSizeError : Obligations.RddocSizeError := by
  intro bus s cs k b0 b1 b2 b3 rest hs hfull hk hshort h0 h1 h2 h3 hne hb
  have hafter : (ReadFailure.short [b0, b1, b2, b3]).After cs := by
    refine ⟨hfull, by omega, fun hcs => ?_, rfl, by simp [h0, h1, h2, h3], by simpa using hne⟩
    have hk0 : k ≠ 0 := by
      rintro rfl
      exact hcs (List.length_eq_zero_iff.mp hk)
    have := hshort hk0
    omega
  obtain ⟨t, hexec, h⟩ := rddoc_failedRead (bus := bus) (rest := rest) hs hafter hb
  obtain ⟨hend, hnoted, hvalid, hval, hlen, hbytes⟩ := h.ends
  have hblocks : cs.length / 4 = k := by omega
  rw [hblocks] at hlen hbytes
  refine ⟨t, hexec, hend, hvalid, hval, hnoted.2, hlen, ?_, h.busIn, ?_, h.idle, ?_, docByte_congr ?_ ?_⟩
  · rw [hbytes, List.take_of_length_le (by rw [flatten_length hfull]; omega)]
  · rw [h.events]
    simp only [eventsOf_startCommand, heldSettle_startCommand, List.length_append, readsFrom_length, List.length_map,
      ReadFailure.answers, List.length_cons, List.length_nil]
    omega
  all_goals
    rw [h.frame]
    rfl

/-! ### CMPDOC -/

/-- The differences found from an offset on are those at the offsets that the rest has (R127). -/
theorem diffsFrom_eq (ds fs : List Byte) (o : Nat) (h : ds.length = fs.length) :
    diffsFrom o ds fs = ((List.range fs.length).filter fun i => byteAt ds i ≠ byteAt fs i).map fun i =>
      { offset := BitVec.ofNat 16 (o + i), deviceByte := byteAt ds i, fileByte := byteAt fs i } := by
  induction ds generalizing o fs with
  | nil =>
    cases fs with
    | nil => rfl
    | cons f fs => simp at h
  | cons d ds ih =>
    cases fs with
    | nil => simp at h
    | cons f fs =>
      have ih := ih fs (o + 1) (by simpa using h)
      have hstep : ∀ i, o + 1 + i = o + (i + 1) := fun i => by omega
      simp only [hstep] at ih
      rw [diffsFrom, ih, List.length_cons, List.range_succ_eq_map, List.filter_cons, List.filter_map]
      by_cases hd : d = f <;> simp [hd, byteAt, Function.comp_def]

theorem diffsFrom_differences {ds fs : List Byte} (h : ds.length = fs.length) : diffsFrom 0 ds fs = differences ds fs := by
  rw [diffsFrom_eq ds fs 0 h, differences]
  simp only [Nat.zero_add]

/-- There is no difference exactly between equal documents. -/
theorem diffsFrom_eq_nil {ds fs : List Byte} (o : Nat) (h : ds.length = fs.length) : diffsFrom o ds fs = [] ↔ ds = fs := by
  induction ds generalizing o fs with
  | nil =>
    cases fs with
    | nil => simp [diffsFrom]
    | cons f fs => simp at h
  | cons d ds ih =>
    cases fs with
    | nil => simp at h
    | cons f fs =>
      have ih := ih (o + 1) (fs := fs) (by simpa using h)
      by_cases hd : d = f <;> simp [diffsFrom, hd, ih]

/-- How CMPDOC compares the document in DEV with that in DOC: OK, MSG and DIFF (R127). -/
structure Compared (u : State) (ok : Bool) (m : Msg) (ds : List DiffEntry) : Prop where
  size : u.devlen ≠ u.dlen → ok = false ∧ m = .sizeMismatch ∧ ds = []
  listed : u.devlen = u.dlen → ds = differences (devBytes u) (docBytes u)
  same : devBytes u = docBytes u → ok = true ∧ m = .isMatch ∧ ds = []
  differ : u.devlen = u.dlen → devBytes u ≠ docBytes u → ok = false ∧ m = .differ ∧ ds ≠ []

/-- The end of CMPDOC, once the document has been read (R127). -/
def endCompare (s : State) : State :=
  if s.devlen ≠ s.dlen then result false .none .sizeMismatch s
  else
    let s := { s with diff := diffsFrom 0 (devBytes s) (docBytes s) }
    if s.diffn = 0 then result true .none .isMatch s else result false .none .differ s

theorem cmpdocBody_read {bus : BusId} {s u : State} (h : readDocument bus { s with diff := [] } = .done .ok u) :
    cmpdocBody bus s = endCompare u := by
  rw [cmpdocBody, h]
  rfl

theorem endCompare_compared {u : State} (hd : u.diff = []) :
    ∃ ok m ds, endCompare u = result ok .none m { u with diff := ds } ∧ Compared u ok m ds := by
  have hsame : devBytes u = docBytes u → u.devlen = u.dlen := fun he => by
    rw [← devBytes_length, he, docBytes_length]
  unfold endCompare
  by_cases hl : u.devlen = u.dlen
  · have hlen : (devBytes u).length = (docBytes u).length := by rw [devBytes_length, docBytes_length, hl]
    rw [if_neg (not_not.mpr hl)]
    by_cases he : devBytes u = docBytes u
    · have hnil := (diffsFrom_eq_nil 0 hlen).mpr he
      refine ⟨true, .isMatch, _, if_pos (by rw [hnil]; rfl), fun hne => absurd hl hne, fun _ => diffsFrom_differences hlen,
        fun _ => ⟨rfl, rfl, hnil⟩, fun _ hne => absurd he hne⟩
    · have hcons := mt (diffsFrom_eq_nil 0 hlen).mp he
      refine ⟨false, .differ, _, if_neg (mt List.length_eq_zero_iff.mp hcons), fun hne => absurd hl hne,
        fun _ => diffsFrom_differences hlen, fun h => absurd h he, fun _ _ => ⟨rfl, rfl, hcons⟩⟩
  · rw [if_pos hl]
    exact ⟨false, .sizeMismatch, [], by rw [← hd], fun _ => ⟨rfl, rfl, rfl⟩, fun h => absurd h hl, fun he => absurd (hsame he) hl,
      fun h => absurd h hl⟩

/-- Settles O46: the document read goes through, and DIFF is what the comparison lists. -/
theorem cmpdocListsTheDifferences : Obligations.CmpdocListsTheDifferences := by
  intro bus s D rest hs hD hb
  obtain ⟨u, hread, h⟩ := readDocument_hasRead (bus := bus) (v := { startCommand s with diff := [] }) hs.2 hD hb
  obtain ⟨ok, m, ds, hend, hsize, hlisted, hsame, hdiffer⟩ := endCompare_compared (u := u) (by rw [h.frame])
  have hbody := (cmpdocBody_read hread).trans hend
  have hdoc : docBytes u = docBytes s := by
    rw [h.frame]
    rfl
  have hdlen : u.dlen = s.dlen := by
    rw [h.frame]
    rfl
  rw [h.devlen, hdlen] at hsize hlisted hdiffer
  rw [h.devBytes, hdoc] at hlisted hsame hdiffer
  refine ⟨_, exec_of_body rfl hs.1 hbody, fun hne => ?_, fun hl => ⟨hlisted hl, fun he => ?_, fun hne => ?_⟩, h.devBytes, h.devlen,
    h.busIn, h.events, ?_, ?_, ?_, ?_, ?_, ?_, docByte_congr ?_ ?_⟩
  · obtain ⟨rfl, rfl, rfl⟩ := hsize hne
    exact ⟨⟨rfl, rfl, rfl⟩, rfl⟩
  · obtain ⟨rfl, rfl, rfl⟩ := hsame he
    exact ⟨⟨rfl, rfl, rfl⟩, rfl⟩
  · obtain ⟨rfl, rfl, hcons⟩ := hdiffer hl hne
    exact ⟨⟨rfl, rfl, rfl⟩, mt List.length_eq_zero_iff.mp hcons⟩
  all_goals
    rw [h.frame]
    rfl

/-! ### The first read fails -/

/-- Settles O41: each of the three commands ends where its first read has failed, with only its own clears made before. -/
theorem firstReadFailureEndsTheCommand : Obligations.FirstReadFailureEndsTheCommand := by
  intro bus s cs f rest hs hf hb i hi hlen
  simp only [List.mem_cons, List.not_mem_nil, or_false] at hi
  rcases hi with rfl | rfl | rfl
  · obtain ⟨u, hread, h⟩ := readDocument_failedRead (bus := bus) (s := s) (v := clearWrite (startCommand s))
      ⟨rfl, rfl, rfl, rfl, rfl, rfl⟩ hs.2 hf hb
    have hbody := wrdocBody_failed (s := startCommand s) (hlen rfl) hread
    refine ⟨_, exec_of_body rfl hs.1 hbody, h.ends, h.busIn, h.idle, h.events, fun _ => ?_, nofun, nofun, docByte_congr ?_ ?_⟩
    · refine ⟨?_, ?_, ?_, ?_, ?_, ?_, ?_⟩ <;> rw [h.frame] <;> rfl
    all_goals
      rw [h.frame]
      rfl
  · obtain ⟨u, hread, h⟩ := readDocument_failedRead (bus := bus) (s := s) (v := { startCommand s with bkvalid := false })
      ⟨rfl, rfl, rfl, rfl, rfl, rfl⟩ hs.2 hf hb
    have hbody := tstwrBody_failed hread
    refine ⟨_, exec_of_body rfl hs.1 hbody, h.ends, h.busIn, h.idle, h.events, nofun, fun _ => ?_, nofun, docByte_congr ?_ ?_⟩
    · refine ⟨?_, ?_, ?_, ?_⟩ <;> rw [h.frame] <;> rfl
    all_goals
      rw [h.frame]
      rfl
  · obtain ⟨u, hread, h⟩ := readDocument_failedRead (bus := bus) (s := s) (v := { startCommand s with diff := [] })
      ⟨rfl, rfl, rfl, rfl, rfl, rfl⟩ hs.2 hf hb
    have hbody := cmpdocBody_failed hread
    refine ⟨_, exec_of_body rfl hs.1 hbody, h.ends, h.busIn, h.idle, h.events, nofun, nofun, fun _ => ?_, docByte_congr ?_ ?_⟩
    · exact ⟨by rw [h.frame], by rw [h.frame]; rfl⟩
    all_goals
      rw [h.frame]
      rfl

end Sys2Proof.Proofs
end

section
/-! SUPPORT. The commands that take a backup, on given answers: the backup itself, and the pages and the verification of WRDOC
(43_device_channel.md R121, R124, R125). -/

namespace Sys2Proof.Proofs

open Sys2Proof Sys2Proof.Machine Sys2Proof.Laws

/-! ### The backup -/

/-- From `v` to `w` the document `D` has been read and the host has taken the backup of it under `id`. -/
structure BackedUp (bus : BusId) (D : List Byte) (id : BackupId) (rest : List BusAnswer) (brest : List BackupAnswer) (v w : State) :
    Prop where
  frame : w = { v with
    settleDue := false, chbuf := w.chbuf, chn := w.chn, busIn := rest, trace := w.trace, dev := w.dev, devlen := w.devlen
    bkid := id, bkvalid := true, backupIn := brest }
  devBytes : devBytes w = D
  events : eventsOf w = eventsOf v ++ heldSettle v ++ docReads bus D ++ [.backup bus D (.ok id)]

/-- From `v` to `w` the document `D` has been read and the host could not take the backup of it. -/
structure NotBackedUp (bus : BusId) (D : List Byte) (rest : List BusAnswer) (brest : List BackupAnswer) (v w : State) : Prop where
  frame : w = { v with
    settleDue := false, chbuf := w.chbuf, chn := w.chn, busIn := rest, trace := w.trace, dev := w.dev, devlen := w.devlen
    backupIn := brest }
  events : eventsOf w = eventsOf v ++ heldSettle v ++ docReads bus D ++ [.backup bus D .fail]

section Backup
variable {bus : BusId} {s v u w : State} {D : List Byte} {id : BackupId} {rest : List BusAnswer} {brest : List BackupAnswer}

theorem readDocument_backedUp (hr : v.resetIn = none) (hD : SelfSized D) (hb : v.busIn = handsOver D ++ rest)
    (hk : v.backupIn = .ok id :: brest) :
    ∃ u w, readDocument bus v = .done .ok u ∧ hostBackup bus (devBytes u) u = .done (.ok id) w ∧
      BackedUp bus D id rest brest v w := by
  obtain ⟨u, hread, h⟩ := readDocument_hasRead (bus := bus) hr hD hb
  refine ⟨u, _, hread, hostBackup_ok (rest := brest) (by rw [h.frame]; exact hr) (by rw [h.frame]; exact hk), ?_, h.devBytes, ?_⟩
  · rw [h.frame, ← h.busIn]
  · rw [← h.events, h.devBytes]
    simp [eventsOf]

theorem readDocument_notBackedUp (hr : v.resetIn = none) (hD : SelfSized D) (hb : v.busIn = handsOver D ++ rest)
    (hk : v.backupIn = .fail :: brest) :
    ∃ u w, readDocument bus v = .done .ok u ∧ hostBackup bus (devBytes u) u = .done .fail w ∧
      NotBackedUp bus D rest brest v w := by
  obtain ⟨u, hread, h⟩ := readDocument_hasRead (bus := bus) hr hD hb
  refine ⟨u, _, hread, hostBackup_fail (rest := brest) (by rw [h.frame]; exact hr) (by rw [h.frame]; exact hk), ?_, ?_⟩
  · rw [h.frame, ← h.busIn]
  · rw [← h.events, h.devBytes]
    simp [eventsOf]

/-- How a command goes on from the host's answer to its backup request: a failure, or the rest of the command (R121). -/
def onBackup (go : State → State) : BackupAnswer → State → State
  | .fail, s => raise .backupFailed s
  | .ok _, s => go s

/-- WRDOC up to the answer to its backup request (R124). -/
theorem wrdocBody_backup {a : BackupAnswer} (hl : GoodLength s) (hread : readDocument bus (clearWrite s) = .done .ok u)
    (hback : hostBackup bus (devBytes u) u = .done a w) : wrdocBody bus s = onBackup (writeAndVerify bus) a w := by
  rw [show wrdocBody bus s = _ from if_neg hl.passes, hread, finish_done]
  simp only
  rw [hback]
  cases a <;> rfl

/-- What TSTWR does once its backup is taken (R126). -/
def testBackedUp (bus : BusId) (s : State) : State :=
  (readDocument bus s).finish fun r s =>
    match r with
    | .access => raise .accessError s
    | .size => raise .sizeError s
    | .ok =>
      match findSafeTestByte (devBytes s) with
      | none => result false .safeByteNotFound .noSafeByte s
      | some off => probeByte bus off s

/-- TSTWR up to the answer to its backup request (R126). -/
theorem tstwrBody_backup {a : BackupAnswer} (hread : readDocument bus { s with bkvalid := false } = .done .ok u)
    (hback : hostBackup bus (devBytes u) u = .done a w) : tstwrBody bus s = onBackup (testBackedUp bus) a w := by
  rw [tstwrBody, hread, finish_done]
  simp only
  rw [hback]
  cases a <;> rfl

end Backup

/-- Settles O40: both commands end at the answer of the host, before any write frame. -/
theorem backupFailedWritesNothing : Obligations.BackupFailedWritesNothing := by
  intro bus s D0 rest brest hs hD hb hk i hi hlen
  simp only [List.mem_cons, List.not_mem_nil, or_false] at hi
  rcases hi with rfl | rfl
  · obtain ⟨u, w, hread, hback, h⟩ := readDocument_notBackedUp (bus := bus) (v := clearWrite (startCommand s)) hs.2 hD hb hk
    have hbody := wrdocBody_backup (s := startCommand s) (hlen rfl) hread hback
    refine ⟨_, exec_of_body rfl hs.1 hbody, ⟨rfl, rfl, ?_⟩, ?_, ?_, h.events, fun _ => ⟨?_, ?_, ?_⟩, ?_, ?_, docByte_congr ?_ ?_⟩ <;>
      rw [h.frame] <;> rfl
  · obtain ⟨u, w, hread, hback, h⟩ :=
      readDocument_notBackedUp (bus := bus) (v := { startCommand s with bkvalid := false }) hs.2 hD hb hk
    have hbody := tstwrBody_backup hread hback
    refine ⟨_, exec_of_body rfl hs.1 hbody, ⟨rfl, rfl, ?_⟩, ?_, ?_, h.events, nofun, ?_, ?_, docByte_congr ?_ ?_⟩ <;>
      rw [h.frame] <;> rfl

/-! ### The pages of WRDOC -/

section Pages
variable {bus : BusId} {s w : State} {ws : List (List Byte)} {rest : List BusAnswer}

/-- Every page is acknowledged, and the verification is next (R124). -/
theorem writeAndVerify_acknowledged (hr : w.resetIn = none) (hs : w.settleDue = false) (hI : w.pageI = 0)
    (hws : ws.length = w.dlen / 16) (hb : w.busIn = ws.map .ok ++ rest) :
    ∃ v, writeAndVerify bus w = verifyWrite bus v ∧
      v = { w with
        wstate := v.wstate, pageI := w.dlen / 16, pageN := w.dlen / 16, pgbuf := v.pgbuf, busIn := rest, trace := v.trace } ∧
      eventsOf v = eventsOf w ++ pageWrites bus (docBytes w) (w.dlen / 16) := by
  obtain ⟨v, hrun, hframe, hrest, -, hpage, htrace⟩ :=
    writePages_run bus [] (w.dlen / 16) 0 { setWstate .backedUp w with pageN := w.dlen / 16 } ws rest hr hs hws
      (by show 16 * (0 + w.dlen / 16) ≤ w.dlen; omega) hb hI
  refine ⟨v, ?_, ?_, ?_⟩
  · rw [List.append_nil, ← List.range_eq_range'] at hrun
    show (writePages bus (List.range (w.dlen / 16)) { setWstate .backedUp w with pageN := w.dlen / 16 }).finish _ = _
    rw [hrun]
    rfl
  · rw [← hrest, ← show v.pageI = w.dlen / 16 by rw [hpage, Nat.zero_add], hframe, hpage]
    simp [setWstate]
  · have hevents := congrArg (List.map (·.event)) htrace
    rw [List.map_append, pageEntries_events] at hevents
    exact hevents

/-- A page is not acknowledged: the command ends there (R124). -/
theorem writeAndVerify_failed {code : IoCode} (hr : w.resetIn = none) (hs : w.settleDue = false) (hI : w.pageI = 0)
    (hws : ws.length < w.dlen / 16) (hb : w.busIn = ws.map .ok ++ .ioErr code :: rest) :
    ∃ v, writeAndVerify bus w = raise .accessError v ∧
      v = { w with
        wstate := .writing, pageI := ws.length + 1, pageN := w.dlen / 16, pgbuf := v.pgbuf, busIn := rest, trace := v.trace
        ioerr := code, aclass := aclassOf (classOf w.platform code), settleDue := true } ∧
      eventsOf v = eventsOf w ++ pageWrites bus (docBytes w) ws.length ++
        [.wr { bus := bus, addr7 := 0x50, reg := BitVec.ofNat 8 (16 * ws.length), data := page (docBytes w) ws.length }
          (.ioErr code)] := by
  obtain ⟨ps, hps⟩ := range_split hws
  obtain ⟨v, hrun, hframe, hrest, -, -, htrace⟩ :=
    writePages_run bus (ws.length :: ps) ws.length 0 { setWstate .backedUp w with pageN := w.dlen / 16 } ws (.ioErr code :: rest)
      hr hs rfl (by show 16 * (0 + ws.length) ≤ w.dlen; omega) hb hI
  obtain ⟨x, hfail, hframe', htrace'⟩ := writePages_failed (bus := bus) (p := ws.length) (ps := ps) (s := v) (c := code) (rest := rest)
    (by rw [hframe]; exact hr) (by rw [hframe]; exact hs) hrest (by rw [hframe]; show 16 * ws.length + 16 ≤ w.dlen; omega)
  have hdoc : docBytes v = docBytes w := by
    rw [hframe]
    rfl
  refine ⟨x, ?_, ?_, ?_⟩
  · rw [← List.range_eq_range', ← hps, hfail] at hrun
    show (writePages bus (List.range (w.dlen / 16)) { setWstate .backedUp w with pageN := w.dlen / 16 }).finish _ = _
    rw [hrun]
    rfl
  · rw [hframe', hframe]
    rfl
  · have hevents := congrArg (List.map (·.event)) htrace
    rw [List.map_append, pageEntries_events] at hevents
    have hevents' := congrArg (List.map (·.event)) htrace'
    rw [List.map_append, hevents, hdoc] at hevents'
    exact hevents'

/-- How WRDOC ends when its re-read goes through (R124). -/
theorem verifyWrite_read {u : State} (h : readDocument bus (setWstate .readBack (setWstate .writtenAll s)) = .done .ok u) :
    ∃ y, verifyWrite bus s = y ∧ y = { u with status := y.status, err := y.err, msg := y.msg, wstate := y.wstate } ∧
      (devBytes u = docBytes u → EndsIn y true false .none .none ∧ y.wstate = .verified) ∧
      (devBytes u ≠ docBytes u → EndsIn y false true .writeVerificationFailed u.msg ∧ y.wstate = .verificationFailed) := by
  rw [verifyWrite, h]
  refine ⟨_, rfl, ?_⟩
  simp only [finish_done]
  by_cases he : devBytes u = docBytes u
  · have hl : u.devlen = u.dlen := by rw [← devBytes_length, he, docBytes_length]
    rw [if_pos ⟨hl, he⟩]
    exact ⟨rfl, fun _ => ⟨⟨rfl, rfl, rfl⟩, rfl⟩, fun hne => absurd he hne⟩
  · rw [if_neg fun h => he h.2]
    exact ⟨rfl, fun h => absurd h he, fun _ => ⟨⟨rfl, rfl, rfl⟩, rfl⟩⟩

end Pages

/-! ### WRDOC -/

section Wrdoc
variable {bus : BusId} {s : State} {D0 : List Byte} {id : BackupId} {rest : List BusAnswer} {brest : List BackupAnswer}

/-- WRDOC with its backup taken goes on with the pages (R124). -/
theorem wrdocBody_backedUp (hs : Ready s) (hl : GoodLength s) (hD : SelfSized D0) (hb : s.busIn = handsOver D0 ++ rest)
    (hk : s.backupIn = .ok id :: brest) :
    ∃ w, wrdocBody bus (startCommand s) = writeAndVerify bus w ∧
      BackedUp bus D0 id rest brest (clearWrite (startCommand s)) w := by
  obtain ⟨u, w, hread, hback, h⟩ := readDocument_backedUp (bus := bus) (v := clearWrite (startCommand s)) hs.2 hD hb hk
  exact ⟨w, wrdocBody_backup (s := startCommand s) hl hread hback, h⟩

/-- WRDOC with its backup taken and every page acknowledged goes on with the verification (R124). -/
theorem wrdocBody_written {ws : List (List Byte)} (hs : Ready s) (hl : GoodLength s) (hD : SelfSized D0)
    (hws : ws.length = s.dlen / 16) (hb : s.busIn = handsOver D0 ++ ws.map .ok ++ rest) (hk : s.backupIn = .ok id :: brest) :
    ∃ v, wrdocBody bus (startCommand s) = verifyWrite bus v ∧
      v = { clearWrite (startCommand s) with
        settleDue := false, chbuf := v.chbuf, chn := v.chn, busIn := rest, trace := v.trace, dev := v.dev, devlen := v.devlen
        bkid := id, bkvalid := true, backupIn := brest, wstate := v.wstate, pageI := s.dlen / 16, pageN := s.dlen / 16
        pgbuf := v.pgbuf } ∧
      eventsOf v = eventsOf s ++ heldSettle s ++ docReads bus D0 ++ [.backup bus D0 (.ok id)] ++
        pageWrites bus (docBytes s) (s.dlen / 16) := by
  obtain ⟨w, hbody, hw⟩ := wrdocBody_backedUp (bus := bus) (rest := ws.map .ok ++ rest) hs hl hD (by rw [hb, List.append_assoc]) hk
  have hdlen : w.dlen = s.dlen := by
    rw [hw.frame]
    rfl
  have hdoc : docBytes w = docBytes s := by
    rw [hw.frame]
    rfl
  obtain ⟨v, hrun, hframe, hevents⟩ := writeAndVerify_acknowledged (bus := bus) (w := w) (ws := ws) (rest := rest)
    (by rw [hw.frame]; exact hs.2) (by rw [hw.frame]) (by rw [hw.frame]; rfl) (by rw [hdlen]; exact hws) (by rw [hw.frame])
  rw [hdlen] at hframe hevents
  refine ⟨v, hbody.trans hrun, ?_, ?_⟩
  · rw [hframe, hw.frame]
    rfl
  · rw [hevents, hw.events, hdoc]
    rfl

end Wrdoc

/-- Settles O38: backup, pages and re-read go through, and the re-read document decides the end. -/
theorem wrdocWritesAndVerifies : Obligations.WrdocWritesAndVerifies := by
  intro bus s D0 D1 ws rest id brest hs hne hmod hD0 hD1 hws hb hk
  obtain ⟨v, hbody, hv, hvevents⟩ := wrdocBody_written (bus := bus) (rest := handsOver D1 ++ rest) hs ⟨hne, hmod⟩ hD0 hws
    (by rw [hb]; simp only [List.append_assoc]) hk
  obtain ⟨u, hread, hu⟩ := readDocument_hasRead (bus := bus) (v := setWstate .readBack (setWstate .writtenAll v))
    (by rw [hv]; exact hs.2) hD1 (by rw [hv]; rfl)
  obtain ⟨y, hverify, hy, hsame, hdiffer⟩ := verifyWrite_read hread
  have hdoc : docBytes u = docBytes s := by
    rw [hu.frame, hv]
    rfl
  have hmsg : u.msg = .none := by
    rw [hu.frame, hv]
    rfl
  have hheld : heldSettle (setWstate .readBack (setWstate .writtenAll v)) = [] := heldSettle_idle (by rw [hv]; rfl)
  rw [hu.devBytes, hdoc] at hsame hdiffer
  rw [hmsg] at hdiffer
  have hyu : devBytes y = devBytes u ∧ y.devlen = u.devlen ∧ y.busIn = u.busIn ∧ eventsOf y = eventsOf u := by
    rw [hy]
    exact ⟨rfl, rfl, rfl, rfl⟩
  obtain ⟨hbytes, hlen, hrest, hevents⟩ := hyu
  rw [hu.devBytes] at hbytes
  rw [hu.devlen] at hlen
  rw [hu.busIn] at hrest
  rw [hu.events, hheld, List.append_nil, show eventsOf (setWstate .readBack (setWstate .writtenAll v)) = _ from hvevents] at hevents
  refine ⟨_, exec_of_body rfl hs.1 (hbody.trans hverify), hsame, hdiffer, ?_, ?_, ?_, ?_, hbytes, hlen, hrest, ?_, hevents, ?_, ?_, ?_,
    ?_, ?_, ?_, docByte_congr ?_ ?_⟩
  all_goals
    rw [hy, hu.frame, hv]
    rfl

/-- Settles O39: backup and the pages before go through, and the page that is not acknowledged ends the command. -/
theorem wrdocStopsAtAFailedPage : Obligations.WrdocStopsAtAFailedPage := by
  intro bus s D0 ws code rest id brest hs hne hmod hD0 hws hb hk
  obtain ⟨w, hbody, hw⟩ := wrdocBody_backedUp (bus := bus) (rest := ws.map .ok ++ .ioErr code :: rest) hs ⟨hne, hmod⟩ hD0
    (by rw [hb, List.append_assoc]) hk
  have hdlen : w.dlen = s.dlen := by
    rw [hw.frame]
    rfl
  have hdoc : docBytes w = docBytes s := by
    rw [hw.frame]
    rfl
  obtain ⟨v, hrun, hv, hvevents⟩ := writeAndVerify_failed (bus := bus) (w := w) (ws := ws) (rest := rest) (code := code)
    (by rw [hw.frame]; exact hs.2) (by rw [hw.frame]) (by rw [hw.frame]; rfl) (by rw [hdlen]; exact hws) (by rw [hw.frame])
  rw [hdlen] at hv
  rw [hdoc, hw.events] at hvevents
  have hbytes : devBytes v = D0 := by
    rw [← hw.devBytes, hv]
    rfl
  refine ⟨_, exec_of_body rfl hs.1 (hbody.trans hrun), ⟨rfl, rfl, ?_⟩, ?_, ?_, ?_, ?_, ?_, ?_, ?_, hbytes, ?_, hvevents, ?_, ?_,
    docByte_congr ?_ ?_⟩
  all_goals
    rw [hv, hw.frame]
    rfl

/-- Settles O42: backup and pages go through, and the command ends where the re-read has failed. -/
theorem wrdocVerificationReadFails : Obligations.WrdocVerificationReadFails := by
  intro bus s D0 ws cs f rest id brest hs hne hmod hD0 hws hf hb hk
  obtain ⟨v, hbody, hv, hvevents⟩ := wrdocBody_written (bus := bus) (rest := (cs.map .ok ++ f.answers) ++ rest) hs ⟨hne, hmod⟩ hD0 hws
    (by rw [hb]; simp only [List.append_assoc]) hk
  obtain ⟨u, hread, h⟩ := readDocument_failedRead (bus := bus) (s := s) (v := setWstate .readBack (setWstate .writtenAll v))
    (by rw [hv]; exact ⟨rfl, rfl, rfl, rfl, rfl, rfl⟩) (by rw [hv]; exact hs.2) hf (by rw [hv]; rfl)
  have hheld : heldSettle (setWstate .readBack (setWstate .writtenAll v)) = [] := heldSettle_idle (by rw [hv]; rfl)
  have hevents := h.events
  rw [hheld, List.append_nil, show eventsOf (setWstate .readBack (setWstate .writtenAll v)) = _ from hvevents] at hevents
  refine ⟨_, exec_of_body rfl hs.1 (hbody.trans (verifyWrite_failed hread)), h.ends, ?_, ?_, ?_, ?_, ?_, h.busIn, ?_, hevents, h.idle, ?_,
    docByte_congr ?_ ?_⟩
  all_goals
    rw [h.frame, hv]
    rfl

end Sys2Proof.Proofs
end

section
/-! SUPPORT. TSTWR on given answers, once its backup is taken: the second read, and the probe of the safe byte (43_device_channel.md
R126). -/

namespace Sys2Proof.Proofs

open Sys2Proof Sys2Proof.Machine Sys2Proof.Laws

/-- TSTWR with its backup taken goes on with the second read (R126). -/
theorem tstwrBody_backedUp {bus : BusId} {s : State} {D : List Byte} {id : BackupId} {rest : List BusAnswer}
    {brest : List BackupAnswer} (hs : Ready s) (hD : SelfSized D) (hb : s.busIn = handsOver D ++ rest)
    (hk : s.backupIn = .ok id :: brest) :
    ∃ w, tstwrBody bus (startCommand s) = testBackedUp bus w ∧
      BackedUp bus D id rest brest { startCommand s with bkvalid := false } w := by
  obtain ⟨u, w, hread, hback, h⟩ :=
    readDocument_backedUp (bus := bus) (v := { startCommand s with bkvalid := false }) hs.2 hD hb hk
  exact ⟨w, tstwrBody_backup hread hback, h⟩

/-! ### The second read -/

section SecondRead
variable {bus : BusId} {s u : State}

theorem testBackedUp_failed {f : ReadFailure} (h : readDocument bus s = .done (docAnswerOf f) u) :
    testBackedUp bus s = raise f.err u := by
  rw [testBackedUp, h]
  cases f <;> rfl

theorem testBackedUp_noSafeByte (h : readDocument bus s = .done .ok u) (hsafe : findSafeTestByte (devBytes u) = none) :
    testBackedUp bus s = result false .safeByteNotFound .noSafeByte u := by
  rw [testBackedUp, h, finish_done]
  simp only [hsafe]

theorem testBackedUp_safeByte {off : Nat} (h : readDocument bus s = .done .ok u) (hsafe : findSafeTestByte (devBytes u) = some off) :
    testBackedUp bus s = probeByte bus off u := by
  rw [testBackedUp, h, finish_done]
  simp only [hsafe]

end SecondRead

/-- Settles O43: the backup is taken, and the command ends where the second read has failed. -/
theorem tstwrSecondReadFails : Obligations.TstwrSecondReadFails := by
  intro bus s D0 cs f rest id brest hs hD0 hf hb hk
  obtain ⟨w, hbody, hw⟩ := tstwrBody_backedUp (bus := bus) (rest := (cs.map .ok ++ f.answers) ++ rest) hs hD0
    (by rw [hb, List.append_assoc]) hk
  obtain ⟨u, hread, h⟩ := readDocument_failedRead (bus := bus) (s := s) (v := w)
    (by rw [hw.frame]; exact ⟨rfl, rfl, rfl, rfl, rfl, rfl⟩) (by rw [hw.frame]; exact hs.2) hf (by rw [hw.frame])
  have hheld : heldSettle w = [] := heldSettle_idle (by rw [hw.frame])
  have hevents := h.events
  rw [hheld, List.append_nil, hw.events] at hevents
  refine ⟨_, exec_of_body rfl hs.1 (hbody.trans (testBackedUp_failed hread)), h.ends, ?_, ?_, h.busIn, ?_, hevents, h.idle, ?_,
    docByte_congr ?_ ?_⟩
  all_goals rw [h.frame, hw.frame]
  all_goals rfl

/-- TSTWR with its backup taken and the second read gone through (R126). -/
theorem tstwrBody_readAgain {bus : BusId} {s : State} {D0 D1 : List Byte} {id : BackupId} {rest : List BusAnswer}
    {brest : List BackupAnswer} (hs : Ready s) (hD0 : SelfSized D0) (hD1 : SelfSized D1)
    (hb : s.busIn = handsOver D0 ++ handsOver D1 ++ rest) (hk : s.backupIn = .ok id :: brest) :
    ∃ w u, tstwrBody bus (startCommand s) = testBackedUp bus w ∧ readDocument bus w = .done .ok u ∧ devBytes u = D1 ∧
      u = { startCommand s with
        settleDue := false, chbuf := u.chbuf, chn := u.chn, busIn := rest, trace := u.trace, dev := u.dev, devlen := u.devlen
        bkid := id, bkvalid := true, backupIn := brest } ∧
      eventsOf u = eventsOf s ++ heldSettle s ++ docReads bus D0 ++ [.backup bus D0 (.ok id)] ++ docReads bus D1 := by
  obtain ⟨w, hbody, hw⟩ := tstwrBody_backedUp (bus := bus) (rest := handsOver D1 ++ rest) hs hD0
    (by rw [hb, List.append_assoc]) hk
  obtain ⟨u, hread, hu⟩ := readDocument_hasRead (bus := bus) (v := w) (by rw [hw.frame]; exact hs.2) hD1 (by rw [hw.frame])
  have hheld : heldSettle w = [] := heldSettle_idle (by rw [hw.frame])
  refine ⟨w, u, hbody, hread, hu.devBytes, ?_, ?_⟩
  · rw [← hu.busIn, hu.frame, hw.frame]
  · rw [hu.events, hheld, List.append_nil, hw.events]
    rfl

/-- Settles O45: both reads go through, and no write frame comes. -/
theorem tstwrWithoutASafeByteWritesNothing : Obligations.TstwrWithoutASafeByteWritesNothing := by
  intro bus s D0 D1 rest id brest hs hD0 hD1 hsafe hb hk
  obtain ⟨w, u, hbody, hread, hbytes, hu, hevents⟩ := tstwrBody_readAgain (bus := bus) hs hD0 hD1 hb hk
  have hend := testBackedUp_noSafeByte hread (by rw [hbytes]; exact hsafe)
  refine ⟨_, exec_of_body rfl hs.1 (hbody.trans hend), ⟨rfl, rfl, rfl⟩, ?_, ?_, ?_, hbytes, ?_, hevents, ?_, ?_,
    docByte_congr ?_ ?_⟩ <;> rw [hu] <;> rfl

/-! ### The probe -/

/-- How TSTWR ends by the answers of its two one-byte reads (R126). -/
structure ProbeVerdict (orig : Byte) (r1 r2 : BusAnswer) (t : State) : Prop where
  notRestored : r2 ≠ .ok [orig] → EndsIn t false true .restoreVerificationFailed .restoreFailed
  writable : r2 = .ok [orig] → r1 = .ok [orig ^^^ 0xFF] → EndsIn t true false .none .writable
  notWritable : r2 = .ok [orig] → r1 ≠ .ok [orig ^^^ 0xFF] → EndsIn t false false .none .notWritable

/-- The end of the probe, from its two answers (R126). -/
def endProbe (orig : Byte) (r1 r2 : BusAnswer) (s : State) : State :=
  if r2 ≠ .ok [orig] then raise .restoreVerificationFailed { s with msg := .restoreFailed }
  else if r1 == .ok [orig ^^^ 0xFF] then result true .none .writable s
  else result false .none .notWritable s

theorem endProbe_verdict (orig : Byte) (r1 r2 : BusAnswer) (s : State) : ProbeVerdict orig r1 r2 (endProbe orig r1 r2 s) := by
  unfold endProbe
  by_cases h2 : r2 = .ok [orig]
  · rw [if_neg (not_not.mpr h2)]
    by_cases h1 : r1 = .ok [orig ^^^ 0xFF]
    · rw [if_pos (beq_iff_eq.mpr h1)]
      exact ⟨fun h => absurd h2 h, fun _ _ => ⟨rfl, rfl, rfl⟩, fun _ h => absurd h1 h⟩
    · rw [if_neg (mt beq_iff_eq.mp h1)]
      exact ⟨fun h => absurd h2 h, fun _ h => absurd h h1, fun _ _ => ⟨rfl, rfl, rfl⟩⟩
  · rw [if_pos h2]
    exact ⟨fun _ => ⟨rfl, rfl, rfl⟩, fun h => absurd h h2, fun h => absurd h h2⟩

theorem endProbe_frame (orig : Byte) (r1 r2 : BusAnswer) (s : State) :
    endProbe orig r1 r2 s = { s with
      status := (endProbe orig r1 r2 s).status, err := (endProbe orig r1 r2 s).err, msg := (endProbe orig r1 r2 s).msg } := by
  unfold endProbe
  split
  · rfl
  · split <;> rfl

/-- The probe is two pokes and its end (R126). -/
theorem probeByte_done {bus : BusId} {off : Nat} {s t u : State} {r1 r2 : BusAnswer}
    (h1 : pokeAndPeek bus off (devByte s off ^^^ 0xFF) (putRval (BitVec.ofNat 16 off) s) = .done r1 t)
    (h2 : pokeAndPeek bus off (devByte s off) t = .done r2 u) : probeByte bus off s = endProbe (devByte s off) r1 r2 u := by
  unfold probeByte
  simp only
  rw [h1, finish_done, h2, finish_done]
  rfl

/-- A byte of the document in DEV is the byte of DEV at its offset (R61). -/
theorem devByte_of_devBytes {u : State} {off : Nat} (h : off < u.devlen) : devByte u off = byteAt (devBytes u) off := by
  rw [devBytes, loadDev, byteAt_load _ _ _ _ _ h, Nat.zero_add, devByte]

theorem safeOffset_lt {off : Nat} (h : SafeOffset off) : off < 128 := by
  revert off
  unfold SafeOffset
  decide

/-- The byte that the probe flips is the document's (R94, R126). -/
theorem devByte_of_safe {u : State} {off : Nat} (h : findSafeTestByte (devBytes u) = some off) :
    devByte u off = byteAt (devBytes u) off := by
  obtain ⟨hoff, hlen⟩ := findSafeTestByte_safe h
  rw [devBytes_length] at hlen
  exact devByte_of_devBytes ((safeOffset_lt hoff).trans_le hlen)

/-- Settles O44: the two pokes go through whatever the answers, and the two one-byte reads decide the end. -/
theorem tstwrProbesAndRestores : Obligations.TstwrProbesAndRestores := by
  intro bus s D0 D1 off w1 r1 w2 r2 rest id brest hs hD0 hD1 hsafe hb hk
  obtain ⟨w, u, hbody, hread, hbytes, hu, hevents⟩ :=
    tstwrBody_readAgain (bus := bus) (rest := [w1, r1, w2, r2] ++ rest) hs hD0 hD1 (by rw [hb, List.append_assoc]) hk
  rw [← hbytes] at hsafe
  have horig : devByte u off = byteAt D1 off := by rw [devByte_of_safe hsafe, hbytes]
  obtain ⟨x, hpoke, hnoted, hx, hxtrace⟩ := pokeAndPeek_run (bus := bus) (off := off) (v := devByte u off ^^^ 0xFF)
    (s := putRval (BitVec.ofNat 16 off) u) (w := w1) (r := r1) (rest := w2 :: r2 :: rest)
    (by rw [hu]; exact hs.2) (by rw [hu]; rfl) (by rw [hu]; rfl)
  obtain ⟨y, hpoke', hnoted', hy, hytrace⟩ := pokeAndPeek_run (bus := bus) (off := off) (v := devByte u off) (s := x) (w := w2) (r := r2)
    (rest := rest) (by rw [hx, hu]; exact hs.2) (by rw [hx, hu]; rfl) (by rw [hx])
  have hend := probeByte_done hpoke hpoke'
  obtain ⟨hnot, hyes, hno⟩ := endProbe_verdict (devByte u off) (cutTo 1 r1) (cutTo 1 r2) y
  have hz := endProbe_frame (devByte u off) (cutTo 1 r1) (cutTo 1 r2) y
  rw [horig] at hend hnot hyes hno hz
  generalize endProbe (byteAt D1 off) (cutTo 1 r1) (cutTo 1 r2) y = z at hend hnot hyes hno hz
  have hnotes : NotedFrom (putRval (BitVec.ofNat 16 off) u) z [w1, r1, w2, r2] :=
    (hnoted.append hnoted' (by rw [hx])).congr rfl rfl rfl (by rw [hz]) (by rw [hz])
  have hzdev : devBytes z = D1 := by
    rw [← hbytes, hz, hy, hx]
    rfl
  have hzevents : eventsOf z = eventsOf y := by
    rw [hz]
    rfl
  rw [eventsOf_append hytrace, eventsOf_append hxtrace, show eventsOf (putRval (BitVec.ofNat 16 off) u) = _ from hevents, horig,
    List.append_assoc] at hzevents
  refine ⟨_, exec_of_body rfl hs.1 (hbody.trans ((testBackedUp_safeByte hread hsafe).trans hend)), hnot, hyes, hno,
    hnotes.errorNoted (t := z) (by rw [hu]; rfl) (by rw [hu]; rfl) (by rw [hu]; rfl), ?_, ?_, ?_, ?_, hzdev, ?_, ?_, hzevents, ?_, ?_,
    docByte_congr ?_ ?_⟩
  all_goals
    rw [hz, hy, hx, hu]
    rfl

end Sys2Proof.Proofs
end

section
/-! SUPPORT. Reading the reference devices (95_test_vectors.md section 2.5): a 256-byte memory that answers every read frame hands over
one document, which depends on the memory alone (43_device_channel.md R120). -/

namespace Sys2Proof.Proofs

open Sys2Proof Sys2Proof.Machine Sys2Proof.Laws

/-! ### The document of a memory -/

/-- The document that a 256-byte memory hands over: as many blocks as its byte 126 says, the offsets modulo 256 (R104, R120). -/
def memoryDocument (M : List Byte) : List Byte := memoryRead M 0 (128 * (1 + extCount M))

section Memory
variable {M : List Byte}

@[simp] theorem memoryRead_length (M : List Byte) (reg : Byte) (n : Nat) : (memoryRead M reg n).length = n := by simp [memoryRead]

@[simp] theorem memoryDocument_length (M : List Byte) : (memoryDocument M).length = 128 * (1 + extCount M) := memoryRead_length ..

/-- A slice of what a memory hands over is what it hands over at the slice's offset (R104). -/
theorem memoryRead_slice {n i k : Nat} (h : i + k ≤ n) :
    ((memoryRead M 0 n).drop i).take k = memoryRead M (regOff i) k := by
  refine List.ext_getElem (by simp; omega) fun j h1 h2 => ?_
  simp [memoryRead, regOff_toNat]

theorem byteAt_memoryDocument {i : Nat} (h : i < 128) : byteAt (memoryDocument M) i = byteAt M i := by
  rw [byteAt_eq_getElem (by rw [memoryDocument_length]; omega)]
  simp [memoryDocument, memoryRead, Nat.mod_eq_of_lt (show i < 256 by omega)]

@[simp] theorem extCount_memoryDocument (M : List Byte) : extCount (memoryDocument M) = extCount M := by
  simp [extCount, byteAt_memoryDocument, Config.EXT_COUNT_OFF]

/-- A safe byte is one byte of the memory at its own offset. -/
theorem memoryRead_one {off : Nat} (h : off < 128) : memoryRead M (regOff off) 1 = [byteAt M off] := by
  simp [memoryRead, regOff_toNat, Nat.mod_eq_of_lt (show off < 256 by omega)]

/-- A block of the document in the four chunks that ReadBlock asks for (R105). -/
theorem block_memoryDocument {k : Nat} (h : k < 1 + extCount M) :
    block (memoryDocument M) k = (Config.CHUNK_OFFS.map fun c => memoryRead M (regOff (128 * k + c)) 32).flatten := by
  have hchunk : ∀ i, i < 4 → chunk (memoryDocument M) (4 * k + i) = memoryRead M (regOff (128 * k + 32 * i)) 32 := fun i hi => by
    rw [chunk, memoryDocument, memoryRead_slice (by omega), show 32 * (4 * k + i) = 128 * k + 32 * i by omega]
  rw [← blockChunks_flatten, blockChunks, hchunk 1 (by omega), hchunk 2 (by omega), hchunk 3 (by omega)]
  rw [show 4 * k = 4 * k + 0 from rfl, hchunk 0 (by omega)]
  rfl

end Memory

/-! ### Reading a memory -/

/-- The read frames on `bus` among the entries are answered by the memory `M`. -/
def FollowsMemory (bus : BusId) (M : List Byte) (es : List TraceEntry) : Prop :=
  ∀ e ∈ es, ∀ f a, e.event = .rd f a → f.bus = bus → a = .ok (memoryRead M f.reg f.n)

section Reading
variable {bus : BusId} {M : List Byte} {s t : State} {es es' : List TraceEntry}

theorem FollowsMemory.left (h : FollowsMemory bus M (es ++ es')) : FollowsMemory bus M es :=
  fun e he => h e (List.mem_append_left _ he)

theorem FollowsMemory.right (h : FollowsMemory bus M (es ++ es')) : FollowsMemory bus M es' :=
  fun e he => h e (List.mem_append_right _ he)

theorem FollowsMemory.read {u : State} {reg : Byte} {n : Nat} {a : BusAnswer} (h : FollowsMemory bus M es)
    (he : entryAt u (.rd (readFrame bus reg n) a) ∈ es) : a = .ok (memoryRead M reg n) := h _ he _ _ rfl rfl

theorem FollowsMemory.peek {u : State} {reg : Byte} {n : Nat} {a : BusAnswer} {x y : TraceEntry}
    (h : FollowsMemory bus M [x, y, entryAt u (.rd (readFrame bus reg n) a)]) : a = .ok (memoryRead M reg n) :=
  h.read (u := u) (by simp)

/-- Two facts about one run are one: both are about the entries that the run has traced. -/
theorem runsFrom_and {α : Type} {r : Res α} {P P' : α → State → List TraceEntry → Prop} {Q Q' : List TraceEntry → Prop}
    (h : RunsFrom s r P Q) (h' : RunsFrom s r P' Q') :
    RunsFrom s r (fun a t es => P a t es ∧ P' a t es) (fun es => Q es ∧ Q' es) := by
  cases r with
  | done a t =>
    obtain ⟨es, hem, hp⟩ := h
    obtain ⟨es', hem', hp'⟩ := h'
    have he : es' = es := List.append_cancel_left (hem'.trace.symm.trans hem.trace)
    exact ⟨es, hem, hp, he ▸ hp'⟩
  | abandoned t =>
    obtain ⟨es, hab, hq⟩ := h
    obtain ⟨es', hab', hq'⟩ := h'
    obtain ⟨u, rfl, hu, -⟩ := hab.struck
    obtain ⟨u', hreset, hu', -⟩ := hab'.struck
    have he : es' = es := List.append_cancel_left (hu'.symm.trans ((congrArg State.trace hreset).symm.trans hu))
    exact ⟨es, hab, hq, he ▸ hq'⟩

/-- Whatever memory has answered the reads among the entries after `es`, `R` holds of it, of the answer and of the state. -/
def IfFollows {α : Type} (bus : BusId) (R : List Byte → α → State → Prop) (es : List TraceEntry) (a : α) (u : State)
    (es' : List TraceEntry) : Prop := ∃ rs, es' = es ++ rs ∧ ∀ M, FollowsMemory bus M rs → R M a u

/-- The chunks of a block (R105). -/
theorem readChunks_follows (k : Nat) :
    ∀ (cs : List Nat) (blk : List Byte) (t : State) (es : List TraceEntry), Emitted s t es → t.settleDue = false →
      RunsFrom s (readChunks bus k cs blk t)
        (IfFollows bus (fun M a _ => ∀ B, B = blk ++ (cs.map fun c => memoryRead M (regOff (128 * k + c)) 32).flatten →
          B.length = 128 → a = .ok B) es)
        (fun _ => True) := by
  intro cs
  induction cs with
  | nil =>
    intro blk t es h _
    rw [readChunks]
    split
    · rename_i hne
      exact ⟨es, h, [], by simp, fun _ _ B hB hl => absurd (by rw [hB] at hl; simpa using hl : blk.length = 128) hne⟩
    · exact ⟨es, h, [], by simp, fun _ _ B hB _ => by rw [hB]; simp⟩
  | cons c cs ih =>
    intro blk t es h hs
    refine runsFrom_andThen (P := fun a u es' => SameButFrame t u ∧
      es' = es ++ [entryAt t (.rd (readFrame bus (regOff (128 * k + c)) 32) a)])
      (busRead_runs h hs trivial fun a u hframe _ _ _ => ⟨hframe, rfl⟩) ?_
    rintro a u es' hu ⟨hframe, rfl⟩
    cases a with
    | ioErr code => exact ⟨_, hu, _, rfl, fun _ hf => nomatch hf.read (List.mem_singleton.mpr rfl)⟩
    | ok bytes =>
      refine runsFrom_mono (ih (blk ++ bytes) u _ hu (by rw [hframe]; exact hs)) ?_ fun _ h => h
      rintro a v es' ⟨rs, rfl, hrest⟩
      refine ⟨_, List.append_assoc .., fun M hf B hB hl => hrest M hf.right B ?_ hl⟩
      have hbytes := hf.left.read (List.mem_singleton.mpr rfl)
      cases hbytes
      rw [hB]
      simp

/-- A block of the memory's document (R105). -/
theorem readBlock_follows {k : Nat} (h : Emitted s t es) (hs : t.settleDue = false) :
    RunsFrom s (readBlock bus k t)
      (IfFollows bus (fun M a _ => k < 1 + extCount M → a = .ok (block (memoryDocument M) k)) es) (fun _ => True) := by
  refine runsFrom_mono (readChunks_follows k Config.CHUNK_OFFS [] t es h hs) ?_ fun _ h => h
  rintro a u es' ⟨rs, rfl, hread⟩
  refine ⟨rs, rfl, fun M hf hk => hread M hf _ (block_memoryDocument hk) ?_⟩
  rw [block_full_iff, memoryDocument_length]
  omega

/-- The extension blocks of the memory's document, behind the blocks that DEV holds (R120). -/
theorem readExtensions_follows (left : Nat) :
    ∀ (k : Nat) (t : State) (es : List TraceEntry), Emitted s t es → t.settleDue = false →
      RunsFrom s (readExtensions bus left k t)
        (IfFollows bus (fun M a u => DevHolds (memoryDocument M) k t → k + left ≤ 1 + extCount M →
          a = .ok ∧ DevHolds (memoryDocument M) (k + left) u) es)
        (fun _ => True) := by
  induction left with
  | zero =>
    intro k t es h _
    exact ⟨es, h, [], by simp, fun _ _ hd _ => ⟨rfl, hd⟩⟩
  | succ left ih =>
    intro k t es h hs
    refine runsFrom_andThen (runsFrom_mono (runsFrom_and (readBlock_runs h hs) (readBlock_follows h hs))
      (fun _ _ _ hp => hp) fun _ _ => trivial) ?_
    rintro a u es' hu ⟨⟨-, hframe, -, -⟩, rs, rfl, hread⟩
    have hblk : ∀ M, FollowsMemory bus M rs → k + (left + 1) ≤ 1 + extCount M → a = .ok (block (memoryDocument M) k) :=
      fun M hf hk => hread M hf (by omega)
    cases a with
    | ioErr code => exact ⟨_, hu, rs, rfl, fun M hf _ hk => nomatch hblk M hf hk⟩
    | short len => exact ⟨_, hu, rs, rfl, fun M hf _ hk => nomatch hblk M hf hk⟩
    | ok blk =>
      refine runsFrom_mono (ih (k + 1) (putDevBlock k blk u) _ (hu.update rfl rfl rfl rfl)
        (by rw [putDevBlock_settleDue, hframe]; exact hs)) ?_ fun _ h => h
      rintro a v es'' ⟨rs', rfl, hrest⟩
      refine ⟨rs ++ rs', List.append_assoc .., fun M hf hd hk => ?_⟩
      have hblk := hblk M hf.left hk
      cases hblk
      have hdu : loadDev u 0 (128 * k) = (memoryDocument M).take (128 * k) := by
        rw [hframe]
        exact hd.bytes
      rw [← Nat.succ_add_eq_add_succ]
      exact hrest M hf.right (devHolds_put hdu (by rw [memoryDocument_length]; omega)) (by omega)

/-- ReadDocument reads the document of the memory (R120). -/
theorem readDocument_follows (h : Emitted s t es) :
    RunsFrom s (readDocument bus t) (IfFollows bus (fun M a u => a = .ok ∧ devBytes u = memoryDocument M) es) (fun _ => True) := by
  rw [readDocument_awaits]
  refine runsFrom_andThen (P := fun _ u es' => u.settleDue = false ∧ es' = es ++ heldEntries t)
    (awaitSettle_runs h trivial fun u hu => ⟨by rw [hu], rfl⟩) ?_
  rintro _ u es' hu ⟨hidle, rfl⟩
  have hclear : Emitted s (clearDev u) (es ++ heldEntries t) := hu.update rfl rfl rfl rfl
  refine runsFrom_andThen (runsFrom_mono (runsFrom_and (readBlock_runs hclear hidle) (readBlock_follows hclear hidle))
    (fun _ _ _ hp => hp) fun _ _ => trivial) ?_
  rintro a v es' hv ⟨⟨-, hframe, -, -⟩, rs, rfl, hread⟩
  have hblk : ∀ M, FollowsMemory bus M rs → a = .ok (block (memoryDocument M) 0) := fun M hf => hread M hf (by omega)
  cases a with
  | ioErr code => exact ⟨_, hv, _, List.append_assoc .., fun M hf => nomatch hblk M hf.right⟩
  | short len => exact ⟨_, hv, _, List.append_assoc .., fun M hf => nomatch hblk M hf.right⟩
  | ok blk =>
    refine runsFrom_mono (readExtensions_follows _ 1 (putDevBlock 0 blk v) _ (hv.update rfl rfl rfl rfl)
      (by rw [putDevBlock_settleDue, hframe]; exact hidle)) ?_ fun _ h => h
    rintro a w es'' ⟨rs', rfl, hrest⟩
    refine ⟨heldEntries t ++ rs ++ rs', by simp only [List.append_assoc], fun M hf => ?_⟩
    have hblk := hblk M hf.left.right
    cases hblk
    have hd : DevHolds (memoryDocument M) 1 (putDevBlock 0 (block (memoryDocument M) 0) v) :=
      devHolds_put (by simp [loadDev, Memory.load]) (by rw [memoryDocument_length]; omega)
    have hcount : (devByte (putDevBlock 0 (block (memoryDocument M) 0) v) Config.EXT_COUNT_OFF).toNat = extCount M := by
      rw [devByte_of_devBytes (by rw [hd.len]; decide), hd.devBytes, ← extCount_memoryDocument, extCount]
      simp [byteAt, Config.EXT_COUNT_OFF]
    rw [hcount] at hrest
    obtain ⟨ha, hw⟩ := hrest M hf.right hd (Nat.le_refl _)
    refine ⟨ha, ?_⟩
    rw [hw.devBytes, List.take_of_length_le (memoryDocument_length M).le]

end Reading
end Sys2Proof.Proofs
end

section
/-! SUPPORT. TSTWR on ReadOnlyDev256 (43_device_channel.md R126) and the round trip of WRDOC and CMPDOC on IdealDev256 (R129). -/

namespace Sys2Proof.Proofs

open Sys2Proof Sys2Proof.Machine Sys2Proof.Laws

/-- The events of a list of entries that starts a trace are the events emitted since. -/
theorem events_of_trace {s t : State} {es : List Event} {rs : List TraceEntry} (h : eventsOf t = eventsOf s ++ es)
    (ht : t.trace = s.trace ++ rs) : es = rs.map (·.event) := by
  rw [eventsOf, ht, List.map_append] at h
  exact (List.append_cancel_left h).symm

/-! ### TSTWR on a read-only device -/

section ReadOnly
variable {bus : BusId} {M : List Byte}

/-- The reads of a read-only memory do not depend on the writes between. -/
theorem readOnlyRun_follows {es : List TraceEntry} (h : readOnlyRun bus M (es.map (·.event)) = true) : FollowsMemory bus M es := by
  induction es with
  | nil => exact fun _ he => nomatch he
  | cons e es ih =>
    rw [List.map_cons] at h
    have hrest : readOnlyRun bus M (es.map (·.event)) = true := by
      cases hev : e.event with
      | rd f a =>
        rw [hev] at h
        exact (Bool.and_eq_true_iff.mp h).2
      | wr f a =>
        rw [hev] at h
        exact (Bool.and_eq_true_iff.mp h).2
      | settle ms =>
        rw [hev] at h
        exact h
      | backup b bytes a =>
        rw [hev] at h
        exact h
    refine List.forall_mem_cons.mpr ⟨fun f a hev hbus => ?_, ih hrest⟩
    rw [hev] at h
    have hanswer := (Bool.and_eq_true_iff.mp h).1
    simpa [hbus] using hanswer

theorem xor_flip_ne (b : Byte) : b ≠ b ^^^ 0xFF := by
  revert b
  decide

/-- How TSTWR must end on a read-only device (R126). -/
def EndsReadOnly (t : State) : Prop :=
  (findSafeTestByte (devBytes t) ≠ none → EndsIn t false false .none .notWritable) ∧
  (findSafeTestByte (devBytes t) = none → EndsIn t false false .safeByteNotFound .noSafeByte)

/-- The probe of a read-only device sees the byte of its document both times (R126). -/
theorem probeByte_readOnly {off : Nat} {s w : State} {pre : List TraceEntry} (h : Emitted s w pre) (hs : w.settleDue = false)
    (hdoc : FollowsMemory bus M pre → devBytes w = memoryDocument M) (hoff : findSafeTestByte (devBytes w) = some off) :
    BodyRuns s (probeByte bus off w) (fun t es => FollowsMemory bus M es → EndsReadOnly t) (fun _ => True) := by
  have hlt : off < 128 := safeOffset_lt (findSafeTestByte_safe hoff).1
  have horig : FollowsMemory bus M pre → memoryRead M (regOff off) 1 = [devByte w off] := fun hf => by
    rw [devByte_of_safe hoff, hdoc hf, byteAt_memoryDocument hlt, memoryRead_one hlt]
  have h0 : Emitted s (putRval (BitVec.ofNat 16 off) w) pre := h.update rfl rfl rfl rfl
  refine bodyRuns_finish (pokeAndPeek_runs h0 hs) ?_ fun _ _ => trivial
  rintro r1 t es ht ⟨ht', -, -, w1, rfl⟩
  refine bodyRuns_finish (pokeAndPeek_runs ht (by rw [ht']; exact hs)) ?_ fun _ _ => trivial
  rintro r2 u es hu ⟨hu', -, -, w2, rfl⟩
  show BodyRuns s (endProbe (devByte w off) r1 r2 u) _ _
  have hz := endProbe_frame (devByte w off) r1 r2 u
  obtain ⟨-, -, hno⟩ := endProbe_verdict (devByte w off) r1 r2 u
  generalize endProbe (devByte w off) r1 r2 u = z at hz hno
  refine bodyRuns_end hu (by rw [hz]) (by rw [hz]) (by rw [hz]) (by rw [hz]) fun hf => ?_
  have h1 : r1 = .ok [devByte w off] := by
    rw [← horig hf.left.left]
    exact hf.left.right.peek
  have h2 : r2 = .ok [devByte w off] := by
    rw [← horig hf.left.left]
    exact hf.right.peek
  have hend := hno h2 fun hflip => xor_flip_ne (devByte w off) (by simpa [h1] using hflip)
  have hdev : devBytes z = devBytes w := by
    rw [hz, hu', ht']
    rfl
  exact ⟨fun _ => hend, fun hnone => by rw [hdev, hoff] at hnone; cases hnone⟩

theorem testBackedUp_readOnly {s w : State} {pre : List TraceEntry} (h : Emitted s w pre) :
    BodyRuns s (testBackedUp bus w) (fun t es => FollowsMemory bus M es → EndsReadOnly t) (fun _ => True) := by
  refine bodyRuns_finish (runsFrom_and (readDocument_runs h) (readDocument_follows h)) ?_ fun _ _ => trivial
  rintro r u es hu ⟨⟨-, hframe, -, -⟩, rs, rfl, hread⟩
  cases r with
  | access => exact bodyRuns_end hu rfl rfl rfl rfl fun hf => nomatch (hread M hf.right).1
  | size => exact bodyRuns_end hu rfl rfl rfl rfl fun hf => nomatch (hread M hf.right).1
  | ok =>
    cases hsafe : findSafeTestByte (devBytes u) with
    | none =>
      simp only
      exact bodyRuns_end hu rfl rfl rfl rfl fun _ => ⟨fun hne => absurd hsafe hne, fun _ => ⟨rfl, rfl, rfl⟩⟩
    | some off =>
      simp only
      exact probeByte_readOnly hu (by rw [hframe]) (fun hf => (hread M hf.right).2) hsafe

/-- TSTWR on a read-only device, its backup taken (R126). -/
theorem tstwrBody_readOnly {s : State} {id : BackupId} {brest : List BackupAnswer} (hk : s.backupIn = .ok id :: brest) :
    BodyRuns s (tstwrBody bus s) (fun t es => FollowsMemory bus M es → EndsReadOnly t) (fun _ => True) := by
  have h0 : Emitted s { s with bkvalid := false } [] := (Emitted.refl s).update rfl rfl rfl rfl
  refine bodyRuns_finish (runsFrom_and (readDocument_runs h0) (readDocument_follows h0)) ?_ fun _ _ => trivial
  rintro r u es hu ⟨⟨-, hframe, -, -⟩, rs, rfl, hread⟩
  cases r with
  | access => exact bodyRuns_end hu rfl rfl rfl rfl fun hf => nomatch (hread M hf).1
  | size => exact bodyRuns_end hu rfl rfl rfl rfl fun hf => nomatch (hread M hf).1
  | ok =>
    refine bodyRuns_finish (P := fun a _ _ => a = .ok id) (Q := fun _ => True)
      (hostBackup_runs hu trivial fun a v _ _ _ htaken => htaken _ brest (by rw [hframe]; exact hk)) ?_ fun _ _ => trivial
    rintro _ v es' hv rfl
    exact testBackedUp_readOnly hv

end ReadOnly

/-- Settles O53: both reads give the memory's document, and the probe finds its safe byte unchanged. -/
theorem readOnlyDeviceIsNotWritable : Obligations.ReadOnlyDeviceIsNotWritable := by
  intro bus s t es M id brest hs hk hexec hevents hrun
  rw [exec_command rfl hexec] at hevents ⊢
  obtain ⟨rs, hem, hends⟩ := bodyRuns_unreset (tstwrBody_readOnly (bus := bus) (M := M) (s := startCommand s) hk) hs.2
  rw [events_of_trace hevents hem.trace] at hrun
  exact hends (readOnlyRun_follows hrun)

/-! ### The round trip on the ideal device -/

section Ideal
variable {bus : BusId}

theorem idealRun_append (es es' : List Event) (M : List Byte) :
    idealRun bus M (es ++ es') = (idealRun bus M es).bind fun M' => idealRun bus M' es' := by
  induction es generalizing M with
  | nil => rfl
  | cons e es ih =>
    cases e with
    | rd f a =>
      simp only [List.cons_append, idealRun, ih]
      split <;> rfl
    | wr f a =>
      simp only [List.cons_append, idealRun, ih]
      split
      · rfl
      · split <;> rfl
    | settle ms => exact ih M
    | backup b bytes a => exact ih M

/-- Without a write frame the ideal device answers from one memory. -/
theorem idealRun_follows {M M' : List Byte} {es : List TraceEntry} (hw : writesOf es = [])
    (h : idealRun bus M (es.map (·.event)) = some M') : FollowsMemory bus M es := by
  induction es with
  | nil => exact fun _ he => nomatch he
  | cons e es ih =>
    obtain ⟨he, hes⟩ := List.forall_mem_cons.mp (List.filter_eq_nil_iff.mp hw)
    have hw : writesOf es = [] := List.filter_eq_nil_iff.mpr hes
    rw [List.map_cons] at h
    cases hev : e.event with
    | rd f a =>
      rw [hev, idealRun] at h
      split at h
      · rename_i hanswer
        refine List.forall_mem_cons.mpr ⟨fun g b hev' hbus => ?_, ih hw h⟩
        rw [hev] at hev'
        cases hev'
        exact hanswer.resolve_left (not_not.mpr hbus)
      · cases h
    | wr f a =>
      exact absurd (congrArg Event.isWrite hev) he
    | settle ms =>
      rw [hev] at h
      exact List.forall_mem_cons.mpr ⟨fun f a hev' => (nomatch hev.symm.trans hev'), ih hw h⟩
    | backup b bytes a =>
      rw [hev] at h
      exact List.forall_mem_cons.mpr ⟨fun f a hev' => (nomatch hev.symm.trans hev'), ih hw h⟩

/-- The last entries are no write frames, and a memory that has answered them holds the document in DOC. -/
def Verified (bus : BusId) (t : State) (es : List TraceEntry) : Prop :=
  ∃ pre ver, es = pre ++ ver ∧ writesOf ver = [] ∧ ∀ M, FollowsMemory bus M ver → docBytes t = memoryDocument M

/-- A failure is no success, so nothing is to be shown of it. -/
theorem bodyRuns_raise {s t : State} {e : ErrCode} {es : List TraceEntry} {R : State → List TraceEntry → Prop} (h : Emitted s t es) :
    BodyRuns s (raise e t) (fun t es => t.status.ok = true → R t es) (fun _ => True) :=
  bodyRuns_end h rfl rfl rfl rfl fun hok => nomatch hok

/-- The verification of WRDOC (R124). -/
theorem verifyWrite_verified {s w : State} {pre : List TraceEntry} (h : Emitted s w pre) :
    BodyRuns s (verifyWrite bus w) (fun t es => t.status.ok = true → Verified bus t es) (fun _ => True) := by
  have h0 : Emitted s (setWstate .readBack (setWstate .writtenAll w)) pre := h.update rfl rfl rfl rfl
  refine bodyRuns_finish (runsFrom_and (readDocument_runs h0) (readDocument_follows h0)) ?_ fun _ _ => trivial
  rintro r u es hu ⟨⟨⟨ver, rfl, hver⟩, -⟩, rs, hrs, hread⟩
  obtain rfl : rs = ver := List.append_cancel_left hrs.symm
  cases r with
  | access => exact bodyRuns_raise hu
  | size => exact bodyRuns_raise hu
  | ok =>
    simp only
    split
    · rename_i heq
      exact bodyRuns_end hu rfl rfl rfl rfl fun _ =>
        ⟨pre, rs, rfl, writesOf_doc hver, fun M hf => heq.2.symm.trans (hread M hf).2⟩
    · exact bodyRuns_raise (t := setWstate .verificationFailed u) (hu.update rfl rfl rfl rfl)

theorem writeAndVerify_verified {s w : State} {pre : List TraceEntry} (h : Emitted s w pre) (hs : w.settleDue = false) :
    BodyRuns s (writeAndVerify bus w) (fun t es => t.status.ok = true → Verified bus t es) (fun _ => True) := by
  have h0 : Emitted s { setWstate .backedUp w with pageN := w.dlen / 16 } pre := h.update rfl rfl rfl rfl
  have hpages := writePages_runs bus s (w.dlen / 16) 0 _ pre h0 hs (by show 16 * (0 + w.dlen / 16) ≤ w.dlen; omega)
  rw [← List.range_eq_range'] at hpages
  refine bodyRuns_finish hpages ?_ fun _ _ => trivial
  rintro r v es hv -
  cases r with
  | ioErr code => exact bodyRuns_raise hv
  | ok => exact verifyWrite_verified hv

/-- WRDOC that ends in success has verified what it has written (R124). -/
theorem wrdocBody_verified (s : State) :
    BodyRuns s (wrdocBody bus s) (fun t es => t.status.ok = true → Verified bus t es) (fun _ => True) := by
  have h0 : Emitted s (clearWrite s) [] := (Emitted.refl s).update rfl rfl rfl rfl
  by_cases hl : s.dlen = 0 ∨ s.dlen % Config.BLOCK_SIZE ≠ 0
  · rw [show wrdocBody bus s = _ from if_pos hl]
    exact bodyRuns_raise h0
  rw [show wrdocBody bus s = _ from if_neg hl]
  refine bodyRuns_finish (readDocument_runs h0) ?_ fun _ _ => trivial
  rintro r u es hu ⟨-, hframe, -, -⟩
  cases r with
  | access => exact bodyRuns_raise hu
  | size => exact bodyRuns_raise hu
  | ok =>
    refine bodyRuns_finish (P := fun _ v _ => v.settleDue = false) (Q := fun _ => True)
      (hostBackup_runs hu trivial fun a v hv _ _ _ => by rw [hv, hframe]) ?_ fun _ _ => trivial
    rintro a v es' hv hidle
    cases a with
    | fail => exact bodyRuns_raise hv
    | ok id => exact writeAndVerify_verified hv hidle

/-- CMPDOC on a memory that holds the document in DOC finds no difference (R127). -/
theorem cmpdocBody_same (s : State) :
    BodyRuns s (cmpdocBody bus s)
      (fun t es => writesOf es = [] ∧ ∀ M, FollowsMemory bus M es → docBytes s = memoryDocument M →
        EndsIn t true false .none .isMatch ∧ t.diffn = 0)
      (fun _ => True) := by
  have h0 : Emitted s { s with diff := [] } [] := (Emitted.refl s).update rfl rfl rfl rfl
  refine bodyRuns_finish (runsFrom_and (readDocument_runs h0) (readDocument_follows h0)) ?_ fun _ _ => trivial
  rintro r u es hu ⟨⟨⟨_, rfl, hcs⟩, hframe, -, -⟩, _, rfl, hread⟩
  have hw := writesOf_doc hcs
  cases r with
  | access => exact bodyRuns_end hu rfl rfl rfl rfl ⟨hw, fun M hf => nomatch (hread M hf).1⟩
  | size => exact bodyRuns_end hu rfl rfl rfl rfl ⟨hw, fun M hf => nomatch (hread M hf).1⟩
  | ok =>
    show BodyRuns s (endCompare u) _ _
    obtain ⟨ok, m, ds, hend, -, -, hsame, -⟩ := endCompare_compared (u := u) (by rw [hframe])
    have hdoc : docBytes u = docBytes s := by
      rw [hframe]
      rfl
    rw [hend]
    refine bodyRuns_end hu rfl rfl rfl rfl ⟨hw, fun M hf hM => ?_⟩
    obtain ⟨rfl, rfl, rfl⟩ := hsame (by rw [(hread M hf).2, hdoc, hM])
    exact ⟨⟨rfl, rfl, rfl⟩, rfl⟩

end Ideal

/-- Settles O52: between the verification of WRDOC and the read of CMPDOC nothing is written, so both have read one document. -/
theorem roundTripOnTheIdealDevice : Obligations.RoundTripOnTheIdealDevice := by
  intro bus s t u es M M' hs hwrite hok hcmp hevents hrun
  have ht := exec_command rfl hwrite
  have hu := exec_command rfl hcmp
  obtain ⟨ws, hwem, hver⟩ := bodyRuns_unreset (wrdocBody_verified (bus := bus) (startCommand s)) hs.2
  have htr : t.resetIn = none := by
    rw [ht]
    exact hwem.undue hs.2
  obtain ⟨cs, hcem, hcw, hsame⟩ := bodyRuns_unreset (cmpdocBody_same (bus := bus) (startCommand t)) htr
  obtain ⟨pre, ver, rfl, hvw, hdoc⟩ := hver (by rw [ht] at hok; exact hok)
  have htrace : u.trace = s.trace ++ (pre ++ (ver ++ cs)) := by
    have htt : t.trace = s.trace ++ (pre ++ ver) := by
      rw [ht]
      exact hwem.trace
    have hut : u.trace = t.trace ++ cs := by
      rw [hu]
      exact hcem.trace
    rw [hut, htt]
    simp only [List.append_assoc]
  rw [events_of_trace hevents htrace, List.map_append, idealRun_append] at hrun
  obtain ⟨M1, -, hrun⟩ := Option.bind_eq_some_iff.mp hrun
  have hfollows := idealRun_follows (by rw [writesOf_append, hvw, hcw]; rfl) hrun
  have hdoct : docBytes (startCommand t) = memoryDocument M1 := by
    rw [← hdoc M1 hfollows.left, ht]
    rfl
  rw [hu]
  exact hsame M1 hfollows.right hdoct

end Sys2Proof.Proofs
end

section
/-! SUPPORT. The document fields outside the block proper: the manufacturer ID, the sizes of a detailed timing and the CEA-861 walk
(44_document_fields.md R142, R151, R154). -/

namespace Sys2Proof.Proofs

open Sys2Proof Sys2Proof.Machine

/-! ### The manufacturer ID -/

/-- A list of groups has letters exactly when each group is 1 to 26. -/
theorem mapM_groupLetter (gs : List (BitVec 5)) :
    gs.mapM groupLetter =
      if ∀ g ∈ gs.map BitVec.toNat, 1 ≤ g ∧ g ≤ 26 then some ((gs.map BitVec.toNat).map fun g => Char.ofNat (64 + g)) else none := by
  induction gs with
  | nil => rfl
  | cons g gs ih =>
    simp only [List.mapM_cons, ih, groupLetter, List.map_cons, List.forall_mem_cons]
    by_cases hg : 1 ≤ g.toNat ∧ g.toNat ≤ 26
    · by_cases hgs : ∀ n ∈ gs.map BitVec.toNat, 1 ≤ n ∧ n ≤ 26
      · rw [if_pos hg, if_pos hgs, if_pos ⟨hg, hgs⟩]
        rfl
      · rw [if_pos hg, if_neg hgs, if_neg (mt And.right hgs)]
        rfl
    · rw [if_neg hg, if_neg (mt And.left hg)]
      rfl

/-- The manufacturer word is big-endian (R142). -/
theorem toNat_manufacturerWord (B : List Byte) :
    (manufacturerWord B).toNat = (byteAt B 8).toNat * 256 + (byteAt B 9).toNat := by
  rw [manufacturerWord, BitVec.toNat_append, ← Nat.shiftLeft_add_eq_or_of_lt (byteAt B 9).isLt, Nat.shiftLeft_eq]

/-- The letters of the groups that the low 15 bits of the word are made of (R142). -/
theorem manufacturerId_of_groups {B : List Byte} {g1 g2 g3 : Nat} (h2 : g2 < 32) (h3 : g3 < 32)
    (h : ((byteAt B 8).toNat * 256 + (byteAt B 9).toNat) % 32768 = 1024 * g1 + 32 * g2 + g3) :
    manufacturerId B =
      if ∀ g ∈ [g1, g2, g3], 1 ≤ g ∧ g ≤ 26 then some ([g1, g2, g3].map fun g => Char.ofNat (64 + g)) else none := by
  have hgroups : [(manufacturerWord B).extractLsb' 10 5, (manufacturerWord B).extractLsb' 5 5,
      (manufacturerWord B).extractLsb' 0 5].map BitVec.toNat = [g1, g2, g3] := by
    rw [← toNat_manufacturerWord] at h
    simp only [List.map_cons, List.map_nil, BitVec.extractLsb'_toNat, Nat.shiftRight_eq_div_pow, List.cons.injEq, and_true]
    omega
  rw [manufacturerId, mapM_groupLetter, hgroups]

/-- Settles O57: the bytes `4C 2D` are the groups 19, 1 and 13. -/
theorem manufacturerOfTheExample : Obligations.ManufacturerOfTheExample := by
  refine ⟨fun B h8 h9 => ?_, fun B g1 g2 g3 _ h2 h3 h => manufacturerId_of_groups h2 h3 h⟩
  have hword : ((byteAt B 8).toNat * 256 + (byteAt B 9).toNat) % 32768 = 1024 * 19 + 32 * 1 + 13 := by
    rw [h8, h9]
    rfl
  rw [manufacturerId_of_groups (by decide) (by decide) hword]
  rfl

/-! ### The sizes of a detailed timing -/

/-- The upper half of a byte, kept in place. -/
theorem toNat_and_highNibble (b : Byte) : (b &&& 0xF0).toNat = 16 * (b.toNat / 16) := by
  show (b &&& BitVec.allOnes 8 <<< 4).toNat = _
  rw [← BitVec.shiftLeft_ushiftRight, BitVec.toNat_shiftLeft, BitVec.toNat_ushiftRight, Nat.shiftLeft_eq, Nat.shiftRight_eq_div_pow]
  omega

/-- The lower half of a byte. -/
theorem toNat_and_lowNibble (b : Byte) : (b &&& 0x0F).toNat = b.toNat % 16 :=
  Nat.and_two_pow_sub_one_eq_mod b.toNat 4

/-- The upper half of the shared byte, shifted by 4 in place, stands above the low byte (R151). -/
theorem activeSize_eq (low shared : Byte) : activeSize low shared = low.toNat + 256 * (shared.toNat / 16) := by
  rw [activeSize, toNat_and_highNibble, Nat.shiftLeft_eq]
  omega

/-- The lower half of the shared byte, shifted by 8, stands above the low byte (R151). -/
theorem blankSize_eq (low shared : Byte) : blankSize low shared = low.toNat + 256 * (shared.toNat % 16) := by
  rw [blankSize, toNat_and_lowNibble, Nat.shiftLeft_eq]
  omega

/-- Settles O58: a size is a low byte and one half of the shared byte above it. -/
theorem timingSizesAreTwelveBits : Obligations.TimingSizesAreTwelveBits := by
  intro low shared
  refine ⟨activeSize_eq low shared, blankSize_eq low shared, ?_, ?_⟩
  · rw [activeSize_eq]
    omega
  · rw [blankSize_eq]
    omega

/-! ### The CEA-861 walk -/

section Walk
variable (p : Config.FieldParams) (X : List Byte)

/-- The position behind the data block whose header byte is at `pos` (R154). -/
def nextBlock (pos : Nat) : Nat := pos + 1 + blockLength p (byteAt X pos)

variable {p X} {d pos : Nat}

/-- A data block that ends at the boundary or before it is reported, and the walk goes on behind it. -/
theorem walkFrom_report (fuel : Nat) (h : nextBlock p X pos ≤ d) :
    walkFrom p X d (fuel + 1) pos = reportOf p (byteAt X pos) :: walkFrom p X d fuel (nextBlock p X pos) := by
  have hpos : pos < d := by
    unfold nextBlock at h
    omega
  rw [walkFrom, if_pos hpos]
  exact if_neg (Nat.not_lt.mpr h)

/-- The walk stops before a data block that would exceed the boundary; one that starts at the boundary would. -/
theorem walkFrom_stop (fuel : Nat) (h : d < nextBlock p X pos) : walkFrom p X d fuel pos = [] := by
  cases fuel with
  | zero => rfl
  | succ fuel =>
    rw [walkFrom]
    split
    · exact if_pos h
    · rfl

/-- The entry at index `j` is the report of the header byte at the `j`-th position, whose data block does not exceed the boundary. -/
theorem walkFrom_entry {fuel j : Nat} (hj : j < (walkFrom p X d fuel pos).length) :
    nextBlock p X ((nextBlock p X)^[j] pos) ≤ d ∧
      (walkFrom p X d fuel pos)[j]? = some (reportOf p (byteAt X ((nextBlock p X)^[j] pos))) := by
  induction fuel generalizing pos j with
  | zero => exact absurd hj (Nat.not_lt_zero j)
  | succ fuel ih =>
    by_cases h : nextBlock p X pos ≤ d
    · rw [walkFrom_report fuel h] at hj ⊢
      cases j with
      | zero => exact ⟨h, rfl⟩
      | succ j => exact ih (Nat.lt_of_succ_lt_succ hj)
    · rw [walkFrom_stop (fuel + 1) (Nat.lt_of_not_le h)] at hj
      exact absurd hj (Nat.not_lt_zero j)

/-- With fuel for every byte before the boundary, the data block behind the last entry would exceed the boundary. -/
theorem walkFrom_exhausts {fuel : Nat} (hfuel : d ≤ pos + fuel) :
    d < nextBlock p X ((nextBlock p X)^[(walkFrom p X d fuel pos).length] pos) := by
  induction fuel generalizing pos with
  | zero =>
    show d < pos + 1 + _
    omega
  | succ fuel ih =>
    by_cases h : nextBlock p X pos ≤ d
    · rw [walkFrom_report fuel h]
      refine ih ?_
      unfold nextBlock
      omega
    · rw [walkFrom_stop (fuel + 1) (Nat.lt_of_not_le h)]
      exact Nat.lt_of_not_le h

end Walk

/-- The length is bits 4:0 of the header byte, with the positions of R141. -/
theorem blockLength_fieldParams (h : Byte) : blockLength Config.fieldParams h = h.toNat % 32 := by
  rw [blockLength, BitVec.extractLsb'_toNat]
  rfl

/-- The class is that of bits 7:5 of the header byte, with the positions of R141. -/
theorem reportOf_fieldParams (h : Byte) :
    reportOf Config.fieldParams h = (dataBlockClass (h.toNat / 32), h.toNat % 32) := by
  have htag : (h.extractLsb' 5 3).toNat = h.toNat / 32 := by
    rw [BitVec.extractLsb'_toNat, Nat.shiftRight_eq_div_pow]
    omega
  rw [reportOf, blockLength_fieldParams]
  exact congrArg (fun tag => (dataBlockClass tag, h.toNat % 32)) htag

theorem nextBlock_fieldParams (X : List Byte) (pos : Nat) :
    nextBlock Config.fieldParams X pos = pos + 1 + (byteAt X pos).toNat % 32 := by
  rw [nextBlock, blockLength_fieldParams]

/-- Settles O59: the positions are the iterates of `nextBlock` from byte 4, and the 128 bytes of a block are fuel enough. -/
theorem dataBlocksStayBeforeTheBoundary : Obligations.DataBlocksStayBeforeTheBoundary := by
  rintro X d rfl
  refine ⟨fun hd => if_neg ?_, fun h4 h127 => ⟨_, fun j => (nextBlock Config.fieldParams X)^[j] 4, if_pos ⟨h4, h127⟩, rfl,
    fun j hj => ?_, Or.inr ?_⟩⟩
  · show ¬(4 ≤ (byteAt X 2).toNat ∧ (byteAt X 2).toNat ≤ 127)
    omega
  · obtain ⟨hle, hentry⟩ := walkFrom_entry hj
    have hnext := nextBlock_fieldParams X ((nextBlock Config.fieldParams X)^[j] 4)
    rw [reportOf_fieldParams] at hentry
    simp only [Function.iterate_succ_apply']
    exact ⟨by rw [ceaBoundary] at hle; omega, hnext, hle, hentry⟩
  · rw [← nextBlock_fieldParams]
    refine walkFrom_exhausts ?_
    show ceaBoundary X ≤ 4 + 128
    rw [ceaBoundary]
    omega

end Sys2Proof.Proofs
end

section
/-! SUPPORT. No write frame without a backup before it in the same command (43_device_channel.md R124, R126; 60_exceptions.md R177). -/

namespace Sys2Proof.Proofs

open Sys2Proof Sys2Proof.Machine Sys2Proof.Laws

/-- Before each write frame among the entries stands a backup that the host has taken. -/
def BackupFirst (es : List TraceEntry) : Prop :=
  ∀ before w after, es.map (·.event) = before ++ w :: after → w.isWrite = true →
    ∃ id, ∃ e ∈ before, e.isBackup id = true

section Backups
variable {bus : BusId} {s t : State} {es es' : List TraceEntry}

theorem backupFirst_nil : BackupFirst [] := fun _ _ _ h => absurd h (by simp)

/-- A backup that is taken serves every write frame behind it. -/
theorem backupFirst_taken {u : State} {bytes : List Byte} {id : BackupId} :
    BackupFirst (entryAt u (.backup bus bytes (.ok id)) :: es) := by
  intro before w after h hw
  cases before with
  | nil =>
    obtain ⟨rfl, -⟩ := List.cons.inj h
    cases hw
  | cons e before =>
    obtain ⟨rfl, -⟩ := List.cons.inj h
    exact ⟨id, _, List.mem_cons_self, beq_self_eq_true id⟩

theorem backupFirst_cons {e : TraceEntry} (he : e.event.isWrite = false) (h : BackupFirst es) : BackupFirst (e :: es) := by
  intro before w after heq hw
  cases before with
  | nil =>
    obtain ⟨rfl, -⟩ := List.cons.inj heq
    exact absurd (he.symm.trans hw) Bool.false_ne_true
  | cons f before =>
    obtain ⟨-, heq⟩ := List.cons.inj heq
    obtain ⟨id, x, hx, hid⟩ := h before w after heq hw
    exact ⟨id, x, List.mem_cons_of_mem f hx, hid⟩

/-- Entries without a write frame need no backup. -/
theorem backupFirst_append (h : writesOf es = []) (h' : BackupFirst es') : BackupFirst (es ++ es') := by
  induction es with
  | nil => exact h'
  | cons e es ih =>
    obtain ⟨he, hes⟩ := List.forall_mem_cons.mp (List.filter_eq_nil_iff.mp h)
    exact backupFirst_cons (Bool.eq_false_iff.mpr he) (ih (List.filter_eq_nil_iff.mpr hes))

theorem backupFirst_noWrite (h : writesOf es = []) : BackupFirst es := by
  have := backupFirst_append h backupFirst_nil
  rwa [List.append_nil] at this

/-- A backup request, with something behind it only when the host has taken it (R124, R126). -/
theorem backupFirst_backup {u : State} {bytes : List Byte} {a : BackupAnswer} (h : es = [] ∨ ∃ id, a = .ok id) :
    BackupFirst (entryAt u (.backup bus bytes a) :: es) := by
  obtain rfl | ⟨id, rfl⟩ := h
  · exact backupFirst_cons rfl backupFirst_nil
  · exact backupFirst_taken

/-- WRDOC writes its pages behind the backup (R124). -/
theorem backupFirst_write (h : WriteEvents bus s es) : BackupFirst es := by
  obtain ⟨cs, tail, rfl, hc, htail⟩ := h
  refine backupFirst_append (writesOf_doc hc) ?_
  rcases htail with rfl | ⟨bytes, a, more, rfl, -, hmore⟩
  · exact backupFirst_nil
  · exact backupFirst_backup (hmore.imp_right (·.1))

/-- TSTWR probes behind the backup (R126). -/
theorem backupFirst_test (h : TestEvents bus s es) : BackupFirst es := by
  obtain ⟨cs, tail, rfl, hc, htail⟩ := h
  refine backupFirst_append (writesOf_doc hc) ?_
  rcases htail with rfl | ⟨bytes, a, more, rfl, -, hmore⟩
  · exact backupFirst_nil
  · exact backupFirst_backup (hmore.imp_right (·.1))

/-- DISCOVER emits settle delays and read frames only (R122). -/
theorem event_of_discover (h : DiscoverEvents s es) {e : TraceEntry} (he : e ∈ es) :
    e.event = .settle 10 ∨ ∃ f a, e.event = .rd f a := by
  obtain rfl | ⟨as, -, rfl⟩ := h
  · cases he
  rcases List.mem_append.mp he with he | he
  · rcases heldEntries_cases s with hh | ⟨-, hh⟩ <;> rw [hh] at he
    · cases he
    · exact .inl (by rw [List.mem_singleton.mp he]; rfl)
  · rw [← List.map_uncurry_zip_eq_zipWith] at he
    obtain ⟨p, -, rfl⟩ := List.mem_map.mp he
    exact .inr ⟨_, p.2, rfl⟩

theorem writesOf_discover (h : DiscoverEvents s es) : writesOf es = [] := by
  refine List.filter_eq_nil_iff.mpr fun e he => ?_
  rcases event_of_discover h he with hev | ⟨f, a, hev⟩ <;> rw [hev] <;> exact Bool.false_ne_true

theorem keepsBackup_discover (h : DiscoverEvents s es) : KeepsBackup t es := by
  intro e he b bytes id hb
  rcases event_of_discover h he with hev | ⟨f, a, hev⟩ <;> rw [hev] at hb <;> cases hb

/-- The backup that is taken among the entries is the one in BKID (R177). -/
theorem bkid_of_isBackup (h : KeepsBackup t es) {e : Event} {id : BackupId} (he : e ∈ es.map (·.event))
    (hid : e.isBackup id = true) : t.bkid = id ∧ t.bkvalid = true := by
  obtain ⟨x, hx, rfl⟩ := List.mem_map.mp he
  cases hev : x.event with
  | backup b bytes a =>
    rw [hev] at hid
    cases a with
    | ok i =>
      obtain rfl : i = id := eq_of_beq hid
      exact h x hx b bytes i hev
    | fail => cases hid
  | _ => rw [hev] at hid; cases hid

end Backups

/-! ### Every command -/

/-- A body that started at `s` writes behind a backup only, and when it comes to its end the backup it took is the one in BKID. -/
def BodyBacksUp (s t : State) : Prop :=
  BodyRuns s t (fun t es => BackupFirst es ∧ KeepsBackup t es) BackupFirst

theorem bodyBacksUp_silent {s t : State} (h : BodyRuns s t (fun _ es => es = []) (fun es => es = [])) : BodyBacksUp s t := by
  refine bodyRuns_mono h ?_ ?_
  · rintro es rfl
    exact ⟨backupFirst_nil, fun e he => (nomatch he)⟩
  · rintro es rfl
    exact backupFirst_nil

/-- A body that reads the document of a device and does nothing else on the bus. -/
theorem bodyBacksUp_read {bus : BusId} {s t : State} {P : State → List TraceEntry → Prop}
    (h : BodyRuns s t P (ThenDoc bus s [])) (hP : ∀ es, P t es → ThenDoc bus s [] es) : BodyBacksUp s t := by
  have hfirst : ∀ es, ThenDoc bus s [] es → BackupFirst es := fun es he =>
    backupFirst_noWrite (writesOf_doc (docReads_of_thenDoc he))
  exact bodyRuns_mono h (fun es hp => ⟨hfirst es (hP es hp), keepsBackup_doc (docReads_of_thenDoc (hP es hp))⟩) hfirst

theorem discoverBody_backsUp (s : State) : BodyBacksUp s (discoverBody s) := by
  have hfirst : ∀ es, DiscoverEvents s es → BackupFirst es := fun es he => backupFirst_noWrite (writesOf_discover he)
  exact bodyRuns_mono (discoverBody_runs s) (fun es h => ⟨hfirst es h.1, keepsBackup_discover h.1⟩) hfirst

theorem commandBody_backsUp {i : Instr} (hi : isCommand i = true) (s : State) : BodyBacksUp s (commandBody i s) := by
  cases i with
  | vcsum blk bsel => exact bodyBacksUp_silent (vcsumBody_validated blk bsel s).silent
  | rcsum blk bsel => exact bodyBacksUp_silent (rcsumBody_silent blk bsel s)
  | vstruct bsel => exact bodyBacksUp_silent (vstructBody_validated bsel s).silent
  | fsafe bsel => exact bodyBacksUp_silent (fsafeBody_validated bsel s).silent
  | discover => exact discoverBody_backsUp s
  | rddoc bus => exact bodyBacksUp_read (rddocBody_runs bus s) fun _ h => h.1
  | wrdoc bus =>
    exact bodyRuns_mono (wrdocBody_runs bus s) (fun _ h => ⟨backupFirst_write h.events, h.backup⟩) fun _ => backupFirst_write
  | tstwr bus =>
    exact bodyRuns_mono (tstwrBody_runs bus s) (fun _ h => ⟨backupFirst_test h.events, h.backup⟩) fun _ => backupFirst_test
  | cmpdoc bus => exact bodyBacksUp_read (cmpdocBody_runs bus s) fun _ h => h.1
  | fRd bus reg n => cases hi
  | fWr bus reg data => cases hi

/-- Settles O50: the backup stands first by the events of each body; BKID holds it at the body's end, and forgetting the staging
buffers leaves it there. -/
theorem noWriteWithoutABackup : Obligations.NoWriteWithoutABackup := by
  intro i s t hi h
  have hbody := commandBody_backsUp hi (startCommand s)
  rw [exec_command hi h]
  generalize commandBody i (startCommand s) = u at hbody
  obtain ⟨es, ⟨hem, hfirst, hkeeps⟩ | ⟨hab, hfirst⟩⟩ := hbody
  · refine ⟨es, hem.trace, fun before w after hes hw => ?_⟩
    obtain ⟨id, e, he, hid⟩ := hfirst before w after hes hw
    have hmem : e ∈ es.map (·.event) := by rw [hes]; exact List.mem_append_left _ he
    exact ⟨id, ⟨e, he, hid⟩, fun _ => bkid_of_isBackup hkeeps hmem hid⟩
  · obtain ⟨v, rfl, htrace, -⟩ := hab.struck
    have hdue : s.resetIn = some es.length := hab.due
    refine ⟨es, htrace, fun before w after hes hw => ?_⟩
    obtain ⟨id, hid⟩ := hfirst before w after hes hw
    exact ⟨id, hid, fun hr => by rw [hr] at hdue; cases hdue⟩

end Sys2Proof.Proofs
end

section
/-! SUPPORT. How every command ends: one of the outcomes that the table gives it (10_state.md R14; 60_exceptions.md R171, R192). -/

namespace Sys2Proof.Proofs

open Sys2Proof Sys2Proof.Machine Sys2Proof.Laws

/-- `t` is at the end of a command, with one of the outcomes the table gives `i` (R171). -/
def EndsInTable (i : Instr) (t : State) : Prop :=
  ∃ ok fail err msg, (ok, fail, err, msg) ∈ outcomes i ∧ EndsIn t ok fail err msg

theorem endsInTable {i : Instr} {t : State} {ok fail : Bool} {err : ErrCode} {msg : Msg} (h : EndsIn t ok fail err msg)
    (hm : (ok, fail, err, msg) ∈ outcomes i) : EndsInTable i t := ⟨ok, fail, err, msg, hm, h⟩

/-- No row of the table has both OK and FAIL (R14). -/
theorem outcomes_okNotFail {i : Instr} {ok fail : Bool} {err : ErrCode} {msg : Msg} (h : (ok, fail, err, msg) ∈ outcomes i) :
    ¬ (ok = true ∧ fail = true) := by
  rintro ⟨rfl, rfl⟩
  cases i <;> simp [outcomes] at h

/-! ### The Validator commands -/

/-- An ordinary result ends as it says. -/
theorem endsInTable_result {i : Instr} {s : State} {ok : Bool} {err : ErrCode} {msg : Msg} (h : (ok, false, err, msg) ∈ outcomes i) :
    EndsInTable i (result ok err msg s) := endsInTable ⟨rfl, rfl, rfl⟩ h

theorem vcsumBody_ends (blk : Byte) (bsel : BufSel) (s : State) : EndsInTable (.vcsum blk bsel) (vcsumBody blk bsel s) := by
  unfold vcsumBody
  simp only
  split
  · exact endsInTable_result (by simp [outcomes])
  · cases (accumulate (block (selected bsel s) blk.toNat) s).acc == 0 <;> exact endsInTable_result (by simp [outcomes])

theorem rcsumBody_ends (blk : Byte) (bsel : BufSel) {s : State} (hm : s.msg = .none) :
    EndsInTable (.rcsum blk bsel) (rcsumBody blk bsel s) := by
  rcases rcsumBody_cases blk bsel s with h | ⟨-, S, c, v, h⟩ <;> rw [h]
  · exact endsInTable ⟨rfl, rfl, hm⟩ (by simp [outcomes])
  · exact endsInTable_result (by simp [outcomes])

/-- Five checks, five results (R93). -/
theorem vstructBody_ends (bsel : BufSel) (s : State) : EndsInTable (.vstruct bsel) (vstructBody bsel s) := by
  unfold vstructBody
  simp only
  split
  · exact endsInTable_result (by simp [outcomes])
  split
  · exact endsInTable_result (by simp [outcomes])
  split
  · exact endsInTable_result (by simp [outcomes])
  split
  · exact endsInTable_result (by simp [outcomes])
  · exact endsInTable_result (by simp [outcomes])

theorem fsafeBody_ends (bsel : BufSel) (s : State) : EndsInTable (.fsafe bsel) (fsafeBody bsel s) := by
  unfold fsafeBody
  split <;> exact endsInTable_result (by simp [outcomes])

/-! ### The Device Channel commands -/

section Unreset
variable {s : State} (hr : s.resetIn = none) (hm : s.msg = .none)
include hr

theorem discoverBody_ends : EndsInTable .discover (discoverBody s) := by
  obtain ⟨es, -, -, -, hend⟩ := bodyRuns_unreset (discoverBody_runs s) hr
  exact endsInTable hend (by simp [outcomes])

include hm

theorem rddocBody_ends (bus : BusId) : EndsInTable (.rddoc bus) (rddocBody bus s) := by
  obtain ⟨es, -, -, -, -, -, ⟨hend, -⟩ | ⟨hend | hend, -⟩⟩ := bodyRuns_unreset (rddocBody_runs bus s) hr <;>
    exact endsInTable hend (by simp [outcomes, hm])

theorem wrdocBody_ends (bus : BusId) : EndsInTable (.wrdoc bus) (wrdocBody bus s) := by
  obtain ⟨es, -, hpost⟩ := bodyRuns_unreset (wrdocBody_runs bus s) hr
  obtain ⟨⟨hend, -⟩ | hend | hend | hend | ⟨hend, -⟩, -⟩ := hpost.ends <;> exact endsInTable hend (by simp [outcomes, hm])

theorem tstwrBody_ends (bus : BusId) : EndsInTable (.tstwr bus) (tstwrBody bus s) := by
  obtain ⟨es, -, hpost⟩ := bodyRuns_unreset (tstwrBody_runs bus s) hr
  obtain ⟨hend | hend | hend, -⟩ | ⟨hend | hend | hend | hend, -⟩ := hpost.ends <;>
    exact endsInTable hend (by simp [outcomes, hm])

theorem cmpdocBody_ends (bus : BusId) : EndsInTable (.cmpdoc bus) (cmpdocBody bus s) := by
  obtain ⟨es, -, -, -, -, -, -, ⟨hend | hend | hend, -⟩ | ⟨hend | hend, -⟩⟩ := bodyRuns_unreset (cmpdocBody_runs bus s) hr <;>
    exact endsInTable hend (by simp [outcomes, hm])

end Unreset

/-! ### Every command -/

/-- The start clears have set MSG to 0, and a failure other than that of TSTWR's restoration leaves it so (R30, R175). -/
theorem commandBody_ends {i : Instr} (hi : isCommand i = true) {s : State} (hr : s.resetIn = none) (hm : s.msg = .none) :
    EndsInTable i (commandBody i s) := by
  cases i with
  | vcsum blk bsel => exact vcsumBody_ends blk bsel s
  | rcsum blk bsel => exact rcsumBody_ends blk bsel hm
  | vstruct bsel => exact vstructBody_ends bsel s
  | fsafe bsel => exact fsafeBody_ends bsel s
  | discover => exact discoverBody_ends hr
  | rddoc bus => exact rddocBody_ends hr hm bus
  | wrdoc bus => exact wrdocBody_ends hr hm bus
  | tstwr bus => exact tstwrBody_ends hr hm bus
  | cmpdoc bus => exact cmpdocBody_ends hr hm bus
  | fRd bus reg n => cases hi
  | fWr bus reg data => cases hi

/-- Settles O47: the end of each body, which forgetting the staging buffers leaves alone. -/
theorem everyCommandEndsAsTheTableSays : Obligations.EveryCommandEndsAsTheTableSays := by
  intro i s t hi hr h
  obtain ⟨ok, fail, err, msg, hrow, hstatus, herr, hmsg⟩ := commandBody_ends hi (s := startCommand s) hr rfl
  rw [exec_command hi h]
  rw [forgetStaging_status, forgetStaging_err, forgetStaging_msg, hstatus, herr, hmsg]
  exact ⟨rfl, rfl, hrow, outcomes_okNotFail hrow⟩

end Sys2Proof.Proofs
end

section
/-! SUPPORT. The host's next move as a step: its liberties under a running command, and a word that encodes none (10_state.md R13, R30;
30_encoding.md R63; 60_exceptions.md R183, R191). -/

namespace Sys2Proof.Proofs

open Sys2Proof Sys2Proof.Machine Sys2Proof.Laws

/-- With no frame handed over, the host's next move is the step unless a latched command has waited for it. -/
theorem step_hostMove {s : State} {a : HostAction} {rest : List HostAction} (hf : s.frameReq = none) (hh : s.hostIn = a :: rest)
    (ha : s.cmd = none ∨ a ≠ .await) : step s = hostAct a { s with hostIn := rest } := by
  cases hc : s.cmd with
  | none => simp [step, runNext, hf, hh, hc]
  | some w =>
    have hne : a ≠ .await := ha.resolve_left (by simp [hc])
    cases a with
    | await => exact absurd rfl hne
    | _ => simp [step, runNext, hf, hh, hc]

/-- Settles O7: the host's next move, or with no move to come the idle step. -/
theorem stepTakesTheHostsMove : Obligations.StepTakesTheHostsMove := by
  intro s a rest hf
  refine ⟨fun hh ha => step_hostMove hf hh ha, fun hh hc => ?_⟩
  simp [step, runNext, hf, hh, hc]

/-- Settles O9: while BUSY = 1 a write of CMD is ignored, and a read changes nothing at any time. -/
theorem hostLibertiesDoNotDisturbACommand : Obligations.HostLibertiesDoNotDisturbACommand := by
  intro s w a rest hf _ hb hh ha
  obtain ⟨v, rfl⟩ | ⟨r, rfl⟩ := ha
  · rw [step_hostMove hf hh (.inr nofun), hostAct, acceptCmd_busy (s := { s with hostIn := rest }) hb]
  · rw [step_hostMove hf hh (.inr nofun), hostAct]

/-- Settles O10: a word that selects no row decodes to nothing, so the write ends as IllegalCommand after the start clears. -/
theorem illegalWordRaisesIllegalCommand : Obligations.IllegalWordRaisesIllegalCommand := by
  intro s w rest hf hb hh hrow
  obtain ⟨e, hd⟩ := decode_of_no_row hrow
  refine ⟨rfl, ?_⟩
  rw [step_hostMove hf hh (.inr nofun), hostAct, acceptCmd_of_error (s := { s with hostIn := rest }) hb hd]
  rfl

end Sys2Proof.Proofs
end

section
/-! SUPPORT. Reset, and a platform without a bus interface (70_reset_and_hazards.md R200, R201, R203): the values a reset leaves, how a
command stands to a reset on its way, and what is refused without the interface. -/

namespace Sys2Proof.Proofs

open Sys2Proof Sys2Proof.Machine Sys2Proof.Laws

/-! ### The values after a reset -/

/-- What a reset leaves has the values of the table, whatever the platform, the inputs and the recorders (R29, R182). -/
theorem FromReset.atResetValues {k : Nat} {t : State} (h : FromReset k t) : AtResetValues t := by
  rw [h]
  exact ⟨rfl, rfl, rfl, rfl, rfl, rfl, rfl, rfl, rfl, rfl, rfl, rfl, rfl, rfl, rfl, rfl, rfl⟩

/-- Settles O15: the reset event leaves what comes from a reset, and copies the platform, the trace and the answers over. -/
theorem resetEventFromAnyState : Obligations.ResetEventFromAnyState := fun s =>
  ⟨resetBlock s, rfl, (fromReset_resetBlock s).atResetValues, rfl, rfl, rfl, rfl⟩

/-! ### A reset under a running command -/

/-- A body that started at `s` has come to DONE at `t`, or reset has struck under it. -/
def DoneOrStruck (s t : State) : Prop := BodyRuns s t (fun t _ => t.status.done = true) fun _ => True

theorem done_of_endsIn {t : State} {ok fail : Bool} {err : ErrCode} {msg : Msg} (h : EndsIn t ok fail err msg) :
    t.status.done = true := by rw [h.1]

theorem doneOrStruck_of_runs {s t : State} {P : State → List TraceEntry → Prop} {Q : List TraceEntry → Prop} (h : BodyRuns s t P Q)
    (hP : ∀ es, P t es → t.status.done = true) : DoneOrStruck s t := bodyRuns_mono h hP fun _ _ => trivial

theorem Validated.doneOrStruck {s t : State} (h : Validated s t) : DoneOrStruck s t := by
  obtain ⟨ok, e, hend, -⟩ := h.ends
  exact doneOrStruck_of_runs h.silent fun _ _ => done_of_endsIn hend

theorem rcsumBody_doneOrStruck (blk : Byte) (bsel : BufSel) (s : State) : DoneOrStruck s (rcsumBody blk bsel s) := by
  refine doneOrStruck_of_runs (rcsumBody_silent blk bsel s) fun _ _ => ?_
  rcases rcsumBody_cases blk bsel s with h | ⟨-, S, c, v, h⟩ <;> rw [h] <;> rfl

theorem rddocBody_doneOrStruck (bus : BusId) (s : State) : DoneOrStruck s (rddocBody bus s) := by
  refine doneOrStruck_of_runs (rddocBody_runs bus s) ?_
  rintro _ ⟨-, -, -, -, ⟨hend, -⟩ | ⟨hend | hend, -⟩⟩ <;> exact done_of_endsIn hend

theorem wrdocBody_doneOrStruck (bus : BusId) (s : State) : DoneOrStruck s (wrdocBody bus s) := by
  refine doneOrStruck_of_runs (wrdocBody_runs bus s) fun _ hpost => ?_
  obtain ⟨⟨hend, -⟩ | hend | hend | hend | ⟨hend, -⟩, -⟩ := hpost.ends <;> exact done_of_endsIn hend

theorem tstwrBody_doneOrStruck (bus : BusId) (s : State) : DoneOrStruck s (tstwrBody bus s) := by
  refine doneOrStruck_of_runs (tstwrBody_runs bus s) fun _ hpost => ?_
  obtain ⟨hend | hend | hend, -⟩ | ⟨hend | hend | hend | hend, -⟩ := hpost.ends <;> exact done_of_endsIn hend

theorem cmpdocBody_doneOrStruck (bus : BusId) (s : State) : DoneOrStruck s (cmpdocBody bus s) := by
  refine doneOrStruck_of_runs (cmpdocBody_runs bus s) ?_
  rintro _ ⟨-, -, -, -, -, ⟨hend | hend | hend, -⟩ | ⟨hend | hend, -⟩⟩ <;> exact done_of_endsIn hend

/-- Every way to end sets DONE (R175, R176); reset is the one way out besides (R201). -/
theorem commandBody_doneOrStruck {i : Instr} (hi : isCommand i = true) (s : State) : DoneOrStruck s (commandBody i s) := by
  cases i with
  | vcsum blk bsel => exact (vcsumBody_validated blk bsel s).doneOrStruck
  | rcsum blk bsel => exact rcsumBody_doneOrStruck blk bsel s
  | vstruct bsel => exact (vstructBody_validated bsel s).doneOrStruck
  | fsafe bsel => exact (fsafeBody_validated bsel s).doneOrStruck
  | discover => exact doneOrStruck_of_runs (discoverBody_runs s) fun _ ⟨_, _, hend⟩ => done_of_endsIn hend
  | rddoc bus => exact rddocBody_doneOrStruck bus s
  | wrdoc bus => exact wrdocBody_doneOrStruck bus s
  | tstwr bus => exact tstwrBody_doneOrStruck bus s
  | cmpdoc bus => exact cmpdocBody_doneOrStruck bus s
  | fRd bus reg n => cases hi
  | fWr bus reg data => cases hi

/-- Settles O16: a body that comes to its end has brought the reset nearer by its events, and one that is abandoned has emitted as many
as the reset was due after; forgetting the staging buffers touches no register of the table. -/
theorem resetAbandonsARunningCommand : Obligations.ResetAbandonsARunningCommand := by
  intro i s t k hi hk h
  rw [exec_command hi h]
  obtain ⟨es, ⟨hem, hdone⟩ | ⟨hab, -⟩⟩ := commandBody_doneOrStruck hi (startCommand s)
  · obtain ⟨hle, hdue⟩ := hem.due k hk
    exact ⟨es, hem.trace, hle, .inl ⟨hdue, hdone⟩⟩
  · obtain ⟨u, hu, htrace, -⟩ := hab.struck
    have hlen : es.length = k := Option.some.inj (hab.due.symm.trans hk)
    rw [hu]
    exact ⟨es, htrace, hlen.le, .inr ⟨rfl, hlen, (fromReset_resetBlock u).atResetValues⟩⟩

/-! ### Without a bus interface -/

section NoBus
variable {s : State} (h : s.platform.hasBus = false)
include h

theorem withBus_noBus (body : State → State) : withBus body s = .refused .noBusInterface := by simp [withBus, h]

theorem execFRd_noBus (bus : BusId) (reg : Byte) (n : Nat) : execFRd bus reg n s = .refused .noBusInterface := by
  simp [execFRd, h]

theorem execFWr_noBus (bus : BusId) (reg : Byte) (data : List Byte) : execFWr bus reg data s = .refused .noBusInterface := by
  simp [execFWr, h]

end NoBus

/-- Settles O27: HAS_BUS is asked before a Device Channel command starts, and before the length of a frame is looked at. -/
theorem noBusNoDeviceChannel : Obligations.NoBusNoDeviceChannel := by
  intro bus reg n data s h i hi
  simp only [List.mem_cons, List.not_mem_nil, or_false] at hi
  rcases hi with rfl | rfl | rfl | rfl | rfl | rfl | rfl
  · exact withBus_noBus h discoverBody
  · exact withBus_noBus h (rddocBody bus)
  · exact withBus_noBus h (wrdocBody bus)
  · exact withBus_noBus h (tstwrBody bus)
  · exact withBus_noBus h (cmpdocBody bus)
  · exact execFRd_noBus h bus reg n
  · exact execFWr_noBus h bus reg data

end Sys2Proof.Proofs
end
